-- ==== Sys2Proof/Word.lean ====
section
/-! DEFINITION. The words of the block: bytes, half-words, words, addresses, channel numbers (00_scope.md R6, R5 `ADDR_BITS`, `N_DMA`). -/

namespace Sys2Proof

/-- A byte, 8 bits (R6). -/
abbrev Byte := BitVec 8

/-- A half-word, 2 bytes (R6). -/
abbrev Half := BitVec 16

/-- A word, 4 bytes (R6). -/
abbrev Word := BitVec 32

/-- A bus address: `ADDR_BITS` = 32 (R5, 20_memory.md R60). -/
abbrev Addr := BitVec 32

/-- A DMA channel number: `N_DMA` = 4 (R5, 10_state.md R24). -/
abbrev Chan := Fin 4

end Sys2Proof
end

