-- ==== Sys2Proof/Config.lean ====
section
/-! DEFINITION. The names the spec gives (region tags, cartridge types, collaborators), the one configuration record of 00_scope.md R5 with its defaults, and the free values. -/

namespace Sys2Proof

/-- What an address decodes to: a region of 20_memory.md R61, the GPIO window, or nothing (R62). -/
inductive Tag where
  | bios | wram | iwram | io | pal | vram | oam | rom | bkp | gpio | unmapped
  deriving DecidableEq, Repr, Inhabited

/-- `cart.backup_type` (10_state.md R22). -/
inductive BackupType where
  | none | eeprom | flash64 | flash128 | sram
  deriving DecidableEq, Repr, Inhabited

/-- `cart.gpio_type` (10_state.md R22). -/
inductive GpioType where
  | disabled | rtc | solarSensor | rumble | gyroSensor
  deriving DecidableEq, Repr, Inhabited

/-- A collaborator that owns I/O bytes (20_memory.md R76). -/
inductive Owner where
  | lcd | apu | tmr
  deriving DecidableEq, Repr, Inhabited

/-- An inclusive range of addresses. -/
structure Range where
  first : Addr
  last  : Addr
  deriving DecidableEq, Repr, Inhabited

/-- `first <= a <= last`. -/
def Range.has (r : Range) (a : Addr) : Bool := decide (r.first ≤ a) && decide (a ≤ r.last)

/-- Number of bytes of a range. -/
def Range.size (r : Range) : Nat := r.last.toNat - r.first.toNat + 1

/-- The parameters of 00_scope.md R5, in one record. -/
structure Config where
  /-- `ADDR_BITS`; 32, because an event word and a DMA pointer hold 32 address bits (30_encoding.md R100, 10_state.md R24) -/
  addrBits : Nat
  /-- `N_DMA`; at most the four channels of 10_state.md R24 -/
  nDma : Nat
  bios  : Range
  wram  : Range
  iwram : Range
  io    : Range
  pal   : Range
  vram  : Range
  oam   : Range
  rom   : Range
  bkp   : Range
  /-- the EEPROM serial window, inside the ROM region -/
  eep   : Range
  romMax : Nat
  gpioBase   : Addr
  gpioStride : Nat
  gpioNregs  : Nat
  /-- implemented bits per GPIO register, 1 to 8 (30_encoding.md R110 (e)) -/
  gpioWidth  : Nat
  rumblePin  : Nat
  dmaBase   : Addr
  dmaStride : Nat
  fifoAAddr : Addr
  fifoBAddr : Addr
  lcdIo : Range
  apuIo : Range
  tmrIo : Range
  openBusByte   : Byte
  dmaStartDelay : Nat
  flAddr1 : Half
  flAddr2 : Half
  flKey1  : Byte
  flKey2  : Byte
  flCmdIdEnter     : Byte
  flCmdIdExit      : Byte
  flCmdEraseSetup  : Byte
  flCmdChipErase   : Byte
  flCmdSectorErase : Byte
  flCmdProgram     : Byte
  flCmdBank        : Byte
  flSector   : Nat
  flBankSize : Nat
  fl64Man  : Byte
  fl64Dev  : Byte
  fl128Man : Byte
  fl128Dev : Byte
  eeSmall : Nat
  eeLarge : Nat
  /-- `EE_ABITS_SMALL` -/
  eeAbitsSmall : Nat
  /-- `EE_ABITS_LARGE`; at most the 14 bits of `ee.addr` (10_state.md R27) -/
  eeAbitsLarge : Nat
  eePage  : Nat
  eeDummy : Nat
  sramWindow : Nat
  sramSize   : Nat
  sigEeprom   : List Byte
  sigSram     : List Byte
  sigFlash64A : List Byte
  sigFlash64B : List Byte
  sigFlash128 : List Byte
  deriving DecidableEq, Repr

/-- The defaults of 00_scope.md R5, the values of every example and test vector of the spec (log entry 1). -/
def Config.default : Config where
  addrBits := 32
  nDma := 4
  bios  := ⟨0x00000000, 0x00003FFF⟩
  wram  := ⟨0x02000000, 0x0203FFFF⟩
  iwram := ⟨0x03000000, 0x03007FFF⟩
  io    := ⟨0x04000000, 0x040003FF⟩
  pal   := ⟨0x05000000, 0x050003FF⟩
  vram  := ⟨0x06000000, 0x06017FFF⟩
  oam   := ⟨0x07000000, 0x070003FF⟩
  rom   := ⟨0x08000000, 0x0DFFFFFF⟩
  bkp   := ⟨0x0E000000, 0x0E00FFFF⟩
  eep   := ⟨0x0D000000, 0x0DFFFFFF⟩
  romMax := 0x02000000
  gpioBase   := 0x080000C4
  gpioStride := 2
  gpioNregs  := 4
  gpioWidth  := 1
  rumblePin  := 0
  dmaBase   := 0x040000B0
  dmaStride := 12
  fifoAAddr := 0x040000A0
  fifoBAddr := 0x040000A4
  lcdIo := ⟨0x04000000, 0x0400005F⟩
  apuIo := ⟨0x04000060, 0x040000AF⟩
  tmrIo := ⟨0x04000100, 0x0400010F⟩
  openBusByte   := 0x00
  dmaStartDelay := 0
  flAddr1 := 0x5555
  flAddr2 := 0x2AAA
  flKey1  := 0xAA
  flKey2  := 0x55
  flCmdIdEnter     := 0x90
  flCmdIdExit      := 0xF0
  flCmdEraseSetup  := 0x80
  flCmdChipErase   := 0x10
  flCmdSectorErase := 0x30
  flCmdProgram     := 0xA0
  flCmdBank        := 0xB0
  flSector   := 0x1000
  flBankSize := 0x10000
  fl64Man  := 0x32
  fl64Dev  := 0x1B
  fl128Man := 0xC2
  fl128Dev := 0x09
  eeSmall := 512
  eeLarge := 8192
  eeAbitsSmall := 6
  eeAbitsLarge := 14
  eePage  := 8
  eeDummy := 4
  sramWindow := 0x10000
  sramSize   := 0x8000
  -- "EEPROM_V", "SRAM_V", "FLASH_V", "FLASH512_V", "FLASH1M_V" (30_encoding.md R109)
  sigEeprom   := [0x45, 0x45, 0x50, 0x52, 0x4F, 0x4D, 0x5F, 0x56]
  sigSram     := [0x53, 0x52, 0x41, 0x4D, 0x5F, 0x56]
  sigFlash64A := [0x46, 0x4C, 0x41, 0x53, 0x48, 0x5F, 0x56]
  sigFlash64B := [0x46, 0x4C, 0x41, 0x53, 0x48, 0x35, 0x31, 0x32, 0x5F, 0x56]
  sigFlash128 := [0x46, 0x4C, 0x41, 0x53, 0x48, 0x31, 0x4D, 0x5F, 0x56]

/-- The region table of 20_memory.md R61, in its order. -/
def Config.regions (c : Config) : List (Tag × Range) :=
  [(.bios, c.bios), (.wram, c.wram), (.iwram, c.iwram), (.io, c.io), (.pal, c.pal),
   (.vram, c.vram), (.oam, c.oam), (.rom, c.rom), (.bkp, c.bkp)]

/-- The relations among the parameters that the spec states or uses: the GPIO width is 1 to 8 and holds the rumble pin
(30_encoding.md R110, R5), the backup window is exactly one Flash bank and the SRAM window wide (43_flash.md R270,
40_bus_access.md R149), the saved SRAM lies in the window, regions do not overlap, the DMA block and the collaborators'
ranges lie in the I/O region, the GPIO and EEPROM windows lie in ROM, there are four GPIO registers of at least two byte lanes
(30_encoding.md R108), the address widths are those of the encodings (30_encoding.md R100, R107). -/
def Config.wf (c : Config) : Bool :=
  decide (c.addrBits = 32) && decide (1 ≤ c.nDma) && decide (c.nDma ≤ 4)
  && decide (c.eeAbitsSmall = 6) && decide (c.eeAbitsLarge = 14)
  && decide (1 ≤ c.gpioWidth) && decide (c.gpioWidth ≤ 8) && decide (c.rumblePin < c.gpioWidth)
  && decide (c.bkp.size = c.flBankSize) && decide (c.bkp.size = c.sramWindow) && decide (c.bkp.size = 0x10000)
  && decide (c.sramSize ≤ c.sramWindow) && decide (c.flSector * 16 = c.flBankSize)
  && decide (c.regions.Pairwise fun p q => p.2.last < q.2.first)
  && c.io.has c.dmaBase && c.io.has (c.dmaBase + BitVec.ofNat 32 (c.nDma * c.dmaStride - 1)) && decide (12 ≤ c.dmaStride)
  && c.io.has c.lcdIo.first && c.io.has c.lcdIo.last && c.io.has c.apuIo.first && c.io.has c.apuIo.last
  && c.io.has c.tmrIo.first && c.io.has c.tmrIo.last
  && decide (c.gpioNregs = 4) && decide (2 ≤ c.gpioStride)
  && c.rom.has c.gpioBase && c.rom.has (c.gpioBase + BitVec.ofNat 32 (c.gpioNregs * c.gpioStride - 1))
  && c.rom.has c.eep.first && c.rom.has c.eep.last
  && decide (c.eePage = 8) && decide (c.eeSmall = 512) && decide (c.eeLarge = 8192)

/-- FREE VALUE (log entry 6): the region RESET leaves in `tc.region`, which 10_state.md R35 calls unspecified. -/
opaque Config.freeRegion : Nat → Tag

/-- FREE VALUE (log entry 6): the address RESET leaves in `tc.end`, which 10_state.md R35 calls unspecified. -/
opaque Config.freeEnd : Nat → Addr

end Sys2Proof
end

