-- ==== Sys2Proof/Syntax.lean ====
section
/-! DEFINITION. The 54 operations of spec/opcode_table.json, their operands, and the forms in which the block meets them (30_encoding.md). -/

namespace Sys2Proof

/-- Bytes per DMA unit: 2 or 4 (10_state.md R24). -/
inductive UnitWidth where
  | half | word
  deriving DecidableEq, Repr, Inhabited

/-- The `timing` field of `CNT_H` (10_state.md R26). -/
inductive Timing where
  | immediate | vblank | hblank | fifo
  deriving DecidableEq, Repr, Inhabited

/-- The `dac` and `sac` fields of `CNT_H` (10_state.md R26). -/
inductive AddrCtl where
  | inc | dec | fixed | reload
  deriving DecidableEq, Repr, Inhabited

/-- Format DMACTL without its enable bit: `i tt g w r ss dd` (30_encoding.md R105). -/
structure CtlFields where
  irq    : Bool
  timing : Timing
  /-- stored, no effect (93_implementation_defined.md U7) -/
  drq    : Bool
  width  : UnitWidth
  rep    : Bool
  sac    : AddrCtl
  dac    : AddrCtl
  deriving DecidableEq, Repr

/-- Progress through the Flash unlock prefix, `fl.pending_cmd` (10_state.md R28): 0x00, `FL_KEY1`, `FL_KEY2` (log entry 10). -/
inductive Pending where
  | none | key1 | key2
  deriving DecidableEq, Repr, Inhabited

/-- `ee.size`: 512 or 8192 bytes (10_state.md R27). -/
inductive EeSize where
  | small | large
  deriving DecidableEq, Repr, Inhabited

/-- The image operand of LOADFW and LOADCART (R102). -/
inductive ImageArg where
  | bytes (b : List Byte)
  | unopenable
  deriving DecidableEq, Repr

/-- The file operand of LOADBKP (R102). -/
inductive FileArg where
  | bytes (b : List Byte)
  | missing
  | unreadable
  deriving DecidableEq, Repr

/-- The sink operand of SAVEBKP (R102). -/
inductive SinkArg where
  | writable
  | unwritable
  deriving DecidableEq, Repr

/-- The operands of a HOST event, which do not fit the 72-bit word and are passed beside it (R102). -/
inductive Side where
  | none
  | image (i : ImageArg)
  /-- `none` for the backup type is the operand `auto` -/
  | cart (i : ImageArg) (backup : Option BackupType) (gpio : GpioType)
  | file (f : FileArg)
  | sink (k : SinkArg)
  deriving DecidableEq, Repr

/-- One word as it is presented to the block. `event` is what the environment presents at the boundary (R100 to R102): the
72-bit word as nine bytes, leftmost first. The other constructors are the words the block itself meets while it serves an
event (R103 to R108); the input list may present one directly (log entry 4). -/
inductive Presented where
  /-- the event word `hdr ++ addr ++ data`, and the operands beside it -/
  | event (bytes : List Byte) (side : Side)
  /-- the 32 bits of `SAD(c)` after a write of bytes of it -/
  | dmaSad (c : Chan) (w : Word)
  /-- the 32 bits of `DAD(c)` after a write of bytes of it -/
  | dmaDad (c : Chan) (w : Word)
  /-- the 16 bits of `CNT_L(c)` after a write of bytes of it -/
  | dmaCnt (c : Chan) (w : Half)
  /-- the 16 bits of `CNT_H(c)` after a write of bytes of it, before the mask 0xFFE0 -/
  | dmaCtl (c : Chan) (w : Half)
  /-- one byte write to the backup window under Flash: `offset ++ value` (R106) -/
  | flashWrite (w : BitVec 24)
  /-- one byte read of the backup window under Flash: `offset` -/
  | flashRead (w : Half)
  /-- the bits of one burst, first bit first, fetched from `src` on (R107) -/
  | eeBurst (src : Addr) (bits : List Bool)
  /-- one DMA unit read from the EEPROM window -/
  | eeRead (a : Addr) (w : UnitWidth)
  /-- one byte write to the GPIO window (R108) -/
  | gpioWrite (a : Addr) (b : Byte)
  /-- one byte read of the GPIO window -/
  | gpioRead (a : Addr)
  deriving DecidableEq, Repr

/-- One constructor per row of spec/opcode_table.json, in the table's order. -/
inductive Instr where
  -- format BUS (R100)
  | rd8 (addr : Addr)
  | rd16 (addr : Addr)
  | rd32 (addr : Addr)
  | wr8 (addr : Addr) (v : Byte)
  | wr16 (addr : Addr) (v : Half)
  | wr32 (addr : Addr) (v : Word)
  | frd8 (addr : Addr)
  | frd16 (addr : Addr)
  | frd32 (addr : Addr)
  | fwr8 (addr : Addr) (v : Byte)
  | fwr16 (addr : Addr) (v : Half)
  | fwr32 (addr : Addr) (v : Word)
  -- format EVT (R101)
  | reset
  | vblank
  | hblank
  | fifoA
  | fifoB
  | dmatick
  | sensor (v : Byte)
  | cstore (addr : Addr) (b : Byte)
  | forcedma (c : Chan)
  -- format HOST (R102)
  | loadfw (image : ImageArg)
  | loadcart (image : ImageArg) (backup : Option BackupType) (gpio : GpioType)
  | loadbkp (file : FileArg)
  | savebkp (sink : SinkArg)
  -- formats DMAREG and DMACTL (R104, R105)
  | dmasad (c : Chan) (a : Word)
  | dmadad (c : Chan) (a : Word)
  | dmacnt (c : Chan) (n : Half)
  | dmaarm (c : Chan) (f : CtlFields)
  | dmaoff (c : Chan) (f : CtlFields)
  -- format FLASHCMD (R106)
  | fldata (off : Half) (v : Byte)
  | flbanksel (off : Half) (v : Byte)
  | flkey1
  | flkey2
  | flidenter
  | flidexit
  | flerasesetup
  | flchiperase
  | flprogram
  | flbank
  | flsectorerase (off : Half)
  | flignored (off : Half) (v : Byte)
  | flread (off : Half)
  -- format EESTREAM (R107): `src` is the source address of the burst's first unit (42_eeprom.md R232)
  | eerdreq6 (src : Addr) (a : BitVec 6) (stop : Bool)
  | eerdreq14 (src : Addr) (a : BitVec 14) (stop : Bool)
  | eewr6 (src : Addr) (a : BitVec 6) (d : BitVec 64) (stop : Bool)
  | eewr14 (src : Addr) (a : BitVec 14) (d : BitVec 64) (stop : Bool)
  | eebad (src : Addr) (bits : List Bool)
  | eerdbit (a : Addr) (w : UnitWidth)
  -- format GPIOREG (R108): `lane` is the byte of the register that the access is to
  | gpwrdata (lane : Nat) (b : Byte)
  | gpwrdir (lane : Nat) (b : Byte)
  | gpwrctl (lane : Nat) (b : Byte)
  | gpwrrsv (lane : Nat) (b : Byte)
  | gprd (k : Fin 4) (lane : Nat)
  deriving DecidableEq, Repr

end Sys2Proof
end

