-- ==== Sys2Proof/WellFormed.lean ====
section
/-! DEFINITION. Which terms of Instr stand for an operation the encodings can express. -/

namespace Sys2Proof

/-- The mask of the implemented bits of a GPIO register: `GPIO_WIDTH` ones (10_state.md R29). -/
def Config.gpioMask (c : Config) : Byte := BitVec.ofNat 8 (2 ^ c.gpioWidth - 1)

/-- Well-formedness of an instruction:
SENSOR's operand is `data[GPIO_WIDTH-1:0]` (30_encoding.md R101);
a sector erase is never at `FL_ADDR1` (R106);
a burst has at least one bit (41_dma.md R192);
a reply bit is read inside the EEPROM window (41_dma.md R193);
a GPIO lane is a byte of its register (R103).
Every other operand is limited by its type. -/
def Instr.wf (c : Config) : Instr → Bool
  | .sensor v => decide (v &&& c.gpioMask = v)
  | .flsectorerase off => decide (off ≠ c.flAddr1)
  | .eebad _ bits => !bits.isEmpty
  | .eerdbit a _ => c.eep.has a
  | .rd8 _ | .rd16 _ | .rd32 _ | .wr8 _ _ | .wr16 _ _ | .wr32 _ _ => true
  | .frd8 _ | .frd16 _ | .frd32 _ | .fwr8 _ _ | .fwr16 _ _ | .fwr32 _ _ => true
  | .reset | .vblank | .hblank | .fifoA | .fifoB | .dmatick | .cstore _ _ | .forcedma _ => true
  | .loadfw _ | .loadcart _ _ _ | .loadbkp _ | .savebkp _ => true
  | .dmasad _ _ | .dmadad _ _ | .dmacnt _ _ | .dmaarm _ _ | .dmaoff _ _ => true
  | .fldata _ _ | .flbanksel _ _ | .flkey1 | .flkey2 | .flidenter | .flidexit | .flerasesetup => true
  | .flchiperase | .flprogram | .flbank | .flignored _ _ | .flread _ => true
  | .eerdreq6 _ _ _ | .eerdreq14 _ _ _ | .eewr6 _ _ _ _ | .eewr14 _ _ _ _ => true
  | .gpwrdata lane _ | .gpwrdir lane _ | .gpwrctl lane _ | .gpwrrsv lane _ | .gprd _ lane => decide (lane < c.gpioStride)

/-- Well-formed under the default parameters. -/
def Instr.WellFormed (i : Instr) : Bool := i.wf Config.default

end Sys2Proof
end

