-- ==== Sys2Proof/Decode.lean ====
section
/-! DEFINITION. The decoder of every format of 30_encoding.md, total, refusing by name; then the encoder, written from the same tables; then the opcode table's words. -/

namespace Sys2Proof

/-! ## Bits and bytes -/

/-- Four bytes, leftmost first, as a word. -/
def wordOfBytes (b3 b2 b1 b0 : Byte) : Word := b3 ++ b2 ++ b1 ++ b0

/-- The four bytes of a word, leftmost first. -/
def bytesOfWord (w : Word) : List Byte :=
  [w.extractLsb' 24 8, w.extractLsb' 16 8, w.extractLsb' 8 8, w.extractLsb' 0 8]

/-- A stream of bits, first bit leftmost, as a number (R6, R107). -/
def natOfBits : List Bool → Nat
  | [] => 0
  | b :: bs => b.toNat * 2 ^ bs.length + natOfBits bs

/-- The `n` low bits of a number as a stream, first bit leftmost (R6). -/
def bitsOfNat : Nat → Nat → List Bool
  | 0, _ => []
  | n + 1, v => v.testBit n :: bitsOfNat n v

/-- The bits of a vector as a stream, first bit leftmost (R6). -/
def bitsOfVec {n : Nat} (v : BitVec n) : List Bool := bitsOfNat n v.toNat

/-! ## Field codes of `CNT_H` (10_state.md R26, 30_encoding.md R105) -/

/-- `tt`: 0 immediate, 1 VBLANK, 2 HBLANK, 3 FIFO. -/
def Timing.ofCode (b : BitVec 2) : Timing :=
  if b = 0 then .immediate else if b = 1 then .vblank else if b = 2 then .hblank else .fifo

/-- The code of a timing. -/
def Timing.code : Timing → BitVec 2
  | .immediate => 0 | .vblank => 1 | .hblank => 2 | .fifo => 3

/-- `ss`, `dd`: 0 increment, 1 decrement, 2 fixed, 3 increment-with-reload. -/
def AddrCtl.ofCode (b : BitVec 2) : AddrCtl :=
  if b = 0 then .inc else if b = 1 then .dec else if b = 2 then .fixed else .reload

/-- The code of an address control. -/
def AddrCtl.code : AddrCtl → BitVec 2
  | .inc => 0 | .dec => 1 | .fixed => 2 | .reload => 3

/-- `w`: 0 half-word units, 1 word units. -/
def UnitWidth.ofBit (b : Bool) : UnitWidth := if b then .word else .half

/-- The bit of a unit width. -/
def UnitWidth.bit : UnitWidth → Bool
  | .half => false | .word => true

/-- The fields of a `CNT_H` half-word, `e i tt g w r ss dd 00000` (R105). -/
def CtlFields.ofHalf (w : Half) : CtlFields where
  irq    := w.getLsbD 14
  timing := Timing.ofCode (w.extractLsb' 12 2)
  drq    := w.getLsbD 11
  width  := UnitWidth.ofBit (w.getLsbD 10)
  rep    := w.getLsbD 9
  sac    := AddrCtl.ofCode (w.extractLsb' 7 2)
  dac    := AddrCtl.ofCode (w.extractLsb' 5 2)

/-- The half-word `e i tt g w r ss dd 00000` (R105). -/
def CtlFields.toHalf (enable : Bool) (f : CtlFields) : Half :=
  BitVec.ofBool enable ++ BitVec.ofBool f.irq ++ f.timing.code ++ BitVec.ofBool f.drq ++ BitVec.ofBool f.width.bit
    ++ BitVec.ofBool f.rep ++ f.sac.code ++ f.dac.code ++ 0#5

/-! ## The decoder -/

/-- Why a presented word is not an operation (R111). -/
inductive DecodeError where
  /-- an event word is nine bytes, no other number -/
  | wrongLength
  /-- BUS `size = 0b11`: headers 0x03, 0x07, 0x0B, 0x0F -/
  | reservedSize
  /-- EVT codes 0x1C to 0x1F -/
  | reservedEvent
  /-- HOST codes 0x24 to 0x2F -/
  | reservedHost
  /-- `hdr[7:4]` of 3 and above -/
  | reservedFormat
  /-- a HOST event without its operands, or with those of another -/
  | operandMismatch
  /-- a word for an engine that the loaded cartridge does not have (10_state.md R31) -/
  | engineInactive
  /-- a word for a window at an address outside it -/
  | outsideWindow
  /-- a burst of no bit: no run ends a burst without one (41_dma.md R192) -/
  | emptyBurst
  deriving DecidableEq, Repr

/-- What decoding depends on beside the word (30_encoding.md R106, R107, R112). -/
structure DecodeCtx where
  backup : BackupType
  gpio   : GpioType
  writeSingleByte : Bool
  switchBank      : Bool
  writeArmed      : Bool
  pending : Pending
  eeSize  : EeSize
  eeLock  : Bool
  deriving DecidableEq, Repr

/-- Whether the Flash engine is active (43_flash.md R270). -/
def BackupType.isFlash : BackupType → Bool
  | .flash64 | .flash128 => true
  | .none | .eeprom | .sram => false

/-- Formats BUS, EVT and HOST by header byte (R100, R101, R102, R111). -/
def decodeHeader (c : Config) (hdr : Byte) (addr data : Word) (side : Side) : Except DecodeError Instr :=
  match hdr.toNat with
  | 0x00 => .ok (.rd8 addr)
  | 0x01 => .ok (.rd16 addr)
  | 0x02 => .ok (.rd32 addr)
  | 0x04 => .ok (.wr8 addr (data.setWidth 8))
  | 0x05 => .ok (.wr16 addr (data.setWidth 16))
  | 0x06 => .ok (.wr32 addr data)
  | 0x08 => .ok (.frd8 addr)
  | 0x09 => .ok (.frd16 addr)
  | 0x0A => .ok (.frd32 addr)
  | 0x0C => .ok (.fwr8 addr (data.setWidth 8))
  | 0x0D => .ok (.fwr16 addr (data.setWidth 16))
  | 0x0E => .ok (.fwr32 addr data)
  | 0x10 => .ok .reset
  | 0x11 => .ok .vblank
  | 0x12 => .ok .hblank
  | 0x13 => .ok .fifoA
  | 0x14 => .ok .fifoB
  | 0x15 => .ok .dmatick
  | 0x16 => .ok (.sensor (data.setWidth 8 &&& c.gpioMask))
  | 0x17 => .ok (.cstore addr (data.setWidth 8))
  | 0x18 => .ok (.forcedma 0)
  | 0x19 => .ok (.forcedma 1)
  | 0x1A => .ok (.forcedma 2)
  | 0x1B => .ok (.forcedma 3)
  | 0x20 => match side with
    | .image i => .ok (.loadfw i)
    | _ => .error .operandMismatch
  | 0x21 => match side with
    | .cart i b g => .ok (.loadcart i b g)
    | _ => .error .operandMismatch
  | 0x22 => match side with
    | .file f => .ok (.loadbkp f)
    | _ => .error .operandMismatch
  | 0x23 => match side with
    | .sink k => .ok (.savebkp k)
    | _ => .error .operandMismatch
  | h =>
    if h < 0x10 then .error .reservedSize
    else if h < 0x20 then .error .reservedEvent
    else if h < 0x30 then .error .reservedHost
    else .error .reservedFormat

/-- The event word `hdr ++ addr ++ data`, total on any bytes (R100). -/
def decodeEvent (c : Config) (bytes : List Byte) (side : Side) : Except DecodeError Instr :=
  match bytes with
  | [h, a3, a2, a1, a0, d3, d2, d1, d0] =>
    decodeHeader c h (wordOfBytes a3 a2 a1 a0) (wordOfBytes d3 d2 d1 d0) side
  | _ => .error .wrongLength

/-- Format DMACTL: bit 15 of the half-word selects DMAARM or DMAOFF (R104). -/
def decodeCtl (ch : Chan) (w : Half) : Instr :=
  if w.getLsbD 15 then .dmaarm ch (CtlFields.ofHalf w) else .dmaoff ch (CtlFields.ofHalf w)

/-- The command byte stage of R106: `pending_cmd = FL_KEY2`. -/
def decodeFlashCommand (c : Config) (x : DecodeCtx) (off : Half) (v : Byte) : Instr :=
  if off = c.flAddr1 then
    if v = c.flCmdIdEnter then .flidenter
    else if v = c.flCmdIdExit then .flidexit
    else if v = c.flCmdEraseSetup then .flerasesetup
    else if v = c.flCmdChipErase ∧ x.writeArmed = true then .flchiperase
    else if v = c.flCmdProgram then .flprogram
    else if v = c.flCmdBank ∧ x.backup = .flash128 then .flbank
    else .flignored off v
  else if v = c.flCmdSectorErase ∧ x.writeArmed = true then .flsectorerase off
  else .flignored off v

/-- Format FLASHCMD: the rows of R106 from the top, the first whose state and pattern match. -/
def decodeFlash (c : Config) (x : DecodeCtx) (off : Half) (v : Byte) : Instr :=
  if x.writeSingleByte then .fldata off v
  else if x.switchBank then .flbanksel off v
  else match x.pending with
    | .none => if off = c.flAddr1 ∧ v = c.flKey1 then .flkey1 else .flignored off v
    | .key1 => if off = c.flAddr2 ∧ v = c.flKey2 then .flkey2 else .flignored off v
    | .key2 => decodeFlashCommand c x off v

/-- Whether a size class is accepted (42_eeprom.md R235). -/
def DecodeCtx.sizeOk (x : DecodeCtx) (want : EeSize) : Bool := !x.eeLock || decide (x.eeSize = want)

/-- Format EESTREAM: the length selects the form, then the request code and the size class are checked (R107). -/
def decodeBurst (x : DecodeCtx) (src : Addr) (bits : List Bool) : Instr :=
  let v := natOfBits bits
  match bits.length with
  | 9 => if v / 2 ^ 7 = 3 ∧ x.sizeOk .small = true
      then .eerdreq6 src (BitVec.ofNat 6 (v / 2)) (v.testBit 0) else .eebad src bits
  | 17 => if v / 2 ^ 15 = 3 ∧ x.sizeOk .large = true
      then .eerdreq14 src (BitVec.ofNat 14 (v / 2)) (v.testBit 0) else .eebad src bits
  | 73 => if v / 2 ^ 71 = 2 ∧ x.sizeOk .small = true
      then .eewr6 src (BitVec.ofNat 6 (v / 2 ^ 65)) (BitVec.ofNat 64 (v / 2)) (v.testBit 0) else .eebad src bits
  | 81 => if v / 2 ^ 79 = 2 ∧ x.sizeOk .large = true
      then .eewr14 src (BitVec.ofNat 14 (v / 2 ^ 65)) (BitVec.ofNat 64 (v / 2)) (v.testBit 0) else .eebad src bits
  | _ => .eebad src bits

/-- Format GPIOREG: register `k` and byte lane of a byte address (R103, R108). -/
def decodeGpioWrite (c : Config) (a : Addr) (b : Byte) : Except DecodeError Instr :=
  let off := (a - c.gpioBase).toNat
  let lane := off % c.gpioStride
  if off < c.gpioNregs * c.gpioStride then
    match off / c.gpioStride with
    | 0 => .ok (.gpwrdata lane b)
    | 1 => .ok (.gpwrdir lane b)
    | 2 => .ok (.gpwrctl lane b)
    | _ => .ok (.gpwrrsv lane b)
  else .error .outsideWindow

/-- The read row of format GPIOREG. -/
def decodeGpioRead (c : Config) (a : Addr) : Except DecodeError Instr :=
  let off := (a - c.gpioBase).toNat
  if off < c.gpioNregs * c.gpioStride then
    .ok (.gprd (Fin.ofNat 4 (off / c.gpioStride)) (off % c.gpioStride))
  else .error .outsideWindow

/-- The decoder, total on everything that can be presented. -/
def decode (c : Config) (x : DecodeCtx) : Presented → Except DecodeError Instr
  | .event bytes side => decodeEvent c bytes side
  | .dmaSad ch w => .ok (.dmasad ch w)
  | .dmaDad ch w => .ok (.dmadad ch w)
  | .dmaCnt ch w => .ok (.dmacnt ch w)
  | .dmaCtl ch w => .ok (decodeCtl ch w)
  | .flashWrite w =>
    if x.backup.isFlash then .ok (decodeFlash c x (w.extractLsb' 8 16) (w.extractLsb' 0 8))
    else .error .engineInactive
  | .flashRead w => if x.backup.isFlash then .ok (.flread w) else .error .engineInactive
  | .eeBurst src bits =>
    if x.backup = .eeprom then
      if bits.isEmpty then .error .emptyBurst else .ok (decodeBurst x src bits)
    else .error .engineInactive
  | .eeRead a w =>
    if x.backup = .eeprom then
      if c.eep.has a then .ok (.eerdbit a w) else .error .outsideWindow
    else .error .engineInactive
  | .gpioWrite a b => if x.gpio = .disabled then .error .engineInactive else decodeGpioWrite c a b
  | .gpioRead a => if x.gpio = .disabled then .error .engineInactive else decodeGpioRead c a

/-! ## The encoder -/

/-- The nine bytes of an event word (R100). -/
def eventBytes (hdr : Byte) (addr data : Word) : List Byte := hdr :: (bytesOfWord addr ++ bytesOfWord data)

/-- An event word without operands beside it. -/
def encodeEvent (hdr : Byte) (addr data : Word) : Presented := .event (eventBytes hdr addr data) .none

/-- The header of FORCEDMA c: `0x18 + c` (R101). -/
def forceHeader (ch : Chan) : Byte := 0x18 + BitVec.ofNat 8 ch.val

/-- The 24-bit Flash word `offset ++ value` (R106). -/
def flashWord (off : Half) (v : Byte) : BitVec 24 := off ++ v

/-- The address of byte `lane` of GPIO register `k` (R103, R108). -/
def gpioAddr (c : Config) (k lane : Nat) : Addr :=
  c.gpioBase + BitVec.ofNat 32 (k * c.gpioStride + lane)

/-- The bits `11 a s` of a read request (R107). -/
def readRequestBits {n : Nat} (a : BitVec n) (stop : Bool) : List Bool :=
  true :: true :: (bitsOfVec a ++ [stop])

/-- The bits `10 a d*64 s` of a write (R107). -/
def writeBits {n : Nat} (a : BitVec n) (d : BitVec 64) (stop : Bool) : List Bool :=
  true :: false :: (bitsOfVec a ++ (bitsOfVec d ++ [stop]))

/-- The encoder: the word of an instruction, from the tables of R100 to R108. -/
def encode (c : Config) : Instr → Presented
  | .rd8 a => encodeEvent 0x00 a 0
  | .rd16 a => encodeEvent 0x01 a 0
  | .rd32 a => encodeEvent 0x02 a 0
  | .wr8 a v => encodeEvent 0x04 a (v.setWidth 32)
  | .wr16 a v => encodeEvent 0x05 a (v.setWidth 32)
  | .wr32 a v => encodeEvent 0x06 a v
  | .frd8 a => encodeEvent 0x08 a 0
  | .frd16 a => encodeEvent 0x09 a 0
  | .frd32 a => encodeEvent 0x0A a 0
  | .fwr8 a v => encodeEvent 0x0C a (v.setWidth 32)
  | .fwr16 a v => encodeEvent 0x0D a (v.setWidth 32)
  | .fwr32 a v => encodeEvent 0x0E a v
  | .reset => encodeEvent 0x10 0 0
  | .vblank => encodeEvent 0x11 0 0
  | .hblank => encodeEvent 0x12 0 0
  | .fifoA => encodeEvent 0x13 0 0
  | .fifoB => encodeEvent 0x14 0 0
  | .dmatick => encodeEvent 0x15 0 0
  | .sensor v => encodeEvent 0x16 0 (v.setWidth 32)
  | .cstore a b => encodeEvent 0x17 a (b.setWidth 32)
  | .forcedma ch => encodeEvent (forceHeader ch) 0 0
  | .loadfw i => .event (eventBytes 0x20 0 0) (.image i)
  | .loadcart i b g => .event (eventBytes 0x21 0 0) (.cart i b g)
  | .loadbkp f => .event (eventBytes 0x22 0 0) (.file f)
  | .savebkp k => .event (eventBytes 0x23 0 0) (.sink k)
  | .dmasad ch a => .dmaSad ch a
  | .dmadad ch a => .dmaDad ch a
  | .dmacnt ch n => .dmaCnt ch n
  | .dmaarm ch f => .dmaCtl ch (f.toHalf true)
  | .dmaoff ch f => .dmaCtl ch (f.toHalf false)
  | .fldata off v => .flashWrite (flashWord off v)
  | .flbanksel off v => .flashWrite (flashWord off v)
  | .flkey1 => .flashWrite (flashWord c.flAddr1 c.flKey1)
  | .flkey2 => .flashWrite (flashWord c.flAddr2 c.flKey2)
  | .flidenter => .flashWrite (flashWord c.flAddr1 c.flCmdIdEnter)
  | .flidexit => .flashWrite (flashWord c.flAddr1 c.flCmdIdExit)
  | .flerasesetup => .flashWrite (flashWord c.flAddr1 c.flCmdEraseSetup)
  | .flchiperase => .flashWrite (flashWord c.flAddr1 c.flCmdChipErase)
  | .flprogram => .flashWrite (flashWord c.flAddr1 c.flCmdProgram)
  | .flbank => .flashWrite (flashWord c.flAddr1 c.flCmdBank)
  | .flsectorerase off => .flashWrite (flashWord off c.flCmdSectorErase)
  | .flignored off v => .flashWrite (flashWord off v)
  | .flread off => .flashRead off
  | .eerdreq6 src a s => .eeBurst src (readRequestBits a s)
  | .eerdreq14 src a s => .eeBurst src (readRequestBits a s)
  | .eewr6 src a d s => .eeBurst src (writeBits a d s)
  | .eewr14 src a d s => .eeBurst src (writeBits a d s)
  | .eebad src bits => .eeBurst src bits
  | .eerdbit a w => .eeRead a w
  | .gpwrdata u b => .gpioWrite (gpioAddr c 0 u) b
  | .gpwrdir u b => .gpioWrite (gpioAddr c 1 u) b
  | .gpwrctl u b => .gpioWrite (gpioAddr c 2 u) b
  | .gpwrrsv u b => .gpioWrite (gpioAddr c 3 u) b
  | .gprd k u => .gpioRead (gpioAddr c k.val u)

/-! ## When a row is selected -/

/-- Whether no row of R106 above FLIGNORED takes `(off, v)` in the engine state `x`. -/
def flashIgnores (c : Config) (x : DecodeCtx) (off : Half) (v : Byte) : Bool :=
  !x.writeSingleByte && !x.switchBank &&
  match x.pending with
  | .none => !decide (off = c.flAddr1 ∧ v = c.flKey1)
  | .key1 => !decide (off = c.flAddr2 ∧ v = c.flKey2)
  | .key2 =>
    if off = c.flAddr1 then
      !(decide (v = c.flCmdIdEnter) || decide (v = c.flCmdIdExit) || decide (v = c.flCmdEraseSetup)
        || (decide (v = c.flCmdChipErase) && x.writeArmed) || decide (v = c.flCmdProgram)
        || (decide (v = c.flCmdBank) && decide (x.backup = .flash128)))
    else !(decide (v = c.flCmdSectorErase) && x.writeArmed)

/-- The engine is at its command byte stage (R106: `fl.pending_cmd = 0x55`, no pending flag). -/
def DecodeCtx.atCommand (x : DecodeCtx) : Bool :=
  x.backup.isFlash && !x.writeSingleByte && !x.switchBank && decide (x.pending = .key2)

/-- Whether a burst fails a test of R107, in the order the row EEBAD lists them. -/
def burstIsBad (x : DecodeCtx) (bits : List Bool) : Bool :=
  let second := bits.getD 1 false
  !(bits.getD 0 false) ||
  match bits.length with
  | 9 => !second || !x.sizeOk .small
  | 17 => !second || !x.sizeOk .large
  | 73 => second || !x.sizeOk .small
  | 81 => second || !x.sizeOk .large
  | _ => true

/-- The "state" and "select" columns of spec/opcode_table.json: in which states the row's word is read as the row.
Formats BUS, EVT, HOST, DMAREG and DMACTL are read alike in every state. -/
def Instr.selectedIn (c : Config) (x : DecodeCtx) : Instr → Bool
  | .fldata _ _ => x.backup.isFlash && x.writeSingleByte
  | .flbanksel _ _ => x.backup.isFlash && !x.writeSingleByte && x.switchBank
  | .flkey1 => x.backup.isFlash && !x.writeSingleByte && !x.switchBank && decide (x.pending = .none)
  | .flkey2 => x.backup.isFlash && !x.writeSingleByte && !x.switchBank && decide (x.pending = .key1)
  | .flidenter | .flidexit | .flerasesetup | .flprogram => x.atCommand
  | .flchiperase => x.atCommand && x.writeArmed
  | .flbank => x.atCommand && decide (x.backup = .flash128)
  | .flsectorerase _ => x.atCommand && x.writeArmed
  | .flignored off v => x.backup.isFlash && flashIgnores c x off v
  | .flread _ => x.backup.isFlash
  | .eerdreq6 _ _ _ | .eewr6 _ _ _ _ => decide (x.backup = .eeprom) && x.sizeOk .small
  | .eerdreq14 _ _ _ | .eewr14 _ _ _ _ => decide (x.backup = .eeprom) && x.sizeOk .large
  | .eebad _ bits => decide (x.backup = .eeprom) && burstIsBad x bits
  | .eerdbit _ _ => decide (x.backup = .eeprom)
  | .gpwrdata _ _ | .gpwrdir _ _ | .gpwrctl _ _ | .gpwrrsv _ _ | .gprd _ _ => decide (x.gpio ≠ .disabled)
  | .rd8 _ | .rd16 _ | .rd32 _ | .wr8 _ _ | .wr16 _ _ | .wr32 _ _ => true
  | .frd8 _ | .frd16 _ | .frd32 _ | .fwr8 _ _ | .fwr16 _ _ | .fwr32 _ _ => true
  | .reset | .vblank | .hblank | .fifoA | .fifoB | .dmatick | .sensor _ | .cstore _ _ | .forcedma _ => true
  | .loadfw _ | .loadcart _ _ _ | .loadbkp _ | .savebkp _ => true
  | .dmasad _ _ | .dmadad _ _ | .dmacnt _ _ | .dmaarm _ _ | .dmaoff _ _ => true

/-! ## The words of spec/opcode_table.json (log entry 5)

A row of the table gives a number of bits and no port, so the port is chosen from the number of bits and the fixed bits.
Rows whose words coincide cannot be told apart; the choices are: 9 bits `11…` are EERDREQ6 and 17 bits `11…` EERDREQ14 before
the other rows of 16 and 24 bits; 16 bits ending `00000` are DMACTL, other 16 bits DMACNT; 24 bits with no fixed pattern are
FLIGNORED; 32 bits outside the GPIO window are DMASAD; 72 bits are an event word; no bits are GPRD. -/

/-- The engine state a 24-bit Flash word needs to be read as the row whose pattern it fits. -/
def flashRowState (c : Config) (w : BitVec 24) : Pending × Bool :=
  let off : Half := w.extractLsb' 8 16
  let v : Byte := w.extractLsb' 0 8
  if off = c.flAddr2 ∧ v = c.flKey2 then (.key1, false)
  else if off = c.flAddr1 ∧ (v = c.flCmdIdEnter ∨ v = c.flCmdIdExit ∨ v = c.flCmdEraseSetup ∨ v = c.flCmdProgram ∨ v = c.flCmdBank)
    then (.key2, false)
  else if off = c.flAddr1 ∧ v = c.flCmdChipErase then (.key2, true)
  else if off ≠ c.flAddr1 ∧ v = c.flCmdSectorErase then (.key2, true)
  else (.none, false)

/-- The operands beside a HOST word of the table: empty ones, for the table gives them no bits. -/
def tableSide (hdr : Nat) : Side :=
  match hdr with
  | 0x20 => .image (.bytes [])
  | 0x21 => .cart (.bytes []) Option.none .disabled
  | 0x22 => .file (.bytes [])
  | 0x23 => .sink .writable
  | _ => .none

/-- The nine bytes of a 72-bit number, leftmost first. -/
def bytesOf72 (w : Nat) : List Byte :=
  [64, 56, 48, 40, 32, 24, 16, 8, 0].map fun k => BitVec.ofNat 8 (w / 2 ^ k)

/-- How a table word is presented. -/
def tablePresented (c : Config) (nbits w : Nat) : Option Presented :=
  match nbits with
  | 0 => some (.gpioRead c.gpioBase)
  | 8 => some (.eeBurst 0 (bitsOfNat 8 w))
  | 9 => some (.eeBurst 0 (bitsOfNat 9 w))
  | 16 =>
    if w / 2 ^ 7 = 3 then some (.eeBurst 0 (bitsOfNat 9 w))
    else if w % 32 = 0 then some (.dmaCtl 0 (BitVec.ofNat 16 w))
    else some (.dmaCnt 0 (BitVec.ofNat 16 w))
  | 17 => some (.eeBurst 0 (bitsOfNat 17 w))
  | 24 =>
    if w / 2 ^ 15 = 3 then some (.eeBurst 0 (bitsOfNat 17 w))
    else some (.flashWrite (BitVec.ofNat 24 w))
  | 32 =>
    if (BitVec.ofNat 32 w - c.gpioBase).toNat < c.gpioNregs * c.gpioStride then some (.gpioWrite (BitVec.ofNat 32 w) 0)
    else some (.dmaSad 0 (BitVec.ofNat 32 w))
  | 68 => some (.eeRead c.eep.first .half)
  | 72 => some (.event (bytesOf72 w) (tableSide (w / 2 ^ 64)))
  | 73 => some (.eeBurst 0 (bitsOfNat 73 w))
  | 80 => some (.eeBurst 0 (bitsOfNat 73 w))
  | 81 => some (.eeBurst 0 (bitsOfNat 81 w))
  | 88 => some (.eeBurst 0 (bitsOfNat 81 w))
  | _ => none

/-- The state in which a table word is read: the one its row needs. -/
def tableCtx (c : Config) (p : Presented) : DecodeCtx :=
  let base : DecodeCtx := ⟨.none, .disabled, false, false, false, .none, .small, false⟩
  match p with
  | .flashWrite w => { base with backup := .flash128, pending := (flashRowState c w).1, writeArmed := (flashRowState c w).2 }
  | .flashRead _ => { base with backup := .flash128 }
  | .eeBurst _ _ | .eeRead _ _ => { base with backup := .eeprom }
  | .gpioWrite _ _ | .gpioRead _ => { base with gpio := .rumble }
  | .event _ _ | .dmaSad _ _ | .dmaDad _ _ | .dmaCnt _ _ | .dmaCtl _ _ => base

/-- The instruction the decoder reads from a word of spec/opcode_table.json, its bits numbered as the table numbers them. -/
def decodeTableWord (nbits w : Nat) : Option Instr :=
  match tablePresented Config.default nbits w with
  | some p =>
    match decode Config.default (tableCtx Config.default p) p with
    | .ok i => some i
    | .error _ => none
  | none => none

end Sys2Proof
end

