-- ==== Sys2Proof/Machine/State.lean ====
section
/-! DEFINITION. The state of the block as plain data (10_state.md R20), why a step can stop, and the state after reset (70_reset_and_hazards.md R401). -/

namespace Sys2Proof.Machine

/-- The bytes of a store, as (address, byte) pairs, addresses strictly rising, no byte 0x00 listed:
an unlisted address reads 0x00, the reset contents of every store (R401, 10_state.md R35). -/
abbrev Memory := List Host.Cell

/-- `cart` (10_state.md R22). -/
structure Cart where
  backupType : BackupType
  gpioType   : GpioType
  biosLoaded : Bool
  cartLoaded : Bool
  deriving DecidableEq, Repr

/-- `tc` (10_state.md R23). `endAddr` is the spec's `end`. -/
structure Tc where
  valid   : Bool
  region  : Tag
  endAddr : Addr
  deriving DecidableEq, Repr

/-- One DMA channel (10_state.md R24). -/
structure DmaChan where
  enabled : Bool
  running : Bool
  srcOrig : Addr
  src     : Addr
  dst     : Addr
  cursor  : Word
  count   : Word
  width   : UnitWidth
  ctrl    : Half
  delay   : Nat
  deriving DecidableEq, Repr

/-- The four channels `dma[0]` to `dma[3]` (10_state.md R24). -/
structure Channels where
  ch0 : DmaChan
  ch1 : DmaChan
  ch2 : DmaChan
  ch3 : DmaChan
  deriving DecidableEq, Repr

/-- `ee.phase` (10_state.md R27). -/
inductive EePhase where
  | idle | shiftIn | readOut
  deriving DecidableEq, Repr

/-- `ee` (10_state.md R27). Bit `i` of `buf` is the spec's `buf[i]`, the bit received `i`-th. -/
structure Eeprom where
  phase    : EePhase
  buf      : BitVec 81
  cursor   : Nat
  addr     : BitVec 14
  dmaPtr   : Addr
  data     : Memory
  size     : EeSize
  sizeLock : Bool
  deriving DecidableEq, Repr

/-- `fl.bank` (10_state.md R28). -/
inductive Bank where
  | bank0 | bank1
  deriving DecidableEq, Repr

/-- `fl` (10_state.md R28). -/
structure Flash where
  pending : Pending
  bank    : Bank
  data0   : Memory
  data1   : Memory
  writeSingleByte : Bool
  switchBank      : Bool
  idMode          : Bool
  writeArmed      : Bool
  deriving DecidableEq, Repr

/-- `gpio` (10_state.md R29). The `W`-bit fields stand in the low bits of a byte (log entry 11). -/
structure Gpio where
  readable  : Bool
  direction : Byte
  inLatch   : Byte
  outLatch  : Byte
  deriving DecidableEq, Repr

/-- The class of an access (40_bus_access.md R153). -/
inductive TimingClass where
  | nonseq | seq
  deriving DecidableEq, Repr

/-- The value of a read, `8n` bits (30_encoding.md R100). -/
inductive ReadValue where
  | byte (v : Byte)
  | half (v : Half)
  | word (v : Word)
  deriving DecidableEq, Repr

/-- An output signal (00_scope.md R8). -/
inductive Signal where
  /-- `Irq(c)`: channel `c` completed with its interrupt flag set -/
  | irq (ch : Chan)
  /-- `Forward(owner, a, b)` -/
  | forward (owner : Owner) (a : Addr) (b : Byte)
  /-- `GpioOut(v)` -/
  | gpioOut (v : Byte)
  deriving DecidableEq, Repr

/-- The two errors of host operations (60_exceptions.md R371). -/
inductive HostError where
  | loadError
  | persistenceError
  deriving DecidableEq, Repr

/-- The result of a host operation (45_host_ops.md R340). -/
inductive HostResult where
  | ok
  | saved (bytes : List Byte)
  | error (e : HostError)
  deriving DecidableEq, Repr

/-- The outputs of one step (00_scope.md R8): a model's field, not the spec's state (log entry 3). -/
structure Outputs where
  value   : Option ReadValue
  cls     : Option TimingClass
  signals : List Signal
  host    : Option HostResult
  deriving DecidableEq, Repr

/-- The state of the block (10_state.md R20), with the model's own fields `out`, `inputs` and `free` (log entries 2, 3, 6). -/
structure State where
  /-- `AS` (10_state.md R21) -/
  mem    : Memory
  cart   : Cart
  tc     : Tc
  dma    : Channels
  ee     : Eeprom
  fl     : Flash
  gpio   : Gpio
  /-- `sram.data` (10_state.md R30) -/
  sram   : Memory
  /-- the outputs of the latest step -/
  out    : Outputs
  /-- what the environment has presented and the block has not yet taken, oldest first -/
  inputs : List Presented
  /-- how many free values have been used -/
  free   : Nat
  deriving DecidableEq, Repr

/-- Faults. There is none: "The spec has no `fault` treatment anywhere: the document's rule is that nothing the bus does is an
error" (93_implementation_defined.md; 60_exceptions.md R370). -/
inductive Fault where
  deriving DecidableEq, Repr

/-- Why a step gives no next state. All of them are safe: the model stops where a machine might go on. -/
inductive Refusal where
  /-- raised by exec's arm of an instruction that has no meaning yet; safe -/
  | notModelled (mnemonic : String)
  /-- raised by arming a DMA channel with source address control 3 (U2, 41_dma.md R184); safe -/
  | sac3
  /-- raised by a DMA unit that writes a byte of the DMA register block (U3, 40_bus_access.md R151); safe -/
  | dmaWritesDmaRegisters
  /-- raised by LOADCART of an image longer than `ROM_MAX` (U4, 45_host_ops.md R341); safe -/
  | imageTooLarge
  /-- raised by step when the word presented is no operation (U19, 30_encoding.md R111); safe -/
  | notAnEvent (e : DecodeError)
  deriving DecidableEq, Repr

/-- An Idle channel with every field as RESET leaves it (R400). -/
def DmaChan.reset : DmaChan where
  enabled := false
  running := false
  srcOrig := 0
  src := 0
  dst := 0
  cursor := 0
  count := 0
  width := .half
  ctrl := 0
  delay := 0

/-- All four channels after RESET. -/
def Channels.reset : Channels := ⟨.reset, .reset, .reset, .reset⟩

/-- The EEPROM engine after LOADCART (10_state.md R35). -/
def Eeprom.fresh : Eeprom where
  phase := .idle
  buf := 0
  cursor := 0
  addr := 0
  dmaPtr := 0
  data := []
  size := .small
  sizeLock := false

/-- The Flash engine after LOADCART (10_state.md R35). -/
def Flash.fresh : Flash where
  pending := .none
  bank := .bank0
  data0 := []
  data1 := []
  writeSingleByte := false
  switchBank := false
  idMode := false
  writeArmed := false

/-- The GPIO controller after RESET and LOADCART (10_state.md R35). -/
def Gpio.fresh : Gpio := ⟨false, 0, 0, 0⟩

/-- No output. -/
def Outputs.empty : Outputs := ⟨none, none, [], none⟩

/-- The initial state of 70_reset_and_hazards.md R401: RESET of the empty configuration. `tc.region` and `tc.endAddr`, which
the spec calls unspecified, hold values the model names (log entry 6, DESIGN CHOICE). -/
def State.reset : State where
  mem := []
  cart := ⟨.none, .disabled, false, false⟩
  tc := ⟨false, .bios, 0⟩
  dma := .reset
  ee := .fresh
  fl := .fresh
  gpio := .fresh
  sram := []
  out := .empty
  inputs := []
  free := 0

end Sys2Proof.Machine
end

