-- ==== Sys2Proof/Machine/Operands.lean ====
section
/-! DEFINITION. Operand forms: byte order (20_memory.md R63), the DMA register layout (10_state.md R25, R26), pointer stepping (41_dma.md R194), EEPROM bit order (42_eeprom.md R234, R241, R242), GPIO values (44_gpio.md R317). -/

namespace Sys2Proof.Machine

/-! ## Widths and byte order -/

/-- The width of a bus access (20_memory.md R65). -/
inductive AccessWidth where
  | byte | half | word
  deriving DecidableEq, Repr

/-- `n`, the number of bytes of an access. -/
def AccessWidth.bytes : AccessWidth → Nat
  | .byte => 1 | .half => 2 | .word => 4

/-- `U`, the number of bytes of a DMA unit (10_state.md R24). -/
def unitBytes : UnitWidth → Nat
  | .half => 2 | .word => 4

/-- The `n` low bytes of a value in ascending address order: byte `i` is `v[8i+7:8i]` (R63). -/
def splitLE : Nat → Word → List Byte
  | 0, _ => []
  | n + 1, v => v.setWidth 8 :: splitLE n (v >>> 8)

/-- Bytes in ascending address order as a value: byte `i` is `v[8i+7:8i]` (R63). -/
def joinLE : List Byte → Word
  | [] => 0
  | b :: bs => b.setWidth 32 ||| (joinLE bs <<< 8)

/-- The value of a read of the given width (30_encoding.md R100). -/
def readValue (w : AccessWidth) (v : Word) : ReadValue :=
  match w with
  | .byte => .byte (v.setWidth 8)
  | .half => .half (v.setWidth 16)
  | .word => .word v

/-- The value of a DMA unit. -/
def unitValue (w : UnitWidth) (v : Word) : ReadValue :=
  match w with
  | .half => .half (v.setWidth 16)
  | .word => .word v

/-! ## DMA registers (10_state.md R25) -/

/-- One of a channel's four registers. -/
inductive DmaReg where
  | sad | dad | cntL | cntH
  deriving DecidableEq, Repr

/-- `B(c) = DMA_BASE + c * DMA_STRIDE`. -/
def regBase (c : Config) (ch : Chan) : Addr := c.dmaBase + BitVec.ofNat 32 (ch.val * c.dmaStride)

/-- The address of `SAD(c)`. -/
def sadAddr (c : Config) (ch : Chan) : Addr := regBase c ch

/-- The address of `DAD(c)`. -/
def dadAddr (c : Config) (ch : Chan) : Addr := regBase c ch + 4

/-- The address of `CNT_L(c)`. -/
def cntLAddr (c : Config) (ch : Chan) : Addr := regBase c ch + 8

/-- The address of `CNT_H(c)`. -/
def cntHAddr (c : Config) (ch : Chan) : Addr := regBase c ch + 10

/-- `o = a - DMA_BASE` (30_encoding.md R103). -/
def dmaOffset (c : Config) (a : Addr) : Nat := (a - c.dmaBase).toNat

/-- Whether `a` lies in the DMA block `DMA_BASE .. DMA_BASE + 4*DMA_STRIDE - 1` (20_memory.md R76). -/
def inDmaBlock (c : Config) (a : Addr) : Bool := decide (dmaOffset c a < c.nDma * c.dmaStride)

/-- The register that contains byte `r` of a channel's group (R103). -/
def regOfOffset (r : Nat) : Option DmaReg :=
  if r < 4 then some .sad
  else if r < 8 then some .dad
  else if r < 10 then some .cntL
  else if r < 12 then some .cntH
  else none

/-- The register that contains `a`, and its channel (R103). -/
def dmaRegAt (c : Config) (a : Addr) : Option (Chan × DmaReg) :=
  if inDmaBlock c a then
    (regOfOffset (dmaOffset c a % c.dmaStride)).map fun r => (Fin.ofNat 4 (dmaOffset c a / c.dmaStride), r)
  else none

/-- `mask`, the write mask of an I/O byte: 0xE0 for the low byte of each `CNT_H(c)`, else 0xFF (20_memory.md R77). -/
def ioMask (c : Config) (a : Addr) : Byte :=
  if inDmaBlock c a && decide (dmaOffset c a % c.dmaStride = 10) then 0xE0 else 0xFF

/-! ## Views of the captured control half-word (10_state.md R24, R26) -/

/-- `enable = ctrl[15]`. -/
def ctlEnable (w : Half) : Bool := w.getLsbD 15

/-- `irq = ctrl[14]`. -/
def ctlIrq (w : Half) : Bool := w.getLsbD 14

/-- `timing = ctrl[13:12]`. -/
def ctlTiming (w : Half) : Timing := Timing.ofCode (w.extractLsb' 12 2)

/-- `width`: 4 bytes if `ctrl[10] = 1`, else 2. -/
def ctlWidth (w : Half) : UnitWidth := UnitWidth.ofBit (w.getLsbD 10)

/-- `repeat = ctrl[9]`. -/
def ctlRepeat (w : Half) : Bool := w.getLsbD 9

/-- `sac = ctrl[8:7]`. -/
def ctlSac (w : Half) : AddrCtl := AddrCtl.ofCode (w.extractLsb' 7 2)

/-- `dac = ctrl[6:5]`. -/
def ctlDac (w : Half) : AddrCtl := AddrCtl.ofCode (w.extractLsb' 5 2)

/-- `Step(p, mode, U)`, modulo 2^32 (41_dma.md R194). -/
def stepPtr (p : Addr) (mode : AddrCtl) (w : UnitWidth) : Addr :=
  match mode with
  | .inc => p + BitVec.ofNat 32 (unitBytes w)
  | .dec => p - BitVec.ofNat 32 (unitBytes w)
  | .fixed => p
  | .reload => p + BitVec.ofNat 32 (unitBytes w)

/-! ## EEPROM streams (42_eeprom.md) -/

/-- `512` or `8192` (R27). -/
def eeBytes (c : Config) : EeSize → Nat
  | .small => c.eeSmall
  | .large => c.eeLarge

/-- The number of address bits of a size class: `EE_ABITS_SMALL` or `EE_ABITS_LARGE` (R235). -/
def eeAddrBits (c : Config) : EeSize → Nat
  | .small => c.eeAbitsSmall
  | .large => c.eeAbitsLarge

/-- What a request asks for. -/
inductive ReqKind where
  | read | write
  deriving DecidableEq, Repr

/-- The size class and kind of a burst of `n` bits (R234): a code of two bits, the address, 64 data bits in a write, a stop bit. -/
def reqForm (c : Config) (n : Nat) : Option (EeSize × ReqKind) :=
  if n = 2 + c.eeAbitsSmall + 1 then some (.small, .read)
  else if n = 2 + c.eeAbitsLarge + 1 then some (.large, .read)
  else if n = 2 + c.eeAbitsSmall + 64 + 1 then some (.small, .write)
  else if n = 2 + c.eeAbitsLarge + 64 + 1 then some (.large, .write)
  else none

/-- `ee.buf[i] <- b`. -/
def setBufBit (buf : BitVec 81) (i : Nat) (b : Bool) : BitVec 81 :=
  (buf &&& ~~~(BitVec.twoPow 81 i)) ||| ((BitVec.ofBool b).setWidth 81 <<< i)

/-- `len` bits of the buffer from bit `start` on, the first the most significant (R110 (c), R234). -/
def bufNat (buf : BitVec 81) (start : Nat) : Nat → Nat
  | 0 => 0
  | len + 1 => 2 * bufNat buf start len + (buf.getLsbD (start + len)).toNat

/-- `Page() = ee.addr mod (ee.size div 8)` (R234). -/
def eePageOf (c : Config) (addr : BitVec 14) (size : EeSize) : Nat := addr.toNat % (eeBytes c size / c.eePage)

/-- Data bit `m` of a page is bit `7 - (m mod 8)` of byte `m div 8` (R242). -/
def pageBit (byteAt : Byte) (m : Nat) : Bool := byteAt.getLsbD (7 - m % 8)

/-! ## GPIO values (44_gpio.md) -/

/-- `Driven()`, what the block drives (R317). -/
def Gpio.driven (g : Gpio) : Byte := g.outLatch &&& g.direction

/-- `Pins()`, the level on the pins (R317). -/
def Gpio.pins (c : Config) (g : Gpio) : Byte :=
  ((g.outLatch &&& g.direction) ||| (g.inLatch &&& ~~~g.direction)) &&& c.gpioMask

/-- Whether the rumble motor is on at a `GpioOut` value (R318). -/
def motorOn (c : Config) (v : Byte) : Bool := v.getLsbD c.rumblePin

end Sys2Proof.Machine
end

