-- ==== Sys2Proof/Machine/Ops.lean ====
section
/-! DEFINITION. Named operations: the byte stores, the channel bank, outputs, free values, address decode (20_memory.md R62), I/O register reads, host errors (60_exceptions.md R371). -/

namespace Sys2Proof.Machine

/-! ## Byte stores -/

/-- One byte of a store; an unlisted address reads 0x00 (70_reset_and_hazards.md R401). -/
def Memory.read : Memory → Nat → Byte
  | [], _ => 0
  | (k, v) :: m, a => if k = a then v else Memory.read m a

/-- Drop every entry of an address. -/
def Memory.erase (m : Memory) (a : Nat) : Memory := m.filter fun e => decide (e.1 ≠ a)

/-- Put an entry before the first higher address. -/
def Memory.insert : Memory → Nat → Byte → Memory
  | [], a, b => [(a, b)]
  | (k, v) :: m, a, b => if a < k then (a, b) :: (k, v) :: m else (k, v) :: Memory.insert m a b

/-- Write one byte, keeping the canonical form: writing 0x00 removes the entry. -/
def Memory.write (m : Memory) (a : Nat) (b : Byte) : Memory :=
  if b = 0 then Memory.erase m a else Memory.insert (Memory.erase m a) a b

/-- The entries of consecutive bytes from `a` on, 0x00 left out. -/
def Memory.cells : Nat → List Byte → Memory
  | _, [] => []
  | a, b :: bs => if b = 0 then Memory.cells (a + 1) bs else (a, b) :: Memory.cells (a + 1) bs

/-- Replace the bytes of `[lo, lo + n)`: byte `lo + i` becomes `bs[i]`, or 0x00 where `bs` has no such byte. -/
def Memory.fill (m : Memory) (lo n : Nat) (bs : List Byte) : Memory :=
  m.filter (fun e => decide (e.1 < lo)) ++ Memory.cells lo (bs.take n) ++ m.filter (fun e => decide (lo + n ≤ e.1))

/-- The bytes of `[lo, lo + n)`. -/
def Memory.dump (m : Memory) (lo : Nat) : Nat → List Byte
  | 0 => []
  | n + 1 => Memory.read m lo :: Memory.dump m (lo + 1) n

/-- The canonical form: addresses strictly rising, no entry equal to what an unlisted address reads as. -/
def Memory.wf : Memory → Bool
  | [] => true
  | [(_, v)] => decide (v ≠ 0)
  | (k, v) :: (k', v') :: m => decide (v ≠ 0) && decide (k < k') && Memory.wf ((k', v') :: m)

/-- Every listed address satisfies `p`. -/
def Memory.within (p : Nat → Bool) (m : Memory) : Bool := m.all fun e => p e.1

/-! ## The channel bank -/

/-- The channels `0` to `N_DMA - 1`, in index order. -/
def channels (c : Config) : List Chan := ([0, 1, 2, 3] : List Chan).take c.nDma

/-- `dma[c]`. -/
def Channels.get (d : Channels) (ch : Chan) : DmaChan :=
  match ch with
  | 0 => d.ch0 | 1 => d.ch1 | 2 => d.ch2 | 3 => d.ch3

/-- `dma[c] <- x`. -/
def Channels.set (d : Channels) (ch : Chan) (x : DmaChan) : Channels :=
  match ch with
  | 0 => { d with ch0 := x } | 1 => { d with ch1 := x } | 2 => { d with ch2 := x } | 3 => { d with ch3 := x }

/-! ## Updates of State, one per component -/

/-- `AS <- m`. -/
def State.setMem (s : State) (m : Memory) : State := { s with mem := m }
/-- `cart <- x`. -/
def State.setCart (s : State) (x : Cart) : State := { s with cart := x }
/-- `tc <- x`. -/
def State.setTc (s : State) (x : Tc) : State := { s with tc := x }
/-- `dma <- x`. -/
def State.setDma (s : State) (x : Channels) : State := { s with dma := x }
/-- `ee <- x`. -/
def State.setEe (s : State) (x : Eeprom) : State := { s with ee := x }
/-- `fl <- x`. -/
def State.setFl (s : State) (x : Flash) : State := { s with fl := x }
/-- `gpio <- x`. -/
def State.setGpio (s : State) (x : Gpio) : State := { s with gpio := x }
/-- `sram.data <- m`. -/
def State.setSram (s : State) (m : Memory) : State := { s with sram := m }
/-- Replace the outputs. -/
def State.setOut (s : State) (o : Outputs) : State := { s with out := o }
/-- Replace the input list. -/
def State.setInputs (s : State) (l : List Presented) : State := { s with inputs := l }
/-- Replace the counter of free values. -/
def State.setFree (s : State) (n : Nat) : State := { s with free := n }

/-- `dma[c]` of a state. -/
def State.chan (s : State) (ch : Chan) : DmaChan := s.dma.get ch

/-- `dma[c] <- x`. -/
def State.setChan (s : State) (ch : Chan) (x : DmaChan) : State := s.setDma (s.dma.set ch x)

/-! ## Outputs -/

/-- Every event begins with no outputs (00_scope.md R8: the outputs are those of the step). -/
def State.start (s : State) : State := s.setOut .empty

/-- `emit`, for a list of signals (00_scope.md R7). -/
def State.emit (s : State) (l : List Signal) : State := s.setOut { s.out with signals := s.out.signals ++ l }

/-- The value and the timing class of a transaction. -/
def State.answer (s : State) (v : Option ReadValue) (cls : Option TimingClass) : State :=
  s.setOut { s.out with value := v, cls := cls }

/-- The result of a host operation. -/
def State.hostResult (s : State) (r : HostResult) : State := s.setOut { s.out with host := some r }

/-- `raise E`: the host operation ends with error `E` and no state change (60_exceptions.md R371). -/
def raiseHostError (e : HostError) (s : State) : State := s.start.hostResult (.error e)

/-! ## Steps that can be refused -/

/-- The outcome of a computation that may be refused. No step faults (60_exceptions.md R370). -/
def toOutcome : Except Refusal State → Host.Outcome State Fault Refusal
  | .ok s => .next s
  | .error r => .refused r

/-! ## Address decode (20_memory.md R62) -/

/-- Whether `a` lies in the GPIO window of a cartridge with the given GPIO type. -/
def inGpioWindow (c : Config) (g : GpioType) (a : Addr) : Bool :=
  decide (g ≠ .disabled) && decide ((a - c.gpioBase).toNat < c.gpioNregs * c.gpioStride)

/-- The tag of the first range of a list that has `a`. -/
def tagIn (a : Addr) : List (Tag × Range) → Tag
  | [] => .unmapped
  | (t, r) :: l => if r.has a then t else tagIn a l

/-- The region of R61 that `a` lies in. -/
def regionOf (c : Config) (a : Addr) : Tag := tagIn a c.regions

/-- The tag of `Decode(a)`. -/
def decodeTag (c : Config) (g : GpioType) (a : Addr) : Tag :=
  if inGpioWindow c g a then .gpio else regionOf c a

/-- The first address of a tag. -/
def tagBase (c : Config) : Tag → Addr
  | .bios => c.bios.first | .wram => c.wram.first | .iwram => c.iwram.first | .io => c.io.first
  | .pal => c.pal.first | .vram => c.vram.first | .oam => c.oam.first | .rom => c.rom.first
  | .bkp => c.bkp.first | .gpio => c.gpioBase | .unmapped => 0

/-- `Decode(a)`: the tag and the offset in it (R62). -/
def decodeAddr (c : Config) (g : GpioType) (a : Addr) : Tag × Addr :=
  (decodeTag c g a, a - tagBase c (decodeTag c g a))

/-- Whether `AS` has a byte at `a` (10_state.md R21). -/
def inAddressSpace (c : Config) (a : Nat) : Bool :=
  decide (a < 2 ^ c.addrBits) &&
  match regionOf c (BitVec.ofNat 32 a) with
  | .bkp | .unmapped | .gpio => false
  | .bios | .wram | .iwram | .io | .pal | .vram | .oam | .rom => true

/-! ## I/O registers (00_scope.md R7, 10_state.md R25) -/

/-- `AS[a]`. -/
def State.asByte (s : State) (a : Addr) : Byte := s.mem.read a.toNat

/-- `IO16(a)`. -/
def State.io16 (s : State) (a : Addr) : Half := s.asByte (a + 1) ++ s.asByte a

/-- `IO32(a)`. -/
def State.io32 (s : State) (a : Addr) : Word :=
  s.asByte (a + 3) ++ s.asByte (a + 2) ++ s.asByte (a + 1) ++ s.asByte a

/-- `SAD(c)`. -/
def sadOf (c : Config) (s : State) (ch : Chan) : Word := s.io32 (sadAddr c ch)

/-- `DAD(c)`. -/
def dadOf (c : Config) (s : State) (ch : Chan) : Word := s.io32 (dadAddr c ch)

/-- `CNT_L(c)`. -/
def cntLOf (c : Config) (s : State) (ch : Chan) : Half := s.io16 (cntLAddr c ch)

/-- `CNT_H(c)`. -/
def cntHOf (c : Config) (s : State) (ch : Chan) : Half := s.io16 (cntHAddr c ch)

/-- `AS[a+i] <- bs[i]`, in ascending order. -/
def storeBytes : Memory → Addr → List Byte → Memory
  | m, _, [] => m
  | m, a, b :: bs => storeBytes (m.write a.toNat b) (a + 1) bs

/-! ## What decoding depends on (30_encoding.md R112) -/

/-- The engine states the decoder reads. -/
def State.ctx (s : State) : DecodeCtx where
  backup := s.cart.backupType
  gpio := s.cart.gpioType
  writeSingleByte := s.fl.writeSingleByte
  switchBank := s.fl.switchBank
  writeArmed := s.fl.writeArmed
  pending := s.fl.pending
  eeSize := s.ee.size
  eeLock := s.ee.sizeLock

end Sys2Proof.Machine
end

