-- ==== Sys2Proof/Machine/Flags.lean ====
section
/-! DEFINITION. The block's predicates and flags (10_state.md R33): the timing class (40_bus_access.md R153), triggers and eligibility (41_dma.md R187, R189), channel states (R180). -/

namespace Sys2Proof.Machine

/-- `Classify(addr, n)`: the class, and the new `tc` (R153). -/
def classify (c : Config) (g : GpioType) (t : Tc) (a : Addr) (n : Nat) : TimingClass × Tc :=
  let tag := decodeTag c g a
  if tag = .unmapped then (.nonseq, { t with valid := false })
  else
    (if t.valid = true ∧ t.region = tag ∧ t.endAddr = a then .seq else .nonseq,
     ⟨true, tag, a + BitVec.ofNat 32 n⟩)

/-- The event of a service pass (R187). -/
inductive DmaEvent where
  | none | vblank | hblank | fifoA | fifoB
  deriving DecidableEq, Repr

/-- `TriggerMatches(c, ev)` (R187). -/
def triggerMatches (c : Config) (ch : Chan) (x : DmaChan) (ev : DmaEvent) : Bool :=
  match ctlTiming x.ctrl with
  | .immediate => true
  | .vblank => decide (ev = .vblank)
  | .hblank => decide (ev = .hblank)
  | .fifo =>
    (decide (ch = 1) || decide (ch = 2)) &&
    ((decide (ev = .fifoA) && decide (x.dst = c.fifoAAddr)) || (decide (ev = .fifoB) && decide (x.dst = c.fifoBAddr)))

/-- `Eligible(c, ev)` (R189). -/
def eligible (c : Config) (ch : Chan) (x : DmaChan) (ev : DmaEvent) : Bool :=
  x.enabled && !x.running && decide (x.delay = 0) && triggerMatches c ch x ev

/-- Idle, Armed or Running (10_state.md R24, 41_dma.md R180). -/
inductive ChanState where
  | idle | armed | running
  deriving DecidableEq, Repr

/-- The state of a channel (10_state.md R24). -/
def DmaChan.state (x : DmaChan) : ChanState :=
  if x.enabled then (if x.running then .running else .armed) else .idle

/-- Whether completion re-arms the channel: repeat set and the trigger recurring (41_dma.md R195). -/
def recurs (x : DmaChan) : Bool := ctlRepeat x.ctrl && decide (ctlTiming x.ctrl ≠ .immediate)

end Sys2Proof.Machine
end

