-- ==== Sys2Proof/Machine/EepromEngine.lean ====
section
/-! DEFINITION. The EEPROM serial engine (42_eeprom.md): shifting in (R233), the dispatch at the end of a burst (R234), shifting out (R241). -/

namespace Sys2Proof.Machine

/-- The first bit of a burst: a new burst starts, a read in progress is abandoned (R233). -/
def Eeprom.begin (src : Addr) (ee : Eeprom) : Eeprom :=
  if ee.phase = .shiftIn then ee
  else { ee with phase := .shiftIn, cursor := 0, buf := 0, dmaPtr := src }

/-- The bit stored and counted; bits beyond the 81st are counted and dropped (R233). -/
def Eeprom.take (bit : Bool) (ee : Eeprom) : Eeprom :=
  { ee with buf := if ee.cursor < 81 then setBufBit ee.buf ee.cursor bit else ee.buf, cursor := ee.cursor + 1 }

/-- `EepromShiftIn(bit, s)` (R233). -/
def eepromShiftIn (bit : Bool) (src : Addr) (ee : Eeprom) : Eeprom := (ee.begin src).take bit

/-- Byte `j` of the data of a write request with `n` address bits (R234 CommitPage). -/
def burstByte (buf : BitVec 81) (n j : Nat) : Byte := BitVec.ofNat 8 (bufNat buf (2 + n + 8 * j) 8)

/-- Write `k` bytes of the request from page byte `j` on. -/
def commitBytes (buf : BitVec 81) (n base : Nat) : Nat → Nat → Memory → Memory
  | _, 0, m => m
  | j, k + 1, m => commitBytes buf n base (j + 1) k (m.write (base + j) (burstByte buf n j))

/-- `CommitPage(n)`: the eight bytes of the addressed page (R234). -/
def commitPage (c : Config) (n : Nat) (ee : Eeprom) : Eeprom :=
  { ee with data := commitBytes ee.buf n (c.eePage * eePageOf c ee.addr ee.size) 0 8 ee.data }

/-- Whether the tests of R234 on the buffered bits and the size lock pass. -/
def burstAccepted (ee : Eeprom) (sz : EeSize) (k : ReqKind) : Bool :=
  ee.buf.getLsbD 0 && (ee.buf.getLsbD 1 == decide (k = .read)) && (!ee.sizeLock || decide (ee.size = sz))

/-- EEBAD: the engine returns to Idle (R240). -/
def Eeprom.bad (ee : Eeprom) : Eeprom := { ee with phase := .idle, cursor := 0 }

/-- An accepted request: size detected and locked, address latched (R234, R235). -/
def Eeprom.latch (c : Config) (sz : EeSize) (ee : Eeprom) : Eeprom :=
  { ee with size := sz, sizeLock := true, addr := BitVec.ofNat 14 (bufNat ee.buf 2 (eeAddrBits c sz)) }

/-- `EepromBurstEnd()` (R234). -/
def eepromBurstEnd (c : Config) (ee : Eeprom) : Eeprom :=
  match reqForm c ee.cursor with
  | none => ee.bad
  | some (sz, k) =>
    if burstAccepted ee sz k then
      match k with
      | .read => { ee.latch c sz with phase := .readOut, cursor := 0 }
      | .write => { commitPage c (eeAddrBits c sz) (ee.latch c sz) with phase := .idle, cursor := 0 }
    else ee.bad

/-- One burst: all its bits shifted in, then its end (41_dma.md R192). -/
def eepromBurst (c : Config) (src : Addr) (bits : List Bool) (ee : Eeprom) : Eeprom :=
  eepromBurstEnd c (bits.foldl (fun e b => eepromShiftIn b src e) ee)

/-- The bit shifted out (R241): 1 outside a reply, then the preamble of zeros, then the page's bits. -/
def shiftOutBit (c : Config) (ee : Eeprom) : Bool :=
  if ee.phase = .readOut then
    if ee.cursor < c.eeDummy then false
    else
      let m := ee.cursor - c.eeDummy
      pageBit (ee.data.read (c.eePage * eePageOf c ee.addr ee.size + m / 8)) m
  else true

/-- `EepromShiftOut()`: the engine after the bit (R241). -/
def eepromShiftOut (c : Config) (ee : Eeprom) : Eeprom :=
  if ee.phase = .readOut then
    if ee.cursor = c.eeDummy + 63 then { ee with phase := .idle, cursor := 0 }
    else { ee with cursor := ee.cursor + 1 }
  else ee

/-- The bits of `n` successive reads, the first leftmost: `0000 d*64` from the start of a reply on, then 1 for ever (R241, R243). -/
def eepromReply (c : Config) : Nat → Eeprom → List Bool
  | 0, _ => []
  | n + 1, ee => shiftOutBit c ee :: eepromReply c n (eepromShiftOut c ee)

end Sys2Proof.Machine
end

