-- ==== Sys2Proof/Machine/FlashEngine.lean ====
section
/-! DEFINITION. The Flash engine (43_flash.md): one function per row of R289, their dispatch `FlashWrite` (R271), and `FlashRead` (R282). -/

namespace Sys2Proof.Machine

/-- The active bank's store, `fl.data[fl.bank]` (R286). -/
def Flash.active (fl : Flash) : Memory :=
  match fl.bank with
  | .bank0 => fl.data0
  | .bank1 => fl.data1

/-- `fl.data[fl.bank] <- m`. -/
def Flash.setActive (fl : Flash) (m : Memory) : Flash :=
  match fl.bank with
  | .bank0 => { fl with data0 := m }
  | .bank1 => { fl with data1 := m }

/-- FLDATA: the programmed byte, ANDed into the active bank (R273). -/
def Flash.program (off : Half) (b : Byte) (fl : Flash) : Flash :=
  { fl.setActive (fl.active.write off.toNat (fl.active.read off.toNat &&& b)) with writeSingleByte := false }

/-- FLBANKSEL: the bank number, taken at offset 0 only (R274). -/
def Flash.selectBank (off : Half) (b : Byte) (fl : Flash) : Flash :=
  { fl with
    switchBank := false
    bank := if off = 0 then (if b.getLsbD 0 then .bank1 else .bank0) else fl.bank }

/-- FLKEY1 (R272). -/
def Flash.key1 (fl : Flash) : Flash := { fl with pending := .key1 }

/-- FLKEY2 (R284). -/
def Flash.key2 (fl : Flash) : Flash := { fl with pending := .key2 }

/-- The common part of the command-byte stage (R285). -/
def Flash.common (fl : Flash) : Flash := { fl with writeArmed := false, pending := .none }

/-- FLIDENTER (R275). -/
def Flash.idEnter (fl : Flash) : Flash := { fl.common with idMode := true }

/-- FLIDEXIT (R276). -/
def Flash.idExit (fl : Flash) : Flash := { fl.common with idMode := false }

/-- FLERASESETUP (R277). -/
def Flash.eraseSetup (fl : Flash) : Flash := { fl.common with writeArmed := true }

/-- A bank of erased bytes: `FL_BANK_SIZE` bytes 0xFF (R271 EraseAll). -/
def erasedBank (c : Config) (m : Memory) : Memory := m.fill 0 c.flBankSize (List.replicate c.flBankSize 0xFF)

/-- `EraseAll()`: every bank the part has (R271, R278). -/
def Flash.eraseAll (c : Config) (bt : BackupType) (fl : Flash) : Flash :=
  { fl with
    data0 := erasedBank c fl.data0
    data1 := if bt = .flash128 then erasedBank c fl.data1 else fl.data1 }

/-- FLCHIPERASE (R278). -/
def Flash.chipErase (c : Config) (bt : BackupType) (fl : Flash) : Flash :=
  if fl.writeArmed then fl.common.eraseAll c bt else fl.common

/-- `EraseSector(fl.bank, s)` (R271). -/
def Flash.eraseSector (c : Config) (s : Nat) (fl : Flash) : Flash :=
  fl.setActive (fl.active.fill (s * c.flSector) c.flSector (List.replicate c.flSector 0xFF))

/-- The sector number `off[15:12]` (30_encoding.md R103). -/
def sectorOf (off : Half) : Nat := (off.extractLsb' 12 4).toNat

/-- FLSECTORERASE (R281). -/
def Flash.sectorErase (c : Config) (off : Half) (fl : Flash) : Flash :=
  if fl.writeArmed then fl.common.eraseSector c (sectorOf off) else fl.common

/-- FLPROGRAM (R279). -/
def Flash.armProgram (fl : Flash) : Flash := { fl.common with writeSingleByte := true }

/-- FLBANK (R280). -/
def Flash.armBank (bt : BackupType) (fl : Flash) : Flash :=
  if bt = .flash128 then { fl.common with switchBank := true } else fl.common

/-- FLIGNORED, by `pending_cmd` (R283). -/
def Flash.ignored (fl : Flash) : Flash :=
  match fl.pending with
  | .none => fl
  | .key1 => { fl with pending := .none }
  | .key2 => fl.common

/-- The command byte at `FL_ADDR1` or elsewhere, `pending_cmd = FL_KEY2` (R271). -/
def Flash.command (c : Config) (bt : BackupType) (off : Half) (b : Byte) (fl : Flash) : Flash :=
  if off = c.flAddr1 then
    if b = c.flCmdIdEnter then fl.idEnter
    else if b = c.flCmdIdExit then fl.idExit
    else if b = c.flCmdEraseSetup then fl.eraseSetup
    else if b = c.flCmdChipErase then fl.chipErase c bt
    else if b = c.flCmdProgram then fl.armProgram
    else if b = c.flCmdBank then fl.armBank bt
    else fl.ignored
  else if b = c.flCmdSectorErase then fl.sectorErase c off
  else fl.ignored

/-- `FlashWrite(off, b)`, the dispatch of one written byte (R271). -/
def flashWrite (c : Config) (bt : BackupType) (off : Half) (b : Byte) (fl : Flash) : Flash :=
  if fl.writeSingleByte then fl.program off b
  else if fl.switchBank then fl.selectBank off b
  else match fl.pending with
    | .none => if off = c.flAddr1 ∧ b = c.flKey1 then fl.key1 else fl.ignored
    | .key1 => if off = c.flAddr2 ∧ b = c.flKey2 then fl.key2 else fl.ignored
    | .key2 => fl.command c bt off b

/-- The ID pair of the part (R282). -/
def idPair (c : Config) (bt : BackupType) : Byte × Byte :=
  if bt = .flash64 then (c.fl64Man, c.fl64Dev) else (c.fl128Man, c.fl128Dev)

/-- `FlashRead(off)` (R282). -/
def flashRead (c : Config) (bt : BackupType) (fl : Flash) (off : Half) : Byte :=
  if fl.idMode = true ∧ off = 0 then (idPair c bt).1
  else if fl.idMode = true ∧ off = 1 then (idPair c bt).2
  else fl.active.read off.toNat

end Sys2Proof.Machine
end

