-- ==== Sys2Proof/Machine/GpioEngine.lean ====
section
/-! DEFINITION. The GPIO controller (44_gpio.md): one function per register write (R313 to R316), their dispatch (R312), and the read (R311). -/

namespace Sys2Proof.Machine

/-- GPWRDATA: `out_latch <- v; emit GpioOut(Driven())` (R313). -/
def gpioWriteData (c : Config) (b : Byte) (s : State) : State :=
  let g := { s.gpio with outLatch := b &&& c.gpioMask }
  (s.setGpio g).emit [.gpioOut g.driven]

/-- GPWRDIR: `direction <- v; emit GpioOut(Driven())` (R314). -/
def gpioWriteDir (c : Config) (b : Byte) (s : State) : State :=
  let g := { s.gpio with direction := b &&& c.gpioMask }
  (s.setGpio g).emit [.gpioOut g.driven]

/-- GPWRCTL: `readable <- b[0]` (R315). -/
def gpioWriteCtl (b : Byte) (s : State) : State := s.setGpio { s.gpio with readable := b.getLsbD 0 }

/-- GPWRRSV: nothing (R316). -/
def gpioWriteRsv (s : State) : State := s

/-- `GpioWriteByte(off, b)` (R312). Lanes above 0 have no implemented bits. -/
def gpioWriteByte (c : Config) (off : Nat) (b : Byte) (s : State) : State :=
  if off % c.gpioStride ≠ 0 then s
  else match off / c.gpioStride with
    | 0 => gpioWriteData c b s
    | 1 => gpioWriteDir c b s
    | 2 => gpioWriteCtl b s
    | _ => gpioWriteRsv s

/-- `GpioReadByte(off, a)`; `beneath` is the ROM byte `AS[a]` (R311). -/
def gpioReadByte (c : Config) (g : Gpio) (off : Nat) (beneath : Byte) : Byte :=
  if g.readable = false then beneath
  else if off % c.gpioStride ≠ 0 then 0
  else match off / c.gpioStride with
    | 0 => g.pins c
    | 1 => g.direction
    | 2 => 1
    | _ => 0

end Sys2Proof.Machine
end

