-- ==== Sys2Proof/Machine/BusEngine.lean ====
section
/-! DEFINITION. The entry points of the Memory Manager below the DMA engine: `ReadByte`, `MemRead` (40_bus_access.md R146 to R149), `WriteByte` and the bytes of `MemWrite` (R150, R151). -/

namespace Sys2Proof.Machine

/-- Who accesses: `CPU` or `DMA(c)` (30_encoding.md R100). -/
inductive Origin where
  | cpu
  | dma (ch : Chan)
  deriving DecidableEq, Repr

/-- The offset in the backup window, `off` (43_flash.md). -/
def bkpOffset (c : Config) (a : Addr) : Half := (a - c.bkp.first).setWidth 16

/-- The offset in the GPIO window (44_gpio.md). -/
def gpioOffset (c : Config) (a : Addr) : Nat := (a - c.gpioBase).toNat

/-- `BackupReadByte(off)` (R148). -/
def backupReadByte (c : Config) (s : State) (off : Half) : Byte :=
  match s.cart.backupType with
  | .sram => s.sram.read off.toNat
  | .flash64 | .flash128 => flashRead c s.cart.backupType s.fl off
  | .none | .eeprom => c.openBusByte

/-- `ReadByte(a)` (R147). -/
def readByte (c : Config) (s : State) (a : Addr) : Byte :=
  match decodeTag c s.cart.gpioType a with
  | .bios | .wram | .iwram | .io | .pal | .vram | .oam | .rom => s.asByte a
  | .gpio => gpioReadByte c s.gpio (gpioOffset c a) (s.asByte a)
  | .bkp => backupReadByte c s (bkpOffset c a)
  | .unmapped => c.openBusByte

/-- The bytes at `a, a+1, …`, each modulo 2^32 (20_memory.md R64, R69). -/
def readBytes (c : Config) (s : State) : Addr → Nat → List Byte
  | _, 0 => []
  | a, n + 1 => readByte c s a :: readBytes c s (a + 1) n

/-- `MemRead(addr, n, origin)` (R146); it does not depend on the origin. -/
def memRead (c : Config) (s : State) (a : Addr) (n : Nat) : Word := joinLE (readBytes c s a n)

/-- The `Forward` signals of a byte written to an I/O address (R151, 20_memory.md R76). -/
def forwards (c : Config) (a : Addr) (b : Byte) : List Signal :=
  (if c.lcdIo.has a then [.forward .lcd a b] else [])
  ++ (if c.apuIo.has a then [.forward .apu a b] else [])
  ++ (if c.tmrIo.has a then [.forward .tmr a b] else [])

/-- A byte written to the I/O region outside the DMA block (R151). -/
def writeIoByte (c : Config) (a : Addr) (b : Byte) (s : State) : State :=
  (s.setMem (s.mem.write a.toNat b)).emit (forwards c a b)

/-- A byte written to the DMA block by the CPU (R151, 20_memory.md R77). -/
def writeDmaRegByte (c : Config) (a : Addr) (b : Byte) (s : State) : State :=
  s.setMem (s.mem.write a.toNat (b &&& ioMask c a))

/-- A byte written to the backup window (R151). -/
def backupWriteByte (c : Config) (off : Half) (b : Byte) (s : State) : State :=
  match s.cart.backupType with
  | .sram => s.setSram (s.sram.write off.toNat b)
  | .flash64 | .flash128 => s.setFl (flashWrite c s.cart.backupType off b s.fl)
  | .none | .eeprom => s

/-- `WriteByte(a, b, origin, touched)` (R151). A DMA unit that writes a byte of the DMA block is refused (U3). -/
def writeByte (c : Config) (org : Origin) (a : Addr) (b : Byte) (s : State) : Except Refusal State :=
  match decodeTag c s.cart.gpioType a with
  | .wram | .iwram | .pal | .vram | .oam => .ok (s.setMem (s.mem.write a.toNat b))
  | .io =>
    if inDmaBlock c a then
      match org with
      | .dma _ => .error .dmaWritesDmaRegisters
      | .cpu => .ok (writeDmaRegByte c a b s)
    else .ok (writeIoByte c a b s)
  | .gpio => .ok (gpioWriteByte c (gpioOffset c a) b s)
  | .bkp => .ok (backupWriteByte c (bkpOffset c a) b s)
  | .bios | .rom | .unmapped => .ok s

/-- The byte writes of `MemWrite`, in ascending address order (R150). -/
def writeBytes (c : Config) (org : Origin) : Addr → List Byte → State → Except Refusal State
  | _, [], s => .ok s
  | a, b :: bs, s =>
    match writeByte c org a b s with
    | .ok s' => writeBytes c org (a + 1) bs s'
    | .error r => .error r

end Sys2Proof.Machine
end

