-- ==== Sys2Proof/Machine/DmaEngine.lean ====
section
/-! DEFINITION. The DMA transfer engine (41_dma.md): arming (R184), disarming (R185), the unit transfer (R193), the run (R192), completion with its interrupt (R195 to R197, R188), the service pass (R190). -/

namespace Sys2Proof.Machine

/-- The channel that `Arm(c)` leaves: the registers captured into the working copies (R184). -/
def armedChan (c : Config) (s : State) (ch : Chan) : DmaChan where
  enabled := true
  running := false
  srcOrig := sadOf c s ch
  src     := sadOf c s ch
  dst     := dadOf c s ch
  cursor  := 0
  count   := (cntLOf c s ch).setWidth 32
  width   := ctlWidth (cntHOf c s ch)
  ctrl    := cntHOf c s ch
  delay   := c.dmaStartDelay

/-- `Arm(c)` (R184); source address control 3 is refused (U2). -/
def arm (c : Config) (ch : Chan) (s : State) : Except Refusal State :=
  if ctlSac (cntHOf c s ch) = .reload then .error .sac3
  else .ok (s.setChan ch (armedChan c s ch))

/-- `Disarm(c)` (R185). -/
def disarm (ch : Chan) (s : State) : State :=
  s.setChan ch { s.chan ch with enabled := false, running := false, delay := 0 }

/-- Whether an address is the EEPROM engine's: EEPROM cartridge and inside the window (R193, 42_eeprom.md R231). -/
def inEepWindow (c : Config) (s : State) (a : Addr) : Bool :=
  decide (s.cart.backupType = .eeprom) && c.eep.has a

/-- The read half of a unit: its value (R193). -/
def unitRead (c : Config) (s : State) (a : Addr) (w : UnitWidth) : Word :=
  if inEepWindow c s a then (BitVec.ofBool (shiftOutBit c s.ee)).setWidth 32
  else memRead c s a (unitBytes w)

/-- The state after the read half of a unit: only the EEPROM engine notices (R193, 20_memory.md R66). -/
def afterUnitRead (c : Config) (s : State) (a : Addr) : State :=
  if inEepWindow c s a then s.setEe (eepromShiftOut c s.ee) else s

/-- The write half of a unit (R193). `RegCommit` has nothing to do for a DMA origin: a DMA write never touches a DMA
register (log entry 8). -/
def unitWrite (c : Config) (ch : Chan) (src dst : Addr) (w : UnitWidth) (v : Word) (s : State) : Except Refusal State :=
  if inEepWindow c s dst then .ok (s.setEe (eepromShiftIn (v.getLsbD 0) src s.ee))
  else writeBytes c (.dma ch) dst (splitLE (unitBytes w) v) s

/-- The channel after one unit: pointers stepped, cursor advanced (R193, R194). -/
def DmaChan.advance (src dst : Addr) (x : DmaChan) : DmaChan :=
  { x with
    src := stepPtr src (ctlSac x.ctrl) x.width
    dst := stepPtr dst (ctlDac x.ctrl) x.width
    cursor := x.cursor + 1 }

/-- `Unit(c, ee_in)` (R193): the state after one unit, and `ee_in`. -/
def dmaUnit (c : Config) (ch : Chan) (eeIn : Bool) (s : State) : Except Refusal (State × Bool) :=
  let x := s.chan ch
  let v := unitRead c s x.src x.width
  let s1 := afterUnitRead c s x.src
  match unitWrite c ch x.src x.dst x.width v s1 with
  | .error r => .error r
  | .ok s2 => .ok (s2.setChan ch ((s2.chan ch).advance x.src x.dst), eeIn || inEepWindow c s1 x.dst)

/-- `k` units in order. -/
def dmaUnits (c : Config) (ch : Chan) : Nat → Bool → State → Except Refusal (State × Bool)
  | 0, eeIn, s => .ok (s, eeIn)
  | k + 1, eeIn, s =>
    match dmaUnit c ch eeIn s with
    | .error r => .error r
    | .ok (s', eeIn') => dmaUnits c ch k eeIn' s'

/-- Units left in the pass: the loop `while cursor < count` runs this often (R192). -/
def unitsLeft (x : DmaChan) : Nat := x.count.toNat - x.cursor.toNat

/-- `GoIdle(c)`: the channel Idle, bit 15 of the stored `CNT_H(c)` cleared (R196). -/
def goIdle (c : Config) (ch : Chan) (s : State) : State :=
  let hi := (cntHAddr c ch + 1).toNat
  (s.setChan ch { s.chan ch with enabled := false, running := false }).setMem (s.mem.write hi (s.mem.read hi &&& 0x7F))

/-- `Rearm(c)`: Armed for the next occurrence of the trigger (R197). -/
def rearm (c : Config) (ch : Chan) (s : State) : State :=
  let x := s.chan ch
  s.setChan ch { x with
    running := false
    cursor := 0
    count := (cntLOf c s ch).setWidth 32
    dst := if ctlDac x.ctrl = .reload then dadOf c s ch else x.dst
    delay := 0 }

/-- `Complete(c)`: the interrupt pulse if enabled, then Armed again or Idle (R195, R188). -/
def complete (c : Config) (ch : Chan) (s : State) : State :=
  let s1 := if ctlIrq (s.chan ch).ctrl then s.emit [.irq ch] else s
  if recurs (s.chan ch) then rearm c ch s1 else goIdle c ch s1

/-- The end of a run: not running, the burst ended if bits were shifted in, completion (R192). -/
def endRun (c : Config) (ch : Chan) (eeIn : Bool) (s : State) : State :=
  let s1 := s.setChan ch { s.chan ch with running := false }
  complete c ch (if eeIn then s1.setEe (eepromBurstEnd c s1.ee) else s1)

/-- `Run(c)` (R192). -/
def dmaRun (c : Config) (ch : Chan) (s : State) : Except Refusal State :=
  let s1 := s.setChan ch { s.chan ch with running := true }
  match dmaUnits c ch (unitsLeft (s.chan ch)) false s1 with
  | .error r => .error r
  | .ok (s2, eeIn) => .ok (endRun c ch eeIn s2)

/-- One channel of a service pass: run it if eligible (R190). -/
def serviceChan (c : Config) (ev : DmaEvent) (ch : Chan) (s : State) : Except Refusal State :=
  if eligible c ch (s.chan ch) ev then dmaRun c ch s else .ok s

/-- The channels of a list, in order. -/
def serviceList (c : Config) (ev : DmaEvent) : List Chan → State → Except Refusal State
  | [], s => .ok s
  | ch :: l, s =>
    match serviceChan c ev ch s with
    | .error r => .error r
    | .ok s' => serviceList c ev l s'

/-- `DmaService(ev)`: channels 0, 1, 2, 3, index order being priority order (R190, R191). -/
def dmaService (c : Config) (ev : DmaEvent) (s : State) : Except Refusal State := serviceList c ev (channels c) s

/-- One tick of the start-delay counters (R202). -/
def tickChan (x : DmaChan) : DmaChan := if x.enabled = true ∧ x.delay > 0 then { x with delay := x.delay - 1 } else x

/-- The ticks of all four counters (R202). -/
def tickAll (s : State) : State :=
  s.setDma ⟨tickChan s.dma.ch0, tickChan s.dma.ch1, tickChan s.dma.ch2, tickChan s.dma.ch3⟩

/-- The "blank" DMA helper (R203). -/
def forceDma (c : Config) (ch : Chan) (s : State) : Except Refusal State :=
  let x := s.chan ch
  if x.enabled = true ∧ x.running = false then dmaRun c ch (s.setChan ch { x with delay := 0 }) else .ok s

/-- The channel whose `CNT_H` contains `a`, if any. -/
def cntHAt (c : Config) (a : Addr) : List Chan :=
  match dmaRegAt c a with
  | some (ch, .cntH) => [ch]
  | _ => []

/-- The channels whose `CNT_H` an access of `n` bytes at `a` writes (40_bus_access.md R151, R152). -/
def touchedCntH (c : Config) (g : GpioType) (a : Addr) : Nat → List Chan
  | 0 => []
  | n + 1 => (if decodeTag c g a = .io then cntHAt c a else []) ++ touchedCntH c g (a + 1) n

/-- The arm or disarm of one `CNT_H(c)` after a write (R152). -/
def commitCntH (c : Config) (ch : Chan) (s : State) : Except Refusal State :=
  if ctlEnable (cntHOf c s ch) then arm c ch s else .ok (disarm ch s)

/-- The touched `CNT_H` registers in ascending address order, each once (R152). -/
def commitList (c : Config) (touched : List Chan) : List Chan → State → Except Refusal State
  | [], s => .ok s
  | ch :: l, s =>
    if touched.contains ch then
      match commitCntH c ch s with
      | .error r => .error r
      | .ok s' => commitList c touched l s'
    else commitList c touched l s

/-- `RegCommit(touched, CPU)` (R152). -/
def regCommit (c : Config) (touched : List Chan) (s : State) : Except Refusal State :=
  if touched.isEmpty then .ok s
  else
    match commitList c touched (channels c) s with
    | .error r => .error r
    | .ok s' => dmaService c .none s'

/-- A write transaction of the CPU: its bytes in ascending order, then the register side effects (R150). -/
def writeTransaction (c : Config) (a : Addr) (bs : List Byte) (s : State) : Except Refusal State :=
  match writeBytes c .cpu a bs s with
  | .error r => .error r
  | .ok s' => regCommit c (touchedCntH c s.cart.gpioType a bs.length) s'

/-- `MemWrite(addr, n, v, CPU)` (R150). -/
def memWrite (c : Config) (a : Addr) (n : Nat) (v : Word) (s : State) : Except Refusal State :=
  writeTransaction c a (splitLE n v) s

end Sys2Proof.Machine
end

