-- ==== Sys2Proof/Machine/Bus.lean ====
section
/-! DEFINITION. The meanings of format BUS (40_bus_access.md R140 to R145, R154 to R158, R160) and of CSTORE (R159). -/

namespace Sys2Proof.Machine

/-- A classified read (R140 to R142): the class from `Classify`, the value from `MemRead`. -/
def busRead (c : Config) (w : AccessWidth) (a : Addr) (s : State) : State :=
  let k := classify c s.cart.gpioType s.tc a w.bytes
  (s.start.setTc k.2).answer (some (readValue w (memRead c s a w.bytes))) (some k.1)

/-- A fast read: the same value, no class, `tc` untouched (R154 to R156). -/
def fastRead (c : Config) (w : AccessWidth) (a : Addr) (s : State) : State :=
  s.start.answer (some (readValue w (memRead c s a w.bytes))) none

/-- A classified write (R143 to R145). -/
def busWrite (c : Config) (w : AccessWidth) (a : Addr) (v : Word) (s : State) : Except Refusal State :=
  let k := classify c s.cart.gpioType s.tc a w.bytes
  memWrite c a w.bytes v ((s.start.setTc k.2).answer none (some k.1))

/-- A fast write: the same bytes and side effects, no class, `tc` untouched (R157, R158, R160). -/
def fastWrite (c : Config) (w : AccessWidth) (a : Addr) (v : Word) (s : State) : Except Refusal State :=
  memWrite c a w.bytes v s.start

/-- RD8 (R140). -/
def rd8In (c : Config) (a : Addr) (s : State) : Host.Outcome State Fault Refusal := .next (busRead c .byte a s)
/-- RD8 with the defaults of R5. -/
def execRd8 (a : Addr) (s : State) : Host.Outcome State Fault Refusal :=
  rd8In Config.default a s
/-- RD16 (R141). -/
def rd16In (c : Config) (a : Addr) (s : State) : Host.Outcome State Fault Refusal := .next (busRead c .half a s)
/-- RD16 with the defaults of R5. -/
def execRd16 (a : Addr) (s : State) : Host.Outcome State Fault Refusal :=
  rd16In Config.default a s
/-- RD32 (R142). -/
def rd32In (c : Config) (a : Addr) (s : State) : Host.Outcome State Fault Refusal := .next (busRead c .word a s)
/-- RD32 with the defaults of R5. -/
def execRd32 (a : Addr) (s : State) : Host.Outcome State Fault Refusal :=
  rd32In Config.default a s
/-- WR8 (R143). -/
def wr8In (c : Config) (a : Addr) (v : Byte) (s : State) : Host.Outcome State Fault Refusal :=
  toOutcome (busWrite c .byte a (v.setWidth 32) s)
/-- WR8 with the defaults of R5. -/
def execWr8 (a : Addr) (v : Byte) (s : State) : Host.Outcome State Fault Refusal :=
  wr8In Config.default a v s
/-- WR16 (R144). -/
def wr16In (c : Config) (a : Addr) (v : Half) (s : State) : Host.Outcome State Fault Refusal :=
  toOutcome (busWrite c .half a (v.setWidth 32) s)
/-- WR16 with the defaults of R5. -/
def execWr16 (a : Addr) (v : Half) (s : State) : Host.Outcome State Fault Refusal :=
  wr16In Config.default a v s
/-- WR32 (R145). -/
def wr32In (c : Config) (a : Addr) (v : Word) (s : State) : Host.Outcome State Fault Refusal :=
  toOutcome (busWrite c .word a v s)
/-- WR32 with the defaults of R5. -/
def execWr32 (a : Addr) (v : Word) (s : State) : Host.Outcome State Fault Refusal :=
  wr32In Config.default a v s
/-- FRD8 (R154). -/
def frd8In (c : Config) (a : Addr) (s : State) : Host.Outcome State Fault Refusal := .next (fastRead c .byte a s)
/-- FRD8 with the defaults of R5. -/
def execFrd8 (a : Addr) (s : State) : Host.Outcome State Fault Refusal :=
  frd8In Config.default a s
/-- FRD16 (R155). -/
def frd16In (c : Config) (a : Addr) (s : State) : Host.Outcome State Fault Refusal := .next (fastRead c .half a s)
/-- FRD16 with the defaults of R5. -/
def execFrd16 (a : Addr) (s : State) : Host.Outcome State Fault Refusal :=
  frd16In Config.default a s
/-- FRD32 (R156). -/
def frd32In (c : Config) (a : Addr) (s : State) : Host.Outcome State Fault Refusal := .next (fastRead c .word a s)
/-- FRD32 with the defaults of R5. -/
def execFrd32 (a : Addr) (s : State) : Host.Outcome State Fault Refusal :=
  frd32In Config.default a s
/-- FWR8 (R157). -/
def fwr8In (c : Config) (a : Addr) (v : Byte) (s : State) : Host.Outcome State Fault Refusal :=
  toOutcome (fastWrite c .byte a (v.setWidth 32) s)
/-- FWR8 with the defaults of R5. -/
def execFwr8 (a : Addr) (v : Byte) (s : State) : Host.Outcome State Fault Refusal :=
  fwr8In Config.default a v s
/-- FWR16 (R158). -/
def fwr16In (c : Config) (a : Addr) (v : Half) (s : State) : Host.Outcome State Fault Refusal :=
  toOutcome (fastWrite c .half a (v.setWidth 32) s)
/-- FWR16 with the defaults of R5. -/
def execFwr16 (a : Addr) (v : Half) (s : State) : Host.Outcome State Fault Refusal :=
  fwr16In Config.default a v s
/-- FWR32 (R160). -/
def fwr32In (c : Config) (a : Addr) (v : Word) (s : State) : Host.Outcome State Fault Refusal :=
  toOutcome (fastWrite c .word a v s)
/-- FWR32 with the defaults of R5. -/
def execFwr32 (a : Addr) (v : Word) (s : State) : Host.Outcome State Fault Refusal :=
  fwr32In Config.default a v s

/-- Whether a collaborator owns an I/O byte: `LCD_IO ∪ APU_IO ∪ TMR_IO` (R159). -/
def collaboratorOwns (c : Config) (a : Addr) : Bool := c.lcdIo.has a || c.apuIo.has a || c.tmrIo.has a

/-- A collaborator's store into its own byte; any other address is ignored (R159). -/
def collabStore (c : Config) (a : Addr) (b : Byte) (s : State) : State :=
  if collaboratorOwns c a then s.start.setMem (s.mem.write a.toNat b) else s.start

/-- CSTORE (R159). -/
def cstoreIn (c : Config) (a : Addr) (b : Byte) (s : State) : Host.Outcome State Fault Refusal :=
  .next (collabStore c a b s)
/-- CSTORE with the defaults of R5. -/
def execCstore (a : Addr) (b : Byte) (s : State) : Host.Outcome State Fault Refusal :=
  cstoreIn Config.default a b s

end Sys2Proof.Machine
end

