-- ==== Sys2Proof/Machine/DmaRegs.lean ====
section
/-! DEFINITION. The meanings of formats DMAREG and DMACTL: a DMA register holds a new value after a write (41_dma.md R181 to R185). The operand is the whole register as it stands after the write, whatever widths wrote it (30_encoding.md R104, R110 (b); log entry 16). -/

namespace Sys2Proof.Machine

/-- Store a 32-bit DMA register. -/
def storeReg32 (a : Addr) (v : Word) (s : State) : State := s.start.setMem (storeBytes s.mem a (splitLE 4 v))

/-- Store a 16-bit DMA register. -/
def storeReg16 (a : Addr) (v : Half) (s : State) : State := s.start.setMem (storeBytes s.mem a (splitLE 2 (v.setWidth 32)))

/-- DMASAD c: stored, nothing else (R181). -/
def dmasadIn (c : Config) (ch : Chan) (v : Word) (s : State) : Host.Outcome State Fault Refusal :=
  .next (storeReg32 (sadAddr c ch) v s)
/-- DMASAD with the defaults of R5. -/
def execDmasad (ch : Chan) (v : Word) (s : State) : Host.Outcome State Fault Refusal :=
  dmasadIn Config.default ch v s

/-- DMADAD c: stored, nothing else (R182). -/
def dmadadIn (c : Config) (ch : Chan) (v : Word) (s : State) : Host.Outcome State Fault Refusal :=
  .next (storeReg32 (dadAddr c ch) v s)
/-- DMADAD with the defaults of R5. -/
def execDmadad (ch : Chan) (v : Word) (s : State) : Host.Outcome State Fault Refusal :=
  dmadadIn Config.default ch v s

/-- DMACNT c: stored, nothing else (R183). -/
def dmacntIn (c : Config) (ch : Chan) (n : Half) (s : State) : Host.Outcome State Fault Refusal :=
  .next (storeReg16 (cntLAddr c ch) n s)
/-- DMACNT with the defaults of R5. -/
def execDmacnt (ch : Chan) (n : Half) (s : State) : Host.Outcome State Fault Refusal :=
  dmacntIn Config.default ch n s

/-- The control half-word stored, then armed or disarmed by its bit 15, then a service pass (R184, R185, 40_bus_access.md R152). -/
def writeControl (c : Config) (ch : Chan) (w : Half) (s : State) : Except Refusal State :=
  regCommit c [ch] (storeReg16 (cntHAddr c ch) w s)

/-- DMAARM c (R184). -/
def dmaarmIn (c : Config) (ch : Chan) (f : CtlFields) (s : State) : Host.Outcome State Fault Refusal :=
  toOutcome (writeControl c ch (f.toHalf true) s)
/-- DMAARM with the defaults of R5. -/
def execDmaarm (ch : Chan) (f : CtlFields) (s : State) : Host.Outcome State Fault Refusal :=
  dmaarmIn Config.default ch f s

/-- DMAOFF c (R185). -/
def dmaoffIn (c : Config) (ch : Chan) (f : CtlFields) (s : State) : Host.Outcome State Fault Refusal :=
  toOutcome (writeControl c ch (f.toHalf false) s)
/-- DMAOFF with the defaults of R5. -/
def execDmaoff (ch : Chan) (f : CtlFields) (s : State) : Host.Outcome State Fault Refusal :=
  dmaoffIn Config.default ch f s

end Sys2Proof.Machine
end

