-- ==== Sys2Proof/Machine/EepromStream.lean ====
section
/-! DEFINITION. The meanings of format EESTREAM: a row is the stream of bits of one burst, shifted in and dispatched (42_eeprom.md R233 to R240), or one unit read from the window (R241). Under another cartridge the window is ROM: its units write nothing (R231, log entry 12). -/

namespace Sys2Proof.Machine

/-- A burst of bits arriving in the window (R192, R233, R234). -/
def burstIntoWindow (c : Config) (src : Addr) (bits : List Bool) (s : State) : State :=
  if s.cart.backupType = .eeprom then s.start.setEe (eepromBurst c src bits s.ee) else s.start

/-- EERDREQ6 (R236). -/
def eerdreq6In (c : Config) (src : Addr) (a : BitVec 6) (stop : Bool) (s : State) : Host.Outcome State Fault Refusal :=
  .next (burstIntoWindow c src (readRequestBits a stop) s)
/-- EERDREQ6 with the defaults of R5. -/
def execEerdreq6 (src : Addr) (a : BitVec 6) (stop : Bool) (s : State) : Host.Outcome State Fault Refusal :=
  eerdreq6In Config.default src a stop s
/-- EERDREQ14 (R237). -/
def eerdreq14In (c : Config) (src : Addr) (a : BitVec 14) (stop : Bool) (s : State) : Host.Outcome State Fault Refusal :=
  .next (burstIntoWindow c src (readRequestBits a stop) s)
/-- EERDREQ14 with the defaults of R5. -/
def execEerdreq14 (src : Addr) (a : BitVec 14) (stop : Bool) (s : State) : Host.Outcome State Fault Refusal :=
  eerdreq14In Config.default src a stop s
/-- EEWR6 (R238). -/
def eewr6In (c : Config) (src : Addr) (a : BitVec 6) (d : BitVec 64) (stop : Bool) (s : State) : Host.Outcome State Fault Refusal :=
  .next (burstIntoWindow c src (writeBits a d stop) s)
/-- EEWR6 with the defaults of R5. -/
def execEewr6 (src : Addr) (a : BitVec 6) (d : BitVec 64) (stop : Bool) (s : State) : Host.Outcome State Fault Refusal :=
  eewr6In Config.default src a d stop s
/-- EEWR14 (R239). -/
def eewr14In (c : Config) (src : Addr) (a : BitVec 14) (d : BitVec 64) (stop : Bool) (s : State) : Host.Outcome State Fault Refusal :=
  .next (burstIntoWindow c src (writeBits a d stop) s)
/-- EEWR14 with the defaults of R5. -/
def execEewr14 (src : Addr) (a : BitVec 14) (d : BitVec 64) (stop : Bool) (s : State) : Host.Outcome State Fault Refusal :=
  eewr14In Config.default src a d stop s
/-- EEBAD (R240). -/
def eebadIn (c : Config) (src : Addr) (bits : List Bool) (s : State) : Host.Outcome State Fault Refusal :=
  .next (burstIntoWindow c src bits s)
/-- EEBAD with the defaults of R5. -/
def execEebad (src : Addr) (bits : List Bool) (s : State) : Host.Outcome State Fault Refusal :=
  eebadIn Config.default src bits s
/-- EERDBIT: the read half of one DMA unit at a window address (R241, 41_dma.md R193). -/
def eerdbitIn (c : Config) (a : Addr) (w : UnitWidth) (s : State) : Host.Outcome State Fault Refusal :=
  .next ((afterUnitRead c s.start a).answer (some (unitValue w (unitRead c s a w))) none)
/-- EERDBIT with the defaults of R5. -/
def execEerdbit (a : Addr) (w : UnitWidth) (s : State) : Host.Outcome State Fault Refusal :=
  eerdbitIn Config.default a w s

end Sys2Proof.Machine
end

