-- ==== Sys2Proof/Machine/Events.lean ====
section
/-! DEFINITION. The meanings of format EVT: RESET (70_reset_and_hazards.md R400), the DMA trigger events (41_dma.md R198 to R203), SENSOR (44_gpio.md R319). -/

namespace Sys2Proof.Machine

/-- The addresses RESET zeroes: every region of `AS`, BIOS only if no firmware was loaded (R400). -/
def resetZeroes (c : Config) (biosLoaded : Bool) (a : Nat) : Bool :=
  inAddressSpace c a && !(biosLoaded && decide (regionOf c (BitVec.ofNat 32 a) = .bios))

/-- `AS` after RESET (R400). -/
def resetMem (c : Config) (biosLoaded : Bool) (m : Memory) : Memory :=
  m.filter fun e => !resetZeroes c biosLoaded e.1

/-- `ee` after RESET: protocol state cleared, `data`, `size`, `size_lock` kept (R400). -/
def Eeprom.reset (ee : Eeprom) : Eeprom := { ee with phase := .idle, cursor := 0, buf := 0, addr := 0, dmaPtr := 0 }

/-- `fl` after RESET: protocol state cleared, the banks' contents kept (R400). -/
def Flash.reset (fl : Flash) : Flash :=
  { fl with pending := .none, bank := .bank0, writeSingleByte := false, switchBank := false, idMode := false, writeArmed := false }

/-- `RESET()` (R400). `tc.region` and `tc.end` become unspecified (10_state.md R35): free values (log entry 6). -/
def resetBlock (c : Config) (s : State) : State :=
  { s.start with
    mem := resetMem c s.cart.biosLoaded s.mem
    tc := ⟨false, Config.freeRegion s.free, Config.freeEnd s.free⟩
    dma := .reset
    ee := s.ee.reset
    fl := s.fl.reset
    gpio := .fresh
    free := s.free + 1 }

/-- RESET (R400). -/
def resetIn (c : Config) (s : State) : Host.Outcome State Fault Refusal := .next (resetBlock c s)
/-- RESET with the defaults of R5. -/
def execReset (s : State) : Host.Outcome State Fault Refusal :=
  resetIn Config.default s

/-- VBLANK (R198). -/
def vblankIn (c : Config) (s : State) : Host.Outcome State Fault Refusal := toOutcome (dmaService c .vblank s.start)
/-- VBLANK with the defaults of R5. -/
def execVblank (s : State) : Host.Outcome State Fault Refusal :=
  vblankIn Config.default s

/-- HBLANK (R199). -/
def hblankIn (c : Config) (s : State) : Host.Outcome State Fault Refusal := toOutcome (dmaService c .hblank s.start)
/-- HBLANK with the defaults of R5. -/
def execHblank (s : State) : Host.Outcome State Fault Refusal :=
  hblankIn Config.default s

/-- FIFO_A (R200). -/
def fifoAIn (c : Config) (s : State) : Host.Outcome State Fault Refusal := toOutcome (dmaService c .fifoA s.start)
/-- FIFO_A with the defaults of R5. -/
def execFifoA (s : State) : Host.Outcome State Fault Refusal :=
  fifoAIn Config.default s

/-- FIFO_B (R201). -/
def fifoBIn (c : Config) (s : State) : Host.Outcome State Fault Refusal := toOutcome (dmaService c .fifoB s.start)
/-- FIFO_B with the defaults of R5. -/
def execFifoB (s : State) : Host.Outcome State Fault Refusal :=
  fifoBIn Config.default s

/-- DMATICK: the counters, then a service pass (R202). -/
def dmatickIn (c : Config) (s : State) : Host.Outcome State Fault Refusal :=
  toOutcome (dmaService c .none (tickAll s.start))
/-- DMATICK with the defaults of R5. -/
def execDmatick (s : State) : Host.Outcome State Fault Refusal :=
  dmatickIn Config.default s

/-- FORCEDMA c (R203). -/
def forcedmaIn (c : Config) (ch : Chan) (s : State) : Host.Outcome State Fault Refusal :=
  toOutcome (forceDma c ch s.start)
/-- FORCEDMA with the defaults of R5. -/
def execForcedma (ch : Chan) (s : State) : Host.Outcome State Fault Refusal :=
  forcedmaIn Config.default ch s

/-- The external device presents a new input level; ignored under Disabled (R319). -/
def senseInput (c : Config) (v : Byte) (s : State) : State :=
  if s.cart.gpioType = .disabled then s.start
  else s.start.setGpio { s.gpio with inLatch := v &&& c.gpioMask }

/-- SENSOR (R319). -/
def sensorIn (c : Config) (v : Byte) (s : State) : Host.Outcome State Fault Refusal := .next (senseInput c v s)
/-- SENSOR with the defaults of R5. -/
def execSensor (v : Byte) (s : State) : Host.Outcome State Fault Refusal :=
  sensorIn Config.default v s

end Sys2Proof.Machine
end

