-- ==== Sys2Proof/Machine/FlashCmds.lean ====
section
/-! DEFINITION. The meanings of format FLASHCMD, each the rule of its row (43_flash.md R272 to R284). The state a row requires is the decoder's to test (30_encoding.md R106); under a cartridge without Flash the engine is not there and nothing changes (10_state.md R31 (a), log entry 12). -/

namespace Sys2Proof.Machine

/-- An effect on the Flash engine, if the cartridge has one (R270). -/
def onFlash (f : BackupType → Flash → Flash) (s : State) : State :=
  if s.cart.backupType.isFlash then s.start.setFl (f s.cart.backupType s.fl) else s.start

/-- FLDATA (R273). -/
def execFldata (off : Half) (v : Byte) (s : State) : Host.Outcome State Fault Refusal :=
  .next (onFlash (fun _ fl => fl.program off v) s)
/-- FLBANKSEL (R274). -/
def execFlbanksel (off : Half) (v : Byte) (s : State) : Host.Outcome State Fault Refusal :=
  .next (onFlash (fun _ fl => fl.selectBank off v) s)
/-- FLKEY1 (R272). -/
def execFlkey1 (s : State) : Host.Outcome State Fault Refusal := .next (onFlash (fun _ fl => fl.key1) s)
/-- FLKEY2 (R284). -/
def execFlkey2 (s : State) : Host.Outcome State Fault Refusal := .next (onFlash (fun _ fl => fl.key2) s)
/-- FLIDENTER (R275). -/
def execFlidenter (s : State) : Host.Outcome State Fault Refusal := .next (onFlash (fun _ fl => fl.idEnter) s)
/-- FLIDEXIT (R276). -/
def execFlidexit (s : State) : Host.Outcome State Fault Refusal := .next (onFlash (fun _ fl => fl.idExit) s)
/-- FLERASESETUP (R277). -/
def execFlerasesetup (s : State) : Host.Outcome State Fault Refusal := .next (onFlash (fun _ fl => fl.eraseSetup) s)
/-- FLCHIPERASE (R278). -/
def flchiperaseIn (c : Config) (s : State) : Host.Outcome State Fault Refusal :=
  .next (onFlash (fun bt fl => fl.chipErase c bt) s)
/-- FLCHIPERASE with the defaults of R5. -/
def execFlchiperase (s : State) : Host.Outcome State Fault Refusal :=
  flchiperaseIn Config.default s
/-- FLPROGRAM (R279). -/
def execFlprogram (s : State) : Host.Outcome State Fault Refusal := .next (onFlash (fun _ fl => fl.armProgram) s)
/-- FLBANK (R280). -/
def execFlbank (s : State) : Host.Outcome State Fault Refusal := .next (onFlash (fun bt fl => fl.armBank bt) s)
/-- FLSECTORERASE (R281). -/
def flsectoreraseIn (c : Config) (off : Half) (s : State) : Host.Outcome State Fault Refusal :=
  .next (onFlash (fun _ fl => fl.sectorErase c off) s)
/-- FLSECTORERASE with the defaults of R5. -/
def execFlsectorerase (off : Half) (s : State) : Host.Outcome State Fault Refusal :=
  flsectoreraseIn Config.default off s
/-- FLIGNORED (R283): what is ignored does not depend on the word. -/
def execFlignored (s : State) : Host.Outcome State Fault Refusal := .next (onFlash (fun _ fl => fl.ignored) s)
/-- FLREAD: one byte read from the backup window (R282, 40_bus_access.md R148). -/
def flreadIn (c : Config) (off : Half) (s : State) : Host.Outcome State Fault Refusal :=
  .next (s.start.answer (some (.byte (backupReadByte c s off))) none)
/-- FLREAD with the defaults of R5. -/
def execFlread (off : Half) (s : State) : Host.Outcome State Fault Refusal :=
  flreadIn Config.default off s

end Sys2Proof.Machine
end

