-- ==== Sys2Proof/Machine/GpioRegs.lean ====
section
/-! DEFINITION. The meanings of format GPIOREG: one byte written to a lane of a register, or read from one (44_gpio.md R311 to R316). Under Disabled the window is plain ROM: writes are ignored, reads see the ROM byte (R310, log entry 12). -/

namespace Sys2Proof.Machine

/-- A write to a register's byte lane: lanes above 0 have no implemented bit, and without a GPIO device there is no register (R310, R312). -/
def onGpio (lane : Nat) (f : State → State) (s : State) : State :=
  if s.cart.gpioType = .disabled then s.start
  else if lane ≠ 0 then s.start
  else f s.start

/-- GPWRDATA (R313). -/
def gpwrdataIn (c : Config) (lane : Nat) (b : Byte) (s : State) : Host.Outcome State Fault Refusal :=
  .next (onGpio lane (gpioWriteData c b) s)
/-- GPWRDATA with the defaults of R5. -/
def execGpwrdata (lane : Nat) (b : Byte) (s : State) : Host.Outcome State Fault Refusal :=
  gpwrdataIn Config.default lane b s
/-- GPWRDIR (R314). -/
def gpwrdirIn (c : Config) (lane : Nat) (b : Byte) (s : State) : Host.Outcome State Fault Refusal :=
  .next (onGpio lane (gpioWriteDir c b) s)
/-- GPWRDIR with the defaults of R5. -/
def execGpwrdir (lane : Nat) (b : Byte) (s : State) : Host.Outcome State Fault Refusal :=
  gpwrdirIn Config.default lane b s
/-- GPWRCTL (R315). -/
def execGpwrctl (lane : Nat) (b : Byte) (s : State) : Host.Outcome State Fault Refusal :=
  .next (onGpio lane (gpioWriteCtl b) s)
/-- GPWRRSV (R316). -/
def execGpwrrsv (lane : Nat) (s : State) : Host.Outcome State Fault Refusal :=
  .next (onGpio lane gpioWriteRsv s)
/-- GPRD (R311). -/
def gprdIn (c : Config) (k : Fin 4) (lane : Nat) (s : State) : Host.Outcome State Fault Refusal :=
  .next (s.start.answer (some (.byte (readByte c s (gpioAddr c k.val lane)))) none)
/-- GPRD with the defaults of R5. -/
def execGprd (k : Fin 4) (lane : Nat) (s : State) : Host.Outcome State Fault Refusal :=
  gprdIn Config.default k lane s

end Sys2Proof.Machine
end

