-- ==== Sys2Proof/Machine/HostOps.lean ====
section
/-! DEFINITION. The meanings of format HOST: loading and saving (45_host_ops.md R341 to R345). -/

namespace Sys2Proof.Machine

/-- Whether `sig` stands at the head of `bytes`. -/
def startsWith : List Byte → List Byte → Bool
  | [], _ => true
  | _ :: _, [] => false
  | x :: xs, y :: ys => decide (x = y) && startsWith xs ys

/-- The signature that stands at the head of `bytes`, in the order of R345. -/
def signatureAt (c : Config) (bytes : List Byte) : Option BackupType :=
  if startsWith c.sigEeprom bytes then some .eeprom
  else if startsWith c.sigSram bytes then some .sram
  else if startsWith c.sigFlash64A bytes then some .flash64
  else if startsWith c.sigFlash64B bytes then some .flash64
  else if startsWith c.sigFlash128 bytes then some .flash128
  else none

/-- `Detect(image)`: the match at the lowest offset, SRAM if there is none (R345). -/
def detect (c : Config) : List Byte → BackupType
  | [] => .sram
  | b :: bs =>
    match signatureAt c (b :: bs) with
    | some t => t
    | none => detect c bs

/-- The bytes of an image that can be opened and is not empty (R371). -/
def usableImage : ImageArg → Option (List Byte)
  | .unopenable => none
  | .bytes [] => none
  | .bytes (b :: bs) => some (b :: bs)

/-- LOADFW's effect: the firmware region filled, padded with 0x00 (R342). -/
def loadFirmware (c : Config) (image : List Byte) (s : State) : State :=
  ((s.start.setMem (s.mem.fill c.bios.first.toNat c.bios.size image)).setCart { s.cart with biosLoaded := true }).hostResult .ok

/-- LOADFW (R342). -/
def loadfwIn (c : Config) (image : ImageArg) (s : State) : Host.Outcome State Fault Refusal :=
  match usableImage image with
  | none => .next (raiseHostError .loadError s)
  | some bytes => .next (loadFirmware c bytes s)
/-- LOADFW with the defaults of R5. -/
def execLoadfw (image : ImageArg) (s : State) : Host.Outcome State Fault Refusal :=
  loadfwIn Config.default image s

/-- LOADCART's effect: the ROM region filled, the configuration set, all engines fresh (R341). -/
def loadCartridge (c : Config) (image : List Byte) (backup : Option BackupType) (g : GpioType) (s : State) : State :=
  State.hostResult
    { s.start with
      mem := s.mem.fill c.rom.first.toNat c.rom.size image
      cart := ⟨backup.getD (detect c image), g, s.cart.biosLoaded, true⟩
      ee := .fresh
      fl := .fresh
      sram := []
      gpio := .fresh }
    .ok

/-- LOADCART (R341); an image longer than `ROM_MAX` is refused (U4). -/
def loadcartIn (c : Config) (image : ImageArg) (backup : Option BackupType) (g : GpioType) (s : State) : Host.Outcome State Fault Refusal :=
  match usableImage image with
  | none => .next (raiseHostError .loadError s)
  | some bytes =>
    if bytes.length > c.romMax then .refused .imageTooLarge
    else .next (loadCartridge c bytes backup g s)
/-- LOADCART with the defaults of R5. -/
def execLoadcart (image : ImageArg) (backup : Option BackupType) (g : GpioType) (s : State) : Host.Outcome State Fault Refusal :=
  loadcartIn Config.default image backup g s

/-- The EEPROM size a save file of `n` bytes selects (R343). -/
def fileEeSize (c : Config) (n : Nat) : EeSize := if n ≥ c.eeLarge then .large else .small

/-- A save file put into the active backing store (R343). -/
def loadBackup (c : Config) (file : List Byte) (s : State) : State :=
  match s.cart.backupType with
  | .none => s.start.hostResult .ok
  | .eeprom =>
    let sz := fileEeSize c file.length
    (s.start.setEe { s.ee with size := sz, sizeLock := true, data := s.ee.data.fill 0 (eeBytes c sz) file }).hostResult .ok
  | .flash64 => (s.start.setFl { s.fl with data0 := s.fl.data0.fill 0 c.flBankSize file }).hostResult .ok
  | .flash128 =>
    (s.start.setFl { s.fl with
      data0 := s.fl.data0.fill 0 c.flBankSize file
      data1 := s.fl.data1.fill 0 c.flBankSize (file.drop c.flBankSize) }).hostResult .ok
  | .sram => (s.start.setSram (s.sram.fill 0 c.sramSize file)).hostResult .ok

/-- LOADBKP (R343): a missing file is no error and changes nothing. -/
def loadbkpIn (c : Config) (file : FileArg) (s : State) : Host.Outcome State Fault Refusal :=
  match file with
  | .unreadable => .next (raiseHostError .persistenceError s)
  | .missing => .next (s.start.hostResult .ok)
  | .bytes b => .next (loadBackup c b s)
/-- LOADBKP with the defaults of R5. -/
def execLoadbkp (file : FileArg) (s : State) : Host.Outcome State Fault Refusal :=
  loadbkpIn Config.default file s

/-- The bytes SAVEBKP returns (R344). -/
def savedBytes (c : Config) (s : State) : List Byte :=
  match s.cart.backupType with
  | .none => []
  | .eeprom => s.ee.data.dump 0 (eeBytes c s.ee.size)
  | .flash64 => s.fl.data0.dump 0 c.flBankSize
  | .flash128 => s.fl.data0.dump 0 c.flBankSize ++ s.fl.data1.dump 0 c.flBankSize
  | .sram => s.sram.dump 0 c.sramSize

/-- SAVEBKP (R344). -/
def savebkpIn (c : Config) (sink : SinkArg) (s : State) : Host.Outcome State Fault Refusal :=
  match sink with
  | .unwritable => .next (raiseHostError .persistenceError s)
  | .writable => .next (s.start.hostResult (.saved (savedBytes c s)))
/-- SAVEBKP with the defaults of R5. -/
def execSavebkp (sink : SinkArg) (s : State) : Host.Outcome State Fault Refusal :=
  savebkpIn Config.default sink s

end Sys2Proof.Machine
end

