-- ==== Sys2Proof/Machine/Dispatch.lean ====
section
/-! DEFINITION. One arm per operation of spec/opcode_table.json. -/

namespace Sys2Proof.Machine

def exec (i : Instr) (s : State) : Host.Outcome State Fault Refusal :=
  match i with
  | .rd8 a => Sys2Proof.Machine.execRd8 a s
  | .rd16 a => Sys2Proof.Machine.execRd16 a s
  | .rd32 a => Sys2Proof.Machine.execRd32 a s
  | .wr8 a v => Sys2Proof.Machine.execWr8 a v s
  | .wr16 a v => Sys2Proof.Machine.execWr16 a v s
  | .wr32 a v => Sys2Proof.Machine.execWr32 a v s
  | .frd8 a => Sys2Proof.Machine.execFrd8 a s
  | .frd16 a => Sys2Proof.Machine.execFrd16 a s
  | .frd32 a => Sys2Proof.Machine.execFrd32 a s
  | .fwr8 a v => Sys2Proof.Machine.execFwr8 a v s
  | .fwr16 a v => Sys2Proof.Machine.execFwr16 a v s
  | .fwr32 a v => Sys2Proof.Machine.execFwr32 a v s
  | .reset => Sys2Proof.Machine.execReset s
  | .vblank => Sys2Proof.Machine.execVblank s
  | .hblank => Sys2Proof.Machine.execHblank s
  | .fifoA => Sys2Proof.Machine.execFifoA s
  | .fifoB => Sys2Proof.Machine.execFifoB s
  | .dmatick => Sys2Proof.Machine.execDmatick s
  | .sensor v => Sys2Proof.Machine.execSensor v s
  | .cstore a b => Sys2Proof.Machine.execCstore a b s
  | .forcedma ch => Sys2Proof.Machine.execForcedma ch s
  | .loadfw image => Sys2Proof.Machine.execLoadfw image s
  | .loadcart image backup g => Sys2Proof.Machine.execLoadcart image backup g s
  | .loadbkp file => Sys2Proof.Machine.execLoadbkp file s
  | .savebkp sink => Sys2Proof.Machine.execSavebkp sink s
  | .dmasad ch v => Sys2Proof.Machine.execDmasad ch v s
  | .dmadad ch v => Sys2Proof.Machine.execDmadad ch v s
  | .dmacnt ch n => Sys2Proof.Machine.execDmacnt ch n s
  | .dmaarm ch f => Sys2Proof.Machine.execDmaarm ch f s
  | .dmaoff ch f => Sys2Proof.Machine.execDmaoff ch f s
  | .fldata off v => Sys2Proof.Machine.execFldata off v s
  | .flbanksel off v => Sys2Proof.Machine.execFlbanksel off v s
  | .flkey1 => Sys2Proof.Machine.execFlkey1 s
  | .flkey2 => Sys2Proof.Machine.execFlkey2 s
  | .flidenter => Sys2Proof.Machine.execFlidenter s
  | .flidexit => Sys2Proof.Machine.execFlidexit s
  | .flerasesetup => Sys2Proof.Machine.execFlerasesetup s
  | .flchiperase => Sys2Proof.Machine.execFlchiperase s
  | .flprogram => Sys2Proof.Machine.execFlprogram s
  | .flbank => Sys2Proof.Machine.execFlbank s
  | .flsectorerase off => Sys2Proof.Machine.execFlsectorerase off s
  | .flignored _ _ => Sys2Proof.Machine.execFlignored s
  | .flread off => Sys2Proof.Machine.execFlread off s
  | .eerdreq6 src a stop => Sys2Proof.Machine.execEerdreq6 src a stop s
  | .eerdreq14 src a stop => Sys2Proof.Machine.execEerdreq14 src a stop s
  | .eewr6 src a d stop => Sys2Proof.Machine.execEewr6 src a d stop s
  | .eewr14 src a d stop => Sys2Proof.Machine.execEewr14 src a d stop s
  | .eebad src bits => Sys2Proof.Machine.execEebad src bits s
  | .eerdbit a w => Sys2Proof.Machine.execEerdbit a w s
  | .gpwrdata lane b => Sys2Proof.Machine.execGpwrdata lane b s
  | .gpwrdir lane b => Sys2Proof.Machine.execGpwrdir lane b s
  | .gpwrctl lane b => Sys2Proof.Machine.execGpwrctl lane b s
  | .gpwrrsv lane _ => Sys2Proof.Machine.execGpwrrsv lane s
  | .gprd k lane => Sys2Proof.Machine.execGprd k lane s

end Sys2Proof.Machine
end

