-- ==== Sys2Proof/Machine/Configured.lean ====
section
/-! DEFINITION. The block under any configuration: `step : Config -> State -> Event` of 00_scope.md R8, with every parameter of R5 as its configuration says. `exec` and `step` are its instances at the defaults. -/

namespace Sys2Proof.Machine

/-- What an operation does under the configuration `c`. -/
def execIn (c : Config) (i : Instr) (s : State) : Host.Outcome State Fault Refusal :=
  match i with
  | .rd8 a => rd8In c a s
  | .rd16 a => rd16In c a s
  | .rd32 a => rd32In c a s
  | .wr8 a v => wr8In c a v s
  | .wr16 a v => wr16In c a v s
  | .wr32 a v => wr32In c a v s
  | .frd8 a => frd8In c a s
  | .frd16 a => frd16In c a s
  | .frd32 a => frd32In c a s
  | .fwr8 a v => fwr8In c a v s
  | .fwr16 a v => fwr16In c a v s
  | .fwr32 a v => fwr32In c a v s
  | .reset => resetIn c s
  | .vblank => vblankIn c s
  | .hblank => hblankIn c s
  | .fifoA => fifoAIn c s
  | .fifoB => fifoBIn c s
  | .dmatick => dmatickIn c s
  | .sensor v => sensorIn c v s
  | .cstore a b => cstoreIn c a b s
  | .forcedma ch => forcedmaIn c ch s
  | .loadfw image => loadfwIn c image s
  | .loadcart image backup g => loadcartIn c image backup g s
  | .loadbkp file => loadbkpIn c file s
  | .savebkp sink => savebkpIn c sink s
  | .dmasad ch v => dmasadIn c ch v s
  | .dmadad ch v => dmadadIn c ch v s
  | .dmacnt ch n => dmacntIn c ch n s
  | .dmaarm ch f => dmaarmIn c ch f s
  | .dmaoff ch f => dmaoffIn c ch f s
  | .fldata off v => execFldata off v s
  | .flbanksel off v => execFlbanksel off v s
  | .flkey1 => execFlkey1 s
  | .flkey2 => execFlkey2 s
  | .flidenter => execFlidenter s
  | .flidexit => execFlidexit s
  | .flerasesetup => execFlerasesetup s
  | .flchiperase => flchiperaseIn c s
  | .flprogram => execFlprogram s
  | .flbank => execFlbank s
  | .flsectorerase off => flsectoreraseIn c off s
  | .flignored _ _ => execFlignored s
  | .flread off => flreadIn c off s
  | .eerdreq6 src a stop => eerdreq6In c src a stop s
  | .eerdreq14 src a stop => eerdreq14In c src a stop s
  | .eewr6 src a d stop => eewr6In c src a d stop s
  | .eewr14 src a d stop => eewr14In c src a d stop s
  | .eebad src bits => eebadIn c src bits s
  | .eerdbit a w => eerdbitIn c a w s
  | .gpwrdata lane b => gpwrdataIn c lane b s
  | .gpwrdir lane b => gpwrdirIn c lane b s
  | .gpwrctl lane b => execGpwrctl lane b s
  | .gpwrrsv lane _ => execGpwrrsv lane s
  | .gprd k lane => gprdIn c k lane s

/-- The transition function of 00_scope.md R8, the event being the oldest presented word. -/
def stepIn (c : Config) (s : State) : Host.Outcome State Fault Refusal :=
  match s.inputs with
  | [] => .next s.start
  | p :: rest =>
    match decode c s.ctx p with
    | .error e => .refused (.notAnEvent e)
    | .ok i => execIn c i (s.setInputs rest)

end Sys2Proof.Machine
end

