-- ==== Sys2Proof/Machine/Step.lean ====
section
/-! DEFINITION. One step: the oldest presented word is decoded and run (00_scope.md R8); how a table word is placed so that the next step runs it. -/

namespace Sys2Proof.Machine

/-- One step of the block (00_scope.md R8). With nothing presented nothing happens (log entry 2); a word that is no
operation is refused with the decoder's reason (30_encoding.md R111). -/
def step (s : State) : Host.Outcome State Fault Refusal :=
  match s.inputs with
  | [] => .next s.start
  | p :: rest =>
    match decode Config.default s.ctx p with
    | .error e => .refused (.notAnEvent e)
    | .ok i => exec i (s.setInputs rest)

/-- Give the engine a word is for the state in which the word is read as its row (log entry 5). -/
def State.selectFor (s : State) (p : Presented) : State :=
  let x := tableCtx Config.default p
  match p with
  | .flashWrite _ =>
    (s.setCart { s.cart with backupType := x.backup }).setFl
      { s.fl with pending := x.pending, writeArmed := x.writeArmed, writeSingleByte := false, switchBank := false }
  | .flashRead _ => s.setCart { s.cart with backupType := x.backup }
  | .eeBurst _ _ => (s.setCart { s.cart with backupType := x.backup }).setEe { s.ee with sizeLock := false }
  | .eeRead _ _ => s.setCart { s.cart with backupType := x.backup }
  | .gpioWrite _ _ | .gpioRead _ => s.setCart { s.cart with gpioType := x.gpio }
  | .event _ _ | .dmaSad _ _ | .dmaDad _ _ | .dmaCnt _ _ | .dmaCtl _ _ => s

/-- `s` with the table word `w` presented next: the very next step reads and runs it (log entry 5). -/
def State.withFetchWord (s : State) (nbits w : Nat) : State :=
  match tablePresented Config.default nbits w with
  | some p => (s.selectFor p).setInputs (p :: s.inputs)
  | none => s

end Sys2Proof.Machine
end

