-- ==== Sys2Proof/Safety.lean ====
section
/-! DEFINITION. The terms in which claims about the block are made: which instructions access the bus and with what bytes, classes of addresses (20_memory.md R61, R79), runs of instructions, safe DMA runs (93_implementation_defined.md U3), and the invariants (10_state.md R31 and the log's). -/

namespace Sys2Proof.Machine

/-! ## Instructions by kind -/

/-- The address and width in bytes of a classified access: RD8 to WR32 (40_bus_access.md R153). -/
def classifiedAccess : Instr → Option (Addr × Nat)
  | .rd8 a | .wr8 a _ => some (a, 1)
  | .rd16 a | .wr16 a _ => some (a, 2)
  | .rd32 a | .wr32 a _ => some (a, 4)
  | _ => none

/-- The bytes of a half-word in ascending address order (20_memory.md R63). -/
def halfBytes (v : Half) : List Byte := [v.extractLsb' 0 8, v.extractLsb' 8 8]

/-- The bytes of a word in ascending address order (20_memory.md R63). -/
def wordBytes (v : Word) : List Byte := [v.extractLsb' 0 8, v.extractLsb' 8 8, v.extractLsb' 16 8, v.extractLsb' 24 8]

/-- The first address and the bytes of a write transaction, plain or fast. -/
def writeAccess : Instr → Option (Addr × List Byte)
  | .wr8 a v | .fwr8 a v => some (a, [v])
  | .wr16 a v | .fwr16 a v => some (a, halfBytes v)
  | .wr32 a v | .fwr32 a v => some (a, wordBytes v)
  | _ => none

/-- The first address and the number of bytes of a read transaction, plain or fast. -/
def readAccess : Instr → Option (Addr × Nat)
  | .rd8 a | .frd8 a => some (a, 1)
  | .rd16 a | .frd16 a => some (a, 2)
  | .rd32 a | .frd32 a => some (a, 4)
  | _ => none

/-- The trigger event of an instruction that only runs a service pass (41_dma.md R198 to R201). -/
def passEvent : Instr → Option DmaEvent
  | .vblank => some .vblank
  | .hblank => some .hblank
  | .fifoA => some .fifoA
  | .fifoB => some .fifoB
  | _ => none

/-- The instructions that can start a DMA run: writes, the trigger events, the control register rows, DMATICK, FORCEDMA. -/
def mayRunDma (i : Instr) : Bool :=
  (writeAccess i).isSome || (passEvent i).isSome ||
  match i with
  | .dmaarm _ _ | .dmaoff _ _ | .dmatick | .forcedma _ => true
  | _ => false

/-- The instructions that can arm a channel: writes and DMAARM. -/
def mayArm (i : Instr) : Bool :=
  (writeAccess i).isSome ||
  match i with
  | .dmaarm _ _ => true
  | _ => false

/-- Instructions one after another, stopping at the first fault or refusal. -/
def execAll : List Instr → State → Host.Outcome State Fault Refusal
  | [], s => .next s
  | i :: l, s =>
    match exec i s with
    | .next t => execAll l t
    | .fault f => .fault f
    | .refused r => .refused r

/-- The state after an instruction that completes. -/
def afterRow (i : Instr) (s : State) : State :=
  match exec i s with
  | .next t => t
  | .fault _ | .refused _ => s

/-- What a plain access adds to the outcome of the fast access of its width: the class of the access, reported and recorded in
`tc` (40_bus_access.md R143 to R145, R153). -/
def withClass (a : Addr) (n : Nat) (s : State) : Host.Outcome State Fault Refusal → Host.Outcome State Fault Refusal
  | .next t => .next { t with
      tc := (classify Config.default s.cart.gpioType s.tc a n).2
      out := { t.out with cls := some (classify Config.default s.cart.gpioType s.tc a n).1 } }
  | .fault f => .fault f
  | .refused r => .refused r

/-- The bytes of a write one after another, each FWR8 of its own, at ascending addresses, their signals in order
(20_memory.md R65, 40_bus_access.md R150). -/
def bytesInTurn : Addr → List Byte → State → Host.Outcome State Fault Refusal
  | _, [], s => .next { s with out := .empty }
  | a, b :: bs, s =>
    match exec (.fwr8 a b) s with
    | .next t =>
      match bytesInTurn (a + 1) bs t with
      | .next u => .next { u with out := { u.out with signals := t.out.signals ++ u.out.signals } }
      | .fault f => .fault f
      | .refused r => .refused r
    | .fault f => .fault f
    | .refused r => .refused r

/-! ## Addresses -/

/-- RAM-class regions (20_memory.md R61, R78). -/
def isRamTag : Tag → Bool
  | .wram | .iwram | .pal | .vram | .oam => true
  | .bios | .io | .rom | .bkp | .gpio | .unmapped => false

/-- Tags whose bytes are bytes of `AS` (40_bus_access.md R147). -/
def isStoreTag : Tag → Bool
  | .bios | .wram | .iwram | .io | .pal | .vram | .oam | .rom => true
  | .bkp | .gpio | .unmapped => false

/-- A byte of `CNT_H(c)`, for some channel (10_state.md R25). -/
def isCntHByte (c : Config) (a : Addr) : Bool :=
  ([0, 1, 2, 3] : List Chan).any fun ch => decide (a = cntHAddr c ch) || decide (a = cntHAddr c ch + 1)

/-- A byte for which a write followed by a read gives the written value back (20_memory.md R79): RAM, the I/O region but for
`CNT_H`, the backup window under SRAM. -/
def roundTripByte (c : Config) (s : State) (a : Addr) : Bool :=
  match decodeTag c s.cart.gpioType a with
  | .wram | .iwram | .pal | .vram | .oam => true
  | .io => !isCntHByte c a
  | .bkp => decide (s.cart.backupType = .sram)
  | .bios | .rom | .gpio | .unmapped => false

/-- A byte to which writes are ignored (20_memory.md R68). -/
def ignoresWrites (c : Config) (s : State) (a : Addr) : Bool :=
  match decodeTag c s.cart.gpioType a with
  | .bios | .rom | .unmapped => true
  | .bkp => decide (s.cart.backupType = .none) || decide (s.cart.backupType = .eeprom)
  | .wram | .iwram | .io | .pal | .vram | .oam | .gpio => false

/-- Offset `off` of the backup window (43_flash.md). -/
def bkpAddr (c : Config) (off : Half) : Addr := c.bkp.first + off.setWidth 32

/-! ## Safe runs -/

/-- The destination pointer after `k` units (41_dma.md R194). -/
def dstAfter (x : DmaChan) : Nat → Addr
  | 0 => x.dst
  | k + 1 => stepPtr (dstAfter x k) (ctlDac x.ctrl) x.width

/-- A pointer after `k` units, by its address control (41_dma.md R194). -/
def ptrAt (p : Addr) (mode : AddrCtl) (w : UnitWidth) (k : Nat) : Addr :=
  match mode with
  | .inc | .reload => p + BitVec.ofNat 32 (k * unitBytes w)
  | .dec => p - BitVec.ofNat 32 (k * unitBytes w)
  | .fixed => p

/-- The source of unit `k` of a channel's pass. -/
def srcUnit (x : DmaChan) (k : Nat) : Addr := ptrAt x.src (ctlSac x.ctrl) x.width k

/-- The destination of unit `k` of a channel's pass. -/
def dstUnit (x : DmaChan) (k : Nat) : Addr := ptrAt x.dst (ctlDac x.ctrl) x.width k

/-- No unit of the channel's pass writes a byte of the DMA register block (70_reset_and_hazards.md R404). -/
def safeRun (c : Config) (x : DmaChan) : Prop :=
  ∀ k, k < unitsLeft x → ∀ j, j < unitBytes x.width → inDmaBlock c (dstAfter x k + BitVec.ofNat 32 j) = false

/-- The channel number of an interrupt pulse. -/
def irqOf : Signal → Option Chan
  | .irq ch => some ch
  | .forward _ _ _ | .gpioOut _ => none

/-! ## The units of a run as transactions -/

/-- The row that reads one unit: EERDBIT in the EEPROM window, elsewhere the fast read of the unit's width (41_dma.md R193). -/
def unitReadRow (s : State) (a : Addr) (w : UnitWidth) : Instr :=
  if inEepWindow Config.default s a then .eerdbit a w
  else match w with
    | .half => .frd16 a
    | .word => .frd32 a

/-- The row that writes one unit outside the EEPROM window: the fast write of the unit's width (41_dma.md R193). -/
def unitWriteRow (a : Addr) (w : UnitWidth) (v : Word) : Instr :=
  match w with
  | .half => .fwr16 a (v.setWidth 16)
  | .word => .fwr32 a v

/-- The value a row answers, as a word. -/
def valueWord : Option ReadValue → Word
  | some (.byte v) => v.setWidth 32
  | some (.half v) => v.setWidth 32
  | some (.word v) => v
  | none => 0

/-- One unit: the row that reads it, then the row that writes it, its signals after the earlier ones; in the EEPROM window
bit 0 of the value is shifted in instead (41_dma.md R193). -/
def unitByRows (src dst : Addr) (w : UnitWidth) (s : State) : State :=
  let r := afterRow (unitReadRow s src w) s
  let v := valueWord r.out.value
  if inEepWindow Config.default s dst then { r with ee := eepromShiftIn (v.getLsbD 0) src r.ee, out := s.out }
  else
    let u := afterRow (unitWriteRow dst w v) r
    { u with out := { s.out with signals := s.out.signals ++ u.out.signals } }

/-- The first `n` units of a channel's pass, by rows (41_dma.md R192, R194). -/
def unitsByRows (x : DmaChan) (s : State) : Nat → State
  | 0 => s
  | n + 1 => unitByRows (srcUnit x n) (dstUnit x n) x.width (unitsByRows x s n)

/-- The value unit `n` of a channel's pass reads. -/
def unitWord (x : DmaChan) (s : State) (n : Nat) : Word :=
  valueWord (afterRow (unitReadRow s (srcUnit x n) x.width) (unitsByRows x s n)).out.value

/-- The units of a channel's pass that go into the EEPROM window. -/
def windowUnits (x : DmaChan) (s : State) : List Nat :=
  (List.range (unitsLeft x)).filter fun n => inEepWindow Config.default s (dstUnit x n)

/-- A byte that some unit of a channel's pass writes. -/
def passWrites (x : DmaChan) (b : Addr) : Prop :=
  ∃ n j, n < unitsLeft x ∧ j < unitBytes x.width ∧ b = dstUnit x n + BitVec.ofNat 32 j

/-- No unit of a channel's pass reads or writes in the EEPROM window. -/
def passAvoidsEeprom (x : DmaChan) (s : State) : Prop :=
  ∀ n, n < unitsLeft x →
    inEepWindow Config.default s (srcUnit x n) = false ∧ inEepWindow Config.default s (dstUnit x n) = false

/-! ## The runs of an instruction -/

/-- The control registers committed, without the service pass after them (40_bus_access.md R152). -/
def committed (touched : List Chan) (s : State) : State :=
  match commitList Config.default touched (channels Config.default) s with
  | .ok t => t
  | .error _ => s

/-- The bytes of a write stored, without the register side effects (40_bus_access.md R150). -/
def stored (a : Addr) (bs : List Byte) (s : State) : State :=
  match writeBytes Config.default .cpu a bs s with
  | .ok t => t
  | .error _ => s

/-- The state in which the runs of an instruction begin: after its own effect, before the service pass (40_bus_access.md R152,
41_dma.md R184, R185, R190, R202). -/
def beforeRuns (i : Instr) (s : State) : State :=
  match i with
  | .dmatick => tickAll s.start
  | .dmaarm ch f => committed [ch] (storeReg16 (cntHAddr Config.default ch) (f.toHalf true) s)
  | .dmaoff ch f => committed [ch] (storeReg16 (cntHAddr Config.default ch) (f.toHalf false) s)
  | _ =>
    match writeAccess i with
    | some (a, bs) => committed (touchedCntH Config.default s.cart.gpioType a bs.length) (stored a bs s.start)
    | none => s.start

/-- The channels that an event makes run in a state. -/
def channelsReady (s : State) (ev : DmaEvent) : List Chan :=
  ([0, 1, 2, 3] : List Chan).filter fun k => eligible Config.default k (s.chan k) ev

/-- The channels an instruction runs, in order (40_bus_access.md R152, 41_dma.md R190, R202, R203). -/
def runChans (i : Instr) (s : State) : List Chan :=
  match i with
  | .vblank => channelsReady s .vblank
  | .hblank => channelsReady s .hblank
  | .fifoA => channelsReady s .fifoA
  | .fifoB => channelsReady s .fifoB
  | .forcedma ch => if (s.chan ch).enabled = true ∧ (s.chan ch).running = false then [ch] else []
  | .dmatick | .dmaarm _ _ | .dmaoff _ _ => channelsReady (beforeRuns i s) .none
  | _ =>
    match writeAccess i with
    | some (a, bs) =>
      if touchedCntH Config.default s.cart.gpioType a bs.length = [] then [] else channelsReady (beforeRuns i s) .none
    | none => []

/-- The bytes an instruction writes itself, its runs apart. -/
def ownBytes (i : Instr) : List Addr :=
  match i with
  | .dmaarm ch _ | .dmaoff ch _ => [cntHAddr Config.default ch, cntHAddr Config.default ch + 1]
  | _ =>
    match writeAccess i with
    | some (a, bs) => (List.range bs.length).map fun k => a + BitVec.ofNat 32 k
    | none => []

/-! ## EEPROM bursts -/

/-- The eight bytes of a page replaced by the 64 data bits of a write, byte by byte, the first bit the most significant
(42_eeprom.md R234, R242). -/
def pageReplaced (page : Nat) (d : BitVec 64) (m : Memory) : Memory :=
  (List.range 8).foldl (fun m j => m.write (8 * page + j) (d.extractLsb' (8 * (7 - j)) 8)) m

/-- What one burst does to the EEPROM's bytes, size and lock, by the row its bits are read as: an accepted request fixes the
size, an accepted write replaces one page, a malformed burst does nothing (42_eeprom.md R234 to R240, R244). -/
def burstEffect (x : Memory × EeSize × Bool) (bits : List Bool) : Memory × EeSize × Bool :=
  match decodeBurst ⟨.eeprom, .disabled, false, false, false, .none, x.2.1, x.2.2⟩ 0 bits with
  | .eerdreq6 _ _ _ => (x.1, .small, true)
  | .eerdreq14 _ _ _ => (x.1, .large, true)
  | .eewr6 _ a d _ => (pageReplaced (a.toNat % 64) d x.1, .small, true)
  | .eewr14 _ a d _ => (pageReplaced (a.toNat % 1024) d x.1, .large, true)
  | _ => x

/-- The bits of the row of a whole burst. -/
def burstBits : Instr → Option (List Bool)
  | .eerdreq6 _ a stop => some (readRequestBits a stop)
  | .eerdreq14 _ a stop => some (readRequestBits a stop)
  | .eewr6 _ a d stop => some (writeBits a d stop)
  | .eewr14 _ a d stop => some (writeBits a d stop)
  | .eebad _ bits => some bits
  | _ => none

/-- The burst of a channel's pass: bit 0 of each unit that goes into the EEPROM window (41_dma.md R193, 42_eeprom.md R233). -/
def passBurst (x : DmaChan) (s : State) : List Bool := (windowUnits x s).map fun n => (unitWord x s n).getLsbD 0

/-- The bursts of runs one after another. -/
def burstsInTurn : List Chan → State → List (List Bool)
  | [], _ => []
  | ch :: l, s => passBurst (s.chan ch) s :: burstsInTurn l (afterRow (.forcedma ch) s)

/-- The bursts of an instruction: the one it is, or those of the runs it starts. -/
def burstsOf (i : Instr) (s : State) : List (List Bool) :=
  match burstBits i with
  | some bits => if s.cart.backupType = .eeprom then [bits] else []
  | none => burstsInTurn (runChans i s) (beforeRuns i s)

/-! ## Invariants -/

/-- Every store is in its canonical form and lists only addresses the store has. -/
def State.storesOk (c : Config) (s : State) : Bool :=
  s.mem.wf && s.sram.wf && s.ee.data.wf && s.fl.data0.wf && s.fl.data1.wf
  && s.mem.within (inAddressSpace c)
  && s.sram.within (fun o => decide (o < c.sramWindow))
  && s.ee.data.within (fun o => decide (o < c.eeLarge))
  && s.fl.data0.within (fun o => decide (o < c.flBankSize))
  && s.fl.data1.within (fun o => decide (o < c.flBankSize))

/-- A channel between steps: not running (10_state.md R31 (b)), enabled exactly when bit 15 of its `CNT_H` is 1 (R26, R33),
at the start of its pass while Armed, its control captured from a legal `CNT_H`. -/
def State.chanOk (c : Config) (s : State) (ch : Chan) : Prop :=
  (s.chan ch).running = false
  ∧ (s.chan ch).enabled = ctlEnable (cntHOf c s ch)
  ∧ ((s.chan ch).enabled = true → (s.chan ch).cursor = 0)
  ∧ (s.chan ch).cursor.toNat ≤ (s.chan ch).count.toNat
  ∧ (s.chan ch).count.toNat ≤ 65535
  ∧ (s.chan ch).ctrl &&& 0x1F = 0
  ∧ ctlSac (s.chan ch).ctrl ≠ .reload
  ∧ (s.chan ch).width = ctlWidth (s.chan ch).ctrl
  ∧ (s.chan ch).delay ≤ c.dmaStartDelay
  ∧ cntHOf c s ch &&& 0x1F = 0

/-- Every channel is as it must be between steps. -/
def State.dmaOk (c : Config) (s : State) : Prop := ∀ ch, s.chanOk c ch

/-- The EEPROM engine between steps (10_state.md R31 (d)): no burst is in progress, a reply is within its 68 bits. -/
def Eeprom.ok (c : Config) (ee : Eeprom) : Prop :=
  match ee.phase with
  | .idle => ee.cursor = 0
  | .readOut => ee.cursor ≤ c.eeDummy + 63 ∧ ee.sizeLock = true
  | .shiftIn => False

/-- The Flash engine (10_state.md R31 (c), 43_flash.md R271): bank 0 under Flash64, at most one pending flag, and none beside an
unlock prefix or an armed erase. -/
def Flash.ok (bt : BackupType) (fl : Flash) : Prop :=
  (bt = .flash64 → fl.bank = .bank0 ∧ fl.switchBank = false ∧ fl.data1 = [])
  ∧ (fl.writeSingleByte = true → fl.switchBank = false)
  ∧ (fl.writeSingleByte = true ∨ fl.switchBank = true → fl.pending = .none ∧ fl.writeArmed = false)

/-- The GPIO fields hold implemented bits only (10_state.md R29). -/
def Gpio.ok (c : Config) (g : Gpio) : Prop :=
  g.direction &&& c.gpioMask = g.direction ∧ g.inLatch &&& c.gpioMask = g.inLatch ∧ g.outLatch &&& c.gpioMask = g.outLatch

/-- The engines the cartridge does not have hold their default state (10_state.md R31 (a)). -/
def State.inactiveOk (s : State) : Prop :=
  (s.cart.backupType ≠ .eeprom → s.ee = .fresh)
  ∧ (s.cart.backupType.isFlash = false → s.fl = .fresh)
  ∧ (s.cart.backupType ≠ .sram → s.sram = [])
  ∧ (s.cart.gpioType = .disabled → s.gpio = .fresh)

/-- All engines between steps. -/
def State.enginesOk (c : Config) (s : State) : Prop :=
  s.ee.ok c ∧ s.fl.ok s.cart.backupType ∧ s.gpio.ok c ∧ s.inactiveOk

end Sys2Proof.Machine
end

