-- ==== Sys2Proof/Certificates/Slice0/Obligations.lean ====
section
/-! DEFINITION. The statements about the block, for the provers. `Config.default` is the configuration of 00_scope.md R5 throughout. -/

open Sys2Proof Sys2Proof.Machine

/-! ## Steps and encodings -/

/-- A step decodes the oldest presented word and runs it on the state without that word; a word that is no operation is
refused with the decoder's reason; with nothing presented only the outputs are cleared (log entry 2). The same under any
configuration; the machine's step is that of the defaults (log entry 1). -/
def Obligations.StepRunsDecodedInstruction : Prop :=
  (∀ (s : State) (p : Presented) (rest : List Presented) (i : Instr), s.inputs = p :: rest →
    decode Config.default s.ctx p = .ok i → step s = exec i { s with inputs := rest })
  ∧ (∀ (s : State) (p : Presented) (rest : List Presented) (e : DecodeError), s.inputs = p :: rest →
    decode Config.default s.ctx p = .error e → step s = .refused (.notAnEvent e))
  ∧ (∀ s : State, s.inputs = [] → step s = .next { s with out := .empty })
  ∧ (∀ (c : Config) (s : State) (p : Presented) (rest : List Presented) (i : Instr), s.inputs = p :: rest →
    decode c s.ctx p = .ok i → stepIn c s = execIn c i { s with inputs := rest })
  ∧ (∀ s : State, step s = stepIn Config.default s)

/-- Words written out from the encodings of R100 to R108 decode to the operations they stand for. -/
def Obligations.SpecWordsDecode : Prop :=
  decode Config.default State.reset.ctx (.event [0x01, 0x03, 0x00, 0x00, 0x01, 0x00, 0x00, 0x00, 0x00] .none)
    = .ok (.rd16 0x03000001)
  ∧ decode Config.default State.reset.ctx (.event [0x06, 0x02, 0x03, 0xFF, 0xFE, 0xAA, 0xBB, 0xCC, 0xDD] .none)
    = .ok (.wr32 0x0203FFFE 0xAABBCCDD)
  ∧ decode Config.default State.reset.ctx (.event [0x1A, 0, 0, 0, 0, 0, 0, 0, 0] .none) = .ok (.forcedma 2)
  ∧ decode Config.default State.reset.ctx (.dmaCtl 1 0x9260)
    = .ok (.dmaarm 1 ⟨false, .vblank, false, .half, true, .inc, .reload⟩)
  ∧ decode Config.default ⟨.flash128, .disabled, false, false, true, .key2, .small, false⟩ (.flashWrite 0x300030)
    = .ok (.flsectorerase 0x3000)
  ∧ decode Config.default ⟨.eeprom, .disabled, false, false, false, .none, .small, false⟩
      (.eeBurst 0x02000000 [true, true, false, false, false, true, false, true, false])
    = .ok (.eerdreq6 0x02000000 5 false)
  ∧ decode Config.default ⟨.none, .rumble, false, false, false, .none, .small, false⟩ (.gpioWrite 0x080000C6 0x01)
    = .ok (.gpwrdir 0 0x01)

/-- Every well-formed instruction is read back from its word, in every engine state in which its row is selected. -/
def Obligations.DecodeOfEncode : Prop :=
  ∀ (i : Instr) (x : DecodeCtx), i.WellFormed = true → i.selectedIn Config.default x = true →
    decode Config.default x (encode Config.default i) = .ok i

/-- Whatever is decoded is a well-formed instruction, in an engine state in which its row is selected. -/
def Obligations.DecodedIsWellFormedAndSelected : Prop :=
  ∀ (x : DecodeCtx) (p : Presented) (i : Instr), decode Config.default x p = .ok i →
    i.WellFormed = true ∧ i.selectedIn Config.default x = true

/-- A header byte starts an event exactly when it is none of 0x03, 0x07, 0x0B, 0x0F, 0x1C to 0x1F, 0x24 and above. -/
def Obligations.ReservedHeadersAreNoEvents : Prop :=
  ∀ (x : DecodeCtx) (h : Byte) (addr data : Word),
    (∃ (side : Side) (i : Instr), decode Config.default x (.event (eventBytes h addr data) side) = .ok i)
      ↔ ¬ (h = 0x03 ∨ h = 0x07 ∨ h = 0x0B ∨ h = 0x0F ∨ (0x1C ≤ h ∧ h ≤ 0x1F) ∨ 0x24 ≤ h)

/-- `Decode(a)`, with the region bounds written out. -/
def Obligations.DecodeMapsAddressToRegion : Prop :=
  ∀ (g : GpioType) (a : Addr), decodeAddr Config.default g a =
    if g ≠ .disabled ∧ 0x080000C4 ≤ a ∧ a ≤ 0x080000CB then (.gpio, a - 0x080000C4)
    else if a ≤ 0x00003FFF then (.bios, a)
    else if 0x02000000 ≤ a ∧ a ≤ 0x0203FFFF then (.wram, a - 0x02000000)
    else if 0x03000000 ≤ a ∧ a ≤ 0x03007FFF then (.iwram, a - 0x03000000)
    else if 0x04000000 ≤ a ∧ a ≤ 0x040003FF then (.io, a - 0x04000000)
    else if 0x05000000 ≤ a ∧ a ≤ 0x050003FF then (.pal, a - 0x05000000)
    else if 0x06000000 ≤ a ∧ a ≤ 0x06017FFF then (.vram, a - 0x06000000)
    else if 0x07000000 ≤ a ∧ a ≤ 0x070003FF then (.oam, a - 0x07000000)
    else if 0x08000000 ≤ a ∧ a ≤ 0x0DFFFFFF then (.rom, a - 0x08000000)
    else if 0x0E000000 ≤ a ∧ a ≤ 0x0E00FFFF then (.bkp, a - 0x0E000000)
    else (.unmapped, a)

/-! ## Bus reads -/

/-- What one byte reads as, by where it lies. -/
def Obligations.ByteReadByRegion : Prop :=
  ∀ (s : State) (a : Addr),
    (isStoreTag (decodeTag Config.default s.cart.gpioType a) = true → readByte Config.default s a = s.asByte a)
    ∧ (decodeTag Config.default s.cart.gpioType a = .bkp →
        (s.cart.backupType = .sram → readByte Config.default s a = s.sram.read (a - 0x0E000000).toNat)
        ∧ (s.cart.backupType = .flash64 ∨ s.cart.backupType = .flash128 →
            readByte Config.default s a = flashRead Config.default s.cart.backupType s.fl ((a - 0x0E000000).setWidth 16))
        ∧ (s.cart.backupType = .none ∨ s.cart.backupType = .eeprom → readByte Config.default s a = 0x00))
    ∧ (decodeTag Config.default s.cart.gpioType a = .unmapped → readByte Config.default s a = 0x00)

/-- RD8, RD16, RD32: the value is the bytes read at ascending addresses, little-endian, at any alignment; the class is
`Classify`'s; only `tc` changes. -/
def Obligations.ReadsReturnBytesLittleEndian : Prop :=
  ∀ (s : State) (a : Addr),
    exec (.rd8 a) s = .next { s with
      tc := (classify Config.default s.cart.gpioType s.tc a 1).2
      out := ⟨some (.byte (readByte Config.default s a)),
        some (classify Config.default s.cart.gpioType s.tc a 1).1, [], none⟩ }
    ∧ exec (.rd16 a) s = .next { s with
      tc := (classify Config.default s.cart.gpioType s.tc a 2).2
      out := ⟨some (.half (readByte Config.default s (a + 1) ++ readByte Config.default s a)),
        some (classify Config.default s.cart.gpioType s.tc a 2).1, [], none⟩ }
    ∧ exec (.rd32 a) s = .next { s with
      tc := (classify Config.default s.cart.gpioType s.tc a 4).2
      out := ⟨some (.word (readByte Config.default s (a + 3) ++ readByte Config.default s (a + 2)
          ++ readByte Config.default s (a + 1) ++ readByte Config.default s a)),
        some (classify Config.default s.cart.gpioType s.tc a 4).1, [], none⟩ }

/-- FRD8, FRD16, FRD32: the value that RD8, RD16, RD32 give in the same state, no class, and no field of the state
changes, `tc` included. -/
def Obligations.FastReadsChangeNothing : Prop :=
  ∀ (s : State) (a : Addr),
    (∃ t v, exec (.rd8 a) s = .next t ∧ t.out.value = some v
      ∧ exec (.frd8 a) s = .next { s with out := ⟨some v, none, [], none⟩ })
    ∧ (∃ t v, exec (.rd16 a) s = .next t ∧ t.out.value = some v
      ∧ exec (.frd16 a) s = .next { s with out := ⟨some v, none, [], none⟩ })
    ∧ (∃ t v, exec (.rd32 a) s = .next t ∧ t.out.value = some v
      ∧ exec (.frd32 a) s = .next { s with out := ⟨some v, none, [], none⟩ })

/-- The timing class of every classified access, read or write, and that nothing else but RESET touches `tc`. -/
def Obligations.TimingClassOfEveryAccess : Prop :=
  ∀ (i : Instr) (s t : State), exec i s = .next t →
    (∀ a n, classifiedAccess i = some (a, n) →
      (decodeTag Config.default s.cart.gpioType a = .unmapped →
        t.out.cls = some .nonseq ∧ t.tc = { s.tc with valid := false })
      ∧ (decodeTag Config.default s.cart.gpioType a ≠ .unmapped →
        (t.out.cls = some .seq ↔
          s.tc.valid = true ∧ s.tc.region = decodeTag Config.default s.cart.gpioType a ∧ s.tc.endAddr = a)
        ∧ (t.out.cls = some .seq ∨ t.out.cls = some .nonseq)
        ∧ t.tc = ⟨true, decodeTag Config.default s.cart.gpioType a, a + BitVec.ofNat 32 n⟩))
    ∧ (classifiedAccess i = none → i ≠ .reset → t.tc = s.tc ∧ t.out.cls = none)

/-! ## Bus writes -/

/-- A write that touches no byte of a `CNT_H` completes, for all six transactions, at any alignment and under every
cartridge; its frame: configuration, channels, EEPROM engine, every byte of `AS` outside the written ones, and the engine of
every window the write does not reach. Such a write of any width is FWR8 of its bytes one after another, at ascending addresses,
whatever windows they fall in, their signals in that order. Any plain write, of a `CNT_H` too, is the fast write of its width, but
for the class it reports and records. -/
def Obligations.WritesCompleteWithFrame : Prop :=
  (∀ (i : Instr) (a : Addr) (bs : List Byte) (s : State), writeAccess i = some (a, bs) →
    (∀ k, k < bs.length → isCntHByte Config.default (a + BitVec.ofNat 32 k) = false) →
    ∃ t, exec i s = .next t
      ∧ t.cart = s.cart ∧ t.dma = s.dma ∧ t.ee = s.ee ∧ t.inputs = s.inputs ∧ t.free = s.free
      ∧ (classifiedAccess i = none → t.tc = s.tc)
      ∧ (∀ b : Addr, (∀ k, k < bs.length → b ≠ a + BitVec.ofNat 32 k) → t.asByte b = s.asByte b)
      ∧ ((∀ k, k < bs.length → decodeTag Config.default s.cart.gpioType (a + BitVec.ofNat 32 k) ≠ .bkp) →
          t.fl = s.fl ∧ t.sram = s.sram)
      ∧ (∀ o : Nat, (∀ k, k < bs.length → o ≠ ((a + BitVec.ofNat 32 k) - 0x0E000000).toNat) →
          t.sram.read o = s.sram.read o)
      ∧ ((∀ k, k < bs.length → decodeTag Config.default s.cart.gpioType (a + BitVec.ofNat 32 k) ≠ .gpio) →
          t.gpio = s.gpio))
  ∧ (∀ (i : Instr) (a : Addr) (bs : List Byte) (s : State), writeAccess i = some (a, bs) → classifiedAccess i = none →
    (∀ k, k < bs.length → isCntHByte Config.default (a + BitVec.ofNat 32 k) = false) → exec i s = bytesInTurn a bs s)
  ∧ (∀ (s : State) (a : Addr),
    (∀ v, exec (.wr8 a v) s = withClass a 1 s (exec (.fwr8 a v) s))
    ∧ (∀ v, exec (.wr16 a v) s = withClass a 2 s (exec (.fwr16 a v) s))
    ∧ (∀ v, exec (.wr32 a v) s = withClass a 4 s (exec (.fwr32 a v) s)))

/-- The round-trip law: where every byte lies in a RAM-class region, in the I/O region outside `CNT_H`, or in the backup window
under SRAM, the value written is the value read, at any alignment. -/
def Obligations.WriteThenReadRoundTrip : Prop :=
  ∀ (s : State) (a : Addr),
    (∀ v, roundTripByte Config.default s a = true →
      (∃ t u, exec (.wr8 a v) s = .next t ∧ exec (.rd8 a) t = .next u ∧ u.out.value = some (.byte v))
      ∧ (∃ t u, exec (.fwr8 a v) s = .next t ∧ exec (.frd8 a) t = .next u ∧ u.out.value = some (.byte v)))
    ∧ (∀ v, (∀ k, k < 2 → roundTripByte Config.default s (a + BitVec.ofNat 32 k) = true) →
      (∃ t u, exec (.wr16 a v) s = .next t ∧ exec (.rd16 a) t = .next u ∧ u.out.value = some (.half v))
      ∧ (∃ t u, exec (.fwr16 a v) s = .next t ∧ exec (.frd16 a) t = .next u ∧ u.out.value = some (.half v)))
    ∧ (∀ v, (∀ k, k < 4 → roundTripByte Config.default s (a + BitVec.ofNat 32 k) = true) →
      (∃ t u, exec (.wr32 a v) s = .next t ∧ exec (.rd32 a) t = .next u ∧ u.out.value = some (.word v))
      ∧ (∃ t u, exec (.fwr32 a v) s = .next t ∧ exec (.frd32 a) t = .next u ∧ u.out.value = some (.word v)))

/-- A write all of whose bytes fall in BIOS, ROM outside an active GPIO window, unmapped space, or the backup window
without a device, changes nothing but the timing bookkeeping, and emits nothing. -/
def Obligations.IgnoredWritesChangeNothing : Prop :=
  ∀ (i : Instr) (a : Addr) (bs : List Byte) (s : State), writeAccess i = some (a, bs) →
    (∀ k, k < bs.length → ignoresWrites Config.default s (a + BitVec.ofNat 32 k) = true) →
    ∃ t, exec i s = .next t ∧ t = { s with tc := t.tc, out := t.out }
      ∧ t.out.signals = [] ∧ t.out.value = none ∧ t.out.host = none

/-- A byte written to the I/O region: stored; forwarded to the LCD, the APU or the Timer when it is theirs; stored alone
elsewhere, and in the DMA block but for `CNT_H`. -/
def Obligations.IoByteIsStoredAndForwarded : Prop :=
  ∀ (s : State) (a : Addr) (b : Byte), 0x04000000 ≤ a → a ≤ 0x040003FF → isCntHByte Config.default a = false →
    exec (.fwr8 a b) s = .next { s with
      mem := s.mem.write a.toNat b
      out := ⟨none, none,
        if a ≤ 0x0400005F then [.forward .lcd a b]
        else if a ≤ 0x040000AF then [.forward .apu a b]
        else if 0x04000100 ≤ a ∧ a ≤ 0x0400010F then [.forward .tmr a b]
        else [], none⟩ }

/-- CSTORE: one byte of `AS` if a collaborator owns the address, else nothing; no mask, no forward, no class, no service pass. -/
def Obligations.CollaboratorStore : Prop :=
  ∀ (s : State) (a : Addr) (b : Byte),
    ∃ t, exec (.cstore a b) s = .next t ∧ t = { s with mem := t.mem, out := .empty }
      ∧ ∀ a' : Addr, t.asByte a' =
        if a' = a ∧ ((0x04000000 ≤ a ∧ a ≤ 0x0400005F) ∨ (0x04000060 ≤ a ∧ a ≤ 0x040000AF)
          ∨ (0x04000100 ≤ a ∧ a ≤ 0x0400010F)) then b else s.asByte a'

/-! ## DMA registers -/

/-- A bus write of a whole DMA register is the register's row: DMASAD, DMADAD, DMACNT, and DMAARM or DMAOFF by bit 15. A write
of any width, plain or fast, that covers one or both bytes of a `CNT_H` stores its bytes (the low byte of `CNT_H` masked) and then
is DMAARM or DMAOFF of the merged register, once, after its last byte; a plain one gives its class as well. That a row's operand is
the whole register is log entry 16. The memory is canonical and the register's reserved bits are 0, as StepKeepsStores and
StepKeepsChannels keep them. -/
def Obligations.RegisterWritesAreTheirRows : Prop :=
  ∀ (s : State) (ch : Chan),
    (∀ v, exec (.fwr32 (sadAddr Config.default ch) v) s = exec (.dmasad ch v) s)
    ∧ (∀ v, exec (.fwr32 (dadAddr Config.default ch) v) s = exec (.dmadad ch v) s)
    ∧ (∀ v, exec (.fwr16 (cntLAddr Config.default ch) v) s = exec (.dmacnt ch v) s)
    ∧ (∀ v : Half, v.getLsbD 15 = true →
        exec (.fwr16 (cntHAddr Config.default ch) v) s = exec (.dmaarm ch (CtlFields.ofHalf v)) s)
    ∧ (∀ v : Half, v.getLsbD 15 = false →
        exec (.fwr16 (cntHAddr Config.default ch) v) s = exec (.dmaoff ch (CtlFields.ofHalf v)) s)
    ∧ (∀ (i : Instr) (a : Addr) (bs : List Byte), writeAccess i = some (a, bs) → s.mem.wf = true →
        cntHOf Config.default s ch &&& 0x1F = 0 →
        (∃ k, k < bs.length ∧ (a + BitVec.ofNat 32 k = cntHAddr Config.default ch
          ∨ a + BitVec.ofNat 32 k = cntHAddr Config.default ch + 1)) →
        ∃ (u : State) (row : Instr) (cls : Option TimingClass),
          u = { s with mem := u.mem, tc := u.tc, out := .empty }
          ∧ (∀ k b, bs[k]? = some b → u.asByte (a + BitVec.ofNat 32 k)
              = if a + BitVec.ofNat 32 k = cntHAddr Config.default ch then b &&& 0xE0 else b)
          ∧ (∀ b : Addr, (∀ k, k < bs.length → b ≠ a + BitVec.ofNat 32 k) → u.asByte b = s.asByte b)
          ∧ (classifiedAccess i = none → u.tc = s.tc ∧ cls = none)
          ∧ (∀ n, classifiedAccess i = some (a, n) → u.tc = (classify Config.default s.cart.gpioType s.tc a n).2
              ∧ cls = some (classify Config.default s.cart.gpioType s.tc a n).1)
          ∧ row = (if (cntHOf Config.default u ch).getLsbD 15 = true
              then .dmaarm ch (CtlFields.ofHalf (cntHOf Config.default u ch))
              else .dmaoff ch (CtlFields.ofHalf (cntHOf Config.default u ch)))
          ∧ (∀ t, exec row u = .next t → exec i s = .next { t with out := { t.out with cls := cls } })
          ∧ (∀ r, exec row u = .refused r → exec i s = .refused r))

/-- DMASAD, DMADAD, DMACNT store their register and do nothing else: the working copies stay, nothing runs. -/
def Obligations.RegisterRowsStoreOnly : Prop :=
  ∀ (s : State) (ch : Chan),
    (∀ v, ∃ t, exec (.dmasad ch v) s = .next t ∧ t = { s with mem := t.mem, out := .empty }
      ∧ sadOf Config.default t ch = v
      ∧ ∀ b : Addr, 4 ≤ (b - sadAddr Config.default ch).toNat → t.asByte b = s.asByte b)
    ∧ (∀ v, ∃ t, exec (.dmadad ch v) s = .next t ∧ t = { s with mem := t.mem, out := .empty }
      ∧ dadOf Config.default t ch = v
      ∧ ∀ b : Addr, 4 ≤ (b - dadAddr Config.default ch).toNat → t.asByte b = s.asByte b)
    ∧ (∀ n, ∃ t, exec (.dmacnt ch n) s = .next t ∧ t = { s with mem := t.mem, out := .empty }
      ∧ cntLOf Config.default t ch = n
      ∧ ∀ b : Addr, 2 ≤ (b - cntLAddr Config.default ch).toNat → t.asByte b = s.asByte b)

/-- DMAARM: the registers are captured into the working copies, whatever the channel held; the channel then runs at once if
its timing is immediate, and waits if not; source control 3 is refused. Other channels are not ready to run of themselves. With a
start delay in the configuration the channel waits, its counter loaded, whatever its timing. That the row stores its whole operand
in `CNT_H` is log entry 16. -/
def Obligations.ArmingCapturesTheRegisters : Prop :=
  ∀ (s : State) (ch : Chan) (f : CtlFields),
    (∀ k, k ≠ ch → eligible Config.default k (s.chan k) .none = false) →
    (f.sac = .reload → exec (.dmaarm ch f) s = .refused .sac3)
    ∧ (f.sac ≠ .reload → ∃ u : State,
      u = { s with mem := u.mem, dma := u.dma, out := .empty }
      ∧ u.chan ch = { enabled := true, running := false, srcOrig := sadOf Config.default s ch
                      src := sadOf Config.default s ch, dst := dadOf Config.default s ch, cursor := 0
                      count := (cntLOf Config.default s ch).setWidth 32, width := f.width
                      ctrl := f.toHalf true, delay := 0 }
      ∧ (∀ k, k ≠ ch → u.chan k = s.chan k)
      ∧ cntHOf Config.default u ch = f.toHalf true
      ∧ (∀ b : Addr, 2 ≤ (b - cntHAddr Config.default ch).toNat → u.asByte b = s.asByte b)
      ∧ (f.timing ≠ .immediate → exec (.dmaarm ch f) s = .next u)
      ∧ (f.timing = .immediate → exec (.dmaarm ch f) s = exec (.forcedma ch) u)
      ∧ (∀ d, 0 < d → execIn { Config.default with dmaStartDelay := d } (.dmaarm ch f) s
          = .next { u with dma := u.dma.set ch { u.chan ch with delay := d } }))

/-- DMAOFF: the channel becomes Idle, its other working copies stay, the register is stored. That the row stores its whole operand
in `CNT_H` is log entry 16. -/
def Obligations.DisarmingMakesIdle : Prop :=
  ∀ (s : State) (ch : Chan) (f : CtlFields),
    (∀ k, k ≠ ch → eligible Config.default k (s.chan k) .none = false) →
    ∃ t, exec (.dmaoff ch f) s = .next t
      ∧ t = { s with mem := t.mem, dma := t.dma, out := .empty }
      ∧ t.chan ch = { s.chan ch with enabled := false, running := false, delay := 0 }
      ∧ (∀ k, k ≠ ch → t.chan k = s.chan k)
      ∧ cntHOf Config.default t ch = f.toHalf false
      ∧ (∀ b : Addr, 2 ≤ (b - cntHAddr Config.default ch).toNat → t.asByte b = s.asByte b)

/-! ## DMA events -/

/-- An event with no channel waiting for it does nothing; a tick counts the start delays of the enabled channels down. -/
def Obligations.EventsWithoutWaitingChannel : Prop :=
  (∀ (i : Instr) (ev : DmaEvent) (s : State), passEvent i = some ev →
    (∀ k, eligible Config.default k (s.chan k) ev = false) → exec i s = .next { s with out := .empty })
  ∧ (∀ s : State,
    (∀ k, (s.chan k).enabled = false ∨ (s.chan k).running = true ∨ 1 < (s.chan k).delay
      ∨ triggerMatches Config.default k (s.chan k) .none = false) →
    ∃ t, exec .dmatick s = .next t ∧ t = { s with dma := t.dma, out := .empty }
      ∧ ∀ k, t.chan k = { s.chan k with
        delay := if (s.chan k).enabled = true then (s.chan k).delay - 1 else (s.chan k).delay })
  ∧ (∀ (ch : Chan) (s : State), (s.chan ch).enabled = false → exec (.forcedma ch) s = .next { s with out := .empty })

/-- The trigger events, DMATICK and FORCEDMA complete exactly when no run they start writes the DMA register block; otherwise
they are refused, for that reason. -/
def Obligations.DmaEventsCompleteUnlessUnsafe : Prop :=
  (∀ (i : Instr) (ev : DmaEvent) (s : State), passEvent i = some ev →
    ((∀ k, eligible Config.default k (s.chan k) ev = true → safeRun Config.default (s.chan k)) → ∃ t, exec i s = .next t)
    ∧ ((∃ k, eligible Config.default k (s.chan k) ev = true ∧ ¬ safeRun Config.default (s.chan k)) →
      exec i s = .refused .dmaWritesDmaRegisters))
  ∧ (∀ s : State,
    ((∀ k, eligible Config.default k (tickChan (s.chan k)) .none = true → safeRun Config.default (s.chan k)) →
      ∃ t, exec .dmatick s = .next t)
    ∧ ((∃ k, eligible Config.default k (tickChan (s.chan k)) .none = true ∧ ¬ safeRun Config.default (s.chan k)) →
      exec .dmatick s = .refused .dmaWritesDmaRegisters))
  ∧ (∀ (ch : Chan) (s : State), (s.chan ch).enabled = true → (s.chan ch).running = false →
    (safeRun Config.default (s.chan ch) → ∃ t, exec (.forcedma ch) s = .next t)
    ∧ (¬ safeRun Config.default (s.chan ch) → exec (.forcedma ch) s = .refused .dmaWritesDmaRegisters))

/-- A pass is the runs of the eligible channels, one after another, lowest index first: the same as forcing each in turn.
Only the output list is told apart, because FORCEDMA is a step of its own. The same of every instruction that can start runs, from
the state its own effect leaves: the counters of DMATICK, the control register of DMAARM and DMAOFF, the bytes of a write (whose
class is told apart too). -/
def Obligations.PassRunsChannelsInPriorityOrder : Prop :=
  (∀ (i : Instr) (ev : DmaEvent) (s t : State), passEvent i = some ev → exec i s = .next t →
    ∃ u, execAll ((([0, 1, 2, 3] : List Chan).filter fun k => eligible Config.default k (s.chan k) ev).map .forcedma) s = .next u
      ∧ { t with out := .empty } = { u with out := .empty })
  ∧ (∀ (i : Instr) (s t : State), mayRunDma i = true → exec i s = .next t →
    ∃ u, execAll ((runChans i s).map .forcedma) (beforeRuns i s) = .next u
      ∧ { t with out := .empty } = { u with tc := t.tc, out := .empty })

/-- The interrupt pulses of a pass: one for each channel that ran and has its interrupt flag captured, in channel order. -/
def Obligations.InterruptsInChannelOrder : Prop :=
  ∀ (i : Instr) (ev : DmaEvent) (s t : State), passEvent i = some ev → exec i s = .next t →
    t.out.signals.filterMap irqOf
      = ([0, 1, 2, 3] : List Chan).filter fun k => eligible Config.default k (s.chan k) ev && ctlIrq (s.chan k).ctrl

/-- What a run leaves alone, for every instruction that can start one. A trigger event and FORCEDMA: configuration, timing
bookkeeping, BIOS and ROM bytes, the registers of every channel but for bit 15 of the `CNT_H` of those that ran, and every channel
that did not run. DMATICK the same, but that it counts the start delays. DMAARM and DMAOFF the same, their own register apart. A
write the same, its own bytes apart. And of all of them: a byte that is none of its own, none that a unit of a run writes, and no
enable bit reads as before; and Flash, SRAM, GPIO and EEPROM stay when neither its own bytes nor a unit reach their window. -/
def Obligations.DmaEventFrame : Prop :=
  (∀ (i : Instr) (s t : State), exec i s = .next t →
    ∀ ran : Chan → Prop,
      ((∃ ev, passEvent i = some ev ∧ ∀ k, ran k ↔ eligible Config.default k (s.chan k) ev = true)
        ∨ (∃ ch, i = .forcedma ch ∧ ∀ k, ran k ↔ k = ch)) →
      t.cart = s.cart ∧ t.tc = s.tc ∧ t.inputs = s.inputs ∧ t.free = s.free
      ∧ (∀ k, ¬ ran k → t.chan k = s.chan k ∧ cntHOf Config.default t k = cntHOf Config.default s k)
      ∧ (∀ k, sadOf Config.default t k = sadOf Config.default s k ∧ dadOf Config.default t k = dadOf Config.default s k
          ∧ cntLOf Config.default t k = cntLOf Config.default s k
          ∧ cntHOf Config.default t k &&& 0x7FFF = cntHOf Config.default s k &&& 0x7FFF)
      ∧ (∀ a : Addr, regionOf Config.default a = .bios ∨ regionOf Config.default a = .rom → t.asByte a = s.asByte a))
  ∧ (∀ s t : State, exec .dmatick s = .next t →
      t.cart = s.cart ∧ t.tc = s.tc ∧ t.inputs = s.inputs ∧ t.free = s.free
      ∧ (∀ k, eligible Config.default k (tickChan (s.chan k)) .none = false →
          t.chan k = tickChan (s.chan k) ∧ cntHOf Config.default t k = cntHOf Config.default s k)
      ∧ (∀ k, sadOf Config.default t k = sadOf Config.default s k ∧ dadOf Config.default t k = dadOf Config.default s k
          ∧ cntLOf Config.default t k = cntLOf Config.default s k
          ∧ cntHOf Config.default t k &&& 0x7FFF = cntHOf Config.default s k &&& 0x7FFF)
      ∧ (∀ a : Addr, regionOf Config.default a = .bios ∨ regionOf Config.default a = .rom → t.asByte a = s.asByte a))
  ∧ (∀ (i : Instr) (ch : Chan) (f : CtlFields) (s t : State), i = .dmaarm ch f ∨ i = .dmaoff ch f → exec i s = .next t →
      t.cart = s.cart ∧ t.tc = s.tc ∧ t.inputs = s.inputs ∧ t.free = s.free
      ∧ (∀ k, k ≠ ch → eligible Config.default k (s.chan k) .none = false →
          t.chan k = s.chan k ∧ cntHOf Config.default t k = cntHOf Config.default s k)
      ∧ (∀ k, sadOf Config.default t k = sadOf Config.default s k ∧ dadOf Config.default t k = dadOf Config.default s k
          ∧ cntLOf Config.default t k = cntLOf Config.default s k
          ∧ cntHOf Config.default t k &&& 0x7FFF
            = (if k = ch then f.toHalf true else cntHOf Config.default s k) &&& 0x7FFF)
      ∧ (∀ a : Addr, regionOf Config.default a = .bios ∨ regionOf Config.default a = .rom → t.asByte a = s.asByte a))
  ∧ (∀ (i : Instr) (a : Addr) (bs : List Byte) (s t : State), writeAccess i = some (a, bs) → exec i s = .next t →
      t.cart = s.cart ∧ t.inputs = s.inputs ∧ t.free = s.free
      ∧ (classifiedAccess i = none → t.tc = s.tc)
      ∧ (∀ k, (∀ j, j < bs.length → a + BitVec.ofNat 32 j ≠ cntHAddr Config.default k
            ∧ a + BitVec.ofNat 32 j ≠ cntHAddr Config.default k + 1) →
          eligible Config.default k (s.chan k) .none = false →
          t.chan k = s.chan k ∧ cntHOf Config.default t k = cntHOf Config.default s k)
      ∧ (∀ b : Addr, inDmaBlock Config.default b = true → (∀ j, j < bs.length → b ≠ a + BitVec.ofNat 32 j) →
          t.asByte b = s.asByte b ∨ ∃ k, b = cntHAddr Config.default k + 1 ∧ t.asByte b = s.asByte b &&& 0x7F)
      ∧ (∀ b : Addr, regionOf Config.default b = .bios ∨ regionOf Config.default b = .rom → t.asByte b = s.asByte b))
  ∧ (∀ (i : Instr) (s t : State), mayRunDma i = true → exec i s = .next t →
      (∀ b : Addr, b ∉ ownBytes i → (∀ ch ∈ runChans i s, ¬ passWrites ((beforeRuns i s).chan ch) b) →
          (∀ ch, b ≠ cntHAddr Config.default ch + 1) → t.asByte b = s.asByte b)
      ∧ ((∀ b : Addr, decodeTag Config.default s.cart.gpioType b = .bkp →
            b ∉ ownBytes i ∧ ∀ ch ∈ runChans i s, ¬ passWrites ((beforeRuns i s).chan ch) b) →
          t.fl = s.fl ∧ t.sram = s.sram)
      ∧ ((∀ b : Addr, decodeTag Config.default s.cart.gpioType b = .gpio →
            b ∉ ownBytes i ∧ ∀ ch ∈ runChans i s, ¬ passWrites ((beforeRuns i s).chan ch) b) →
          t.gpio = s.gpio)
      ∧ ((∀ ch ∈ runChans i s, passAvoidsEeprom ((beforeRuns i s).chan ch) s) → t.ee = s.ee))

/-- FIFO timing on channels 0 and 3 never fires: no trigger event changes such a channel. -/
def Obligations.FifoTimingNeverFiresOnChannels0And3 : Prop :=
  ∀ (i : Instr) (ev : DmaEvent) (s t : State) (ch : Chan), passEvent i = some ev → exec i s = .next t →
    ch = 0 ∨ ch = 3 → ctlTiming (s.chan ch).ctrl = .fifo → t.chan ch = s.chan ch

/-- Completion, seen alone on a channel with no unit left: the pulse if enabled; then, with repeat and a recurring trigger, Armed
again with the count and (in reload mode) the destination read anew; otherwise Idle with bit 15 of `CNT_H` cleared. -/
def Obligations.CompletionRearmsOrGoesIdle : Prop :=
  ∀ (s : State) (ch : Chan), (s.chan ch).enabled = true → (s.chan ch).running = false →
    (s.chan ch).count.toNat ≤ (s.chan ch).cursor.toNat →
    ∃ t, exec (.forcedma ch) s = .next t
      ∧ t = { s with mem := t.mem, dma := t.dma, out := t.out }
      ∧ t.out = ⟨none, none, if ctlIrq (s.chan ch).ctrl = true then [.irq ch] else [], none⟩
      ∧ (∀ k, k ≠ ch → t.chan k = s.chan k)
      ∧ (ctlRepeat (s.chan ch).ctrl = true ∧ ctlTiming (s.chan ch).ctrl ≠ .immediate →
          t.mem = s.mem
          ∧ t.chan ch = { s.chan ch with
              cursor := 0
              count := (cntLOf Config.default s ch).setWidth 32
              dst := if ctlDac (s.chan ch).ctrl = .reload then dadOf Config.default s ch else (s.chan ch).dst
              delay := 0 })
      ∧ (¬ (ctlRepeat (s.chan ch).ctrl = true ∧ ctlTiming (s.chan ch).ctrl ≠ .immediate) →
          t.chan ch = { s.chan ch with enabled := false, delay := 0 }
          ∧ cntHOf Config.default t ch = cntHOf Config.default s ch &&& 0x7FFF
          ∧ ∀ b : Addr, b ≠ cntHAddr Config.default ch + 1 → t.asByte b = s.asByte b)

/-- The copy law. An increment-increment run copies count times width bytes from source to destination, changes no other
byte of `AS` but the enable bit of its own register, leaves the pointers advanced by that many bytes, and touches neither
cartridge, engines nor other channels. With any address controls, unit `k` reads at the source and writes at the destination
stepped `k` times, up, down or not at all, and what a later unit does not overwrite stays. After every run that completes the
pointers stand past its last unit, a reloaded destination at `DAD`. Whatever the addresses, a run is its units in order: each
reads its source as the row that reads there (the fast read of its width, EERDBIT in the EEPROM window) and writes the value as the
fast write of its width at its destination, with the effect that write has in the region and its signals (in the EEPROM window bit
0 is shifted in); then the burst ends, if there was one, and the channel completes. -/
def Obligations.DmaCopiesExactly : Prop :=
  (∀ (s : State) (ch : Chan), (s.chan ch).enabled = true → (s.chan ch).running = false → (s.chan ch).cursor = 0 →
    ctlSac (s.chan ch).ctrl = .inc → ctlDac (s.chan ch).ctrl = .inc →
    ∀ len : Nat, len = (s.chan ch).count.toNat * unitBytes (s.chan ch).width →
    (∀ k, k < len → isStoreTag (decodeTag Config.default s.cart.gpioType ((s.chan ch).src + BitVec.ofNat 32 k)) = true
      ∧ inEepWindow Config.default s ((s.chan ch).src + BitVec.ofNat 32 k) = false) →
    (∀ k, k < len → isRamTag (decodeTag Config.default s.cart.gpioType ((s.chan ch).dst + BitVec.ofNat 32 k)) = true) →
    (∀ j k, j < len → k < len → (s.chan ch).src + BitVec.ofNat 32 j ≠ (s.chan ch).dst + BitVec.ofNat 32 k) →
    ∃ t, exec (.forcedma ch) s = .next t
      ∧ t = { s with mem := t.mem, dma := t.dma, out := t.out }
      ∧ (∀ k, k < len → t.asByte ((s.chan ch).dst + BitVec.ofNat 32 k) = s.asByte ((s.chan ch).src + BitVec.ofNat 32 k))
      ∧ (∀ b : Addr, (∀ k, k < len → b ≠ (s.chan ch).dst + BitVec.ofNat 32 k) → b ≠ cntHAddr Config.default ch + 1 →
          t.asByte b = s.asByte b)
      ∧ (t.chan ch).src = (s.chan ch).src + BitVec.ofNat 32 len
      ∧ (t.chan ch).dst = (s.chan ch).dst + BitVec.ofNat 32 len
      ∧ (∀ k, k ≠ ch → t.chan k = s.chan k)
      ∧ (ctlRepeat (s.chan ch).ctrl = false → (t.chan ch).state = .idle ∧ (cntHOf Config.default t ch).getLsbD 15 = false))
  ∧ (∀ (s : State) (ch : Chan), (s.chan ch).enabled = true → (s.chan ch).running = false → (s.chan ch).cursor = 0 →
    ∀ n w : Nat, n = (s.chan ch).count.toNat → w = unitBytes (s.chan ch).width →
    (∀ k j, k < n → j < w → isStoreTag (decodeTag Config.default s.cart.gpioType (srcUnit (s.chan ch) k + BitVec.ofNat 32 j)) = true
      ∧ inEepWindow Config.default s (srcUnit (s.chan ch) k + BitVec.ofNat 32 j) = false) →
    (∀ k j, k < n → j < w → isRamTag (decodeTag Config.default s.cart.gpioType (dstUnit (s.chan ch) k + BitVec.ofNat 32 j)) = true) →
    (∀ k k' j j', k < n → k' < n → j < w → j' < w →
      srcUnit (s.chan ch) k + BitVec.ofNat 32 j ≠ dstUnit (s.chan ch) k' + BitVec.ofNat 32 j') →
    ∃ t, exec (.forcedma ch) s = .next t
      ∧ t = { s with mem := t.mem, dma := t.dma, out := t.out }
      ∧ (∀ k, k < n →
          (∀ k' j j', k < k' → k' < n → j < w → j' < w →
            dstUnit (s.chan ch) k + BitVec.ofNat 32 j ≠ dstUnit (s.chan ch) k' + BitVec.ofNat 32 j') →
          ∀ j, j < w → t.asByte (dstUnit (s.chan ch) k + BitVec.ofNat 32 j) = s.asByte (srcUnit (s.chan ch) k + BitVec.ofNat 32 j))
      ∧ (∀ b : Addr, (∀ k j, k < n → j < w → b ≠ dstUnit (s.chan ch) k + BitVec.ofNat 32 j) →
          b ≠ cntHAddr Config.default ch + 1 → t.asByte b = s.asByte b)
      ∧ (∀ k, k ≠ ch → t.chan k = s.chan k))
  ∧ (∀ (s t : State) (ch : Chan), (s.chan ch).enabled = true → (s.chan ch).running = false → (s.chan ch).cursor = 0 →
    exec (.forcedma ch) s = .next t →
    (t.chan ch).src = srcUnit (s.chan ch) (s.chan ch).count.toNat
    ∧ (t.chan ch).dst = if recurs (s.chan ch) = true ∧ ctlDac (s.chan ch).ctrl = .reload then dadOf Config.default s ch
        else dstUnit (s.chan ch) (s.chan ch).count.toNat)
  ∧ (∀ (s : State) (ch : Chan), (s.chan ch).enabled = true → (s.chan ch).running = false →
    safeRun Config.default (s.chan ch) →
    ∃ t, exec (.forcedma ch) s = .next t
      ∧ ∀ u, u = unitsByRows (s.chan ch) { s with out := .empty } (unitsLeft (s.chan ch)) →
        t = { u with
          mem := t.mem
          dma := t.dma
          ee := if windowUnits (s.chan ch) s = [] then u.ee else eepromBurstEnd Config.default u.ee
          out := { u.out with signals := u.out.signals ++ (if ctlIrq (s.chan ch).ctrl = true then [.irq ch] else []) } }
        ∧ ∀ b : Addr, t.asByte b
          = if b = cntHAddr Config.default ch + 1 ∧ recurs (s.chan ch) = false then u.asByte b &&& 0x7F else u.asByte b)

/-! ## EEPROM -/

/-- EERDREQ6 and EERDREQ14: size locked or checked, address latched, reply started; the store is not read and not changed. The row
is the whole burst, with the address of its first unit as an operand (log entry 13), so `dma_ptr` is that address. -/
def Obligations.EepromReadRequests : Prop :=
  ∀ (s : State) (src : Addr) (stop : Bool), s.cart.backupType = .eeprom → s.ee.phase ≠ .shiftIn →
    (∀ a : BitVec 6, (s.ee.sizeLock = true → s.ee.size = .small) →
      ∃ t, exec (.eerdreq6 src a stop) s = .next t
        ∧ t = { s with
            ee := { s.ee with phase := .readOut, cursor := 0, addr := a.setWidth 14, size := .small, sizeLock := true
                              dmaPtr := src, buf := t.ee.buf }
            out := .empty })
    ∧ (∀ a : BitVec 14, (s.ee.sizeLock = true → s.ee.size = .large) →
      ∃ t, exec (.eerdreq14 src a stop) s = .next t
        ∧ t = { s with
            ee := { s.ee with phase := .readOut, cursor := 0, addr := a, size := .large, sizeLock := true
                              dmaPtr := src, buf := t.ee.buf }
            out := .empty })

/-- EEWR6 and EEWR14: size locked or checked, address latched, the eight bytes of the addressed page replaced together (64
pages or 1024, the upper address bits ignored), each byte most significant bit first; no other byte changes; the engine is Idle.
The row is the whole burst, with the address of its first unit as an operand (log entry 13), so `dma_ptr` is that address. -/
def Obligations.EepromPageWrites : Prop :=
  ∀ (s : State) (src : Addr) (d : BitVec 64) (stop : Bool), s.cart.backupType = .eeprom → s.ee.phase ≠ .shiftIn →
    (∀ a : BitVec 6, (s.ee.sizeLock = true → s.ee.size = .small) →
      ∃ t, exec (.eewr6 src a d stop) s = .next t
        ∧ t = { s with
            ee := { s.ee with phase := .idle, cursor := 0, addr := a.setWidth 14, size := .small, sizeLock := true
                              dmaPtr := src, buf := t.ee.buf, data := t.ee.data }
            out := .empty }
        ∧ (∀ j, j < 8 → t.ee.data.read (8 * (a.toNat % 64) + j) = d.extractLsb' (8 * (7 - j)) 8)
        ∧ (∀ o, (o < 8 * (a.toNat % 64) ∨ 8 * (a.toNat % 64) + 8 ≤ o) → t.ee.data.read o = s.ee.data.read o))
    ∧ (∀ a : BitVec 14, (s.ee.sizeLock = true → s.ee.size = .large) →
      ∃ t, exec (.eewr14 src a d stop) s = .next t
        ∧ t = { s with
            ee := { s.ee with phase := .idle, cursor := 0, addr := a, size := .large, sizeLock := true
                              dmaPtr := src, buf := t.ee.buf, data := t.ee.data }
            out := .empty }
        ∧ (∀ j, j < 8 → t.ee.data.read (8 * (a.toNat % 1024) + j) = d.extractLsb' (8 * (7 - j)) 8)
        ∧ (∀ o, (o < 8 * (a.toNat % 1024) ∨ 8 * (a.toNat % 1024) + 8 ≤ o) → t.ee.data.read o = s.ee.data.read o))

/-- EEBAD: a malformed burst leaves the engine Idle and keeps the store, the size, the lock and the latched address. The row is the
whole burst, with the address of its first unit as an operand (log entry 13), so `dma_ptr` is that address. -/
def Obligations.EepromMalformedBurst : Prop :=
  ∀ (s : State) (src : Addr) (bits : List Bool), s.cart.backupType = .eeprom → s.ee.phase ≠ .shiftIn → bits ≠ [] →
    burstIsBad s.ctx bits = true →
    ∃ t, exec (.eebad src bits) s = .next t
      ∧ t = { s with ee := { s.ee with phase := .idle, cursor := 0, dmaPtr := src, buf := t.ee.buf }, out := .empty }

/-- EERDBIT: four zero bits, then the 64 bits of the page, byte by byte, most significant bit first, then the engine is Idle;
outside a reply the bit is 1 and nothing changes. The value is the bit, zero-extended to the unit width. -/
def Obligations.EepromReplyBits : Prop :=
  ∀ (s : State) (a : Addr) (w : UnitWidth), s.cart.backupType = .eeprom → 0x0D000000 ≤ a → a ≤ 0x0DFFFFFF →
    ∃ (t : State) (bit : Bool), exec (.eerdbit a w) s = .next t
      ∧ t.out = ⟨some (match w with | .half => .half (if bit then 1 else 0) | .word => .word (if bit then 1 else 0)), none, [], none⟩
      ∧ t = { s with ee := t.ee, out := t.out }
      ∧ (s.ee.phase ≠ .readOut → bit = true ∧ t.ee = s.ee)
      ∧ (s.ee.phase = .readOut → s.ee.cursor < 4 → bit = false)
      ∧ (s.ee.phase = .readOut → 4 ≤ s.ee.cursor →
          bit = (s.ee.data.read (8 * (s.ee.addr.toNat % (match s.ee.size with | .small => 64 | .large => 1024))
            + (s.ee.cursor - 4) / 8)).getLsbD (7 - (s.ee.cursor - 4) % 8))
      ∧ (s.ee.phase = .readOut → s.ee.cursor = 67 → t.ee = { s.ee with phase := .idle, cursor := 0 })
      ∧ (s.ee.phase = .readOut → s.ee.cursor ≠ 67 → t.ee = { s.ee with cursor := s.ee.cursor + 1 })

/-- The EEPROM round trip: after a write and a read request with the same address, bit `k` of the 68 read is 0 for the four of
the preamble and then data bit `k - 4`; the engine's whole reply is `0000 d*64`. -/
def Obligations.EepromRoundTrip : Prop :=
  ∀ (s : State) (src src' a' : Addr) (w : UnitWidth) (d : BitVec 64) (stop stop' : Bool) (i j : Instr),
    s.cart.backupType = .eeprom → s.ee.phase ≠ .shiftIn → 0x0D000000 ≤ a' → a' ≤ 0x0DFFFFFF →
    ((∃ a : BitVec 6, (s.ee.sizeLock = true → s.ee.size = .small) ∧ i = .eewr6 src a d stop ∧ j = .eerdreq6 src' a stop')
      ∨ (∃ a : BitVec 14, (s.ee.sizeLock = true → s.ee.size = .large) ∧ i = .eewr14 src a d stop ∧ j = .eerdreq14 src' a stop')) →
    ∀ k, k < 68 →
      ∃ t, execAll ([i, j] ++ List.replicate (k + 1) (.eerdbit a' w)) s = .next t
        ∧ t.out.value = some (unitValue w (if k < 4 then 0 else (BitVec.ofBool (d.getLsbD (63 - (k - 4)))).setWidth 32))
        ∧ ∃ r, execAll [i, j] s = .next r
          ∧ eepromReply Config.default 68 r.ee = [false, false, false, false] ++ bitsOfVec d

/-- No corruption: a burst changes the EEPROM store only if it is an accepted write (73 or 81 bits, code `10`, a size class the
lock allows), and then only in the addressed page; of the instructions that start no channel run, only the bursts and the loads
change it at all. Of every instruction but LOADCART and LOADBKP: the store, the size and the lock after it are those before it
changed by its bursts in turn, each as the row of its bits says; the bursts of a run are bit 0 of what its units into the window
read, so a run with no unit in the window changes none of the three, and a run that changes the store puts 73 or 81 units there. An empty
list of bits is no burst (log entry 13). -/
def Obligations.EepromStoreChangesOnlyByAcceptedWrites : Prop :=
  (∀ (s t : State) (src : Addr) (bits : List Bool), s.ee.phase ≠ .shiftIn → bits ≠ [] → exec (.eebad src bits) s = .next t →
    t.ee.data ≠ s.ee.data →
    (bits.length = 73 ∨ bits.length = 81) ∧ bits.getD 0 false = true ∧ bits.getD 1 true = false
      ∧ (s.ee.sizeLock = true → (s.ee.size = .small ↔ bits.length = 73))
      ∧ ∀ o, o / 8 ≠ eePageOf Config.default t.ee.addr t.ee.size → t.ee.data.read o = s.ee.data.read o)
  ∧ (∀ (i : Instr) (s t : State), s.ee.phase ≠ .shiftIn → exec i s = .next t → mayRunDma i = false →
    (∀ src a d stop, i ≠ .eewr6 src a d stop) → (∀ src a d stop, i ≠ .eewr14 src a d stop) →
    (∀ src bits, i ≠ .eebad src bits) → (∀ m b g, i ≠ .loadcart m b g) → (∀ f, i ≠ .loadbkp f) →
    t.ee.data = s.ee.data)
  ∧ (∀ (i : Instr) (s t : State), s.ee.phase ≠ .shiftIn → exec i s = .next t →
    (∀ m b g, i ≠ .loadcart m b g) → (∀ f, i ≠ .loadbkp f) → burstBits i ≠ some [] →
    (t.ee.data, t.ee.size, t.ee.sizeLock) = (burstsOf i s).foldl burstEffect (s.ee.data, s.ee.size, s.ee.sizeLock))
  ∧ (∀ (i : Instr) (s t : State), s.ee.phase ≠ .shiftIn → exec i s = .next t → mayRunDma i = true →
    ((∀ ch ∈ runChans i s, windowUnits ((beforeRuns i s).chan ch) s = []) →
      t.ee.data = s.ee.data ∧ t.ee.size = s.ee.size ∧ t.ee.sizeLock = s.ee.sizeLock)
    ∧ (t.ee.data ≠ s.ee.data → ∃ ch ∈ runChans i s,
        (windowUnits ((beforeRuns i s).chan ch) s).length = 73 ∨ (windowUnits ((beforeRuns i s).chan ch) s).length = 81))
  ∧ (∀ (i : Instr) (s t : State), exec i s = .next t → (∀ m b g, i ≠ .loadcart m b g) → (∀ f, i ≠ .loadbkp f) →
    s.cart.backupType ≠ .eeprom → t.ee.data = s.ee.data)

/-- One DMA run is one burst: a run of half-words or words, with any address controls, whose destination stays in the EEPROM
window and whose units are read from bytes of `AS`, is the burst of bit 0 of each unit. A run whose source stays in the window and
whose units go to RAM stores the engine's reply, one bit to a unit, zero-extended to its width, and leaves the engine past as many
bits; no other byte of `AS` changes but its enable bit. -/
def Obligations.DmaRunIsOneBurst : Prop :=
  (∀ (s : State) (ch : Chan), s.cart.backupType = .eeprom → s.ee.phase ≠ .shiftIn →
    (s.chan ch).enabled = true → (s.chan ch).running = false → (s.chan ch).cursor = 0 → (s.chan ch).count ≠ 0 →
    (∀ k, k < (s.chan ch).count.toNat → 0x0D000000 ≤ dstUnit (s.chan ch) k ∧ dstUnit (s.chan ch) k ≤ 0x0DFFFFFF) →
    (∀ k, k < (s.chan ch).count.toNat → isStoreTag (decodeTag Config.default s.cart.gpioType (srcUnit (s.chan ch) k)) = true
      ∧ inEepWindow Config.default s (srcUnit (s.chan ch) k) = false) →
    ∃ t, exec (.forcedma ch) s = .next t
      ∧ t.ee = eepromBurst Config.default (s.chan ch).src
          ((List.range (s.chan ch).count.toNat).map fun k => (s.asByte (srcUnit (s.chan ch) k)).getLsbD 0) s.ee)
  ∧ (∀ (s : State) (ch : Chan), s.cart.backupType = .eeprom → (s.chan ch).enabled = true → (s.chan ch).running = false →
    ∀ n w : Nat, n = unitsLeft (s.chan ch) → w = unitBytes (s.chan ch).width →
    (∀ k, k < n → 0x0D000000 ≤ srcUnit (s.chan ch) k ∧ srcUnit (s.chan ch) k ≤ 0x0DFFFFFF) →
    (∀ k j, k < n → j < w → isRamTag (decodeTag Config.default s.cart.gpioType (dstUnit (s.chan ch) k + BitVec.ofNat 32 j)) = true) →
    ∃ t, exec (.forcedma ch) s = .next t
      ∧ t = { s with mem := t.mem, dma := t.dma, ee := t.ee, out := t.out }
      ∧ t.ee = (List.range n).foldl (fun e _ => eepromShiftOut Config.default e) s.ee
      ∧ (∀ k, k < n →
          (∀ k' j j', k < k' → k' < n → j < w → j' < w →
            dstUnit (s.chan ch) k + BitVec.ofNat 32 j ≠ dstUnit (s.chan ch) k' + BitVec.ofNat 32 j') →
          ∀ j, j < w → t.asByte (dstUnit (s.chan ch) k + BitVec.ofNat 32 j)
            = if j = 0 ∧ (eepromReply Config.default n s.ee).getD k false = true then 1 else 0)
      ∧ (∀ b : Addr, (∀ k j, k < n → j < w → b ≠ dstUnit (s.chan ch) k + BitVec.ofNat 32 j) →
          b ≠ cntHAddr Config.default ch + 1 → t.asByte b = s.asByte b))

/-! ## Flash -/

/-- One byte written to the backup window under Flash is the row of the opcode table that its word and the engine's state
select. One byte read is FLREAD: the ID pair of the part at offsets 0 and 1 in ID mode, else the active bank's byte; nothing
changes. -/
def Obligations.FlashBytesAreTheirRows : Prop :=
  ∀ (s : State) (off : Half), s.cart.backupType.isFlash = true →
    (∀ b, exec (.fwr8 (bkpAddr Config.default off) b) s = exec (decodeFlash Config.default s.ctx off b) s)
    ∧ exec (.frd8 (bkpAddr Config.default off)) s = exec (.flread off) s
    ∧ exec (.flread off) s = .next { s with
      out := ⟨some (.byte (
        if s.fl.idMode = true ∧ off = 0 then (if s.cart.backupType = .flash64 then 0x32 else 0xC2)
        else if s.fl.idMode = true ∧ off = 1 then (if s.cart.backupType = .flash64 then 0x1B else 0x09)
        else match s.fl.bank with
          | .bank0 => s.fl.data0.read off.toNat
          | .bank1 => s.fl.data1.read off.toNat)), none, [], none⟩ }

/-- The effect of each command row on the engine. That a command byte clears the arming is the spec's own decision (43_flash.md
R285, D26). -/
def Obligations.FlashCommandRows : Prop :=
  ∀ s : State, s.cart.backupType.isFlash = true →
    exec .flkey1 s = .next { s with fl := { s.fl with pending := .key1 }, out := .empty }
    ∧ exec .flkey2 s = .next { s with fl := { s.fl with pending := .key2 }, out := .empty }
    ∧ exec .flidenter s = .next { s with fl := { s.fl with pending := .none, writeArmed := false, idMode := true }, out := .empty }
    ∧ exec .flidexit s = .next { s with fl := { s.fl with pending := .none, writeArmed := false, idMode := false }, out := .empty }
    ∧ exec .flerasesetup s = .next { s with fl := { s.fl with pending := .none, writeArmed := true }, out := .empty }
    ∧ exec .flprogram s
      = .next { s with fl := { s.fl with pending := .none, writeArmed := false, writeSingleByte := true }, out := .empty }
    ∧ (s.cart.backupType = .flash128 → exec .flbank s
      = .next { s with fl := { s.fl with pending := .none, writeArmed := false, switchBank := true }, out := .empty })
    ∧ (∀ off v, exec (.flignored off v) s = .next { s with
        fl := match s.fl.pending with
          | .none => s.fl
          | .key1 => { s.fl with pending := .none }
          | .key2 => { s.fl with pending := .none, writeArmed := false }
        out := .empty })

/-- FLDATA ANDs the byte into the active bank; FLBANKSEL takes bit 0 at offset 0 only; each consumes its flag and no other byte
of either bank changes. -/
def Obligations.FlashDataRows : Prop :=
  ∀ (s : State) (off : Half) (b : Byte), s.cart.backupType.isFlash = true →
    (∃ t, exec (.fldata off b) s = .next t
      ∧ t = { s with fl := { s.fl with writeSingleByte := false, data0 := t.fl.data0, data1 := t.fl.data1 }, out := .empty }
      ∧ (∀ o, t.fl.data0.read o
          = if s.fl.bank = .bank0 ∧ o = off.toNat then s.fl.data0.read o &&& b else s.fl.data0.read o)
      ∧ (∀ o, t.fl.data1.read o
          = if s.fl.bank = .bank1 ∧ o = off.toNat then s.fl.data1.read o &&& b else s.fl.data1.read o))
    ∧ exec (.flbanksel off b) s = .next { s with
        fl := { s.fl with
          switchBank := false
          bank := if off ≠ 0 then s.fl.bank else if b.getLsbD 0 = true then .bank1 else .bank0 }
        out := .empty }

/-- FLCHIPERASE and FLSECTORERASE, armed: 0xFF in every bank of the part, or in the 4096 bytes of the sector of the active bank;
no other byte changes; bank and ID mode stay. -/
def Obligations.FlashEraseRows : Prop :=
  ∀ s : State, s.cart.backupType.isFlash = true → s.fl.writeArmed = true →
    (∃ t, exec .flchiperase s = .next t
      ∧ t = { s with
          fl := { s.fl with pending := .none, writeArmed := false, data0 := t.fl.data0, data1 := t.fl.data1 }, out := .empty }
      ∧ (∀ o, o < 0x10000 → t.fl.data0.read o = 0xFF)
      ∧ (s.cart.backupType = .flash128 → ∀ o, o < 0x10000 → t.fl.data1.read o = 0xFF)
      ∧ (s.cart.backupType = .flash64 → t.fl.data1 = s.fl.data1))
    ∧ (∀ off : Half, ∃ t, exec (.flsectorerase off) s = .next t
      ∧ t = { s with
          fl := { s.fl with pending := .none, writeArmed := false, data0 := t.fl.data0, data1 := t.fl.data1 }, out := .empty }
      ∧ (∀ o, t.fl.data0.read o = if s.fl.bank = .bank0 ∧ o / 0x1000 = off.toNat / 0x1000 then 0xFF else s.fl.data0.read o)
      ∧ (∀ o, t.fl.data1.read o = if s.fl.bank = .bank1 ∧ o / 0x1000 = off.toNat / 0x1000 then 0xFF else s.fl.data1.read o))

/-- Programming by bus writes: from the Idle engine outside ID mode, the unlock prefix, 0xA0 and a byte at any offset leave the
AND of the byte and the old content there, and nothing else changed; a read gives it back. -/
def Obligations.FlashProgramSequence : Prop :=
  ∀ (s : State) (off : Half) (b : Byte), s.cart.backupType.isFlash = true →
    s.fl.writeSingleByte = false → s.fl.switchBank = false → s.fl.pending = .none → s.fl.idMode = false →
    ∃ old t u, exec (.frd8 (bkpAddr Config.default off)) s = .next old
      ∧ execAll [.fwr8 0x0E005555 0xAA, .fwr8 0x0E002AAA 0x55, .fwr8 0x0E005555 0xA0, .fwr8 (bkpAddr Config.default off) b] s
        = .next t
      ∧ t = { s with fl := { s.fl with writeArmed := false, data0 := t.fl.data0, data1 := t.fl.data1 }, out := .empty }
      ∧ exec (.frd8 (bkpAddr Config.default off)) t = .next u
      ∧ (∃ prior, old.out.value = some (.byte prior) ∧ u.out.value = some (.byte (prior &&& b)))
      ∧ (∀ off', off' ≠ off → ∀ v v' x y, exec (.frd8 (bkpAddr Config.default off')) s = .next x → x.out.value = some v →
          exec (.frd8 (bkpAddr Config.default off')) t = .next y → y.out.value = some v' → v' = v)

/-- Erasing by bus writes: from the Idle engine outside ID mode, the six writes of a sector erase make every byte of the sector
read 0xFF. -/
def Obligations.FlashEraseSequence : Prop :=
  ∀ (s : State) (off : Half), s.cart.backupType.isFlash = true → off ≠ 0x5555 →
    s.fl.writeSingleByte = false → s.fl.switchBank = false → s.fl.pending = .none → s.fl.idMode = false →
    ∃ t, execAll [.fwr8 0x0E005555 0xAA, .fwr8 0x0E002AAA 0x55, .fwr8 0x0E005555 0x80,
        .fwr8 0x0E005555 0xAA, .fwr8 0x0E002AAA 0x55, .fwr8 (bkpAddr Config.default off) 0x30] s = .next t
      ∧ ∀ o : Half, o.extractLsb' 12 4 = off.extractLsb' 12 4 →
        ∃ u, exec (.frd8 (bkpAddr Config.default o)) t = .next u ∧ u.out.value = some (.byte 0xFF)

/-! ## GPIO -/

/-- The four register writes, in lane 0: data and direction are latched in their implemented bits and reported, control
sets the readable flag from bit 0, the reserved register takes nothing; no other lane takes anything. -/
def Obligations.GpioRegisterWrites : Prop :=
  ∀ (s : State) (b : Byte), s.cart.gpioType ≠ .disabled →
    exec (.gpwrdata 0 b) s = .next { s with
      gpio := { s.gpio with outLatch := b &&& 1 }, out := ⟨none, none, [.gpioOut (b &&& 1 &&& s.gpio.direction)], none⟩ }
    ∧ exec (.gpwrdir 0 b) s = .next { s with
      gpio := { s.gpio with direction := b &&& 1 }, out := ⟨none, none, [.gpioOut (s.gpio.outLatch &&& (b &&& 1))], none⟩ }
    ∧ exec (.gpwrctl 0 b) s = .next { s with gpio := { s.gpio with readable := b.getLsbD 0 }, out := .empty }
    ∧ exec (.gpwrrsv 0 b) s = .next { s with out := .empty }
    ∧ ∀ lane, lane ≠ 0 →
      exec (.gpwrdata lane b) s = .next { s with out := .empty }
      ∧ exec (.gpwrdir lane b) s = .next { s with out := .empty }
      ∧ exec (.gpwrctl lane b) s = .next { s with out := .empty }
      ∧ exec (.gpwrrsv lane b) s = .next { s with out := .empty }

/-- One byte written to or read from the GPIO window is the row of its register and lane. -/
def Obligations.GpioBytesAreTheirRows : Prop :=
  ∀ (s : State) (a : Addr) (b : Byte), s.cart.gpioType ≠ .disabled → 0x080000C4 ≤ a → a ≤ 0x080000CB →
    ∃ iw ir, decode Config.default s.ctx (.gpioWrite a b) = .ok iw ∧ exec (.fwr8 a b) s = exec iw s
      ∧ decode Config.default s.ctx (.gpioRead a) = .ok ir ∧ exec (.frd8 a) s = exec ir s

/-- GPRD: the ROM byte beneath while not readable; while readable the pins (output latch at output bits, input latch at input
bits), the direction, the flag, and 0 for the reserved register and every upper lane. Nothing changes. -/
def Obligations.GpioReads : Prop :=
  ∀ (s : State) (k : Fin 4) (lane : Nat), s.cart.gpioType ≠ .disabled → lane < 2 →
    exec (.gprd k lane) s = .next { s with
      out := ⟨some (.byte (
        if s.gpio.readable = false then s.asByte (0x080000C4 + BitVec.ofNat 32 (2 * k.val + lane))
        else if lane ≠ 0 then 0
        else match k with
          | 0 => ((s.gpio.outLatch &&& s.gpio.direction) ||| (s.gpio.inLatch &&& ~~~s.gpio.direction)) &&& 1
          | 1 => s.gpio.direction
          | 2 => 1
          | 3 => 0)), none, [], none⟩ }

/-- SENSOR: the input latch takes the implemented bits of the level; ignored without a GPIO device; nothing is emitted. -/
def Obligations.SensorSetsInputLatch : Prop :=
  ∀ (s : State) (v : Byte),
    (s.cart.gpioType ≠ .disabled → exec (.sensor v) s = .next { s with
      gpio := { s.gpio with inLatch := v &&& 1 }, out := .empty })
    ∧ (s.cart.gpioType = .disabled → exec (.sensor v) s = .next { s with out := .empty })

/-- The GPIO laws: a window that is not readable reads as without a device; an access of any width to the window, read or write,
plain or fast, changes no byte of `AS`;
what the block drives changes only in a step that reports its new value, RESET and LOADCART apart. -/
def Obligations.GpioLaws : Prop :=
  (∀ (s : State) (a : Addr), s.gpio.readable = false → 0x080000C4 ≤ a → a ≤ 0x080000CB →
    readByte Config.default s a = readByte Config.default { s with cart := { s.cart with gpioType := .disabled } } a)
  ∧ (∀ (i : Instr) (s t : State) (a : Addr) (n : Nat),
    readAccess i = some (a, n) ∨ (∃ bs, writeAccess i = some (a, bs) ∧ n = bs.length) →
    (∀ k, k < n → 0x080000C4 ≤ a + BitVec.ofNat 32 k ∧ a + BitVec.ofNat 32 k ≤ 0x080000CB) →
    exec i s = .next t → t.mem = s.mem)
  ∧ (∀ (i : Instr) (s t : State), exec i s = .next t → i ≠ .reset → (∀ m b g, i ≠ .loadcart m b g) →
    t.gpio.driven ≠ s.gpio.driven → Signal.gpioOut t.gpio.driven ∈ t.out.signals)

/-! ## Host operations -/

/-- LOADFW: the firmware region is the image, cut or padded with 0x00, and the loaded flag is set. -/
def Obligations.LoadFirmware : Prop :=
  ∀ (s : State) (image : List Byte), image ≠ [] →
    ∃ t, exec (.loadfw (.bytes image)) s = .next t
      ∧ t = { s with mem := t.mem, cart := { s.cart with biosLoaded := true }, out := ⟨none, none, [], some .ok⟩ }
      ∧ ∀ a : Addr, t.asByte a = if a ≤ 0x00003FFF then image.getD a.toNat 0 else s.asByte a

/-- LOADCART: the ROM region is the image, padded with 0x00; the configuration is given or detected; every engine and store is
fresh; DMA and timing bookkeeping stay; an image longer than `ROM_MAX` is refused. -/
def Obligations.LoadCartridge : Prop :=
  ∀ (s : State) (image : List Byte) (backup : Option BackupType) (g : GpioType), image ≠ [] →
    (image.length ≤ 0x02000000 → ∃ t, exec (.loadcart (.bytes image) backup g) s = .next t
      ∧ t = { s with
          mem := t.mem
          cart := { backupType := match backup with | some b => b | none => detect Config.default image
                    gpioType := g, biosLoaded := s.cart.biosLoaded, cartLoaded := true }
          ee := { phase := .idle, buf := 0, cursor := 0, addr := 0, dmaPtr := 0, data := [], size := .small, sizeLock := false }
          fl := { pending := .none, bank := .bank0, data0 := [], data1 := [], writeSingleByte := false, switchBank := false
                  idMode := false, writeArmed := false }
          sram := []
          gpio := { readable := false, direction := 0, inLatch := 0, outLatch := 0 }
          out := ⟨none, none, [], some .ok⟩ }
      ∧ ∀ a : Addr, t.asByte a
        = if 0x08000000 ≤ a ∧ a ≤ 0x0DFFFFFF then image.getD (a - 0x08000000).toNat 0 else s.asByte a)
    ∧ (0x02000000 < image.length → exec (.loadcart (.bytes image) backup g) s = .refused .imageTooLarge)

/-- The two errors: an unopenable or empty image, an unreadable save file, an unwritable sink end the operation with its error
and no change of state; a missing save file is no error and changes nothing. -/
def Obligations.HostErrorsChangeNothing : Prop :=
  ∀ (s : State) (backup : Option BackupType) (g : GpioType),
    exec (.loadfw .unopenable) s = .next { s with out := ⟨none, none, [], some (.error .loadError)⟩ }
    ∧ exec (.loadfw (.bytes [])) s = .next { s with out := ⟨none, none, [], some (.error .loadError)⟩ }
    ∧ exec (.loadcart .unopenable backup g) s = .next { s with out := ⟨none, none, [], some (.error .loadError)⟩ }
    ∧ exec (.loadcart (.bytes []) backup g) s = .next { s with out := ⟨none, none, [], some (.error .loadError)⟩ }
    ∧ exec (.loadbkp .unreadable) s = .next { s with out := ⟨none, none, [], some (.error .persistenceError)⟩ }
    ∧ exec (.savebkp .unwritable) s = .next { s with out := ⟨none, none, [], some (.error .persistenceError)⟩ }
    ∧ exec (.loadbkp .missing) s = .next { s with out := ⟨none, none, [], some .ok⟩ }

/-- Detection: SRAM if no signature stands anywhere; otherwise the family of the signature at the lowest offset. -/
def Obligations.DetectionTakesLowestSignature : Prop :=
  ∀ image : List Byte,
    ∀ sigs : List (List Byte × BackupType),
      sigs = [([0x45, 0x45, 0x50, 0x52, 0x4F, 0x4D, 0x5F, 0x56], .eeprom), ([0x53, 0x52, 0x41, 0x4D, 0x5F, 0x56], .sram),
        ([0x46, 0x4C, 0x41, 0x53, 0x48, 0x5F, 0x56], .flash64),
        ([0x46, 0x4C, 0x41, 0x53, 0x48, 0x35, 0x31, 0x32, 0x5F, 0x56], .flash64),
        ([0x46, 0x4C, 0x41, 0x53, 0x48, 0x31, 0x4D, 0x5F, 0x56], .flash128)] →
      ((∀ p, ∀ q ∈ sigs, ¬ q.1 <+: image.drop p) → detect Config.default image = .sram)
      ∧ (∀ p, ∀ q ∈ sigs, q.1 <+: image.drop p → (∀ p', p' < p → ∀ q' ∈ sigs, ¬ q'.1 <+: image.drop p') →
          detect Config.default image = q.2)

/-- LOADBKP puts the file into the active store, cut or padded with 0x00; under EEPROM the file's length fixes the size; protocol
state and every other component stay. -/
def Obligations.LoadBackupFillsActiveStore : Prop :=
  ∀ (s : State) (file : List Byte), ∃ t, exec (.loadbkp (.bytes file)) s = .next t
    ∧ (s.cart.backupType = .none → t = { s with out := ⟨none, none, [], some .ok⟩ })
    ∧ (s.cart.backupType = .eeprom →
        t = { s with
          ee := { s.ee with size := if 8192 ≤ file.length then .large else .small, sizeLock := true, data := t.ee.data }
          out := ⟨none, none, [], some .ok⟩ }
        ∧ ∀ o, t.ee.data.read o = if o < (if 8192 ≤ file.length then 8192 else 512) then file.getD o 0 else s.ee.data.read o)
    ∧ (s.cart.backupType = .flash64 →
        t = { s with fl := { s.fl with data0 := t.fl.data0 }, out := ⟨none, none, [], some .ok⟩ }
        ∧ ∀ o, o < 0x10000 → t.fl.data0.read o = file.getD o 0)
    ∧ (s.cart.backupType = .flash128 →
        t = { s with fl := { s.fl with data0 := t.fl.data0, data1 := t.fl.data1 }, out := ⟨none, none, [], some .ok⟩ }
        ∧ ∀ o, o < 0x10000 → t.fl.data0.read o = file.getD o 0 ∧ t.fl.data1.read o = file.getD (0x10000 + o) 0)
    ∧ (s.cart.backupType = .sram →
        t = { s with sram := t.sram, out := ⟨none, none, [], some .ok⟩ }
        ∧ ∀ o, t.sram.read o = if o < 0x8000 then file.getD o 0 else s.sram.read o)

/-- Save then load into a fresh instance: SAVEBKP completes and changes nothing; the file it returns, loaded after a LOADCART
with the same backup type, makes the saved range of the active store read as before, and the EEPROM size equal. -/
def Obligations.SaveLoadRoundTrip : Prop :=
  ∀ s : State, ∃ file : List Byte,
    exec (.savebkp .writable) s = .next { s with out := ⟨none, none, [], some (.saved file)⟩ }
    ∧ file.length = (match s.cart.backupType with
        | .none => 0
        | .eeprom => (match s.ee.size with | .small => 512 | .large => 8192)
        | .flash64 => 65536 | .flash128 => 131072 | .sram => 32768)
    ∧ ∀ (s' : State) (image : List Byte) (g : GpioType), image ≠ [] → image.length ≤ 0x02000000 →
      ∃ t, execAll [.loadcart (.bytes image) (some s.cart.backupType) g, .loadbkp (.bytes file)] s' = .next t
        ∧ (s.cart.backupType = .eeprom → t.ee.size = s.ee.size
            ∧ ∀ o, o < (match s.ee.size with | .small => 512 | .large => 8192) → t.ee.data.read o = s.ee.data.read o)
        ∧ (s.cart.backupType = .flash64 → ∀ o, o < 0x10000 → t.fl.data0.read o = s.fl.data0.read o)
        ∧ (s.cart.backupType = .flash128 → ∀ o, o < 0x10000 →
            t.fl.data0.read o = s.fl.data0.read o ∧ t.fl.data1.read o = s.fl.data1.read o)
        ∧ (s.cart.backupType = .sram → ∀ o, o < 0x8000 → t.sram.read o = s.sram.read o)

/-! ## Reset -/

/-- RESET: every byte of `AS` zero but the BIOS bytes of a loaded firmware, channels and protocol state cleared, the backing
stores, the EEPROM size and lock and the configuration kept, no output. `tc.region` and `tc.end` are not said (log entry 6). -/
def Obligations.ResetClearsTheBlock : Prop :=
  ∀ s : State, ∃ t, exec .reset s = .next t
    ∧ t = { s with
        mem := t.mem
        tc := t.tc
        dma := t.dma
        ee := { s.ee with phase := .idle, cursor := 0, buf := 0, addr := 0, dmaPtr := 0 }
        fl := { s.fl with pending := .none, bank := .bank0, writeSingleByte := false, switchBank := false
                          idMode := false, writeArmed := false }
        gpio := { readable := false, direction := 0, inLatch := 0, outLatch := 0 }
        out := .empty
        free := t.free }
    ∧ t.tc.valid = false
    ∧ (∀ ch, t.chan ch = { enabled := false, running := false, srcOrig := 0, src := 0, dst := 0, cursor := 0, count := 0
                           width := .half, ctrl := 0, delay := 0 })
    ∧ (∀ a : Addr, a ≤ 0x00003FFF → t.asByte a = if s.cart.biosLoaded = true then s.asByte a else 0)
    ∧ (∀ a : Addr, isStoreTag (regionOf Config.default a) = true → ¬ a ≤ 0x00003FFF → t.asByte a = 0)

/-- The initial state is RESET of the empty configuration: it is the state RESET gives from any state with nothing loaded, no
device, empty stores and no size lock, but for what is unspecified (`tc.region`, `tc.end`) and the model's own fields. -/
def Obligations.InitialStateIsResetOfEmpty : Prop :=
  ∀ s t : State, s.cart = ⟨.none, .disabled, false, false⟩ → s.ee.data = [] → s.ee.size = .small → s.ee.sizeLock = false →
    s.fl.data0 = [] → s.fl.data1 = [] → s.sram = [] → s.mem.within (inAddressSpace Config.default) = true →
    exec .reset s = .next t →
    { t with tc := { t.tc with region := State.reset.tc.region, endAddr := State.reset.tc.endAddr }
             inputs := [], free := 0 } = State.reset

/-! ## Invariants -/

/-- Every step keeps the stores canonical and inside their address ranges. -/
def Obligations.StepKeepsStores : Prop :=
  ∀ s t : State, s.storesOk Config.default = true → step s = .next t → t.storesOk Config.default = true

/-- Every step keeps the channels as they must be between steps: not running, enabled exactly when bit 15 of `CNT_H` is set, at the
start of their pass while Armed, with a legal captured control and zeros in the reserved bits. -/
def Obligations.StepKeepsChannels : Prop :=
  ∀ s t : State, s.dmaOk Config.default → step s = .next t → t.dmaOk Config.default

/-- Every step keeps the engines as they must be between steps: no EEPROM burst in progress, a reply within its 68 bits, Flash64 on
bank 0, at most one Flash flag pending, GPIO fields within their width, and the engines the cartridge does not have at their
default state. -/
def Obligations.StepKeepsEngines : Prop :=
  ∀ s t : State, s.enginesOk Config.default → step s = .next t → t.enginesOk Config.default

/-- The state after reset meets the three invariants. -/
def Obligations.ResetStateMeetsInvariants : Prop :=
  State.reset.storesOk Config.default = true ∧ State.reset.dmaOk Config.default ∧ State.reset.enginesOk Config.default

/-! ## The whole machine -/

/-- Nothing but the loads changes the configuration; nothing but RESET and the loads changes a BIOS or ROM byte. -/
def Obligations.OnlyLoadsChangeCartridgeAndRom : Prop :=
  ∀ (i : Instr) (s t : State), exec i s = .next t → (∀ m, i ≠ .loadfw m) → (∀ m b g, i ≠ .loadcart m b g) →
    t.cart = s.cart
    ∧ (i ≠ .reset → ∀ a : Addr, regionOf Config.default a = .bios ∨ regionOf Config.default a = .rom → t.asByte a = s.asByte a)

/-- The three refusals, and who can meet each: source control 3 where a channel is armed, the DMA block where a run can start, an
oversized image at LOADCART. -/
def Obligations.OnlyThreeRefusals : Prop :=
  ∀ (i : Instr) (s : State) (r : Refusal), exec i s = .refused r →
    (r = .sac3 ∧ mayArm i = true) ∨ (r = .dmaWritesDmaRegisters ∧ mayRunDma i = true)
    ∨ (r = .imageTooLarge ∧ ∃ bytes b g, i = .loadcart (.bytes bytes) b g ∧ 0x02000000 < bytes.length)

/-- The outputs of earlier steps are not state: no instruction reads them. -/
def Obligations.OutputsAreNotState : Prop :=
  ∀ (i : Instr) (s : State) (o : Outputs), exec i { s with out := o } = exec i s
end

