-- ==== Sys2Proof/Laws/Decode.lean ====
section
/-! SUPPORT. The laws of the decoder's parts: bytes and words, bit streams, the fields of `CNT_H` (30_encoding.md R100 to R107). -/

namespace Sys2Proof

/-! ## Bytes and words -/

theorem wordOfBytes_bytesOfWord (w : Word) :
    wordOfBytes (w.extractLsb' 24 8) (w.extractLsb' 16 8) (w.extractLsb' 8 8) (w.extractLsb' 0 8) = w := by
  unfold wordOfBytes
  ext i hi
  simp only [BitVec.getElem_append, BitVec.getElem_extractLsb']
  split
  · simp [BitVec.getLsbD_eq_getElem hi]
  · split
    · have : 8 + (i - 8) = i := by omega
      simp [this, BitVec.getLsbD_eq_getElem hi]
    · split
      · have : 16 + (i - 8 - 8) = i := by omega
        simp [this, BitVec.getLsbD_eq_getElem hi]
      · have : 24 + (i - 8 - 8 - 8) = i := by omega
        simp [this, BitVec.getLsbD_eq_getElem hi]

/-- An event word is read back as its header, address and data. -/
theorem decodeEvent_eventBytes (c : Config) (h : Byte) (addr data : Word) (side : Side) :
    decodeEvent c (eventBytes h addr data) side = decodeHeader c h addr data side := by
  simp only [eventBytes, bytesOfWord, List.cons_append, List.nil_append, decodeEvent, wordOfBytes_bytesOfWord]

/-- A Flash word is read back as its offset and its value (R106). -/
@[simp] theorem flashWord_offset (off : Half) (v : Byte) : (flashWord off v).extractLsb' 8 16 = off := by
  apply BitVec.eq_of_getLsbD_eq; intro i hi
  simp only [flashWord, BitVec.getLsbD_extractLsb', BitVec.getLsbD_append]
  rw [if_neg (by omega)]
  simp [hi]

@[simp] theorem flashWord_value (off : Half) (v : Byte) : (flashWord off v).extractLsb' 0 8 = v := by
  apply BitVec.eq_of_getLsbD_eq; intro i hi
  simp only [flashWord, BitVec.getLsbD_extractLsb', BitVec.getLsbD_append]
  rw [if_pos (by omega)]
  simp [hi]

/-! ## Bit streams -/

@[simp] theorem bitsOfNat_length (n v : Nat) : (bitsOfNat n v).length = n := by
  induction n with
  | zero => rfl
  | succ n ih => simp [bitsOfNat, ih]

@[simp] theorem bitsOfVec_length {n : Nat} (v : BitVec n) : (bitsOfVec v).length = n := bitsOfNat_length _ _

theorem natOfBits_lt (bs : List Bool) : natOfBits bs < 2 ^ bs.length := by
  induction bs with
  | nil => simp [natOfBits]
  | cons b bs ih =>
    simp only [natOfBits, List.length_cons, Nat.pow_succ]
    have : b.toNat ≤ 1 := by cases b <;> decide
    have : b.toNat * 2 ^ bs.length ≤ 1 * 2 ^ bs.length := Nat.mul_le_mul_right _ this
    omega

theorem natOfBits_append (bs cs : List Bool) : natOfBits (bs ++ cs) = natOfBits bs * 2 ^ cs.length + natOfBits cs := by
  induction bs with
  | nil => simp [natOfBits]
  | cons b bs ih =>
    simp only [List.cons_append, natOfBits, ih, List.length_append, Nat.pow_add]
    ring

/-- The bits of a number, read as a number, are its low bits. -/
theorem natOfBits_bitsOfNat (n v : Nat) : natOfBits (bitsOfNat n v) = v % 2 ^ n := by
  induction n with
  | zero => simp [bitsOfNat, natOfBits, Nat.mod_one]
  | succ n ih =>
    simp only [bitsOfNat, natOfBits, bitsOfNat_length, ih]
    rw [Nat.testBit_eq_decide_div_mod_eq, Nat.pow_succ, Nat.mod_mul]
    rcases Nat.mod_two_eq_zero_or_one (v / 2 ^ n) with h | h
    · simp [h]
    · simp [h]; ring

@[simp] theorem natOfBits_bitsOfVec {n : Nat} (v : BitVec n) : natOfBits (bitsOfVec v) = v.toNat := by
  rw [bitsOfVec, natOfBits_bitsOfNat, Nat.mod_eq_of_lt v.isLt]

theorem natOfBits_readRequest {n : Nat} (a : BitVec n) (stop : Bool) :
    natOfBits (readRequestBits a stop) = 3 * 2 ^ (n + 1) + (a.toNat * 2 + stop.toNat) := by
  simp only [readRequestBits, natOfBits, natOfBits_append, natOfBits_bitsOfVec, List.length_append, bitsOfVec_length,
    List.length_cons, List.length_nil, Bool.toNat_true, Nat.zero_add, Nat.pow_zero, Nat.pow_succ]
  ring

theorem natOfBits_write {n : Nat} (a : BitVec n) (d : BitVec 64) (stop : Bool) :
    natOfBits (writeBits a d stop) = 2 * 2 ^ (n + 65) + (a.toNat * 2 ^ 65 + (d.toNat * 2 + stop.toNat)) := by
  simp only [writeBits, natOfBits, natOfBits_append, natOfBits_bitsOfVec, List.length_append, bitsOfVec_length,
    List.length_cons, List.length_nil, Bool.toNat_true, Bool.toNat_false, Nat.zero_add, Nat.pow_zero]
  have h : (2 : Nat) ^ (n + (64 + 1) + 1) = 2 * 2 ^ (n + 65) := by rw [Nat.pow_succ]; ring
  rw [h]; ring

@[simp] theorem readRequestBits_length {n : Nat} (a : BitVec n) (stop : Bool) : (readRequestBits a stop).length = n + 3 := by
  simp [readRequestBits]

@[simp] theorem writeBits_length {n : Nat} (a : BitVec n) (d : BitVec 64) (stop : Bool) :
    (writeBits a d stop).length = n + 67 := by
  simp [writeBits]

/-! ## The control half-word -/

@[simp] theorem Timing.ofCode_code (t : Timing) : Timing.ofCode t.code = t := by cases t <;> rfl
@[simp] theorem AddrCtl.ofCode_code (t : AddrCtl) : AddrCtl.ofCode t.code = t := by cases t <;> rfl
@[simp] theorem UnitWidth.ofBit_bit (w : UnitWidth) : UnitWidth.ofBit w.bit = w := by cases w <;> rfl
@[simp] theorem UnitWidth.bit_ofBit (b : Bool) : (UnitWidth.ofBit b).bit = b := by cases b <;> rfl
@[simp] theorem Timing.code_ofCode (b : BitVec 2) : (Timing.ofCode b).code = b := by
  revert b; decide
@[simp] theorem AddrCtl.code_ofCode (b : BitVec 2) : (AddrCtl.ofCode b).code = b := by
  revert b; decide

/-- Bit `i` of the control half-word. -/
theorem CtlFields.toHalf_bit (e : Bool) (f : CtlFields) (i : Nat) (hi : i < 16) : (f.toHalf e).getLsbD i =
    if i < 5 then false else if i < 7 then f.dac.code.getLsbD (i - 5) else if i < 9 then f.sac.code.getLsbD (i - 7)
    else if i < 10 then f.rep else if i < 11 then f.width.bit else if i < 12 then f.drq
    else if i < 14 then f.timing.code.getLsbD (i - 12) else if i < 15 then f.irq else e := by
  simp only [CtlFields.toHalf, BitVec.getLsbD_append, BitVec.getLsbD_ofBool]
  interval_cases i <;> simp

/-- The fields of a control half-word are read back, whatever its enable bit. -/
@[simp] theorem CtlFields.ofHalf_toHalf (e : Bool) (f : CtlFields) : CtlFields.ofHalf (f.toHalf e) = f := by
  have h12 : (f.toHalf e).extractLsb' 12 2 = f.timing.code := by
    apply BitVec.eq_of_getLsbD_eq; intro i hi
    rw [BitVec.getLsbD_extractLsb', CtlFields.toHalf_bit _ _ _ (by omega)]
    interval_cases i <;> simp
  have h7 : (f.toHalf e).extractLsb' 7 2 = f.sac.code := by
    apply BitVec.eq_of_getLsbD_eq; intro i hi
    rw [BitVec.getLsbD_extractLsb', CtlFields.toHalf_bit _ _ _ (by omega)]
    interval_cases i <;> simp
  have h5 : (f.toHalf e).extractLsb' 5 2 = f.dac.code := by
    apply BitVec.eq_of_getLsbD_eq; intro i hi
    rw [BitVec.getLsbD_extractLsb', CtlFields.toHalf_bit _ _ _ (by omega)]
    interval_cases i <;> simp
  unfold CtlFields.ofHalf
  rw [h12, h7, h5, CtlFields.toHalf_bit _ _ 14 (by omega), CtlFields.toHalf_bit _ _ 11 (by omega),
    CtlFields.toHalf_bit _ _ 10 (by omega), CtlFields.toHalf_bit _ _ 9 (by omega)]
  simp

theorem CtlFields.toHalf_enable (e : Bool) (f : CtlFields) : (f.toHalf e).getLsbD 15 = e := by
  rw [CtlFields.toHalf_bit _ _ _ (by omega)]; simp

@[simp] theorem CtlFields.toHalf_getElem (e : Bool) (f : CtlFields) : (f.toHalf e)[15] = e :=
  (BitVec.getLsbD_eq_getElem (by omega)).symm.trans (CtlFields.toHalf_enable e f)

/-- The half-word of the fields of a half-word is that half-word without its five reserved bits. -/
theorem CtlFields.toHalf_ofHalf (w : Half) : (CtlFields.ofHalf w).toHalf (w.getLsbD 15) = w &&& 0xFFE0 := by
  apply BitVec.eq_of_getLsbD_eq; intro i hi
  rw [CtlFields.toHalf_bit _ _ _ hi]
  simp only [CtlFields.ofHalf, Timing.code_ofCode, AddrCtl.code_ofCode, UnitWidth.bit_ofBit, BitVec.getLsbD_extractLsb',
    BitVec.getLsbD_and]
  interval_cases i <;> simp

/-- Bit 15 of the word selects the row, and the row's fields are the word's. -/
theorem decodeCtl_toHalf (ch : Chan) (e : Bool) (f : CtlFields) :
    decodeCtl ch (f.toHalf e) = if e then .dmaarm ch f else .dmaoff ch f := by
  simp [decodeCtl]

end Sys2Proof
end

