-- ==== Sys2Proof/Laws/State.lean ====
section
/-! SUPPORT. One lemma per field per named update of State, and the laws of the channel bank. -/

namespace Sys2Proof.Machine

variable (s : State)

/-! ### `setMem` -/

@[simp] theorem State.setMem_mem (x : Memory) : (s.setMem x).mem = x := rfl
@[simp] theorem State.setMem_cart (x : Memory) : (s.setMem x).cart = s.cart := rfl
@[simp] theorem State.setMem_tc (x : Memory) : (s.setMem x).tc = s.tc := rfl
@[simp] theorem State.setMem_dma (x : Memory) : (s.setMem x).dma = s.dma := rfl
@[simp] theorem State.setMem_ee (x : Memory) : (s.setMem x).ee = s.ee := rfl
@[simp] theorem State.setMem_fl (x : Memory) : (s.setMem x).fl = s.fl := rfl
@[simp] theorem State.setMem_gpio (x : Memory) : (s.setMem x).gpio = s.gpio := rfl
@[simp] theorem State.setMem_sram (x : Memory) : (s.setMem x).sram = s.sram := rfl
@[simp] theorem State.setMem_out (x : Memory) : (s.setMem x).out = s.out := rfl
@[simp] theorem State.setMem_inputs (x : Memory) : (s.setMem x).inputs = s.inputs := rfl
@[simp] theorem State.setMem_free (x : Memory) : (s.setMem x).free = s.free := rfl

/-! ### `setCart` -/

@[simp] theorem State.setCart_mem (x : Cart) : (s.setCart x).mem = s.mem := rfl
@[simp] theorem State.setCart_cart (x : Cart) : (s.setCart x).cart = x := rfl
@[simp] theorem State.setCart_tc (x : Cart) : (s.setCart x).tc = s.tc := rfl
@[simp] theorem State.setCart_dma (x : Cart) : (s.setCart x).dma = s.dma := rfl
@[simp] theorem State.setCart_ee (x : Cart) : (s.setCart x).ee = s.ee := rfl
@[simp] theorem State.setCart_fl (x : Cart) : (s.setCart x).fl = s.fl := rfl
@[simp] theorem State.setCart_gpio (x : Cart) : (s.setCart x).gpio = s.gpio := rfl
@[simp] theorem State.setCart_sram (x : Cart) : (s.setCart x).sram = s.sram := rfl
@[simp] theorem State.setCart_out (x : Cart) : (s.setCart x).out = s.out := rfl
@[simp] theorem State.setCart_inputs (x : Cart) : (s.setCart x).inputs = s.inputs := rfl
@[simp] theorem State.setCart_free (x : Cart) : (s.setCart x).free = s.free := rfl

/-! ### `setTc` -/

@[simp] theorem State.setTc_mem (x : Tc) : (s.setTc x).mem = s.mem := rfl
@[simp] theorem State.setTc_cart (x : Tc) : (s.setTc x).cart = s.cart := rfl
@[simp] theorem State.setTc_tc (x : Tc) : (s.setTc x).tc = x := rfl
@[simp] theorem State.setTc_dma (x : Tc) : (s.setTc x).dma = s.dma := rfl
@[simp] theorem State.setTc_ee (x : Tc) : (s.setTc x).ee = s.ee := rfl
@[simp] theorem State.setTc_fl (x : Tc) : (s.setTc x).fl = s.fl := rfl
@[simp] theorem State.setTc_gpio (x : Tc) : (s.setTc x).gpio = s.gpio := rfl
@[simp] theorem State.setTc_sram (x : Tc) : (s.setTc x).sram = s.sram := rfl
@[simp] theorem State.setTc_out (x : Tc) : (s.setTc x).out = s.out := rfl
@[simp] theorem State.setTc_inputs (x : Tc) : (s.setTc x).inputs = s.inputs := rfl
@[simp] theorem State.setTc_free (x : Tc) : (s.setTc x).free = s.free := rfl

/-! ### `setDma` -/

@[simp] theorem State.setDma_mem (x : Channels) : (s.setDma x).mem = s.mem := rfl
@[simp] theorem State.setDma_cart (x : Channels) : (s.setDma x).cart = s.cart := rfl
@[simp] theorem State.setDma_tc (x : Channels) : (s.setDma x).tc = s.tc := rfl
@[simp] theorem State.setDma_dma (x : Channels) : (s.setDma x).dma = x := rfl
@[simp] theorem State.setDma_ee (x : Channels) : (s.setDma x).ee = s.ee := rfl
@[simp] theorem State.setDma_fl (x : Channels) : (s.setDma x).fl = s.fl := rfl
@[simp] theorem State.setDma_gpio (x : Channels) : (s.setDma x).gpio = s.gpio := rfl
@[simp] theorem State.setDma_sram (x : Channels) : (s.setDma x).sram = s.sram := rfl
@[simp] theorem State.setDma_out (x : Channels) : (s.setDma x).out = s.out := rfl
@[simp] theorem State.setDma_inputs (x : Channels) : (s.setDma x).inputs = s.inputs := rfl
@[simp] theorem State.setDma_free (x : Channels) : (s.setDma x).free = s.free := rfl

/-! ### `setEe` -/

@[simp] theorem State.setEe_mem (x : Eeprom) : (s.setEe x).mem = s.mem := rfl
@[simp] theorem State.setEe_cart (x : Eeprom) : (s.setEe x).cart = s.cart := rfl
@[simp] theorem State.setEe_tc (x : Eeprom) : (s.setEe x).tc = s.tc := rfl
@[simp] theorem State.setEe_dma (x : Eeprom) : (s.setEe x).dma = s.dma := rfl
@[simp] theorem State.setEe_ee (x : Eeprom) : (s.setEe x).ee = x := rfl
@[simp] theorem State.setEe_fl (x : Eeprom) : (s.setEe x).fl = s.fl := rfl
@[simp] theorem State.setEe_gpio (x : Eeprom) : (s.setEe x).gpio = s.gpio := rfl
@[simp] theorem State.setEe_sram (x : Eeprom) : (s.setEe x).sram = s.sram := rfl
@[simp] theorem State.setEe_out (x : Eeprom) : (s.setEe x).out = s.out := rfl
@[simp] theorem State.setEe_inputs (x : Eeprom) : (s.setEe x).inputs = s.inputs := rfl
@[simp] theorem State.setEe_free (x : Eeprom) : (s.setEe x).free = s.free := rfl

/-! ### `setFl` -/

@[simp] theorem State.setFl_mem (x : Flash) : (s.setFl x).mem = s.mem := rfl
@[simp] theorem State.setFl_cart (x : Flash) : (s.setFl x).cart = s.cart := rfl
@[simp] theorem State.setFl_tc (x : Flash) : (s.setFl x).tc = s.tc := rfl
@[simp] theorem State.setFl_dma (x : Flash) : (s.setFl x).dma = s.dma := rfl
@[simp] theorem State.setFl_ee (x : Flash) : (s.setFl x).ee = s.ee := rfl
@[simp] theorem State.setFl_fl (x : Flash) : (s.setFl x).fl = x := rfl
@[simp] theorem State.setFl_gpio (x : Flash) : (s.setFl x).gpio = s.gpio := rfl
@[simp] theorem State.setFl_sram (x : Flash) : (s.setFl x).sram = s.sram := rfl
@[simp] theorem State.setFl_out (x : Flash) : (s.setFl x).out = s.out := rfl
@[simp] theorem State.setFl_inputs (x : Flash) : (s.setFl x).inputs = s.inputs := rfl
@[simp] theorem State.setFl_free (x : Flash) : (s.setFl x).free = s.free := rfl

/-! ### `setGpio` -/

@[simp] theorem State.setGpio_mem (x : Gpio) : (s.setGpio x).mem = s.mem := rfl
@[simp] theorem State.setGpio_cart (x : Gpio) : (s.setGpio x).cart = s.cart := rfl
@[simp] theorem State.setGpio_tc (x : Gpio) : (s.setGpio x).tc = s.tc := rfl
@[simp] theorem State.setGpio_dma (x : Gpio) : (s.setGpio x).dma = s.dma := rfl
@[simp] theorem State.setGpio_ee (x : Gpio) : (s.setGpio x).ee = s.ee := rfl
@[simp] theorem State.setGpio_fl (x : Gpio) : (s.setGpio x).fl = s.fl := rfl
@[simp] theorem State.setGpio_gpio (x : Gpio) : (s.setGpio x).gpio = x := rfl
@[simp] theorem State.setGpio_sram (x : Gpio) : (s.setGpio x).sram = s.sram := rfl
@[simp] theorem State.setGpio_out (x : Gpio) : (s.setGpio x).out = s.out := rfl
@[simp] theorem State.setGpio_inputs (x : Gpio) : (s.setGpio x).inputs = s.inputs := rfl
@[simp] theorem State.setGpio_free (x : Gpio) : (s.setGpio x).free = s.free := rfl

/-! ### `setSram` -/

@[simp] theorem State.setSram_mem (x : Memory) : (s.setSram x).mem = s.mem := rfl
@[simp] theorem State.setSram_cart (x : Memory) : (s.setSram x).cart = s.cart := rfl
@[simp] theorem State.setSram_tc (x : Memory) : (s.setSram x).tc = s.tc := rfl
@[simp] theorem State.setSram_dma (x : Memory) : (s.setSram x).dma = s.dma := rfl
@[simp] theorem State.setSram_ee (x : Memory) : (s.setSram x).ee = s.ee := rfl
@[simp] theorem State.setSram_fl (x : Memory) : (s.setSram x).fl = s.fl := rfl
@[simp] theorem State.setSram_gpio (x : Memory) : (s.setSram x).gpio = s.gpio := rfl
@[simp] theorem State.setSram_sram (x : Memory) : (s.setSram x).sram = x := rfl
@[simp] theorem State.setSram_out (x : Memory) : (s.setSram x).out = s.out := rfl
@[simp] theorem State.setSram_inputs (x : Memory) : (s.setSram x).inputs = s.inputs := rfl
@[simp] theorem State.setSram_free (x : Memory) : (s.setSram x).free = s.free := rfl

/-! ### `setOut` -/

@[simp] theorem State.setOut_mem (x : Outputs) : (s.setOut x).mem = s.mem := rfl
@[simp] theorem State.setOut_cart (x : Outputs) : (s.setOut x).cart = s.cart := rfl
@[simp] theorem State.setOut_tc (x : Outputs) : (s.setOut x).tc = s.tc := rfl
@[simp] theorem State.setOut_dma (x : Outputs) : (s.setOut x).dma = s.dma := rfl
@[simp] theorem State.setOut_ee (x : Outputs) : (s.setOut x).ee = s.ee := rfl
@[simp] theorem State.setOut_fl (x : Outputs) : (s.setOut x).fl = s.fl := rfl
@[simp] theorem State.setOut_gpio (x : Outputs) : (s.setOut x).gpio = s.gpio := rfl
@[simp] theorem State.setOut_sram (x : Outputs) : (s.setOut x).sram = s.sram := rfl
@[simp] theorem State.setOut_out (x : Outputs) : (s.setOut x).out = x := rfl
@[simp] theorem State.setOut_inputs (x : Outputs) : (s.setOut x).inputs = s.inputs := rfl
@[simp] theorem State.setOut_free (x : Outputs) : (s.setOut x).free = s.free := rfl

/-! ### `setInputs` -/

@[simp] theorem State.setInputs_mem (x : List Presented) : (s.setInputs x).mem = s.mem := rfl
@[simp] theorem State.setInputs_cart (x : List Presented) : (s.setInputs x).cart = s.cart := rfl
@[simp] theorem State.setInputs_tc (x : List Presented) : (s.setInputs x).tc = s.tc := rfl
@[simp] theorem State.setInputs_dma (x : List Presented) : (s.setInputs x).dma = s.dma := rfl
@[simp] theorem State.setInputs_ee (x : List Presented) : (s.setInputs x).ee = s.ee := rfl
@[simp] theorem State.setInputs_fl (x : List Presented) : (s.setInputs x).fl = s.fl := rfl
@[simp] theorem State.setInputs_gpio (x : List Presented) : (s.setInputs x).gpio = s.gpio := rfl
@[simp] theorem State.setInputs_sram (x : List Presented) : (s.setInputs x).sram = s.sram := rfl
@[simp] theorem State.setInputs_out (x : List Presented) : (s.setInputs x).out = s.out := rfl
@[simp] theorem State.setInputs_inputs (x : List Presented) : (s.setInputs x).inputs = x := rfl
@[simp] theorem State.setInputs_free (x : List Presented) : (s.setInputs x).free = s.free := rfl

/-! ### `setFree` -/

@[simp] theorem State.setFree_mem (x : Nat) : (s.setFree x).mem = s.mem := rfl
@[simp] theorem State.setFree_cart (x : Nat) : (s.setFree x).cart = s.cart := rfl
@[simp] theorem State.setFree_tc (x : Nat) : (s.setFree x).tc = s.tc := rfl
@[simp] theorem State.setFree_dma (x : Nat) : (s.setFree x).dma = s.dma := rfl
@[simp] theorem State.setFree_ee (x : Nat) : (s.setFree x).ee = s.ee := rfl
@[simp] theorem State.setFree_fl (x : Nat) : (s.setFree x).fl = s.fl := rfl
@[simp] theorem State.setFree_gpio (x : Nat) : (s.setFree x).gpio = s.gpio := rfl
@[simp] theorem State.setFree_sram (x : Nat) : (s.setFree x).sram = s.sram := rfl
@[simp] theorem State.setFree_out (x : Nat) : (s.setFree x).out = s.out := rfl
@[simp] theorem State.setFree_inputs (x : Nat) : (s.setFree x).inputs = s.inputs := rfl
@[simp] theorem State.setFree_free (x : Nat) : (s.setFree x).free = x := rfl

/-! ### `start`, `emit`, `answer`, `hostResult`: only `out` changes -/

@[simp] theorem State.start_mem : s.start.mem = s.mem := rfl
@[simp] theorem State.start_cart : s.start.cart = s.cart := rfl
@[simp] theorem State.start_tc : s.start.tc = s.tc := rfl
@[simp] theorem State.start_dma : s.start.dma = s.dma := rfl
@[simp] theorem State.start_ee : s.start.ee = s.ee := rfl
@[simp] theorem State.start_fl : s.start.fl = s.fl := rfl
@[simp] theorem State.start_gpio : s.start.gpio = s.gpio := rfl
@[simp] theorem State.start_sram : s.start.sram = s.sram := rfl
@[simp] theorem State.start_inputs : s.start.inputs = s.inputs := rfl
@[simp] theorem State.start_free : s.start.free = s.free := rfl
@[simp] theorem State.emit_mem (l : List Signal) : (s.emit l).mem = s.mem := rfl
@[simp] theorem State.emit_cart (l : List Signal) : (s.emit l).cart = s.cart := rfl
@[simp] theorem State.emit_tc (l : List Signal) : (s.emit l).tc = s.tc := rfl
@[simp] theorem State.emit_dma (l : List Signal) : (s.emit l).dma = s.dma := rfl
@[simp] theorem State.emit_ee (l : List Signal) : (s.emit l).ee = s.ee := rfl
@[simp] theorem State.emit_fl (l : List Signal) : (s.emit l).fl = s.fl := rfl
@[simp] theorem State.emit_gpio (l : List Signal) : (s.emit l).gpio = s.gpio := rfl
@[simp] theorem State.emit_sram (l : List Signal) : (s.emit l).sram = s.sram := rfl
@[simp] theorem State.emit_inputs (l : List Signal) : (s.emit l).inputs = s.inputs := rfl
@[simp] theorem State.emit_free (l : List Signal) : (s.emit l).free = s.free := rfl
@[simp] theorem State.answer_mem (v : Option ReadValue) (k : Option TimingClass) : (s.answer v k).mem = s.mem := rfl
@[simp] theorem State.answer_cart (v : Option ReadValue) (k : Option TimingClass) : (s.answer v k).cart = s.cart := rfl
@[simp] theorem State.answer_tc (v : Option ReadValue) (k : Option TimingClass) : (s.answer v k).tc = s.tc := rfl
@[simp] theorem State.answer_dma (v : Option ReadValue) (k : Option TimingClass) : (s.answer v k).dma = s.dma := rfl
@[simp] theorem State.answer_ee (v : Option ReadValue) (k : Option TimingClass) : (s.answer v k).ee = s.ee := rfl
@[simp] theorem State.answer_fl (v : Option ReadValue) (k : Option TimingClass) : (s.answer v k).fl = s.fl := rfl
@[simp] theorem State.answer_gpio (v : Option ReadValue) (k : Option TimingClass) : (s.answer v k).gpio = s.gpio := rfl
@[simp] theorem State.answer_sram (v : Option ReadValue) (k : Option TimingClass) : (s.answer v k).sram = s.sram := rfl
@[simp] theorem State.answer_inputs (v : Option ReadValue) (k : Option TimingClass) : (s.answer v k).inputs = s.inputs := rfl
@[simp] theorem State.answer_free (v : Option ReadValue) (k : Option TimingClass) : (s.answer v k).free = s.free := rfl
@[simp] theorem State.hostResult_mem (r : HostResult) : (s.hostResult r).mem = s.mem := rfl
@[simp] theorem State.hostResult_cart (r : HostResult) : (s.hostResult r).cart = s.cart := rfl
@[simp] theorem State.hostResult_tc (r : HostResult) : (s.hostResult r).tc = s.tc := rfl
@[simp] theorem State.hostResult_dma (r : HostResult) : (s.hostResult r).dma = s.dma := rfl
@[simp] theorem State.hostResult_ee (r : HostResult) : (s.hostResult r).ee = s.ee := rfl
@[simp] theorem State.hostResult_fl (r : HostResult) : (s.hostResult r).fl = s.fl := rfl
@[simp] theorem State.hostResult_gpio (r : HostResult) : (s.hostResult r).gpio = s.gpio := rfl
@[simp] theorem State.hostResult_sram (r : HostResult) : (s.hostResult r).sram = s.sram := rfl
@[simp] theorem State.hostResult_inputs (r : HostResult) : (s.hostResult r).inputs = s.inputs := rfl
@[simp] theorem State.hostResult_free (r : HostResult) : (s.hostResult r).free = s.free := rfl

@[simp] theorem State.start_out : s.start.out = .empty := rfl
@[simp] theorem State.emit_signals (l : List Signal) : (s.emit l).out.signals = s.out.signals ++ l := rfl
@[simp] theorem State.emit_value (l : List Signal) : (s.emit l).out.value = s.out.value := rfl
@[simp] theorem State.emit_cls (l : List Signal) : (s.emit l).out.cls = s.out.cls := rfl
@[simp] theorem State.emit_host (l : List Signal) : (s.emit l).out.host = s.out.host := rfl
@[simp] theorem State.answer_out (v : Option ReadValue) (k : Option TimingClass) :
    (s.answer v k).out = ⟨v, k, s.out.signals, s.out.host⟩ := rfl
@[simp] theorem State.hostResult_out (r : HostResult) :
    (s.hostResult r).out = ⟨s.out.value, s.out.cls, s.out.signals, some r⟩ := rfl
@[simp] theorem Outputs.empty_value : Outputs.empty.value = none := rfl
@[simp] theorem Outputs.empty_cls : Outputs.empty.cls = none := rfl
@[simp] theorem Outputs.empty_signals : Outputs.empty.signals = [] := rfl
@[simp] theorem Outputs.empty_host : Outputs.empty.host = none := rfl

/-! ### The channel bank -/

@[simp] theorem Channels.get_set_same (d : Channels) (ch : Chan) (x : DmaChan) : (d.set ch x).get ch = x := by
  match ch with | 0 => rfl | 1 => rfl | 2 => rfl | 3 => rfl

theorem Channels.get_set_other (d : Channels) {ch ch' : Chan} (x : DmaChan) (h : ch' ≠ ch) :
    (d.set ch x).get ch' = d.get ch' := by
  match ch, ch' with
  | 0, 0 => exact absurd rfl h
  | 0, 1 => rfl | 0, 2 => rfl | 0, 3 => rfl
  | 1, 0 => rfl
  | 1, 1 => exact absurd rfl h
  | 1, 2 => rfl | 1, 3 => rfl
  | 2, 0 => rfl | 2, 1 => rfl
  | 2, 2 => exact absurd rfl h
  | 2, 3 => rfl
  | 3, 0 => rfl | 3, 1 => rfl | 3, 2 => rfl
  | 3, 3 => exact absurd rfl h

@[simp] theorem Channels.set_get (d : Channels) (ch : Chan) : d.set ch (d.get ch) = d := by
  match ch with | 0 => rfl | 1 => rfl | 2 => rfl | 3 => rfl

@[simp] theorem Channels.set_set (d : Channels) (ch : Chan) (x y : DmaChan) : (d.set ch x).set ch y = d.set ch y := by
  match ch with | 0 => rfl | 1 => rfl | 2 => rfl | 3 => rfl

/-- Two banks with the same four channels are equal. -/
theorem Channels.ext_get {d e : Channels} (h : ∀ ch, d.get ch = e.get ch) : d = e := by
  cases d; cases e
  have h0 := h 0; have h1 := h 1; have h2 := h 2; have h3 := h 3
  simp only [Channels.get] at h0 h1 h2 h3
  subst h0 h1 h2 h3; rfl

@[simp] theorem State.chan_setChan_same (ch : Chan) (x : DmaChan) : (s.setChan ch x).chan ch = x :=
  Channels.get_set_same _ _ _

theorem State.chan_setChan_other {ch ch' : Chan} (x : DmaChan) (h : ch' ≠ ch) :
    (s.setChan ch x).chan ch' = s.chan ch' := Channels.get_set_other _ _ h

@[simp] theorem State.setChan_setChan (ch : Chan) (x y : DmaChan) : (s.setChan ch x).setChan ch y = s.setChan ch y := by
  simp [State.setChan, State.setDma]

@[simp] theorem State.setChan_chan (ch : Chan) : s.setChan ch (s.chan ch) = s := by
  simp [State.setChan, State.setDma, State.chan]

@[simp] theorem State.setChan_mem (ch : Chan) (x : DmaChan) : (s.setChan ch x).mem = s.mem := rfl
@[simp] theorem State.setChan_cart (ch : Chan) (x : DmaChan) : (s.setChan ch x).cart = s.cart := rfl
@[simp] theorem State.setChan_tc (ch : Chan) (x : DmaChan) : (s.setChan ch x).tc = s.tc := rfl
@[simp] theorem State.setChan_dma (ch : Chan) (x : DmaChan) : (s.setChan ch x).dma = s.dma.set ch x := rfl
@[simp] theorem State.setChan_ee (ch : Chan) (x : DmaChan) : (s.setChan ch x).ee = s.ee := rfl
@[simp] theorem State.setChan_fl (ch : Chan) (x : DmaChan) : (s.setChan ch x).fl = s.fl := rfl
@[simp] theorem State.setChan_gpio (ch : Chan) (x : DmaChan) : (s.setChan ch x).gpio = s.gpio := rfl
@[simp] theorem State.setChan_sram (ch : Chan) (x : DmaChan) : (s.setChan ch x).sram = s.sram := rfl
@[simp] theorem State.setChan_out (ch : Chan) (x : DmaChan) : (s.setChan ch x).out = s.out := rfl
@[simp] theorem State.setChan_inputs (ch : Chan) (x : DmaChan) : (s.setChan ch x).inputs = s.inputs := rfl
@[simp] theorem State.setChan_free (ch : Chan) (x : DmaChan) : (s.setChan ch x).free = s.free := rfl

@[simp] theorem State.setMem_chan (x : Memory) (ch : Chan) : (s.setMem x).chan ch = s.chan ch := rfl
@[simp] theorem State.setCart_chan (x : Cart) (ch : Chan) : (s.setCart x).chan ch = s.chan ch := rfl
@[simp] theorem State.setTc_chan (x : Tc) (ch : Chan) : (s.setTc x).chan ch = s.chan ch := rfl
@[simp] theorem State.setEe_chan (x : Eeprom) (ch : Chan) : (s.setEe x).chan ch = s.chan ch := rfl
@[simp] theorem State.setFl_chan (x : Flash) (ch : Chan) : (s.setFl x).chan ch = s.chan ch := rfl
@[simp] theorem State.setGpio_chan (x : Gpio) (ch : Chan) : (s.setGpio x).chan ch = s.chan ch := rfl
@[simp] theorem State.setSram_chan (x : Memory) (ch : Chan) : (s.setSram x).chan ch = s.chan ch := rfl
@[simp] theorem State.setOut_chan (x : Outputs) (ch : Chan) : (s.setOut x).chan ch = s.chan ch := rfl
@[simp] theorem State.setInputs_chan (x : List Presented) (ch : Chan) : (s.setInputs x).chan ch = s.chan ch := rfl
@[simp] theorem State.setFree_chan (x : Nat) (ch : Chan) : (s.setFree x).chan ch = s.chan ch := rfl
@[simp] theorem State.start_chan (ch : Chan) : s.start.chan ch = s.chan ch := rfl
@[simp] theorem State.emit_chan (l : List Signal) (ch : Chan) : (s.emit l).chan ch = s.chan ch := rfl
@[simp] theorem State.answer_chan (v : Option ReadValue) (k : Option TimingClass) (ch : Chan) : (s.answer v k).chan ch = s.chan ch := rfl

end Sys2Proof.Machine
end

