-- ==== Sys2Proof/Laws/Default.lean ====
section
/-! SUPPORT. The default configuration (00_scope.md R5): its fields, its region table as bounds, its DMA registers as addresses. -/

namespace Sys2Proof.Machine

@[simp] theorem default_bios : Config.default.bios = ⟨0x00000000, 0x00003FFF⟩ := by rfl
@[simp] theorem default_wram : Config.default.wram = ⟨0x02000000, 0x0203FFFF⟩ := by rfl
@[simp] theorem default_iwram : Config.default.iwram = ⟨0x03000000, 0x03007FFF⟩ := by rfl
@[simp] theorem default_io : Config.default.io = ⟨0x04000000, 0x040003FF⟩ := by rfl
@[simp] theorem default_pal : Config.default.pal = ⟨0x05000000, 0x050003FF⟩ := by rfl
@[simp] theorem default_vram : Config.default.vram = ⟨0x06000000, 0x06017FFF⟩ := by rfl
@[simp] theorem default_oam : Config.default.oam = ⟨0x07000000, 0x070003FF⟩ := by rfl
@[simp] theorem default_rom : Config.default.rom = ⟨0x08000000, 0x0DFFFFFF⟩ := by rfl
@[simp] theorem default_bkp : Config.default.bkp = ⟨0x0E000000, 0x0E00FFFF⟩ := by rfl
@[simp] theorem default_eep : Config.default.eep = ⟨0x0D000000, 0x0DFFFFFF⟩ := by rfl
@[simp] theorem default_romMax : Config.default.romMax = 0x02000000 := by rfl
@[simp] theorem default_gpioBase : Config.default.gpioBase = 0x080000C4 := by rfl
@[simp] theorem default_gpioStride : Config.default.gpioStride = 2 := by rfl
@[simp] theorem default_gpioNregs : Config.default.gpioNregs = 4 := by rfl
@[simp] theorem default_gpioWidth : Config.default.gpioWidth = 1 := by rfl
@[simp] theorem default_rumblePin : Config.default.rumblePin = 0 := by rfl
@[simp] theorem default_dmaBase : Config.default.dmaBase = 0x040000B0 := by rfl
@[simp] theorem default_dmaStride : Config.default.dmaStride = 12 := by rfl
@[simp] theorem default_fifoAAddr : Config.default.fifoAAddr = 0x040000A0 := by rfl
@[simp] theorem default_fifoBAddr : Config.default.fifoBAddr = 0x040000A4 := by rfl
@[simp] theorem default_lcdIo : Config.default.lcdIo = ⟨0x04000000, 0x0400005F⟩ := by rfl
@[simp] theorem default_apuIo : Config.default.apuIo = ⟨0x04000060, 0x040000AF⟩ := by rfl
@[simp] theorem default_tmrIo : Config.default.tmrIo = ⟨0x04000100, 0x0400010F⟩ := by rfl
@[simp] theorem default_openBusByte : Config.default.openBusByte = 0x00 := by rfl
@[simp] theorem default_dmaStartDelay : Config.default.dmaStartDelay = 0 := by rfl
@[simp] theorem default_flAddr1 : Config.default.flAddr1 = 0x5555 := by rfl
@[simp] theorem default_flAddr2 : Config.default.flAddr2 = 0x2AAA := by rfl
@[simp] theorem default_flKey1 : Config.default.flKey1 = 0xAA := by rfl
@[simp] theorem default_flKey2 : Config.default.flKey2 = 0x55 := by rfl
@[simp] theorem default_flCmdIdEnter : Config.default.flCmdIdEnter = 0x90 := by rfl
@[simp] theorem default_flCmdIdExit : Config.default.flCmdIdExit = 0xF0 := by rfl
@[simp] theorem default_flCmdEraseSetup : Config.default.flCmdEraseSetup = 0x80 := by rfl
@[simp] theorem default_flCmdChipErase : Config.default.flCmdChipErase = 0x10 := by rfl
@[simp] theorem default_flCmdSectorErase : Config.default.flCmdSectorErase = 0x30 := by rfl
@[simp] theorem default_flCmdProgram : Config.default.flCmdProgram = 0xA0 := by rfl
@[simp] theorem default_flCmdBank : Config.default.flCmdBank = 0xB0 := by rfl
@[simp] theorem default_flSector : Config.default.flSector = 0x1000 := by rfl
@[simp] theorem default_flBankSize : Config.default.flBankSize = 0x10000 := by rfl
@[simp] theorem default_fl64Man : Config.default.fl64Man = 0x32 := by rfl
@[simp] theorem default_fl64Dev : Config.default.fl64Dev = 0x1B := by rfl
@[simp] theorem default_fl128Man : Config.default.fl128Man = 0xC2 := by rfl
@[simp] theorem default_fl128Dev : Config.default.fl128Dev = 0x09 := by rfl
@[simp] theorem default_addrBits : Config.default.addrBits = 32 := by rfl
@[simp] theorem default_nDma : Config.default.nDma = 4 := by rfl
@[simp] theorem default_eeAbitsSmall : Config.default.eeAbitsSmall = 6 := by rfl
@[simp] theorem default_eeAbitsLarge : Config.default.eeAbitsLarge = 14 := by rfl
@[simp] theorem default_channels : channels Config.default = [0, 1, 2, 3] := by rfl
@[simp] theorem default_eeSmall : Config.default.eeSmall = 512 := by rfl
@[simp] theorem default_eeLarge : Config.default.eeLarge = 8192 := by rfl
@[simp] theorem default_eePage : Config.default.eePage = 8 := by rfl
@[simp] theorem default_eeDummy : Config.default.eeDummy = 4 := by rfl
@[simp] theorem default_sramWindow : Config.default.sramWindow = 0x10000 := by rfl
@[simp] theorem default_sramSize : Config.default.sramSize = 0x8000 := by rfl

@[simp] theorem default_gpioMask : Config.default.gpioMask = 1 := by rfl

/-- Membership of a range, as bounds on numbers. -/
theorem Range.has_iff (r : Range) (a : Addr) : r.has a = true ↔ r.first.toNat ≤ a.toNat ∧ a.toNat ≤ r.last.toNat := by
  simp [Range.has, BitVec.le_def]

/-! ## Regions -/

/-- The GPIO window, as bounds. -/
theorem inGpioWindow_default (g : GpioType) (a : Addr) :
    inGpioWindow Config.default g a = true ↔ g ≠ .disabled ∧ 0x080000C4 ≤ a.toNat ∧ a.toNat ≤ 0x080000CB := by
  simp only [inGpioWindow, Bool.and_eq_true, decide_eq_true_eq]
  simp only [default_gpioBase, default_gpioNregs, default_gpioStride]
  refine and_congr_right fun _ => ?_
  rw [BitVec.toNat_sub]
  have := a.isLt
  constructor
  · intro h; constructor <;> simp at h <;> omega
  · intro h; simp; omega

/-- The region table, as bounds. -/
theorem regionOf_default (a : Addr) : regionOf Config.default a =
    if a.toNat ≤ 0x00003FFF then .bios
    else if 0x02000000 ≤ a.toNat ∧ a.toNat ≤ 0x0203FFFF then .wram
    else if 0x03000000 ≤ a.toNat ∧ a.toNat ≤ 0x03007FFF then .iwram
    else if 0x04000000 ≤ a.toNat ∧ a.toNat ≤ 0x040003FF then .io
    else if 0x05000000 ≤ a.toNat ∧ a.toNat ≤ 0x050003FF then .pal
    else if 0x06000000 ≤ a.toNat ∧ a.toNat ≤ 0x06017FFF then .vram
    else if 0x07000000 ≤ a.toNat ∧ a.toNat ≤ 0x070003FF then .oam
    else if 0x08000000 ≤ a.toNat ∧ a.toNat ≤ 0x0DFFFFFF then .rom
    else if 0x0E000000 ≤ a.toNat ∧ a.toNat ≤ 0x0E00FFFF then .bkp
    else .unmapped := by
  simp only [regionOf, Config.regions, tagIn, Range.has_iff]
  simp

theorem decodeTag_of_region {c : Config} {g : GpioType} {a : Addr} (h : decodeTag c g a ≠ .gpio) :
    decodeTag c g a = regionOf c a := by
  unfold decodeTag at h ⊢
  split
  · rename_i hg; rw [if_pos hg] at h; exact absurd rfl h
  · rfl

/-- `Decode`'s tag, as bounds. -/
theorem decodeTag_default (g : GpioType) (a : Addr) : decodeTag Config.default g a =
    if g ≠ .disabled ∧ 0x080000C4 ≤ a.toNat ∧ a.toNat ≤ 0x080000CB then .gpio
    else if a.toNat ≤ 0x00003FFF then .bios
    else if 0x02000000 ≤ a.toNat ∧ a.toNat ≤ 0x0203FFFF then .wram
    else if 0x03000000 ≤ a.toNat ∧ a.toNat ≤ 0x03007FFF then .iwram
    else if 0x04000000 ≤ a.toNat ∧ a.toNat ≤ 0x040003FF then .io
    else if 0x05000000 ≤ a.toNat ∧ a.toNat ≤ 0x050003FF then .pal
    else if 0x06000000 ≤ a.toNat ∧ a.toNat ≤ 0x06017FFF then .vram
    else if 0x07000000 ≤ a.toNat ∧ a.toNat ≤ 0x070003FF then .oam
    else if 0x08000000 ≤ a.toNat ∧ a.toNat ≤ 0x0DFFFFFF then .rom
    else if 0x0E000000 ≤ a.toNat ∧ a.toNat ≤ 0x0E00FFFF then .bkp
    else .unmapped := by
  unfold decodeTag
  rw [regionOf_default]
  by_cases h : inGpioWindow Config.default g a = true
  · rw [if_pos h, if_pos ((inGpioWindow_default g a).mp h)]
  · rw [if_neg h, if_neg (mt (inGpioWindow_default g a).mpr h)]

/-- `AS` has a byte exactly at the addresses of the eight regions it covers. -/
theorem inAddressSpace_default (a : Nat) : inAddressSpace Config.default a = true ↔
    a ≤ 0x00003FFF ∨ (0x02000000 ≤ a ∧ a ≤ 0x0203FFFF) ∨ (0x03000000 ≤ a ∧ a ≤ 0x03007FFF)
    ∨ (0x04000000 ≤ a ∧ a ≤ 0x040003FF) ∨ (0x05000000 ≤ a ∧ a ≤ 0x050003FF) ∨ (0x06000000 ≤ a ∧ a ≤ 0x06017FFF)
    ∨ (0x07000000 ≤ a ∧ a ≤ 0x070003FF) ∨ (0x08000000 ≤ a ∧ a ≤ 0x0DFFFFFF) := by
  unfold inAddressSpace
  rw [regionOf_default, default_addrBits]
  by_cases h : a < 2 ^ 32
  · have hn : (BitVec.ofNat 32 a).toNat = a := by rw [BitVec.toNat_ofNat, Nat.mod_eq_of_lt h]
    simp only [h, decide_true, Bool.true_and, hn]
    split_ifs <;> simp <;> omega
  · simp only [h, decide_false, Bool.false_and, Bool.false_eq_true, false_iff]; omega

/-! ## DMA registers -/

/-- The DMA block, as bounds. -/
theorem inDmaBlock_default (a : Addr) :
    inDmaBlock Config.default a = true ↔ 0x040000B0 ≤ a.toNat ∧ a.toNat ≤ 0x040000DF := by
  simp only [inDmaBlock, dmaOffset]
  simp only [default_dmaBase, default_dmaStride, default_nDma]
  rw [BitVec.toNat_sub]
  have := a.isLt
  constructor
  · intro h; simp at h; omega
  · intro h; simp; omega

theorem sadAddr_default (ch : Chan) : (sadAddr Config.default ch).toNat = 0x040000B0 + 12 * ch.val := by
  match ch with | 0 => rfl | 1 => rfl | 2 => rfl | 3 => rfl

theorem dadAddr_default (ch : Chan) : (dadAddr Config.default ch).toNat = 0x040000B4 + 12 * ch.val := by
  match ch with | 0 => rfl | 1 => rfl | 2 => rfl | 3 => rfl

theorem cntLAddr_default (ch : Chan) : (cntLAddr Config.default ch).toNat = 0x040000B8 + 12 * ch.val := by
  match ch with | 0 => rfl | 1 => rfl | 2 => rfl | 3 => rfl

theorem cntHAddr_default (ch : Chan) : (cntHAddr Config.default ch).toNat = 0x040000BA + 12 * ch.val := by
  match ch with | 0 => rfl | 1 => rfl | 2 => rfl | 3 => rfl

/-- An address a small number of bytes above a register's. -/
theorem toNat_add_small {a : Addr} {n k : Nat} (h : a.toNat = n) (hk : n + k < 2 ^ 32) :
    (a + BitVec.ofNat 32 k).toNat = n + k := by
  rw [BitVec.toNat_add, BitVec.toNat_ofNat, h]; omega

end Sys2Proof.Machine
end

