-- ==== Sys2Proof/Laws/Memory.lean ====
section
/-! SUPPORT. The laws of a byte store: what a read gives after a write or a fill, and that every operation keeps the canonical form. -/

namespace Sys2Proof.Machine

/-! ## Reads -/

@[simp] theorem Memory.read_nil (a : Nat) : Memory.read [] a = 0 := rfl

theorem Memory.read_cons (k : Nat) (v : Byte) (m : Memory) (a : Nat) :
    Memory.read ((k, v) :: m) a = if k = a then v else Memory.read m a := rfl

/-- A store none of whose entries is at `a` reads 0x00 there. -/
theorem Memory.read_of_absent {m : Memory} {a : Nat} (h : ∀ e ∈ m, e.1 ≠ a) : Memory.read m a = 0 := by
  induction m with
  | nil => rfl
  | cons e m ih =>
    obtain ⟨k, v⟩ := e
    rw [Memory.read_cons, if_neg (h _ (List.mem_cons_self ..)), ih fun e he => h e (List.mem_cons_of_mem _ he)]

/-- Reading a concatenation: the first part answers where it lists the address. -/
theorem Memory.read_append (m m' : Memory) (a : Nat) :
    Memory.read (m ++ m') a = if ∃ e ∈ m, e.1 = a then Memory.read m a else Memory.read m' a := by
  induction m with
  | nil => simp
  | cons e m ih =>
    obtain ⟨k, v⟩ := e
    by_cases hk : k = a
    · simp [Memory.read_cons, hk]
    · simp [Memory.read_cons, hk, ih]

/-- Filtering by address does not change what is read at an address kept. -/
theorem Memory.read_filter_keep (p : Nat → Bool) (m : Memory) {a : Nat} (h : p a = true) :
    Memory.read (m.filter fun e => p e.1) a = Memory.read m a := by
  induction m with
  | nil => rfl
  | cons e m ih =>
    obtain ⟨k, v⟩ := e
    by_cases hk : k = a
    · subst hk; simp [h, Memory.read_cons]
    · by_cases hp : p k = true <;> simp [hp, Memory.read_cons, hk, ih]

/-- Filtering by address leaves 0x00 at an address dropped. -/
theorem Memory.read_filter_drop (p : Nat → Bool) (m : Memory) {a : Nat} (h : p a = false) :
    Memory.read (m.filter fun e => p e.1) a = 0 := by
  refine Memory.read_of_absent fun e he hk => ?_
  have := (List.mem_filter.mp he).2
  simp [hk, h] at this

theorem Memory.read_insert_same {m : Memory} {a : Nat} (b : Byte) (h : ∀ e ∈ m, e.1 ≠ a) :
    Memory.read (Memory.insert m a b) a = b := by
  induction m with
  | nil => simp [Memory.insert, Memory.read_cons]
  | cons e m ih =>
    obtain ⟨k, v⟩ := e
    have hk : k ≠ a := h (k, v) (List.mem_cons_self ..)
    have hm : ∀ e ∈ m, e.1 ≠ a := fun e he => h e (List.mem_cons_of_mem _ he)
    unfold Memory.insert
    split
    · simp [Memory.read_cons]
    · simp [Memory.read_cons, hk, ih hm]

theorem Memory.read_insert_other (m : Memory) {a a' : Nat} (b : Byte) (h : a' ≠ a) :
    Memory.read (Memory.insert m a b) a' = Memory.read m a' := by
  induction m with
  | nil => simp [Memory.insert, Memory.read_cons, Ne.symm h]
  | cons e m ih =>
    obtain ⟨k, v⟩ := e
    unfold Memory.insert
    split
    · simp [Memory.read_cons, Ne.symm h]
    · simp [Memory.read_cons, ih]

/-- What a byte reads after one byte is written. -/
theorem Memory.read_write (m : Memory) (a : Nat) (b : Byte) (a' : Nat) :
    Memory.read (Memory.write m a b) a' = if a' = a then b else Memory.read m a' := by
  have habs : ∀ e ∈ Memory.erase m a, e.1 ≠ a := by
    intro e he; simpa [Memory.erase] using (List.mem_filter.mp he).2
  unfold Memory.write
  by_cases hb : b = 0
  · rw [if_pos hb]
    by_cases h : a' = a
    · rw [if_pos h, h, Memory.read_of_absent habs, hb]
    · rw [if_neg h]
      exact Memory.read_filter_keep (fun k => decide (k ≠ a)) m (by simpa using h)
  · rw [if_neg hb]
    by_cases h : a' = a
    · rw [if_pos h, h, Memory.read_insert_same b habs]
    · rw [if_neg h, Memory.read_insert_other _ b h]
      exact Memory.read_filter_keep (fun k => decide (k ≠ a)) m (by simpa using h)

@[simp] theorem Memory.read_write_same (m : Memory) (a : Nat) (b : Byte) :
    Memory.read (Memory.write m a b) a = b := by simp [Memory.read_write]

theorem Memory.read_write_other (m : Memory) {a a' : Nat} (b : Byte) (h : a' ≠ a) :
    Memory.read (Memory.write m a b) a' = Memory.read m a' := by simp [Memory.read_write, h]

theorem Memory.cells_lower (bs : List Byte) (lo : Nat) : ∀ e ∈ Memory.cells lo bs, lo ≤ e.1 ∧ e.1 < lo + bs.length := by
  induction bs generalizing lo with
  | nil => simp [Memory.cells]
  | cons b bs ih =>
    intro e he
    have hrest : e ∈ Memory.cells (lo + 1) bs → lo ≤ e.1 ∧ e.1 < lo + (b :: bs).length := by
      intro h; have := ih (lo + 1) e h; simp only [List.length_cons]; omega
    unfold Memory.cells at he
    split at he
    · exact hrest he
    · rcases List.mem_cons.mp he with rfl | h
      · simp
      · exact hrest h

theorem Memory.read_cells (bs : List Byte) (lo a : Nat) :
    Memory.read (Memory.cells lo bs) a = if lo ≤ a then bs.getD (a - lo) 0 else 0 := by
  induction bs generalizing lo with
  | nil => simp [Memory.cells]
  | cons b bs ih =>
    have hstep : Memory.read (Memory.cells lo (b :: bs)) a
        = if lo = a then b else Memory.read (Memory.cells (lo + 1) bs) a := by
      conv_lhs => unfold Memory.cells
      split
      · rename_i hb
        split
        · rename_i h
          rw [ih, if_neg (by omega), hb]
        · rfl
      · exact Memory.read_cons ..
    rw [hstep, ih]
    by_cases h : lo = a
    · subst h; simp
    · rw [if_neg h]
      by_cases hl : lo ≤ a
      · have : a - lo = (a - (lo + 1)) + 1 := by omega
        rw [if_pos (by omega), if_pos hl, this, List.getD_cons_succ]
      · rw [if_neg (by omega), if_neg hl]

theorem Memory.read_below (m : Memory) (lo a : Nat) :
    Memory.read (m.filter fun e => decide (e.1 < lo)) a = if a < lo then Memory.read m a else 0 := by
  split
  · rename_i h; exact Memory.read_filter_keep (fun k => decide (k < lo)) m (by simpa using h)
  · rename_i h; exact Memory.read_filter_drop (fun k => decide (k < lo)) m (by simpa using h)

theorem Memory.read_from (m : Memory) (lo a : Nat) :
    Memory.read (m.filter fun e => decide (lo ≤ e.1)) a = if lo ≤ a then Memory.read m a else 0 := by
  split
  · rename_i h; exact Memory.read_filter_keep (fun k => decide (lo ≤ k)) m (by simpa using h)
  · rename_i h; exact Memory.read_filter_drop (fun k => decide (lo ≤ k)) m (by simpa using h)

theorem Memory.getD_take (bs : List Byte) {n i : Nat} (h : i < n) : (bs.take n).getD i 0 = bs.getD i 0 := by
  rw [List.getD_eq_getElem?_getD, List.getD_eq_getElem?_getD, List.getElem?_take_of_lt h]

/-- A part that reads 0x00 at an address it lists no entry for is transparent there. -/
theorem Memory.read_append_of_absent {m : Memory} (m' : Memory) {a : Nat} (h : ∀ e ∈ m, e.1 ≠ a) :
    Memory.read (m ++ m') a = Memory.read m' a := by
  rw [Memory.read_append, if_neg]
  rintro ⟨e, he, hk⟩; exact h e he hk

/-- A later part with no entry at an address changes nothing there. -/
theorem Memory.read_append_left (m : Memory) {m' : Memory} {a : Nat} (h : ∀ e ∈ m', e.1 ≠ a) :
    Memory.read (m ++ m') a = Memory.read m a := by
  rw [Memory.read_append]
  split
  · rfl
  · rename_i hno
    rw [Memory.read_of_absent h, Memory.read_of_absent fun e he hk => hno ⟨e, he, hk⟩]

/-- What a byte reads after a range is filled. -/
theorem Memory.read_fill (m : Memory) (lo n : Nat) (bs : List Byte) (a : Nat) :
    Memory.read (Memory.fill m lo n bs) a
      = if lo ≤ a ∧ a < lo + n then bs.getD (a - lo) 0 else Memory.read m a := by
  have hc : ∀ e ∈ Memory.cells lo (bs.take n), lo ≤ e.1 ∧ e.1 < lo + n := fun e he => by
    have h1 := Memory.cells_lower (bs.take n) lo e he
    have h2 : (bs.take n).length ≤ n := by simp
    omega
  have hl : ∀ e ∈ m.filter (fun e => decide (e.1 < lo)), e.1 < lo := fun e he => by
    simpa using (List.mem_filter.mp he).2
  have hh : ∀ e ∈ m.filter (fun e => decide (lo + n ≤ e.1)), lo + n ≤ e.1 := fun e he => by
    simpa using (List.mem_filter.mp he).2
  unfold Memory.fill
  by_cases ha : a < lo
  · rw [List.append_assoc, Memory.read_append_left, Memory.read_below, if_pos ha, if_neg (by omega)]
    intro e he
    rcases List.mem_append.mp he with he | he
    · have := hc e he; omega
    · have := hh e he; omega
  · by_cases hn : a < lo + n
    · rw [Memory.read_append_left, Memory.read_append_of_absent, Memory.read_cells, if_pos (by omega), if_pos (by omega),
        Memory.getD_take bs (by omega)]
      · intro e he; have := hl e he; omega
      · intro e he; have := hh e he; omega
    · rw [Memory.read_append_of_absent, Memory.read_from, if_pos (by omega), if_neg (by omega)]
      intro e he
      rcases List.mem_append.mp he with he | he
      · have := hl e he; omega
      · have := hc e he; omega

theorem Memory.dump_length (m : Memory) (lo n : Nat) : (Memory.dump m lo n).length = n := by
  induction n generalizing lo with
  | zero => rfl
  | succ n ih => simp [Memory.dump, ih]

/-- Byte `i` of a dump is the byte read at `lo + i`. -/
theorem Memory.getD_dump (m : Memory) (lo n i : Nat) :
    (Memory.dump m lo n).getD i 0 = if i < n then Memory.read m (lo + i) else 0 := by
  induction n generalizing lo i with
  | zero => simp [Memory.dump]
  | succ n ih =>
    cases i with
    | zero => simp [Memory.dump]
    | succ i =>
      simp only [Memory.dump, List.getD_cons_succ, ih]
      have : lo + 1 + i = lo + (i + 1) := by omega
      simp [this]

/-! ## The canonical form -/

/-- The canonical form, as a fact about the list. -/
theorem Memory.wf_iff (m : Memory) : Memory.wf m = true ↔ m.Pairwise (fun e f => e.1 < f.1) ∧ ∀ e ∈ m, e.2 ≠ 0 := by
  induction m with
  | nil => simp [Memory.wf]
  | cons e m ih =>
    obtain ⟨k, v⟩ := e
    cases m with
    | nil => simp [Memory.wf]
    | cons f m =>
      obtain ⟨k', v'⟩ := f
      simp only [Memory.wf, Bool.and_eq_true, decide_eq_true_eq, ih]
      constructor
      · rintro ⟨⟨hv, hk⟩, hp, hne⟩
        refine ⟨List.pairwise_cons.mpr ⟨?_, hp⟩, ?_⟩
        · intro e he
          rcases List.mem_cons.mp he with rfl | he
          · exact hk
          · exact Nat.lt_trans hk ((List.pairwise_cons.mp hp).1 e he)
        · intro e he
          rcases List.mem_cons.mp he with rfl | he
          · exact hv
          · exact hne e he
      · rintro ⟨hp, hne⟩
        have hp' := List.pairwise_cons.mp hp
        exact ⟨⟨hne _ (List.mem_cons_self ..), hp'.1 _ (List.mem_cons_self ..)⟩, hp'.2,
          fun e he => hne e (List.mem_cons_of_mem _ he)⟩

theorem Memory.wf_filter (p : Host.Cell → Bool) {m : Memory} (h : m.wf = true) : Memory.wf (m.filter p) = true := by
  rw [Memory.wf_iff] at h ⊢
  exact ⟨h.1.filter p, fun e he => h.2 e (List.mem_filter.mp he).1⟩

theorem Memory.mem_insert {m : Memory} {a : Nat} {b : Byte} {e : Host.Cell} (h : e ∈ Memory.insert m a b) :
    e = (a, b) ∨ e ∈ m := by
  induction m with
  | nil => simpa [Memory.insert] using h
  | cons f m ih =>
    obtain ⟨k, v⟩ := f
    unfold Memory.insert at h
    split at h
    · rcases List.mem_cons.mp h with h | h
      · exact .inl h
      · exact .inr h
    · rcases List.mem_cons.mp h with h | h
      · exact .inr (h ▸ List.mem_cons_self ..)
      · exact (ih h).imp id (List.mem_cons_of_mem _)

theorem Memory.wf_insert {m : Memory} {a : Nat} {b : Byte} (h : m.wf = true) (hb : b ≠ 0) (ha : ∀ e ∈ m, e.1 ≠ a) :
    Memory.wf (Memory.insert m a b) = true := by
  rw [Memory.wf_iff] at h ⊢
  obtain ⟨hp, hne⟩ := h
  refine ⟨?_, fun e he => ?_⟩
  · induction m with
    | nil => simp [Memory.insert]
    | cons f m ih =>
      obtain ⟨k, v⟩ := f
      have hp' := List.pairwise_cons.mp hp
      unfold Memory.insert
      split
      · rename_i hlt
        refine List.pairwise_cons.mpr ⟨fun e he => ?_, hp⟩
        rcases List.mem_cons.mp he with rfl | he
        · exact hlt
        · exact Nat.lt_trans hlt (hp'.1 e he)
      · rename_i hge
        refine List.pairwise_cons.mpr ⟨fun e he => ?_, ih (ha := fun e he => ha e (List.mem_cons_of_mem _ he))
          (hp := hp'.2) (hne := fun e he => hne e (List.mem_cons_of_mem _ he))⟩
        rcases Memory.mem_insert he with rfl | he
        · have := ha (k, v) (List.mem_cons_self ..)
          simp only at this ⊢; omega
        · exact hp'.1 e he
  · rcases Memory.mem_insert he with rfl | he
    · exact hb
    · exact hne e he

/-- A write keeps the canonical form. -/
theorem Memory.wf_write {m : Memory} (a : Nat) (b : Byte) (h : m.wf = true) : (m.write a b).wf = true := by
  unfold Memory.write
  split
  · exact Memory.wf_filter _ h
  · rename_i hb
    refine Memory.wf_insert (Memory.wf_filter _ h) hb fun e he => ?_
    simpa [Memory.erase] using (List.mem_filter.mp he).2

theorem Memory.wf_cells (lo : Nat) (bs : List Byte) : Memory.wf (Memory.cells lo bs) = true := by
  induction bs generalizing lo with
  | nil => rfl
  | cons b bs ih =>
    unfold Memory.cells
    split
    · exact ih _
    · rename_i hb
      have := (Memory.wf_iff _).mp (ih (lo + 1))
      rw [Memory.wf_iff]
      refine ⟨List.pairwise_cons.mpr ⟨fun e he => ?_, this.1⟩, fun e he => ?_⟩
      · have := Memory.cells_lower bs (lo + 1) e he; simp only; omega
      · rcases List.mem_cons.mp he with rfl | he
        · exact hb
        · exact this.2 e he

/-- A fill keeps the canonical form. -/
theorem Memory.wf_fill {m : Memory} (lo n : Nat) (bs : List Byte) (h : m.wf = true) : (m.fill lo n bs).wf = true := by
  have h1 := (Memory.wf_iff _).mp (Memory.wf_filter (fun e => decide (e.1 < lo)) h)
  have h2 := (Memory.wf_iff _).mp (Memory.wf_cells lo (bs.take n))
  have h3 := (Memory.wf_iff _).mp (Memory.wf_filter (fun e => decide (lo + n ≤ e.1)) h)
  have hlen : (bs.take n).length ≤ n := by simp
  rw [Memory.wf_iff]
  unfold Memory.fill
  refine ⟨List.pairwise_append.mpr ⟨List.pairwise_append.mpr ⟨h1.1, h2.1, fun e he f hf => ?_⟩, h3.1, fun e he f hf => ?_⟩,
    fun e he => ?_⟩
  · have ha := (List.mem_filter.mp he).2
    have hb := Memory.cells_lower _ _ f hf
    simp at ha; omega
  · have hb := (List.mem_filter.mp hf).2
    simp at hb
    rcases List.mem_append.mp he with he | he
    · have ha := (List.mem_filter.mp he).2
      simp at ha; omega
    · have ha := Memory.cells_lower _ _ e he; omega
  · rcases List.mem_append.mp he with he | he
    · rcases List.mem_append.mp he with he | he
      · exact h1.2 e he
      · exact h2.2 e he
    · exact h3.2 e he

/-! ## Where the entries stand -/

theorem Memory.within_iff (p : Nat → Bool) (m : Memory) : m.within p = true ↔ ∀ e ∈ m, p e.1 = true := by
  simp [Memory.within]

theorem Memory.within_filter {p : Nat → Bool} (q : Host.Cell → Bool) {m : Memory} (h : m.within p = true) :
    Memory.within p (m.filter q) = true := by
  rw [Memory.within_iff] at h ⊢
  exact fun e he => h e (List.mem_filter.mp he).1

/-- A write at an address of `p` keeps the entries inside `p`. -/
theorem Memory.within_write {p : Nat → Bool} {m : Memory} {a : Nat} (b : Byte) (h : m.within p = true) (ha : p a = true) :
    (m.write a b).within p = true := by
  unfold Memory.write
  split
  · exact Memory.within_filter _ h
  · have h' := (Memory.within_iff _ _).mp (Memory.within_filter (fun e => decide (e.1 ≠ a)) h)
    rw [Memory.within_iff]
    intro e he
    rcases Memory.mem_insert he with rfl | he
    · exact ha
    · exact h' e he

/-- A fill of a range of `p` keeps the entries inside `p`. -/
theorem Memory.within_fill {p : Nat → Bool} {m : Memory} {lo n : Nat} (bs : List Byte) (h : m.within p = true)
    (hr : ∀ a, lo ≤ a → a < lo + n → p a = true) : (m.fill lo n bs).within p = true := by
  rw [Memory.within_iff] at h ⊢
  intro e he
  unfold Memory.fill at he
  rcases List.mem_append.mp he with he | he
  · rcases List.mem_append.mp he with he | he
    · exact h e (List.mem_filter.mp he).1
    · have h1 := Memory.cells_lower _ _ e he
      have h2 : (bs.take n).length ≤ n := by simp
      exact hr _ (by omega) (by omega)
  · exact h e (List.mem_filter.mp he).1

/-- Two canonical stores that read alike everywhere are equal. -/
theorem Memory.ext_read {m m' : Memory} (h : m.wf = true) (h' : m'.wf = true) (hr : ∀ a, m.read a = m'.read a) : m = m' := by
  rw [Memory.wf_iff] at h h'
  induction m generalizing m' with
  | nil =>
    cases m' with
    | nil => rfl
    | cons f m' =>
      obtain ⟨k, v⟩ := f
      have := hr k
      simp [Memory.read_cons] at this
      exact absurd this.symm (h'.2 (k, v) (List.mem_cons_self ..))
  | cons e m ih =>
    obtain ⟨k, v⟩ := e
    have hp := List.pairwise_cons.mp h.1
    have hv : v ≠ 0 := h.2 (k, v) (List.mem_cons_self ..)
    cases m' with
    | nil =>
      have := hr k
      simp [Memory.read_cons] at this
      exact absurd this hv
    | cons f m' =>
      obtain ⟨k', v'⟩ := f
      have hp' := List.pairwise_cons.mp h'.1
      have hv' : v' ≠ 0 := h'.2 (k', v') (List.mem_cons_self ..)
      have habs : ∀ a, a ≤ k → Memory.read m a = 0 := fun a ha =>
        Memory.read_of_absent fun e he hk => by have := hp.1 e he; simp only at this; omega
      have habs' : ∀ a, a ≤ k' → Memory.read m' a = 0 := fun a ha =>
        Memory.read_of_absent fun e he hk => by have := hp'.1 e he; simp only at this; omega
      have hkk : k = k' := by
        rcases Nat.lt_trichotomy k k' with hlt | heq | hgt
        · have := hr k
          rw [Memory.read_cons, if_pos rfl, Memory.read_cons, if_neg (by omega), habs' k (by omega)] at this
          exact absurd this hv
        · exact heq
        · have := hr k'
          rw [Memory.read_cons, if_neg (by omega), Memory.read_cons, if_pos rfl, habs k' (by omega)] at this
          exact absurd this.symm hv'
      subst hkk
      have hvv : v = v' := by simpa [Memory.read_cons] using hr k
      subst hvv
      congr 1
      refine ih (h := ⟨hp.2, fun e he => h.2 e (List.mem_cons_of_mem _ he)⟩)
        (h' := ⟨hp'.2, fun e he => h'.2 e (List.mem_cons_of_mem _ he)⟩) (hr := fun a => ?_)
      by_cases hka : k = a
      · subst hka; rw [habs k (Nat.le_refl _), habs' k (Nat.le_refl _)]
      · simpa [Memory.read_cons, hka] using hr a

end Sys2Proof.Machine
end

