-- ==== Sys2Proof/Laws/Bus.lean ====
section
/-! SUPPORT. What one written byte can do, and what a sequence of written bytes can do (40_bus_access.md R150, R151). -/

namespace Sys2Proof.Machine

variable {c : Config} {org : Origin} {s s' : State}

/-- Everything one written byte can do: a store into `AS` (with the forwards of the I/O region), a Flash byte, an SRAM byte,
a GPIO byte, or nothing (R151). -/
theorem writeByte_cases {a : Addr} {b : Byte} (h : writeByte c org a b s = .ok s') :
    (∃ b' l, s' = (s.setMem (s.mem.write a.toNat b')).emit l ∧ (∀ x ∈ l, ∃ o, x = .forward o a b)
      ∧ (decodeTag c s.cart.gpioType a = .wram ∨ decodeTag c s.cart.gpioType a = .iwram
        ∨ decodeTag c s.cart.gpioType a = .pal ∨ decodeTag c s.cart.gpioType a = .vram
        ∨ decodeTag c s.cart.gpioType a = .oam ∨ decodeTag c s.cart.gpioType a = .io)
      ∧ (inDmaBlock c a = true ∧ decodeTag c s.cart.gpioType a = .io → org = .cpu))
    ∨ (decodeTag c s.cart.gpioType a = .gpio ∧ s' = gpioWriteByte c (gpioOffset c a) b s)
    ∨ (decodeTag c s.cart.gpioType a = .bkp ∧ s' = backupWriteByte c (bkpOffset c a) b s)
    ∨ ((decodeTag c s.cart.gpioType a = .bios ∨ decodeTag c s.cart.gpioType a = .rom
        ∨ decodeTag c s.cart.gpioType a = .unmapped) ∧ s' = s) := by
  have hnil : ∀ t : State, t.emit [] = t := fun t => by simp [State.emit, State.setOut]
  unfold writeByte at h
  split at h
  all_goals rename_i htag
  case h_6 =>
    split at h
    · rename_i hblk
      split at h
      · cases h
      · cases h
        exact .inl ⟨b &&& ioMask c a, [], by rw [hnil]; rfl, by simp, by simp [htag], fun _ => rfl⟩
    · rename_i hblk
      cases h
      refine .inl ⟨b, forwards c a b, rfl, ?_, by simp [htag], fun hh => absurd hh.1 hblk⟩
      intro x hx
      simp only [forwards, List.mem_append] at hx
      rcases hx with (hx | hx) | hx <;> split at hx <;> simp at hx <;> exact ⟨_, hx⟩
  case h_7 => cases h; exact .inr (.inl ⟨htag, rfl⟩)
  case h_8 => cases h; exact .inr (.inr (.inl ⟨htag, rfl⟩))
  case h_9 => cases h; exact .inr (.inr (.inr ⟨by simp [htag], rfl⟩))
  case h_10 => cases h; exact .inr (.inr (.inr ⟨by simp [htag], rfl⟩))
  case h_11 => cases h; exact .inr (.inr (.inr ⟨by simp [htag], rfl⟩))
  all_goals
    cases h
    exact .inl ⟨b, [], by rw [hnil], by simp, by simp [htag], fun hh => by simp [htag] at hh⟩

/-- A byte written by the CPU is never refused. -/
theorem writeByte_cpu (a : Addr) (b : Byte) : ∃ s', writeByte c .cpu a b s = .ok s' := by
  unfold writeByte
  split <;> try exact ⟨_, rfl⟩
  split <;> exact ⟨_, rfl⟩

/-- Bytes written by the CPU are never refused. -/
theorem writeBytes_cpu (a : Addr) (bs : List Byte) : ∃ s', writeBytes c .cpu a bs s = .ok s' := by
  induction bs generalizing a s with
  | nil => exact ⟨s, rfl⟩
  | cons b bs ih =>
    obtain ⟨s1, h1⟩ := writeByte_cpu (c := c) (s := s) a b
    simp only [writeBytes, h1]
    exact ih ..

/-- The one reason a written byte is refused (93_implementation_defined.md U3). -/
theorem writeByte_refused {a : Addr} {b : Byte} {r : Refusal} (h : writeByte c org a b s = .error r) :
    r = .dmaWritesDmaRegisters ∧ decodeTag c s.cart.gpioType a = .io ∧ inDmaBlock c a = true ∧ org ≠ .cpu := by
  unfold writeByte at h
  split at h <;> try cases h
  rename_i htag
  split at h
  · rename_i hblk
    split at h
    · cases h; exact ⟨rfl, htag, hblk, by simp⟩
    · cases h
  · cases h

/-- A byte outside the DMA block is written by anyone. -/
theorem writeByte_ok {a : Addr} (b : Byte) (h : ¬ (decodeTag c s.cart.gpioType a = .io ∧ inDmaBlock c a = true)) :
    ∃ s', writeByte c org a b s = .ok s' := by
  cases hw : writeByte c org a b s with
  | ok s' => exact ⟨s', rfl⟩
  | error r => exact absurd ⟨(writeByte_refused hw).2.1, (writeByte_refused hw).2.2.1⟩ h

/-- A reflexive and transitive relation that holds across every written byte holds across a sequence of them. -/
theorem writeBytes_rel {R : State → State → Prop} (hrefl : ∀ s, R s s) (htrans : ∀ {s t u}, R s t → R t u → R s u)
    (hbyte : ∀ {a b s s'}, writeByte c org a b s = .ok s' → R s s') :
    ∀ (bs : List Byte) (a : Addr) {s s' : State}, writeBytes c org a bs s = .ok s' → R s s'
  | [], a, s, s', h => by cases h; exact hrefl s
  | b :: bs, a, s, s', h => by
    simp only [writeBytes] at h
    split at h
    · rename_i s1 h1
      exact htrans (hbyte h1) (writeBytes_rel hrefl htrans hbyte bs (a + 1) h)
    · cases h

end Sys2Proof.Machine
end

