-- ==== Sys2Proof/Laws/Dma.lean ====
section
/-! SUPPORT. What a DMA run, a service pass and a write transaction can do, as sequences of primitive changes; and when they are refused (41_dma.md R184 to R203, 40_bus_access.md R150, R152). -/

namespace Sys2Proof.Machine

variable {c : Config} {ch : Chan} {s s' : State}

/-- The primitive changes of the DMA engine and the write entry point: a byte written by an origin of `O`, one bit through
the EEPROM engine, a change to a channel of `A`, its interrupt, its stored enable bit. -/
inductive Prim (c : Config) (O : Origin → Prop) (A : Chan → Prop) : State → State → Prop where
  | byte {org : Origin} {a : Addr} {b : Byte} {s s' : State} : O org → writeByte c org a b s = .ok s' → Prim c O A s s'
  | shiftOut {s : State} : s.cart.backupType = .eeprom → Prim c O A s (s.setEe (eepromShiftOut c s.ee))
  | shiftIn (b : Bool) (src : Addr) {s : State} :
      s.cart.backupType = .eeprom → Prim c O A s (s.setEe (eepromShiftIn b src s.ee))
  | burstEnd {s : State} : s.cart.backupType = .eeprom → Prim c O A s (s.setEe (eepromBurstEnd c s.ee))
  | chan {ch : Chan} (x : DmaChan) {s : State} : A ch → Prim c O A s (s.setChan ch x)
  | irq {ch : Chan} {s : State} : A ch → Prim c O A s (s.emit [.irq ch])
  | clear {ch : Chan} {s : State} : A ch →
      Prim c O A s (s.setMem (s.mem.write (cntHAddr c ch + 1).toNat (s.mem.read (cntHAddr c ch + 1).toNat &&& 0x7F)))

/-- A finite sequence of primitive changes. -/
inductive Prims (c : Config) (O : Origin → Prop) (A : Chan → Prop) : State → State → Prop where
  | refl (s : State) : Prims c O A s s
  | step {s t u : State} : Prim c O A s t → Prims c O A t u → Prims c O A s u

variable {O : Origin → Prop} {A : Chan → Prop}

theorem Prims.one (h : Prim c O A s s') : Prims c O A s s' := .step h (.refl _)

theorem Prims.trans {t : State} (h : Prims c O A s s') (h' : Prims c O A s' t) : Prims c O A s t := by
  induction h with
  | refl => exact h'
  | step hp _ ih => exact .step hp (ih h')

theorem Prim.mono {O' : Origin → Prop} {A' : Chan → Prop} (hO : ∀ o, O o → O' o) (hA : ∀ k, A k → A' k)
    (h : Prim c O A s s') : Prim c O' A' s s' := by
  cases h with
  | byte ho h => exact .byte (hO _ ho) h
  | shiftOut h => exact .shiftOut h
  | shiftIn b src h => exact .shiftIn b src h
  | burstEnd h => exact .burstEnd h
  | chan x h => exact .chan x (hA _ h)
  | irq h => exact .irq (hA _ h)
  | clear h => exact .clear (hA _ h)

theorem Prims.mono {O' : Origin → Prop} {A' : Chan → Prop} (hO : ∀ o, O o → O' o) (hA : ∀ k, A k → A' k)
    (h : Prims c O A s s') : Prims c O' A' s s' := by
  induction h with
  | refl => exact .refl _
  | step hp _ ih => exact .step (hp.mono hO hA) ih

/-- Any reflexive and transitive relation that holds across the primitive changes holds across their sequences. -/
theorem Prims.rel {R : State → State → Prop} (hrefl : ∀ s, R s s) (htrans : ∀ {s t u}, R s t → R t u → R s u)
    (hprim : ∀ {s t}, Prim c O A s t → R s t) (h : Prims c O A s s') : R s s' := by
  induction h with
  | refl => exact hrefl _
  | step hp _ ih => exact htrans (hprim hp) ih

/-- Any property the primitive changes keep is kept by their sequences. -/
theorem Prims.keeps {P : State → Prop} (hprim : ∀ {s t}, Prim c O A s t → P s → P t) (h : Prims c O A s s') (hs : P s) : P s' := by
  induction h with
  | refl => exact hs
  | step hp _ ih => exact ih (hprim hp hs)

theorem writeBytes_prims {org : Origin} (ho : O org) {a : Addr} {bs : List Byte} (h : writeBytes c org a bs s = .ok s') :
    Prims c O A s s' :=
  writeBytes_rel (R := Prims c O A) Prims.refl Prims.trans (fun h => .one (.byte ho h)) bs a h

/-- The state after the read half of a unit. -/
theorem afterUnitRead_prims (a : Addr) : Prims c O A s (afterUnitRead c s a) := by
  unfold afterUnitRead
  split
  · rename_i h
    simp only [inEepWindow, Bool.and_eq_true, decide_eq_true_eq] at h
    exact .one (.shiftOut h.1)
  · exact .refl _

theorem unitWrite_prims (ho : ∀ k, O (.dma k)) {src dst : Addr} {w : UnitWidth} {v : Word}
    (h : unitWrite c ch src dst w v s = .ok s') : Prims c O A s s' := by
  unfold unitWrite at h
  split at h
  · rename_i hw
    cases h
    simp only [inEepWindow, Bool.and_eq_true, decide_eq_true_eq] at hw
    exact .one (.shiftIn _ _ hw.1)
  · exact writeBytes_prims (ho _) h

/-- What one unit does (R193). -/
theorem dmaUnit_ok {e e' : Bool} (h : dmaUnit c ch e s = .ok (s', e')) :
    ∃ s2, unitWrite c ch (s.chan ch).src (s.chan ch).dst (s.chan ch).width (unitRead c s (s.chan ch).src (s.chan ch).width)
        (afterUnitRead c s (s.chan ch).src) = .ok s2
      ∧ s' = s2.setChan ch ((s2.chan ch).advance (s.chan ch).src (s.chan ch).dst)
      ∧ e' = (e || inEepWindow c (afterUnitRead c s (s.chan ch).src) (s.chan ch).dst) := by
  unfold dmaUnit at h
  simp only at h
  split at h
  · cases h
  · rename_i s2 h2
    simp only [Except.ok.injEq, Prod.mk.injEq] at h
    exact ⟨s2, h2, h.1.symm, h.2.symm⟩

theorem dmaUnit_prims (ho : ∀ k, O (.dma k)) (ha : A ch) {e e' : Bool} (h : dmaUnit c ch e s = .ok (s', e')) :
    Prims c O A s s' := by
  obtain ⟨s2, hw, rfl, -⟩ := dmaUnit_ok h
  exact (afterUnitRead_prims _).trans ((unitWrite_prims ho hw).trans (.one (.chan _ ha)))

/-- The first unit, then the others. -/
theorem dmaUnits_succ {k : Nat} {e e' : Bool} (h : dmaUnits c ch (k + 1) e s = .ok (s', e')) :
    ∃ s1 e1, dmaUnit c ch e s = .ok (s1, e1) ∧ dmaUnits c ch k e1 s1 = .ok (s', e') := by
  simp only [dmaUnits] at h
  split at h
  · cases h
  · rename_i s1 e1 h1; exact ⟨s1, e1, h1, h⟩

theorem dmaUnits_prims (ho : ∀ k, O (.dma k)) (ha : A ch) {k : Nat} {e e' : Bool}
    (h : dmaUnits c ch k e s = .ok (s', e')) : Prims c O A s s' := by
  induction k generalizing s e with
  | zero => simp only [dmaUnits, Except.ok.injEq, Prod.mk.injEq] at h; rw [h.1]; exact .refl _
  | succ k ih =>
    obtain ⟨s1, e1, h1, h2⟩ := dmaUnits_succ h
    exact (dmaUnit_prims ho ha h1).trans (ih h2)

theorem goIdle_prims (ha : A ch) : Prims c O A s (goIdle c ch s) :=
  .step (.chan { s.chan ch with enabled := false, running := false } ha) (.one (.clear ha))

theorem complete_prims (ha : A ch) : Prims c O A s (complete c ch s) := by
  have hend : ∀ u : State, Prims c O A u (if recurs (s.chan ch) then rearm c ch u else goIdle c ch u) := fun u => by
    split
    · exact .one (.chan _ ha)
    · exact goIdle_prims ha
  unfold complete
  simp only
  by_cases hi : ctlIrq (s.chan ch).ctrl = true
  · simp only [hi, if_true]; exact .step (.irq ha) (hend _)
  · simp only [hi]; exact hend _

/-- Whether bits went into the EEPROM window: only under an EEPROM cartridge. -/
theorem dmaUnits_eeIn {k : Nat} {e e' : Bool} (h : dmaUnits c ch k e s = .ok (s', e')) (he : e' = true) :
    e = true ∨ s.cart.backupType = .eeprom := by
  induction k generalizing s e with
  | zero => simp only [dmaUnits, Except.ok.injEq, Prod.mk.injEq] at h; exact .inl (h.2.trans he)
  | succ k ih =>
    obtain ⟨s1, e1, h1, h2⟩ := dmaUnits_succ h
    have hcart : s1.cart = s.cart :=
      (dmaUnit_prims (O := fun _ => True) (A := fun _ => True) (fun _ => trivial) trivial h1).rel
        (R := fun s t => t.cart = s.cart) (fun _ => rfl) (fun h h' => h'.trans h) (fun hp => by
          cases hp with
          | byte _ hb =>
            rcases writeByte_cases hb with ⟨_, _, rfl, _⟩ | ⟨_, rfl⟩ | ⟨_, rfl⟩ | ⟨_, rfl⟩
            · rfl
            · unfold gpioWriteByte; split; · rfl
              split <;> rfl
            · unfold backupWriteByte; split <;> rfl
            · rfl
          | _ => rfl)
    obtain ⟨s2, -, -, he1⟩ := dmaUnit_ok h1
    rcases ih h2 with hh | hh
    · rw [hh] at he1
      simp only [Bool.true_eq, Bool.or_eq_true, inEepWindow, Bool.and_eq_true, decide_eq_true_eq] at he1
      rcases he1 with he1 | he1
      · exact .inl he1
      · refine .inr ?_
        have := he1.1
        unfold afterUnitRead at this
        split at this <;> exact this
    · exact .inr (by rw [← hcart]; exact hh)

/-- A primitive change leaves the cartridge, the timing bookkeeping, the input list and the free values alone, and every
output but the signals. -/
theorem Prim.frame (h : Prim c O A s s') :
    s'.cart = s.cart ∧ s'.tc = s.tc ∧ s'.inputs = s.inputs ∧ s'.free = s.free ∧ s'.out.value = s.out.value
      ∧ s'.out.cls = s.out.cls ∧ s'.out.host = s.out.host := by
  cases h with
  | byte _ hb =>
    rcases writeByte_cases hb with ⟨_, _, rfl, _⟩ | ⟨_, rfl⟩ | ⟨_, rfl⟩ | ⟨_, rfl⟩
    · simp
    · unfold gpioWriteByte; split; · simp
      split <;> simp [gpioWriteData, gpioWriteDir, gpioWriteCtl, gpioWriteRsv]
    · unfold backupWriteByte; split <;> simp
    · simp
  | _ => simp

theorem Prims.frame (h : Prims c O A s s') :
    s'.cart = s.cart ∧ s'.tc = s.tc ∧ s'.inputs = s.inputs ∧ s'.free = s.free ∧ s'.out.value = s.out.value
      ∧ s'.out.cls = s.out.cls ∧ s'.out.host = s.out.host := by
  induction h with
  | refl => simp
  | step hp _ ih => have := hp.frame; simp_all

theorem endRun_prims (ha : A ch) {e : Bool} (he : e = true → s.cart.backupType = .eeprom) :
    Prims c O A s (endRun c ch e s) := by
  unfold endRun
  simp only
  refine .step (.chan { s.chan ch with running := false } ha) ?_
  by_cases h : e = true
  · simp only [h, if_true]
    exact .step (.burstEnd (by simpa using he h)) (complete_prims ha)
  · simp only [h]; exact complete_prims ha

/-- A run is a sequence of primitive changes of its own channel, with the origin `DMA(c)` (R192). -/
theorem dmaRun_prims (ho : ∀ k, O (.dma k)) (ha : A ch) (h : dmaRun c ch s = .ok s') : Prims c O A s s' := by
  unfold dmaRun at h
  simp only at h
  split at h
  · cases h
  · rename_i s2 e hu
    cases h
    have h1 := dmaUnits_prims (O := O) (A := A) ho ha hu
    refine .step (.chan { s.chan ch with running := true } ha) (h1.trans (endRun_prims ha fun he => ?_))
    rcases dmaUnits_eeIn hu he with hh | hh
    · cases hh
    · rw [h1.frame.1]; exact hh

theorem serviceChan_prims {ev : DmaEvent} (ho : ∀ k, O (.dma k)) (ha : A ch) (h : serviceChan c ev ch s = .ok s') :
    Prims c O A s s' := by
  unfold serviceChan at h
  split at h
  · exact dmaRun_prims ho ha h
  · cases h; exact .refl _

/-- The first channel of a pass, then the others. -/
theorem serviceList_cons {ev : DmaEvent} {l : List Chan} (h : serviceList c ev (ch :: l) s = .ok s') :
    ∃ s1, serviceChan c ev ch s = .ok s1 ∧ serviceList c ev l s1 = .ok s' := by
  simp only [serviceList] at h
  split at h
  · cases h
  · rename_i s1 h1; exact ⟨s1, h1, h⟩

/-- A primitive change of other channels leaves a channel alone. -/
theorem Prim.other_chan {k : Chan} (hk : ¬ A k) (h : Prim c O A s s') : s'.chan k = s.chan k := by
  cases h with
  | byte _ hb =>
    rcases writeByte_cases hb with ⟨_, _, rfl, _⟩ | ⟨_, rfl⟩ | ⟨_, rfl⟩ | ⟨_, rfl⟩
    · rfl
    · unfold gpioWriteByte; split; · rfl
      split <;> rfl
    · unfold backupWriteByte; split <;> rfl
    · rfl
  | chan x hA => exact State.chan_setChan_other _ x fun hh => hk (hh ▸ hA)
  | _ => rfl

theorem Prims.other_chan {k : Chan} (hk : ¬ A k) (h : Prims c O A s s') : s'.chan k = s.chan k := by
  induction h with
  | refl => rfl
  | step hp _ ih => exact ih.trans (hp.other_chan hk)

/-- A pass over distinct channels changes only those that were eligible before it (R190). -/
theorem serviceList_prims {ev : DmaEvent} (ho : ∀ k, O (.dma k)) {l : List Chan} (hl : l.Nodup)
    (h : serviceList c ev l s = .ok s') :
    Prims c O (fun k => k ∈ l ∧ eligible c k (s.chan k) ev = true) s s' := by
  induction l generalizing s with
  | nil => cases h; exact .refl _
  | cons k l ih =>
    obtain ⟨s1, h1, h2⟩ := serviceList_cons h
    have hnd := List.nodup_cons.mp hl
    have hfirst : Prims c O (fun j => j = k ∧ eligible c k (s.chan k) ev = true) s s1 := by
      unfold serviceChan at h1
      split at h1
      · rename_i he; exact dmaRun_prims ho ⟨rfl, he⟩ h1
      · cases h1; exact .refl _
    refine (hfirst.mono (fun _ h => h) ?_).trans ((ih hnd.2 h2).mono (fun _ h => h) ?_)
    · rintro j ⟨rfl, he⟩; exact ⟨List.mem_cons_self .., he⟩
    · rintro j ⟨hj, he⟩
      have hjk : j ≠ k := fun hh => hnd.1 (hh ▸ hj)
      rw [hfirst.other_chan (k := j) fun hh => hjk hh.1] at he
      exact ⟨List.mem_cons_of_mem _ hj, he⟩

theorem chanList_nodup : ([0, 1, 2, 3] : List Chan).Nodup := by decide

theorem channels_nodup (c : Config) : (channels c).Nodup := chanList_nodup.sublist (List.take_sublist _ _)

/-- A pass over channels none of which is eligible changes nothing. -/
theorem serviceList_none {ev : DmaEvent} {l : List Chan} (h : ∀ k ∈ l, eligible c k (s.chan k) ev = false) :
    serviceList c ev l s = .ok s := by
  induction l with
  | nil => rfl
  | cons k l ih =>
    have : serviceChan c ev k s = .ok s := by
      unfold serviceChan; rw [if_neg]; simp [h k (List.mem_cons_self ..)]
    simp only [serviceList, this]
    exact ih fun j hj => h j (List.mem_cons_of_mem _ hj)

theorem dmaService_prims {ev : DmaEvent} (ho : ∀ k, O (.dma k)) (h : dmaService c ev s = .ok s') :
    Prims c O (fun k => eligible c k (s.chan k) ev = true) s s' :=
  (serviceList_prims ho (channels_nodup c) h).mono (fun _ h => h) fun _ h => h.2

theorem forceDma_prims (ho : ∀ k, O (.dma k)) (ha : A ch) (h : forceDma c ch s = .ok s') : Prims c O A s s' := by
  unfold forceDma at h
  simp only at h
  split at h
  · exact .step (.chan { s.chan ch with delay := 0 } ha) (dmaRun_prims ho ha h)
  · cases h; exact .refl _

theorem commitCntH_prims (ha : A ch) (h : commitCntH c ch s = .ok s') : Prims c O A s s' := by
  unfold commitCntH at h
  split at h
  · unfold arm at h
    split at h
    · cases h
    · cases h; exact .one (.chan _ ha)
  · cases h; exact .one (.chan _ ha)

theorem commitList_prims {touched l : List Chan} (ha : ∀ k ∈ touched, A k) (h : commitList c touched l s = .ok s') :
    Prims c O A s s' := by
  induction l generalizing s with
  | nil => cases h; exact .refl _
  | cons k l ih =>
    simp only [commitList] at h
    split at h
    · rename_i ht
      split at h
      · cases h
      · rename_i s1 h1
        exact (commitCntH_prims (ha k (by simpa using ht)) h1).trans (ih h)
    · exact ih h

/-- The register side effects of a write transaction are primitive changes, of the channels whose control register was written
and of those a pass finds eligible (40_bus_access.md R152). -/
theorem regCommit_prims (ho : ∀ k, O (.dma k)) {touched : List Chan} (h : regCommit c touched s = .ok s') :
    Prims c O (fun k => k ∈ touched ∨ eligible c k (s.chan k) .none = true) s s' := by
  unfold regCommit at h
  split at h
  · cases h; exact .refl _
  · split at h
    · cases h
    · rename_i s1 h1
      have h2 := commitList_prims (O := O) (A := fun k => k ∈ touched) (fun _ h => h) h1
      refine (h2.mono (fun _ h => h) fun _ h => .inl h).trans ((dmaService_prims ho h).mono (fun _ h => h) fun k hk => ?_)
      by_cases hm : k ∈ touched
      · exact .inl hm
      · rw [h2.other_chan hm] at hk; exact .inr hk

/-- A write transaction is a sequence of primitive changes (R150). -/
theorem writeTransaction_prims {a : Addr} {bs : List Byte} (h : writeTransaction c a bs s = .ok s') :
    Prims c (fun _ => True) (fun _ => True) s s' := by
  unfold writeTransaction at h
  split at h
  · cases h
  · rename_i s1 h1
    exact (writeBytes_prims trivial h1).trans ((regCommit_prims (fun _ => trivial) h).mono (fun _ h => h) fun _ _ => trivial)

/-- A write transaction that writes no byte of a `CNT_H` is its byte writes (R152). -/
theorem writeTransaction_untouched {a : Addr} {bs : List Byte} (h : touchedCntH c s.cart.gpioType a bs.length = []) :
    writeTransaction c a bs s = writeBytes c .cpu a bs s := by
  unfold writeTransaction
  split
  · rename_i r hr; rw [hr]
  · rename_i s1 h1; simp [h, regCommit, h1]

/-! ## A pass that finds nothing -/

/-- A pass with no eligible channel changes nothing (R190). -/
theorem dmaService_idle {ev : DmaEvent} (h : ∀ k, eligible c k (s.chan k) ev = false) : dmaService c ev s = .ok s := by
  exact serviceList_none fun k _ => h k

/-! ## Refusals -/

theorem writeBytes_refused {org : Origin} {a : Addr} {bs : List Byte} {r : Refusal}
    (h : writeBytes c org a bs s = .error r) : r = .dmaWritesDmaRegisters := by
  induction bs generalizing a s with
  | nil => cases h
  | cons b bs ih =>
    simp only [writeBytes] at h
    split at h
    · exact ih h
    · rename_i r' h1; cases h; exact (writeByte_refused h1).1

theorem dmaUnit_refused {e : Bool} {r : Refusal} (h : dmaUnit c ch e s = .error r) : r = .dmaWritesDmaRegisters := by
  unfold dmaUnit at h
  simp only at h
  split at h
  · rename_i r' h1
    cases h
    unfold unitWrite at h1
    split at h1
    · cases h1
    · exact writeBytes_refused h1
  · cases h

theorem dmaUnits_refused {k : Nat} {e : Bool} {r : Refusal} (h : dmaUnits c ch k e s = .error r) :
    r = .dmaWritesDmaRegisters := by
  induction k generalizing s e with
  | zero => cases h
  | succ k ih =>
    simp only [dmaUnits] at h
    split at h
    · rename_i r' h1; cases h; exact dmaUnit_refused h1
    · exact ih h

theorem dmaRun_refused {r : Refusal} (h : dmaRun c ch s = .error r) : r = .dmaWritesDmaRegisters := by
  unfold dmaRun at h
  simp only at h
  split at h
  · rename_i r' h1; cases h; exact dmaUnits_refused h1
  · cases h

theorem serviceList_refused {ev : DmaEvent} {l : List Chan} {r : Refusal} (h : serviceList c ev l s = .error r) :
    r = .dmaWritesDmaRegisters := by
  induction l generalizing s with
  | nil => cases h
  | cons k l ih =>
    simp only [serviceList] at h
    split at h
    · rename_i r' h1
      cases h
      unfold serviceChan at h1
      split at h1
      · exact dmaRun_refused h1
      · cases h1
    · exact ih h

theorem dmaService_refused {ev : DmaEvent} {r : Refusal} (h : dmaService c ev s = .error r) : r = .dmaWritesDmaRegisters :=
  serviceList_refused h

theorem commitList_refused {touched l : List Chan} {r : Refusal} (h : commitList c touched l s = .error r) : r = .sac3 := by
  induction l generalizing s with
  | nil => cases h
  | cons k l ih =>
    simp only [commitList] at h
    split at h
    · split at h
      · rename_i r' h1
        cases h
        unfold commitCntH arm at h1
        split at h1
        · split at h1 <;> cases h1; rfl
        · cases h1
      · exact ih h
    · exact ih h

theorem regCommit_refused {touched : List Chan} {r : Refusal} (h : regCommit c touched s = .error r) :
    r = .sac3 ∨ r = .dmaWritesDmaRegisters := by
  unfold regCommit at h
  split at h
  · cases h
  · split at h
    · rename_i r' h1; cases h; exact .inl (commitList_refused h1)
    · exact .inr (dmaService_refused h)

/-- The two reasons a write transaction is refused. -/
theorem writeTransaction_refused {a : Addr} {bs : List Byte} {r : Refusal} (h : writeTransaction c a bs s = .error r) :
    r = .sac3 ∨ r = .dmaWritesDmaRegisters := by
  unfold writeTransaction at h
  split at h
  · rename_i r' h1
    obtain ⟨s', hs⟩ := writeBytes_cpu (c := c) (s := s) a bs
    rw [hs] at h1; cases h1
  · exact regCommit_refused h

end Sys2Proof.Machine
end

