-- ==== Sys2Proof/Laws/Operands.lean ====
section
/-! SUPPORT. Byte order: what a value is split into and joined from (20_memory.md R63, R65), and what reading a list of bytes gives. -/

namespace Sys2Proof.Machine

theorem joinLE_one (b : Byte) : (joinLE [b]).setWidth 8 = b := by simp [joinLE]

theorem joinLE_two (b0 b1 : Byte) : (joinLE [b0, b1]).setWidth 16 = b1 ++ b0 := by
  apply BitVec.eq_of_getLsbD_eq; intro i hi
  simp only [joinLE, BitVec.getLsbD_setWidth, BitVec.getLsbD_or, BitVec.getLsbD_shiftLeft, BitVec.getLsbD_append]
  interval_cases i <;> simp

theorem joinLE_four (b0 b1 b2 b3 : Byte) : joinLE [b0, b1, b2, b3] = b3 ++ b2 ++ b1 ++ b0 := by
  apply BitVec.eq_of_getLsbD_eq; intro i hi
  simp only [joinLE, BitVec.getLsbD_setWidth, BitVec.getLsbD_or, BitVec.getLsbD_shiftLeft, BitVec.getLsbD_append]
  interval_cases i <;> simp

theorem splitLE_one (v : Byte) : splitLE 1 (v.setWidth 32) = [v] := by simp [splitLE]

theorem splitLE_two (v : Half) : splitLE 2 (v.setWidth 32) = halfBytes v := by
  simp only [splitLE, halfBytes, List.cons.injEq, and_true]
  constructor <;> apply BitVec.eq_of_getLsbD_eq <;> intro i hi <;> simp [hi]
  omega

theorem splitLE_four (v : Word) : splitLE 4 v = wordBytes v := by
  simp only [splitLE, wordBytes, List.cons.injEq, and_true]
  refine ⟨?_, ?_, ?_, ?_⟩ <;> apply BitVec.eq_of_getLsbD_eq <;> intro i hi <;> simp [hi]

/-- A half-word is the join of its bytes. -/
theorem halfBytes_join (v : Half) : v.extractLsb' 8 8 ++ v.extractLsb' 0 8 = v := by
  apply BitVec.eq_of_getLsbD_eq; intro i hi
  simp only [BitVec.getLsbD_append, BitVec.getLsbD_extractLsb']
  split
  · simp_all
  · have : 8 + (i - 8) = i := by omega
    simp_all; omega

/-- A word is the join of its bytes. -/
theorem wordBytes_join (v : Word) :
    v.extractLsb' 24 8 ++ v.extractLsb' 16 8 ++ v.extractLsb' 8 8 ++ v.extractLsb' 0 8 = v :=
  wordOfBytes_bytesOfWord v

/-- Byte `k` of `n` bytes read from `a` on. -/
theorem readBytes_get (c : Config) (s : State) (n : Nat) (a : Addr) {k : Nat} (hk : k < n) :
    (readBytes c s a n).getD k 0 = readByte c s (a + BitVec.ofNat 32 k) := by
  induction n generalizing a k with
  | zero => omega
  | succ n ih =>
    cases k with
    | zero => simp [readBytes]
    | succ k =>
      simp only [readBytes, List.getD_cons_succ]
      rw [ih (a + 1) (by omega)]
      congr 1
      rw [BitVec.add_assoc]; congr 1
      apply BitVec.eq_of_toNat_eq; simp [BitVec.toNat_add, BitVec.toNat_ofNat]; omega

/-- Reading depends only on the stores, the engines and the configuration. -/
theorem readByte_congr (c : Config) {s t : State} (hm : t.mem = s.mem) (hc : t.cart = s.cart) (hf : t.fl = s.fl)
    (hg : t.gpio = s.gpio) (hs : t.sram = s.sram) (a : Addr) : readByte c t a = readByte c s a := by
  unfold readByte backupReadByte State.asByte
  rw [hm, hc, hf, hg, hs]

theorem readBytes_congr (c : Config) {s t : State} (h : ∀ a, readByte c t a = readByte c s a) (a : Addr) (n : Nat) :
    readBytes c t a n = readBytes c s a n := by
  induction n generalizing a with
  | zero => rfl
  | succ n ih => simp [readBytes, h, ih]

theorem memRead_congr (c : Config) {s t : State} (h : ∀ a, readByte c t a = readByte c s a) (a : Addr) (n : Nat) :
    memRead c t a n = memRead c s a n := by
  unfold memRead; rw [readBytes_congr c h]

end Sys2Proof.Machine
end

