-- ==== Sys2Proof/Laws/DmaRegs.lean ====
section
/-! SUPPORT. The DMA registers as bytes of `AS`: which addresses they are, what a stored byte does to their views (10_state.md R25, 40_bus_access.md R151, R152). -/

namespace Sys2Proof.Machine

variable {s s' : State}

theorem addr_eq_of_toNat {a b : Addr} (h : a.toNat = b.toNat) : a = b := BitVec.eq_of_toNat_eq h

theorem cntHAddr_succ_default (ch : Chan) : (cntHAddr Config.default ch + 1).toNat = 0x040000BB + 12 * ch.val := by
  match ch with | 0 => rfl | 1 => rfl | 2 => rfl | 3 => rfl

/-- A byte of a `CNT_H`, by its number. -/
theorem isCntHByte_iff (a : Addr) : isCntHByte Config.default a = true ↔
    ∃ ch : Chan, a.toNat = 0x040000BA + 12 * ch.val ∨ a.toNat = 0x040000BB + 12 * ch.val := by
  simp only [isCntHByte, List.any_eq_true, Bool.or_eq_true, decide_eq_true_eq]
  constructor
  · rintro ⟨ch, -, h | h⟩
    · exact ⟨ch, .inl (by rw [h, cntHAddr_default])⟩
    · exact ⟨ch, .inr (by rw [h, cntHAddr_succ_default])⟩
  · rintro ⟨ch, h | h⟩
    · exact ⟨ch, by fin_cases ch <;> simp, .inl (addr_eq_of_toNat (by rw [h, cntHAddr_default]))⟩
    · exact ⟨ch, by fin_cases ch <;> simp, .inr (addr_eq_of_toNat (by rw [h, cntHAddr_succ_default]))⟩

theorem dmaOffset_default (a : Addr) (h : inDmaBlock Config.default a = true) :
    dmaOffset Config.default a = a.toNat - 0x040000B0 := by
  have hb := (inDmaBlock_default a).mp h
  unfold dmaOffset
  rw [default_dmaBase, BitVec.toNat_sub]
  have := a.isLt
  simp; omega

/-- The register that contains an address is `CNT_H` exactly at the two bytes of a `CNT_H`. -/
theorem dmaRegAt_cntH (a : Addr) (ch : Chan) : dmaRegAt Config.default a = some (ch, .cntH) ↔
    a.toNat = 0x040000BA + 12 * ch.val ∨ a.toNat = 0x040000BB + 12 * ch.val := by
  unfold dmaRegAt
  by_cases hb : inDmaBlock Config.default a = true
  · have hn := (inDmaBlock_default a).mp hb
    rw [if_pos hb, dmaOffset_default a hb, default_dmaStride]
    have hq : (Fin.ofNat 4 ((a.toNat - 0x040000B0) / 12)).val = (a.toNat - 0x040000B0) / 12 := by
      simp [Fin.ofNat]; omega
    simp only [regOfOffset]
    split_ifs with h1 h2 h3 h4
    · simp; omega
    · simp; omega
    · simp; omega
    · simp only [Option.map_some, Option.some.injEq, Prod.mk.injEq, and_true]
      constructor
      · intro h; have := congrArg Fin.val h; rw [hq] at this; omega
      · intro h; apply Fin.ext; rw [hq]; omega
    · omega
  · have hn := mt (inDmaBlock_default a).mpr hb
    rw [if_neg hb]
    have := ch.isLt
    simp; omega

/-- An access that covers no byte of a `CNT_H` touches none. -/
theorem touchedCntH_nil (g : GpioType) (n : Nat) (a : Addr)
    (h : ∀ k, k < n → isCntHByte Config.default (a + BitVec.ofNat 32 k) = false) : touchedCntH Config.default g a n = [] := by
  induction n generalizing a with
  | zero => rfl
  | succ n ih =>
    have hfirst : cntHAt Config.default a = [] := by
      unfold cntHAt
      split
      · rename_i ch hr
        have h0 := h 0 (by omega)
        have : isCntHByte Config.default a = true := (isCntHByte_iff a).mpr ⟨ch, (dmaRegAt_cntH a ch).mp hr⟩
        simp at h0; rw [h0] at this; cases this
      · rfl
    unfold touchedCntH
    rw [hfirst, ih (a + 1) fun k hk => ?_]
    · simp
    · have := h (k + 1) (by omega)
      rwa [show a + 1 + BitVec.ofNat 32 k = a + BitVec.ofNat 32 (k + 1) by
        rw [BitVec.add_assoc]; congr 1
        apply BitVec.eq_of_toNat_eq; simp [BitVec.toNat_add, BitVec.toNat_ofNat]; omega]

/-- A byte of the DMA block that is no byte of a `CNT_H` is stored unmasked. -/
theorem ioMask_full {a : Addr} (h : isCntHByte Config.default a = false) : ioMask Config.default a = 0xFF := by
  unfold ioMask
  by_cases hb : inDmaBlock Config.default a = true
  · have hn := (inDmaBlock_default a).mp hb
    rw [dmaOffset_default a hb, default_dmaStride]
    rw [if_neg]
    simp only [hb, Bool.true_and, decide_eq_true_eq]
    intro hm
    have : isCntHByte Config.default a = true :=
      (isCntHByte_iff a).mpr ⟨⟨(a.toNat - 0x040000B0) / 12, by omega⟩, .inl (by simp only; omega)⟩
    rw [h] at this; cases this
  · simp [hb]

/-! ## Views of stored bytes -/

@[simp] theorem asByte_write (s : State) (a b : Addr) (v : Byte) :
    (s.setMem (s.mem.write a.toNat v)).asByte b = if b = a then v else s.asByte b := by
  simp only [State.asByte, State.setMem_mem, Memory.read_write]
  by_cases h : b = a
  · simp [h]
  · rw [if_neg h, if_neg (fun hh => h (addr_eq_of_toNat hh))]

theorem asByte_congr {t : State} (h : t.mem = s.mem) (a : Addr) : t.asByte a = s.asByte a := by
  unfold State.asByte; rw [h]

end Sys2Proof.Machine
end

