-- ==== Sys2Proof/Laws/Exec.lean ====
section
/-! SUPPORT. What exec is, instruction by instruction, in terms of the shared operations. -/

namespace Sys2Proof.Machine

variable {s t : State}

@[simp] theorem toOutcome_ok (s : State) : toOutcome (.ok s) = .next s := rfl
@[simp] theorem toOutcome_error (r : Refusal) : toOutcome (.error r) = .refused r := rfl

theorem toOutcome_next {x : Except Refusal State} (h : toOutcome x = .next t) : x = .ok t := by
  cases x with
  | ok s => simpa [toOutcome] using h
  | error r => simp [toOutcome] at h

theorem toOutcome_refused {x : Except Refusal State} {r : Refusal} (h : toOutcome x = .refused r) : x = .error r := by
  cases x with
  | ok s => simp [toOutcome] at h
  | error r' => simpa [toOutcome] using h

/-- `exec` is the block with the defaults of R5. -/
theorem exec_eq_execIn (i : Instr) (s : State) : exec i s = execIn Config.default i s := by
  cases i <;> rfl

/-- `step` is the transition function of R8 with the defaults of R5. -/
theorem step_eq_stepIn (s : State) : step s = stepIn Config.default s := by
  unfold step stepIn
  cases s.inputs with
  | nil => rfl
  | cons p rest =>
    simp only
    cases decode Config.default s.ctx p with
    | error e => rfl
    | ok i => exact exec_eq_execIn _ _

/-- The width of a write's value. -/
theorem writeAccess_length {i : Instr} {a : Addr} {bs : List Byte} (h : writeAccess i = some (a, bs)) :
    bs.length = 1 ∨ bs.length = 2 ∨ bs.length = 4 := by
  cases i <;> simp [writeAccess] at h <;> obtain ⟨-, rfl⟩ := h <;> simp [halfBytes, wordBytes]

/-- The state in which the bytes of a write transaction are written: outputs cleared, and for a classified write the class
output and `tc` updated. -/
def writeStart (i : Instr) (s : State) : State :=
  match classifiedAccess i with
  | some (a, n) =>
    (s.start.setTc (classify Config.default s.cart.gpioType s.tc a n).2).answer none
      (some (classify Config.default s.cart.gpioType s.tc a n).1)
  | none => s.start

@[simp] theorem writeStart_mem (i : Instr) (s : State) : (writeStart i s).mem = s.mem := by unfold writeStart; split <;> rfl
@[simp] theorem writeStart_cart (i : Instr) (s : State) : (writeStart i s).cart = s.cart := by unfold writeStart; split <;> rfl
@[simp] theorem writeStart_dma (i : Instr) (s : State) : (writeStart i s).dma = s.dma := by unfold writeStart; split <;> rfl
@[simp] theorem writeStart_chan (i : Instr) (s : State) (ch : Chan) : (writeStart i s).chan ch = s.chan ch := by
  unfold writeStart; split <;> rfl
@[simp] theorem writeStart_ee (i : Instr) (s : State) : (writeStart i s).ee = s.ee := by unfold writeStart; split <;> rfl
@[simp] theorem writeStart_fl (i : Instr) (s : State) : (writeStart i s).fl = s.fl := by unfold writeStart; split <;> rfl
@[simp] theorem writeStart_gpio (i : Instr) (s : State) : (writeStart i s).gpio = s.gpio := by unfold writeStart; split <;> rfl
@[simp] theorem writeStart_sram (i : Instr) (s : State) : (writeStart i s).sram = s.sram := by unfold writeStart; split <;> rfl
@[simp] theorem writeStart_inputs (i : Instr) (s : State) : (writeStart i s).inputs = s.inputs := by
  unfold writeStart; split <;> rfl
@[simp] theorem writeStart_free (i : Instr) (s : State) : (writeStart i s).free = s.free := by unfold writeStart; split <;> rfl
@[simp] theorem writeStart_signals (i : Instr) (s : State) : (writeStart i s).out.signals = [] := by
  unfold writeStart; split <;> rfl
@[simp] theorem writeStart_value (i : Instr) (s : State) : (writeStart i s).out.value = none := by
  unfold writeStart; split <;> rfl
@[simp] theorem writeStart_host (i : Instr) (s : State) : (writeStart i s).out.host = none := by
  unfold writeStart; split <;> rfl

/-- Every write instruction is the transaction of its bytes (40_bus_access.md R143 to R145, R150, R157, R158, R160). -/
theorem exec_write {i : Instr} {a : Addr} {bs : List Byte} (h : writeAccess i = some (a, bs)) (s : State) :
    exec i s = toOutcome (writeTransaction Config.default a bs (writeStart i s)) := by
  cases i <;> simp only [writeAccess, Option.some.injEq, Prod.mk.injEq, reduceCtorEq] at h <;> obtain ⟨rfl, rfl⟩ := h
  · simp only [exec, execWr8, wr8In, busWrite, memWrite, AccessWidth.bytes, splitLE_one]; rfl
  · simp only [exec, execWr16, wr16In, busWrite, memWrite, AccessWidth.bytes, splitLE_two]; rfl
  · simp only [exec, execWr32, wr32In, busWrite, memWrite, AccessWidth.bytes, splitLE_four]; rfl
  · simp only [exec, execFwr8, fwr8In, fastWrite, memWrite, AccessWidth.bytes, splitLE_one]; rfl
  · simp only [exec, execFwr16, fwr16In, fastWrite, memWrite, AccessWidth.bytes, splitLE_two]; rfl
  · simp only [exec, execFwr32, fwr32In, fastWrite, memWrite, AccessWidth.bytes, splitLE_four]; rfl

/-- A write instruction that covers no byte of a `CNT_H` completes, and is its bytes. -/
theorem exec_write_plain {i : Instr} {a : Addr} {bs : List Byte} (h : writeAccess i = some (a, bs)) (s : State)
    (hno : ∀ k, k < bs.length → isCntHByte Config.default (a + BitVec.ofNat 32 k) = false) :
    ∃ t, exec i s = .next t ∧ writeBytes Config.default .cpu a bs (writeStart i s) = .ok t := by
  obtain ⟨t, ht⟩ := writeBytes_cpu (c := Config.default) (s := writeStart i s) a bs
  refine ⟨t, ?_, ht⟩
  rw [exec_write h, writeTransaction_untouched (touchedCntH_nil _ _ _ hno), ht, toOutcome_ok]

/-- A write instruction that answers a next state is primitive changes from its start. -/
theorem exec_write_prims {i : Instr} {a : Addr} {bs : List Byte} (h : writeAccess i = some (a, bs)) (ht : exec i s = .next t) :
    Prims Config.default (fun _ => True) (fun _ => True) (writeStart i s) t := by
  rw [exec_write h] at ht
  exact writeTransaction_prims (toOutcome_next ht)

/-- The trigger events are service passes. -/
theorem exec_pass {i : Instr} {ev : DmaEvent} (h : passEvent i = some ev) (s : State) :
    exec i s = toOutcome (dmaService Config.default ev s.start) := by
  cases i <;> simp only [passEvent, Option.some.injEq, reduceCtorEq] at h <;> subst h <;> rfl

end Sys2Proof.Machine
end

