-- ==== Sys2Proof/Laws/Frames.lean ====
section
/-! SUPPORT. The frames of written bytes under the default configuration: what lies outside them is unchanged, and what they leave is what is read back (20_memory.md R68, R78, R79). -/

namespace Sys2Proof.Machine

variable {s t : State}

/-- The address after the first of `k + 1` bytes. -/
theorem add_one_ofNat (a : Addr) (k : Nat) : a + 1 + BitVec.ofNat 32 k = a + BitVec.ofNat 32 (k + 1) := by
  rw [BitVec.add_assoc]; congr 1
  apply BitVec.eq_of_toNat_eq; simp [BitVec.toNat_add, BitVec.toNat_ofNat]; omega

/-- Small offsets of one address differ. -/
theorem add_ofNat_inj {a : Addr} {j k : Nat} (hj : j < 2 ^ 32) (hk : k < 2 ^ 32)
    (h : a + BitVec.ofNat 32 j = a + BitVec.ofNat 32 k) : j = k := by
  have := congrArg BitVec.toNat h
  rw [BitVec.toNat_add, BitVec.toNat_add, BitVec.toNat_ofNat, BitVec.toNat_ofNat] at this
  omega

/-- What one byte written by a bus access leaves unchanged, by where it goes. -/
structure ByteFrame (s t : State) (a : Addr) : Prop where
  dma : t.dma = s.dma
  ee : t.ee = s.ee
  bytes : ∀ b : Addr, b ≠ a → t.asByte b = s.asByte b
  bkp : decodeTag Config.default s.cart.gpioType a ≠ .bkp → t.fl = s.fl ∧ t.sram = s.sram
  sram : ∀ o : Nat, o ≠ (a - 0x0E000000).toNat → t.sram.read o = s.sram.read o
  gpio : decodeTag Config.default s.cart.gpioType a ≠ .gpio → t.gpio = s.gpio

/-- The bounds of the backup window. -/
theorem bkp_bounds {g : GpioType} {a : Addr} (h : decodeTag Config.default g a = .bkp) :
    0x0E000000 ≤ a.toNat ∧ a.toNat ≤ 0x0E00FFFF := by
  rw [decodeTag_default] at h
  by_contra hc
  split_ifs at h

/-- The offset of an address of the backup window. -/
theorem bkpOffset_toNat {g : GpioType} {a : Addr} (h : decodeTag Config.default g a = .bkp) :
    (bkpOffset Config.default a).toNat = (a - 0x0E000000).toNat := by
  have := bkp_bounds h
  simp only [bkpOffset, default_bkp, BitVec.toNat_setWidth, BitVec.toNat_sub]
  simp; omega

theorem gpioWriteByte_frame (c : Config) (off : Nat) (b : Byte) (s : State) :
    (gpioWriteByte c off b s).dma = s.dma ∧ (gpioWriteByte c off b s).ee = s.ee ∧ (gpioWriteByte c off b s).mem = s.mem
      ∧ (gpioWriteByte c off b s).fl = s.fl ∧ (gpioWriteByte c off b s).sram = s.sram
      ∧ (gpioWriteByte c off b s).cart = s.cart := by
  unfold gpioWriteByte
  split
  · simp
  · split <;> simp [gpioWriteData, gpioWriteDir, gpioWriteCtl, gpioWriteRsv]

theorem backupWriteByte_frame (c : Config) (off : Half) (b : Byte) (s : State) :
    (backupWriteByte c off b s).dma = s.dma ∧ (backupWriteByte c off b s).ee = s.ee ∧ (backupWriteByte c off b s).mem = s.mem
      ∧ (backupWriteByte c off b s).gpio = s.gpio ∧ (backupWriteByte c off b s).cart = s.cart
      ∧ (backupWriteByte c off b s).out = s.out
      ∧ (s.cart.backupType ≠ .sram → (backupWriteByte c off b s).sram = s.sram)
      ∧ (s.cart.backupType.isFlash = false → (backupWriteByte c off b s).fl = s.fl) := by
  unfold backupWriteByte
  split <;> rename_i h <;> simp [h, BackupType.isFlash]

theorem writeByte_frame {org : Origin} {a : Addr} {b : Byte} (h : writeByte Config.default org a b s = .ok t) :
    ByteFrame s t a := by
  rcases writeByte_cases h with ⟨b', l, rfl, _, htag, _⟩ | ⟨htag, rfl⟩ | ⟨htag, rfl⟩ | ⟨htag, rfl⟩
  · refine ⟨rfl, rfl, fun b hb => ?_, fun _ => ⟨rfl, rfl⟩, fun _ _ => rfl, fun _ => rfl⟩
    have := asByte_write s a b b'
    rw [if_neg hb] at this; exact this
  · obtain ⟨h1, h2, h3, h4, h5, -⟩ := gpioWriteByte_frame Config.default (gpioOffset Config.default a) b s
    exact ⟨h1, h2, fun _ _ => asByte_congr h3 _, fun _ => ⟨h4, h5⟩, fun _ _ => by rw [h5], fun hg => absurd htag hg⟩
  · obtain ⟨h1, h2, h3, h4, -⟩ := backupWriteByte_frame Config.default (bkpOffset Config.default a) b s
    refine ⟨h1, h2, fun _ _ => asByte_congr h3 _, fun hb => absurd htag hb, fun o ho => ?_, fun _ => h4⟩
    unfold backupWriteByte
    split
    · simp only [State.setSram_sram]
      exact Memory.read_write_other _ _ (by rw [bkpOffset_toNat htag]; exact ho)
    all_goals rfl
  · exact ⟨rfl, rfl, fun _ _ => rfl, fun _ => ⟨rfl, rfl⟩, fun _ _ => rfl, fun _ => rfl⟩

/-- What a sequence of written bytes leaves unchanged. -/
structure BytesFrame (s t : State) (a : Addr) (n : Nat) : Prop where
  dma : t.dma = s.dma
  ee : t.ee = s.ee
  bytes : ∀ b : Addr, (∀ k, k < n → b ≠ a + BitVec.ofNat 32 k) → t.asByte b = s.asByte b
  bkp : (∀ k, k < n → decodeTag Config.default s.cart.gpioType (a + BitVec.ofNat 32 k) ≠ .bkp) → t.fl = s.fl ∧ t.sram = s.sram
  sram : ∀ o : Nat, (∀ k, k < n → o ≠ ((a + BitVec.ofNat 32 k) - 0x0E000000).toNat) → t.sram.read o = s.sram.read o
  gpio : (∀ k, k < n → decodeTag Config.default s.cart.gpioType (a + BitVec.ofNat 32 k) ≠ .gpio) → t.gpio = s.gpio

theorem writeByte_cart {c : Config} {org : Origin} {a : Addr} {b : Byte} (h : writeByte c org a b s = .ok t) : t.cart = s.cart :=
  (Prim.byte (O := fun _ => True) (A := fun _ => False) trivial h).frame.1

theorem writeBytes_cart {c : Config} {org : Origin} {a : Addr} {bs : List Byte} (h : writeBytes c org a bs s = .ok t) :
    t.cart = s.cart :=
  (writeBytes_prims (O := fun _ => True) (A := fun _ => False) trivial h).frame.1

/-- The first byte, then the others. -/
theorem writeBytes_cons {c : Config} {org : Origin} {a : Addr} {b : Byte} {bs : List Byte}
    (h : writeBytes c org a (b :: bs) s = .ok t) :
    ∃ u, writeByte c org a b s = .ok u ∧ writeBytes c org (a + 1) bs u = .ok t := by
  simp only [writeBytes] at h
  split at h
  · rename_i u hu; exact ⟨u, hu, h⟩
  · cases h

theorem writeBytes_frame {org : Origin} {bs : List Byte} : ∀ {a : Addr} {s t : State},
    writeBytes Config.default org a bs s = .ok t → BytesFrame s t a bs.length := by
  induction bs with
  | nil => intro a s t h; cases h; exact ⟨rfl, rfl, fun _ _ => rfl, fun _ => ⟨rfl, rfl⟩, fun _ _ => rfl, fun _ => rfl⟩
  | cons b bs ih =>
    intro a s t h
    obtain ⟨u, h1, h2⟩ := writeBytes_cons h
    have f1 := writeByte_frame h1
    have f2 := ih h2
    have hc := writeByte_cart h1
    have z : a = a + BitVec.ofNat 32 0 := by simp
    refine ⟨f2.dma.trans f1.dma, f2.ee.trans f1.ee, fun b' hb => ?_, fun hb => ?_, fun o hb => ?_, fun hb => ?_⟩
    · rw [f2.bytes b' fun k hk => by rw [add_one_ofNat]; exact hb (k + 1) (by simpa using hk),
        f1.bytes b' (by rw [z]; exact hb 0 (by simp))]
    · obtain ⟨p1, p2⟩ := f2.bkp fun k hk => by rw [add_one_ofNat, hc]; exact hb (k + 1) (by simpa using hk)
      obtain ⟨q1, q2⟩ := f1.bkp (by rw [z]; exact hb 0 (by simp))
      exact ⟨p1.trans q1, p2.trans q2⟩
    · rw [f2.sram o fun k hk => by rw [add_one_ofNat]; exact hb (k + 1) (by simpa using hk),
        f1.sram o (by rw [z]; exact hb 0 (by simp))]
    · rw [f2.gpio fun k hk => by rw [add_one_ofNat, hc]; exact hb (k + 1) (by simpa using hk),
        f1.gpio (by rw [z]; exact hb 0 (by simp))]

/-- A byte of a round-trip address reads as written. -/
theorem writeByte_read {a : Addr} {b : Byte} (hr : roundTripByte Config.default s a = true)
    (h : writeByte Config.default .cpu a b s = .ok t) : readByte Config.default t a = b := by
  have hcart := writeByte_cart h
  unfold roundTripByte at hr
  rcases writeByte_cases h with ⟨b', l, rfl, _, htag, _⟩ | ⟨htag, rfl⟩ | ⟨htag, rfl⟩ | ⟨htag, rfl⟩
  · have hrd : readByte Config.default ((s.setMem (s.mem.write a.toNat b')).emit l) a = b' := by
      unfold readByte
      simp only [State.emit_cart, State.setMem_cart]
      rcases htag with ht | ht | ht | ht | ht | ht <;>
      · simp only [ht]
        have := asByte_write s a a b'
        rw [if_pos rfl] at this; exact this
    rw [hrd]
    unfold writeByte at h
    rcases htag with ht | ht | ht | ht | ht | ht <;> simp only [ht, Except.ok.injEq] at h hr
    all_goals first
      | (have hm := congrArg (fun u : State => u.mem.read a.toNat) h
         simp only [State.emit_mem, State.setMem_mem, Memory.read_write_same] at hm
         exact hm.symm)
      | skip
    have hno : isCntHByte Config.default a = false := by simpa using hr
    split at h
    · simp only [Except.ok.injEq, writeDmaRegByte, ioMask_full hno] at h
      have hm := congrArg (fun u : State => u.mem.read a.toNat) h
      simp only [State.emit_mem, State.setMem_mem, Memory.read_write_same] at hm
      rw [← hm]; exact BitVec.and_allOnes
    · simp only [Except.ok.injEq, writeIoByte] at h
      have hm := congrArg (fun u : State => u.mem.read a.toNat) h
      simp only [State.emit_mem, State.setMem_mem, Memory.read_write_same] at hm
      exact hm.symm
  · simp [htag] at hr
  · simp only [htag, decide_eq_true_eq] at hr
    unfold readByte
    rw [hcart, htag]
    simp only [backupReadByte, backupWriteByte, hr]
    simp [hr]
  · rcases htag with ht | ht | ht <;> simp [ht] at hr

/-- A later write of other bytes does not disturb a round-trip byte. -/
theorem readByte_frame {n : Nat} {a b : Addr} (hc : t.cart = s.cart) (hf : BytesFrame s t a n)
    (hr : roundTripByte Config.default s b = true) (hb : ∀ k, k < n → b ≠ a + BitVec.ofNat 32 k) :
    readByte Config.default t b = readByte Config.default s b := by
  unfold roundTripByte at hr
  unfold readByte
  rw [hc]
  split at hr
  all_goals first
    | (rename_i ht; simp only [ht]; exact hf.bytes b hb)
    | skip
  · rename_i ht
    have hs : s.cart.backupType = .sram := by simpa using hr
    simp only [ht, backupReadByte, hc, hs]
    refine hf.sram _ fun k hk hh => ?_
    rw [bkpOffset_toNat ht] at hh
    refine hb k hk (addr_eq_of_toNat ?_)
    have h1 := bkp_bounds ht
    rw [BitVec.toNat_sub, BitVec.toNat_sub] at hh
    have := (a + BitVec.ofNat 32 k).isLt
    have e : (0x0E000000 : Addr).toNat = 0x0E000000 := rfl
    rw [e] at hh
    omega
  all_goals cases hr

/-- Every byte of a write to round-trip addresses reads as written. -/
theorem writeBytes_read {bs : List Byte} (hl : bs.length ≤ 4) : ∀ {a : Addr} {s t : State},
    (∀ k, k < bs.length → roundTripByte Config.default s (a + BitVec.ofNat 32 k) = true) →
    writeBytes Config.default .cpu a bs s = .ok t →
    ∀ k, k < bs.length → readByte Config.default t (a + BitVec.ofNat 32 k) = bs.getD k 0 := by
  induction bs with
  | nil => intro a s t _ _ k hk; simp at hk
  | cons b bs ih =>
    intro a s t hr h k hk
    obtain ⟨u, h1, h2⟩ := writeBytes_cons h
    have hcu := writeByte_cart h1
    have hru : ∀ k, k < bs.length → roundTripByte Config.default u (a + 1 + BitVec.ofNat 32 k) = true := fun k hk => by
      have := hr (k + 1) (by simpa using hk)
      rw [add_one_ofNat]
      unfold roundTripByte at this ⊢
      rw [hcu]; exact this
    simp only [List.length_cons] at hl hk
    cases k with
    | zero =>
      have hz : a + BitVec.ofNat 32 0 = a := by simp
      have hra := hr 0 (by simp)
      rw [hz] at hra ⊢
      rw [readByte_frame (writeBytes_cart h2) (writeBytes_frame h2)]
      · simpa using writeByte_read hra h1
      · unfold roundTripByte at hra ⊢; rw [hcu]; exact hra
      · intro k hk hh
        rw [add_one_ofNat] at hh
        have : a + BitVec.ofNat 32 0 = a + BitVec.ofNat 32 (k + 1) := by rw [hz]; exact hh
        have := add_ofNat_inj (by omega) (by omega) this
        omega
    | succ k =>
      rw [← add_one_ofNat, List.getD_cons_succ]
      exact ih (by omega) hru h2 k (by omega)

end Sys2Proof.Machine
end

