-- ==== Sys2Proof/Laws/RegRows.lean ====
section
/-! SUPPORT. Writes to the DMA register block: a whole register written by the bus is stored as its row stores it (40_bus_access.md R151, R152, 41_dma.md R181 to R185). -/

namespace Sys2Proof.Machine

/-- the io tag of the DMA block -/
theorem dmaBlock_io {g : GpioType} {a : Addr} (h : inDmaBlock Config.default a = true) : decodeTag Config.default g a = .io := by
  have := (inDmaBlock_default a).mp h
  rw [decodeTag_default]; split_ifs <;> first | rfl | omega

/-- Bytes written to the DMA block outside `CNT_H`'s low bytes are stored as they are. -/
theorem writeBytes_block (bs : List Byte) : ∀ (a : Addr) (s : State),
    (∀ k, k < bs.length → inDmaBlock Config.default (a + BitVec.ofNat 32 k) = true
      ∧ (bs.getD k 0 &&& ioMask Config.default (a + BitVec.ofNat 32 k) = bs.getD k 0)) →
    writeBytes Config.default .cpu a bs s = .ok (s.setMem (storeBytes s.mem a bs)) := by
  induction bs with
  | nil => intro a s _; rfl
  | cons b bs ih =>
    intro a s h
    have h0 := h 0 (by simp)
    simp only [BitVec.ofNat_eq_ofNat, BitVec.add_zero, List.getD_cons_zero] at h0
    have hw : writeByte Config.default .cpu a b s = .ok (s.setMem (s.mem.write a.toNat b)) := by
      unfold writeByte
      simp only [dmaBlock_io h0.1, h0.1, if_true, writeDmaRegByte, h0.2]
    simp only [writeBytes, hw]
    rw [ih]
    · rfl
    · intro k hk; rw [add_one_ofNat]; exact h (k+1) (by simpa using hk)

theorem block_word (s : State) (a : Addr) (v : Word)
  (h : ∀ k, k < 4 → inDmaBlock Config.default (a + BitVec.ofNat 32 k) = true ∧ isCntHByte Config.default (a + BitVec.ofNat 32 k) = false) :
   exec (.fwr32 a v) s = .next (storeReg32 a v s) := by
  obtain ⟨t, ht, hb⟩ := exec_write_plain (i := .fwr32 a v) rfl s (fun k hk => (h k hk).2)
  rw [ht]; congr 1
  rw [writeBytes_block] at hb
  · cases hb; unfold storeReg32; rw [splitLE_four]; rfl
  · intro k hk; refine ⟨(h k hk).1, ?_⟩; rw [ioMask_full (h k hk).2]; exact BitVec.and_allOnes

theorem block_half (s : State) (a : Addr) (v : Half)
  (h : ∀ k, k < 2 → inDmaBlock Config.default (a + BitVec.ofNat 32 k) = true ∧ isCntHByte Config.default (a + BitVec.ofNat 32 k) = false) :
   exec (.fwr16 a v) s = .next (storeReg16 a v s) := by
  obtain ⟨t, ht, hb⟩ := exec_write_plain (i := .fwr16 a v) rfl s (fun k hk => (h k hk).2)
  rw [ht]; congr 1
  rw [writeBytes_block] at hb
  · cases hb; unfold storeReg16; rw [splitLE_two]; rfl
  · intro k hk; refine ⟨(h k hk).1, ?_⟩; rw [ioMask_full (h k hk).2]; exact BitVec.and_allOnes

theorem not_cntH {a : Addr} (h : ∀ ch : Chan, a.toNat ≠ 0x040000BA + 12 * ch.val ∧ a.toNat ≠ 0x040000BB + 12 * ch.val) : isCntHByte Config.default a = false := by
  by_contra hc
  obtain ⟨ch, hch⟩ := (isCntHByte_iff a).mp (by simpa using hc)
  have := h ch; omega

theorem sad_block (ch : Chan) : ∀ k, k < 4 → inDmaBlock Config.default (sadAddr Config.default ch + BitVec.ofNat 32 k) = true ∧ isCntHByte Config.default (sadAddr Config.default ch + BitVec.ofNat 32 k) = false := by
  intro k hk
  have hv := toNat_add_small (k := k) (sadAddr_default ch) (by omega)
  exact ⟨(inDmaBlock_default _).mpr (by omega), not_cntH fun c => by omega⟩

theorem dad_block (ch : Chan) : ∀ k, k < 4 → inDmaBlock Config.default (dadAddr Config.default ch + BitVec.ofNat 32 k) = true ∧ isCntHByte Config.default (dadAddr Config.default ch + BitVec.ofNat 32 k) = false := by
  intro k hk
  have hv := toNat_add_small (k := k) (dadAddr_default ch) (by omega)
  exact ⟨(inDmaBlock_default _).mpr (by omega), not_cntH fun c => by omega⟩

theorem cntL_block (ch : Chan) : ∀ k, k < 2 → inDmaBlock Config.default (cntLAddr Config.default ch + BitVec.ofNat 32 k) = true ∧ isCntHByte Config.default (cntLAddr Config.default ch + BitVec.ofNat 32 k) = false := by
  intro k hk
  have hv := toNat_add_small (k := k) (cntLAddr_default ch) (by omega)
  exact ⟨(inDmaBlock_default _).mpr (by omega), not_cntH fun c => by omega⟩

theorem ioMask_low {a : Addr} {ch : Chan} (h : a.toNat = 0x040000BA + 12 * ch.val) : ioMask Config.default a = 0xE0 := by
  have hb : inDmaBlock Config.default a = true := (inDmaBlock_default _).mpr (by have := ch.isLt; omega)
  unfold ioMask
  rw [dmaOffset_default a hb, hb, default_dmaStride, h]
  have : (0x040000BA + 12 * ch.val - 0x040000B0) % 12 = 10 := by omega
  simp [this]

theorem ioMask_high {a : Addr} {ch : Chan} (h : a.toNat = 0x040000BB + 12 * ch.val) : ioMask Config.default a = 0xFF := by
  have hb : inDmaBlock Config.default a = true := (inDmaBlock_default _).mpr (by have := ch.isLt; omega)
  unfold ioMask
  rw [dmaOffset_default a hb, hb, default_dmaStride, h]
  have : (0x040000BB + 12 * ch.val - 0x040000B0) % 12 = 11 := by omega
  simp [this]

/-- A half-word written to a `CNT_H`. -/
theorem exec_cntH (s : State) (ch : Chan) (v : Half) :
   exec (.fwr16 (cntHAddr Config.default ch) v) s = toOutcome (writeControl Config.default ch (v &&& 0xFFE0) s) := by
  rw [exec_write (a := cntHAddr Config.default ch) (bs := halfBytes v) rfl]
  unfold writeTransaction writeControl
  have hv := cntHAddr_default ch
  have hv1 := cntHAddr_succ_default ch
  have b0 : inDmaBlock Config.default (cntHAddr Config.default ch) = true := (inDmaBlock_default _).mpr (by have := ch.isLt; omega)
  have b1 : inDmaBlock Config.default (cntHAddr Config.default ch + 1) = true := (inDmaBlock_default _).mpr (by have := ch.isLt; omega)
  have m0 : ioMask Config.default (cntHAddr Config.default ch) = 0xE0 := ioMask_low hv
  have m1 : ioMask Config.default (cntHAddr Config.default ch + 1) = 0xFF := ioMask_high hv1
  have hw : writeBytes Config.default .cpu (cntHAddr Config.default ch) (halfBytes v) (writeStart (.fwr16 (cntHAddr Config.default ch) v) s)
     = .ok (storeReg16 (cntHAddr Config.default ch) (v &&& 0xFFE0) s) := by
    simp only [halfBytes, writeBytes, writeByte, writeStart_cart, dmaBlock_io b0, dmaBlock_io b1, b0, b1, if_true, writeDmaRegByte, m0, m1, State.setMem_cart]
    unfold storeReg16
    rw [splitLE_two]
    have e0 : v.extractLsb' 0 8 &&& 0xE0 = (v &&& 0xFFE0).extractLsb' 0 8 := by
      apply BitVec.eq_of_getLsbD_eq; intro i hi
      simp only [BitVec.getLsbD_and, BitVec.getLsbD_extractLsb']; interval_cases i <;> simp
    have e1 : v.extractLsb' 8 8 &&& 0xFF = (v &&& 0xFFE0).extractLsb' 8 8 := by
      apply BitVec.eq_of_getLsbD_eq; intro i hi
      simp only [BitVec.getLsbD_and, BitVec.getLsbD_extractLsb']; interval_cases i <;> simp
    rw [e0, e1]; rfl
  rw [hw]
  have ht : touchedCntH Config.default (writeStart (.fwr16 (cntHAddr Config.default ch) v) s).cart.gpioType (cntHAddr Config.default ch) (halfBytes v).length = [ch, ch] := by
    simp only [halfBytes, List.length_cons, List.length_nil, touchedCntH, dmaBlock_io b0, dmaBlock_io b1, if_true, cntHAt,
       (dmaRegAt_cntH (cntHAddr Config.default ch) ch).mpr (.inl hv), (dmaRegAt_cntH (cntHAddr Config.default ch + 1) ch).mpr (.inr hv1)]
    rfl
  have hs : ((writeStart (.fwr16 (cntHAddr Config.default ch) v) s).cart.gpioType) = s.cart.gpioType := rfl
  have hcart : (storeReg16 (cntHAddr Config.default ch) (v &&& 0xFFE0) s).cart = s.cart := rfl
  rw [ht]
  have : ∀ (l : List Chan) (s : State), commitList Config.default [ch, ch] l s = commitList Config.default [ch] l s := by
    intro l; induction l with
    | nil => intro s; rfl
    | cons k l ih => intro s; simp only [commitList, ih, List.contains_cons, Bool.or_self_left]
  unfold regCommit
  simp only [this]; rfl

theorem read_storeBytes (bs : List Byte) : ∀ (m : Memory) (a b : Addr), bs.length ≤ 4 →
   (storeBytes m a bs).read b.toNat = if (b - a).toNat < bs.length then bs.getD (b - a).toNat 0 else m.read b.toNat := by
  induction bs with
  | nil => intro m a b _; simp [storeBytes]
  | cons x bs ih =>
    intro m a b hl
    simp only [List.length_cons] at hl ⊢
    simp only [storeBytes]
    rw [ih _ _ _ (by omega), Memory.read_write]
    by_cases hb : b = a
    · subst hb
      have h1 : (b - (b + 1)).toNat = 2^32 - 1 := by
        have : (BitVec.allOnes 32).toNat = 2^32 - 1 := by decide
        bv_omega
      have h2 : (b - b).toNat = 0 := by simp
      rw [h1, h2, if_neg (by omega)]
      simp
    · have hne : b.toNat ≠ a.toNat := fun h => hb (addr_eq_of_toNat h)
      have hs : (b - a).toNat = (b - (a + 1)).toNat + 1 := by bv_omega
      rw [if_neg hne, hs]
      simp

theorem storeReg_join32 (s : State) (a : Addr) (v : Word) : (storeReg32 a v s).io32 a = v := by
  have h := fun b => read_storeBytes (wordBytes v) s.mem a b (by simp [wordBytes])
  have e1 : (a + 1 - a).toNat = 1 := by bv_omega
  have e2 : (a + 2 - a).toNat = 2 := by bv_omega
  have e3 : (a + 3 - a).toNat = 3 := by bv_omega
  unfold State.io32 State.asByte storeReg32
  have e0 : (a - a).toNat = 0 := by simp
  simp only [State.setMem_mem, splitLE_four, h, e0, e1, e2, e3]
  exact wordBytes_join v

theorem storeReg_join16 (s : State) (a : Addr) (v : Half) : (storeReg16 a v s).io16 a = v := by
  have h := fun b => read_storeBytes (halfBytes v) s.mem a b (by simp [halfBytes])
  have e1 : (a + 1 - a).toNat = 1 := by bv_omega
  unfold State.io16 State.asByte storeReg16
  have e0 : (a - a).toNat = 0 := by simp
  simp only [State.setMem_mem, splitLE_two, h, e0, e1]
  exact halfBytes_join v

theorem storeReg32_frame (s : State) (a b : Addr) (v : Word) (h : 4 ≤ (b - a).toNat) : (storeReg32 a v s).asByte b = s.asByte b := by
  unfold State.asByte storeReg32
  simp only [State.setMem_mem]
  rw [read_storeBytes _ _ _ _ (by simp [splitLE]), if_neg (by rw [show (splitLE _ _).length = _ from rfl]; exact Nat.not_lt.mpr h)]

theorem storeReg16_frame (s : State) (a b : Addr) (v : Half) (h : 2 ≤ (b - a).toNat) : (storeReg16 a v s).asByte b = s.asByte b := by
  unfold State.asByte storeReg16
  simp only [State.setMem_mem]
  rw [read_storeBytes _ _ _ _ (by simp [splitLE]), if_neg (by rw [show (splitLE _ _).length = _ from rfl]; exact Nat.not_lt.mpr h)]

end Sys2Proof.Machine
end

