-- ==== Sys2Proof/Laws/Service.lean ====
section
/-! SUPPORT. One channel at a time: passes in which one channel can be eligible, the commit of one control register, forced runs (41_dma.md R190, R203, 40_bus_access.md R152); the registers of a channel as views of stored bytes. -/

namespace Sys2Proof.Machine

/-- A channel serviced leaves the other channels alone. -/
theorem serviceChan_other {c : Config} {ev : DmaEvent} {ch k : Chan} {s s' : State} (hk : k ≠ ch) (h : serviceChan c ev ch s = .ok s') : s'.chan k = s.chan k :=
  (serviceChan_prims (O := fun _ => True) (A := fun j => j = ch) (fun _ => trivial) rfl h).other_chan hk

/-- A pass in which only one channel can be eligible is that channel's service. -/
theorem serviceList_only {c : Config} {ev : DmaEvent} {ch : Chan} {l : List Chan} (hl : l.Nodup) {s : State} (hch : ch ∈ l)
    (h : ∀ k ∈ l, k ≠ ch → eligible c k (s.chan k) ev = false) : serviceList c ev l s = serviceChan c ev ch s := by
  induction l with
  | nil => cases hch
  | cons k l ih =>
    have hnd := List.nodup_cons.mp hl
    by_cases hk : k = ch
    · subst hk
      simp only [serviceList]
      split
      · rename_i r hr; rw [hr]
      · rename_i s' hs
        rw [hs]
        refine serviceList_none fun j hj => ?_
        have hjk : j ≠ k := fun e => hnd.1 (e ▸ hj)
        rw [serviceChan_other hjk hs]; exact h j (List.mem_cons_of_mem _ hj) hjk
    · simp only [serviceList]
      have : serviceChan c ev k s = .ok s := by
        unfold serviceChan; rw [if_neg]; simp [h k (List.mem_cons_self ..) hk]
      rw [this]
      refine ih hnd.2 ?_ fun j hj hjc => h j (List.mem_cons_of_mem _ hj) hjc
      rcases List.mem_cons.mp hch with e | e
      · exact absurd e.symm hk
      · exact e

theorem dmaService_only {ev : DmaEvent} (ch : Chan) {s : State}
    (h : ∀ k, k ≠ ch → eligible Config.default k (s.chan k) ev = false) :
    dmaService Config.default ev s = serviceChan Config.default ev ch s := by
  refine serviceList_only (channels_nodup _) ?_ fun k _ hk => h k hk
  match ch with | 0 => decide | 1 => decide | 2 => decide | 3 => decide

theorem commitList_one {c : Config} {ch : Chan} {s : State} : commitList c [ch] [0,1,2,3] s = commitCntH c ch s := by
  match ch with
  | 0 | 1 | 2 | 3 => simp [commitList]; split <;> simp_all

theorem regCommit_one {ch : Chan} {s : State} : regCommit Config.default [ch] s =
    match commitCntH Config.default ch s with | .error r => .error r | .ok s' => dmaService Config.default .none s' := by
  unfold regCommit; rw [if_neg (by simp), default_channels, commitList_one] <;> rfl

theorem cntHOf_store (ch : Chan) (w : Half) (s : State) : cntHOf Config.default (storeReg16 (cntHAddr Config.default ch) w s) ch = w := storeReg_join16 _ _ _

theorem io32_congr {s t : State} {a : Addr} (h : ∀ k, k < 4 → t.asByte (a + BitVec.ofNat 32 k) = s.asByte (a + BitVec.ofNat 32 k)) : t.io32 a = s.io32 a := by
  unfold State.io32
  have h0 := h 0 (by omega)
  have h1 : t.asByte (a + 1) = s.asByte (a + 1) := h 1 (by omega)
  have h2 : t.asByte (a + 2) = s.asByte (a + 2) := h 2 (by omega)
  have h3 : t.asByte (a + 3) = s.asByte (a + 3) := h 3 (by omega)
  simp only [BitVec.add_zero] at h0
  rw [h0, h1, h2, h3]

theorem io16_congr {s t : State} {a : Addr} (h : ∀ k, k < 2 → t.asByte (a + BitVec.ofNat 32 k) = s.asByte (a + BitVec.ofNat 32 k)) : t.io16 a = s.io16 a := by
  unfold State.io16
  have h0 := h 0 (by omega)
  have h1 : t.asByte (a + 1) = s.asByte (a + 1) := h 1 (by omega)
  simp only [BitVec.add_zero] at h0
  rw [h0, h1]

theorem far_of_toNat {a b : Addr} {n m k : Nat} (ha : a.toNat = n) (hb : b.toNat = m) (h : m + k ≤ n ∨ n < m) (hk : k ≤ 4) (hm : m < 2^31) : k ≤ (a - b).toNat := by
  rw [BitVec.toNat_sub, ha, hb]; omega

theorem sadOf_store (ch k : Chan) (w : Half) (s : State) : sadOf Config.default (storeReg16 (cntHAddr Config.default ch) w s) k = sadOf Config.default s k := by
  refine io32_congr fun j hj => storeReg16_frame _ _ _ _ ?_
  have := ch.isLt; have := k.isLt
  exact far_of_toNat (toNat_add_small (k := j) (sadAddr_default k) (by omega)) (cntHAddr_default ch) (by omega) (by omega) (by omega)

theorem dadOf_store (ch k : Chan) (w : Half) (s : State) : dadOf Config.default (storeReg16 (cntHAddr Config.default ch) w s) k = dadOf Config.default s k := by
  refine io32_congr fun j hj => storeReg16_frame _ _ _ _ ?_
  have := ch.isLt; have := k.isLt
  exact far_of_toNat (toNat_add_small (k := j) (dadAddr_default k) (by omega)) (cntHAddr_default ch) (by omega) (by omega) (by omega)

theorem cntLOf_store (ch k : Chan) (w : Half) (s : State) : cntLOf Config.default (storeReg16 (cntHAddr Config.default ch) w s) k = cntLOf Config.default s k := by
  refine io16_congr fun j hj => storeReg16_frame _ _ _ _ ?_
  have := ch.isLt; have := k.isLt
  exact far_of_toNat (toNat_add_small (k := j) (cntLAddr_default k) (by omega)) (cntHAddr_default ch) (by omega) (by omega) (by omega)

theorem setChan_self (ch : Chan) (s : State) : s.setChan ch (s.chan ch) = s := by
  unfold State.setChan State.chan Channels.set Channels.get
  match ch with | 0 => rfl | 1 => rfl | 2 => rfl | 3 => rfl

/-- A forced run of an armed channel without a start delay is its run. -/
theorem forceDma_armed {c : Config} {ch : Chan} {s : State} (h1 : (s.chan ch).enabled = true) (h2 : (s.chan ch).running = false)
    (h3 : (s.chan ch).delay = 0) : forceDma c ch s = dmaRun c ch s := by
  unfold forceDma
  simp only [h1, h2, and_self, if_true]
  have : { s.chan ch with delay := 0 } = s.chan ch := by
    have h : s.chan ch = { s.chan ch with delay := (s.chan ch).delay } := rfl
    rw [h3] at h; exact h.symm
  have e : { enabled := true, running := false, srcOrig := (s.chan ch).srcOrig, src := (s.chan ch).src, dst := (s.chan ch).dst, cursor := (s.chan ch).cursor, count := (s.chan ch).count, width := (s.chan ch).width, ctrl := (s.chan ch).ctrl, delay := 0 } = s.chan ch := by
    rw [← this, ← h1, ← h2]
  rw [e, setChan_self]

theorem ctl_toHalf (e : Bool) (f : CtlFields) : ctlEnable (f.toHalf e) = e ∧ ctlSac (f.toHalf e) = f.sac ∧ ctlDac (f.toHalf e) = f.dac ∧ ctlWidth (f.toHalf e) = f.width
   ∧ ctlTiming (f.toHalf e) = f.timing ∧ ctlIrq (f.toHalf e) = f.irq ∧ ctlRepeat (f.toHalf e) = f.rep := by
  have h : CtlFields.ofHalf (f.toHalf e) = f := CtlFields.ofHalf_toHalf e f
  exact ⟨CtlFields.toHalf_enable e f, congrArg CtlFields.sac h, congrArg CtlFields.dac h, congrArg CtlFields.width h,
    congrArg CtlFields.timing h, congrArg CtlFields.irq h, congrArg CtlFields.rep h⟩

end Sys2Proof.Machine
end

