-- ==== Sys2Proof/Laws/Runs.lean ====
section
/-! SUPPORT. When a run, a pass, a tick and a forced run complete, and when they are refused (41_dma.md R192, R202, R203, 70_reset_and_hazards.md R404). -/

namespace Sys2Proof.Machine

theorem tickAll_chan (s : State) (k : Chan) : (tickAll s).chan k = tickChan (s.chan k) := by
  match k with | 0 => rfl | 1 => rfl | 2 => rfl | 3 => rfl

theorem writeBytes_block_iff {ch : Chan} (bs : List Byte) : ∀ (a : Addr) (s : State),
   (∃ t, writeBytes Config.default (.dma ch) a bs s = .ok t) ↔ ∀ k, k < bs.length → inDmaBlock Config.default (a + BitVec.ofNat 32 k) = false := by
  induction bs with
  | nil => intro a s; simp [writeBytes]
  | cons b bs ih =>
    intro a s
    constructor
    · rintro ⟨t, ht⟩ k hk
      obtain ⟨u, h1, h2⟩ := writeBytes_cons ht
      cases k with
      | zero =>
        simp only [BitVec.ofNat_eq_ofNat, BitVec.add_zero]
        by_contra hc
        have hc : inDmaBlock Config.default a = true := by simpa using hc
        unfold writeByte at h1
        simp [dmaBlock_io hc, hc] at h1
      | succ k => rw [← add_one_ofNat]; exact (ih _ _).mp ⟨t, h2⟩ k (by simpa using hk)
    · intro h
      have h0 := h 0 (by simp)
      simp only [BitVec.ofNat_eq_ofNat, BitVec.add_zero] at h0
      obtain ⟨u, hu⟩ := writeByte_ok (c := Config.default) (org := .dma ch) (s := s) (a := a) b (by simp [h0])
      obtain ⟨t, ht⟩ := (ih (a+1) u).mpr fun k hk => by rw [add_one_ofNat]; exact h (k+1) (by simpa using hk)
      exact ⟨t, by simp only [writeBytes, hu, ht]⟩

theorem splitLE_length (n : Nat) (v : Word) : (splitLE n v).length = n := by
  induction n generalizing v with
  | zero => rfl
  | succ n ih => simp [splitLE, ih]

theorem eep_noBlock {s : State} {a : Addr} (h : inEepWindow Config.default s a = true) (j : Nat) (hj : j < 4) :
   inDmaBlock Config.default (a + BitVec.ofNat 32 j) = false := by
  simp only [inEepWindow, Bool.and_eq_true, Range.has_iff, default_eep] at h
  have h2 := h.2
  simp at h2
  by_contra hc
  have := (inDmaBlock_default _).mp (by simpa using hc)
  rw [BitVec.toNat_add, BitVec.toNat_ofNat] at this
  omega

theorem unitBytes_le (w : UnitWidth) : unitBytes w ≤ 4 := by cases w <;> decide

theorem dmaUnit_ok_iff {ch : Chan} {e : Bool} {s : State} : (∃ r, dmaUnit Config.default ch e s = .ok r) ↔
   ∀ j, j < unitBytes (s.chan ch).width → inDmaBlock Config.default ((s.chan ch).dst + BitVec.ofNat 32 j) = false := by
  unfold dmaUnit unitWrite
  simp only
  by_cases hw : inEepWindow Config.default (afterUnitRead Config.default s (s.chan ch).src) (s.chan ch).dst = true
  · simp only [hw, if_true]
    constructor
    · intro _ j hj; exact eep_noBlock hw j (by have := unitBytes_le (s.chan ch).width; omega)
    · intro _; exact ⟨_, rfl⟩
  · rw [if_neg hw]
    have hb := writeBytes_block_iff (ch := ch) (splitLE (unitBytes (s.chan ch).width) (unitRead Config.default s (s.chan ch).src (s.chan ch).width)) (s.chan ch).dst (afterUnitRead Config.default s (s.chan ch).src)
    rw [splitLE_length] at hb
    rw [← hb]
    constructor
    · rintro ⟨r, hr⟩
      split at hr
      · cases hr
      · rename_i t ht; exact ⟨t, ht⟩
    · rintro ⟨t, ht⟩
      rw [ht]; exact ⟨_, rfl⟩

/-- The channel after one unit. -/
theorem dmaUnit_chan {c : Config} {ch : Chan} {e e' : Bool} {s s' : State} (h : dmaUnit c ch e s = .ok (s', e')) :
   s'.chan ch = (s.chan ch).advance (s.chan ch).src (s.chan ch).dst := by
  obtain ⟨s2, hw, rfl, -⟩ := dmaUnit_ok h
  have h1 := (afterUnitRead_prims (c := c) (O := fun _ => True) (A := fun _ => False) (s := s) (s.chan ch).src).other_chan (k := ch) (by simp)
  have h2 := (unitWrite_prims (O := fun _ => True) (A := fun _ => False) (fun _ => trivial) hw).other_chan (k := ch) (by simp)
  rw [State.chan_setChan_same, h2, h1]

theorem dstAfter_advance (x : DmaChan) (k : Nat) : dstAfter (x.advance x.src x.dst) k = dstAfter x (k + 1) := by
  induction k with
  | zero => rfl
  | succ k ih => rw [dstAfter, ih]; rfl

theorem dmaUnits_ok_iff {ch : Chan} (n : Nat) : ∀ {e : Bool} {s : State}, (∃ r, dmaUnits Config.default ch n e s = .ok r) ↔
   ∀ k, k < n → ∀ j, j < unitBytes (s.chan ch).width → inDmaBlock Config.default (dstAfter (s.chan ch) k + BitVec.ofNat 32 j) = false := by
  induction n with
  | zero => intro e s; simp [dmaUnits]
  | succ n ih =>
    intro e s
    constructor
    · rintro ⟨⟨t, e'⟩, ht⟩ k hk
      obtain ⟨s1, e1, h1, h2⟩ := dmaUnits_succ ht
      cases k with
      | zero => exact dmaUnit_ok_iff.mp ⟨_, h1⟩
      | succ k =>
        have := ih.mp ⟨_, h2⟩ k (by omega)
        rw [dmaUnit_chan h1, dstAfter_advance] at this
        exact this
    · intro h
      obtain ⟨⟨s1, e1⟩, h1⟩ := (dmaUnit_ok_iff (e := e)).mpr (h 0 (by omega))
      have : ∃ r, dmaUnits Config.default ch n e1 s1 = .ok r := by
        apply ih.mpr
        intro k hk
        rw [dmaUnit_chan h1, dstAfter_advance]
        exact h (k+1) (by omega)
      obtain ⟨r, hr⟩ := this
      exact ⟨r, by simp only [dmaUnits, h1, hr]⟩

theorem dmaRun_ok_iff {ch : Chan} {s : State} : (∃ t, dmaRun Config.default ch s = .ok t) ↔ safeRun Config.default (s.chan ch) := by
  have h := dmaUnits_ok_iff (ch := ch) (unitsLeft (s.chan ch)) (e := false) (s := s.setChan ch { s.chan ch with running := true })
  rw [State.chan_setChan_same] at h
  have hd : ∀ k, dstAfter { s.chan ch with running := true } k = dstAfter (s.chan ch) k := by
    intro k; induction k with
    | zero => rfl
    | succ k ih => simp only [dstAfter, ih]
  simp only [hd] at h
  unfold safeRun
  rw [← h]
  unfold dmaRun
  simp only
  constructor
  · rintro ⟨t, ht⟩
    split at ht
    · cases ht
    · exact ⟨_, by assumption⟩
  · rintro ⟨⟨t, e⟩, ht⟩
    rw [ht]; exact ⟨_, rfl⟩

theorem dmaRun_unsafe {ch : Chan} {s : State} (h : ¬ safeRun Config.default (s.chan ch)) : dmaRun Config.default ch s = .error .dmaWritesDmaRegisters := by
  cases hr : dmaRun Config.default ch s with
  | ok t => exact absurd (dmaRun_ok_iff.mp ⟨t, hr⟩) h
  | error r => rw [dmaRun_refused hr]

theorem serviceList_safe {ev : DmaEvent} {l : List Chan} (hl : l.Nodup) : ∀ {s : State},
    (∀ k ∈ l, eligible Config.default k (s.chan k) ev = true → safeRun Config.default (s.chan k)) → ∃ t, serviceList Config.default ev l s = .ok t := by
  induction l with
  | nil => intro s _; exact ⟨s, rfl⟩
  | cons k l ih =>
    intro s h
    have hnd := List.nodup_cons.mp hl
    have : ∃ u, serviceChan Config.default ev k s = .ok u := by
      unfold serviceChan
      split
      · rename_i he; exact dmaRun_ok_iff.mpr (h k (List.mem_cons_self ..) he)
      · exact ⟨s, rfl⟩
    obtain ⟨u, hu⟩ := this
    obtain ⟨t, ht⟩ := ih hnd.2 (s := u) fun j hj => by
      have hjk : j ≠ k := fun e => hnd.1 (e ▸ hj)
      rw [serviceChan_other hjk hu]; exact h j (List.mem_cons_of_mem _ hj)
    exact ⟨t, by simp only [serviceList, hu, ht]⟩

theorem serviceList_unsafe {ev : DmaEvent} {l : List Chan} (hl : l.Nodup) : ∀ {s : State},
    (∃ k ∈ l, eligible Config.default k (s.chan k) ev = true ∧ ¬ safeRun Config.default (s.chan k)) → serviceList Config.default ev l s = .error .dmaWritesDmaRegisters := by
  induction l with
  | nil => rintro s ⟨k, hk, _⟩; cases hk
  | cons k l ih =>
    rintro s ⟨j, hj, hje, hju⟩
    have hnd := List.nodup_cons.mp hl
    simp only [serviceList]
    split
    · rename_i r hr
      unfold serviceChan at hr
      split at hr
      · rw [dmaRun_refused hr]
      · cases hr
    · rename_i u hu
      have hjk : j ≠ k := by
        rintro rfl
        unfold serviceChan at hu
        rw [if_pos hje, dmaRun_unsafe hju] at hu; cases hu
      refine ih hnd.2 ⟨j, (List.mem_cons.mp hj).resolve_left hjk, ?_⟩
      rw [serviceChan_other hjk hu]; exact ⟨hje, hju⟩

theorem mem_chans (k : Chan) : k ∈ ([0,1,2,3] : List Chan) := by
  match k with | 0 => decide | 1 => decide | 2 => decide | 3 => decide

theorem dmaService_safe {ev : DmaEvent} {s : State} (h : ∀ k, eligible Config.default k (s.chan k) ev = true → safeRun Config.default (s.chan k)) :
   ∃ t, dmaService Config.default ev s = .ok t := serviceList_safe chanList_nodup fun k _ => h k

theorem dmaService_unsafe {ev : DmaEvent} {s : State} (h : ∃ k, eligible Config.default k (s.chan k) ev = true ∧ ¬ safeRun Config.default (s.chan k)) :
   dmaService Config.default ev s = .error .dmaWritesDmaRegisters := by
  obtain ⟨k, hk⟩ := h
  exact serviceList_unsafe chanList_nodup ⟨k, mem_chans k, hk⟩

theorem safeRun_congr {x y : DmaChan} (h1 : y.dst = x.dst) (h2 : y.ctrl = x.ctrl) (h3 : y.width = x.width) (h4 : y.count = x.count) (h5 : y.cursor = x.cursor) :
    safeRun Config.default y ↔ safeRun Config.default x := by
  have hd : ∀ k, dstAfter y k = dstAfter x k := by
    intro k; induction k with
    | zero => exact h1
    | succ k ih => simp only [dstAfter, ih, h2, h3]
  unfold safeRun unitsLeft
  simp only [hd, h3, h4, h5]

theorem safeRun_tick (x : DmaChan) : safeRun Config.default (tickChan x) ↔ safeRun Config.default x := by
  unfold tickChan; split
  · exact safeRun_congr rfl rfl rfl rfl rfl
  · exact Iff.rfl

end Sys2Proof.Machine
end

