-- ==== Sys2Proof/Laws/Passes.lean ====
section
/-! SUPPORT. The interrupt pulses of a pass, and in which order (41_dma.md R188, R190). -/

namespace Sys2Proof.Machine

theorem eligible_armed {c : Config} {ch : Chan} {x : DmaChan} {ev : DmaEvent} (h : eligible c ch x ev = true) : x.enabled = true ∧ x.running = false ∧ x.delay = 0 := by
  simp only [eligible, Bool.and_eq_true, decide_eq_true_eq, Bool.not_eq_true'] at h
  exact ⟨h.1.1.1, h.1.1.2, h.1.2⟩

theorem writeByte_irqs {c : Config} {org : Origin} {a : Addr} {b : Byte} {s s' : State} (h : writeByte c org a b s = .ok s') :
   s'.out.signals.filterMap irqOf = s.out.signals.filterMap irqOf := by
  rcases writeByte_cases h with ⟨b', l, rfl, hl, -, _⟩ | ⟨-, rfl⟩ | ⟨-, rfl⟩ | ⟨-, rfl⟩
  · have : l.filterMap irqOf = [] := by
      rw [List.filterMap_eq_nil_iff]; intro x hx; obtain ⟨o, rfl⟩ := hl x hx; rfl
    simp [State.emit, this]
  · unfold gpioWriteByte
    split; rfl
    split <;> simp [gpioWriteData, gpioWriteDir, gpioWriteCtl, gpioWriteRsv, State.emit, irqOf]
  · unfold backupWriteByte; split <;> rfl
  · rfl

theorem writeBytes_irqs {c : Config} {org : Origin} {a : Addr} {bs : List Byte} {s s' : State} (h : writeBytes c org a bs s = .ok s') :
   s'.out.signals.filterMap irqOf = s.out.signals.filterMap irqOf :=
  writeBytes_rel (R := fun s t => t.out.signals.filterMap irqOf = s.out.signals.filterMap irqOf) (fun _ => rfl) (fun h h' => h'.trans h) (fun h => writeByte_irqs h) bs a h

theorem afterUnitRead_out (c : Config) (s : State) (a : Addr) : (afterUnitRead c s a).out = s.out := by
  unfold afterUnitRead; split <;> rfl

theorem dmaUnits_irqs {c : Config} {ch : Chan} {n : Nat} : ∀ {e e' : Bool} {s s' : State}, dmaUnits c ch n e s = .ok (s', e') →
   s'.out.signals.filterMap irqOf = s.out.signals.filterMap irqOf ∧ (s'.chan ch).ctrl = (s.chan ch).ctrl := by
  induction n with
  | zero => intro e e' s s' h; cases h; exact ⟨rfl, rfl⟩
  | succ n ih =>
    intro e e' s s' h
    obtain ⟨s1, e1, h1, h2⟩ := dmaUnits_succ h
    obtain ⟨p1, p2⟩ := ih h2
    have hc := dmaUnit_chan h1
    obtain ⟨s2, hw, rfl, -⟩ := dmaUnit_ok h1
    constructor
    · rw [p1]
      show s2.out.signals.filterMap irqOf = _
      rw [← afterUnitRead_out c s (s.chan ch).src]
      unfold unitWrite at hw
      split at hw
      · cases hw; rfl
      · exact writeBytes_irqs hw
    · rw [p2, hc]; rfl

theorem dmaRun_irqs {c : Config} {ch : Chan} {s s' : State} (h : dmaRun c ch s = .ok s') :
   s'.out.signals.filterMap irqOf = s.out.signals.filterMap irqOf ++ (if ctlIrq (s.chan ch).ctrl then [ch] else []) := by
  unfold dmaRun at h
  simp only at h
  split at h
  · cases h
  · rename_i s2 e hu
    cases h
    obtain ⟨p1, p2⟩ := dmaUnits_irqs hu
    rw [State.chan_setChan_same] at p2
    have p1 : s2.out.signals.filterMap irqOf = s.out.signals.filterMap irqOf := p1
    have key : ∀ u : State, u.out = s2.out → (u.chan ch).ctrl = (s.chan ch).ctrl → (complete c ch u).out.signals.filterMap irqOf = s.out.signals.filterMap irqOf ++ (if ctlIrq (s.chan ch).ctrl then [ch] else []) := by
      intro u hu hc
      unfold complete
      rw [hc]
      have : ∀ v : State, (if recurs (u.chan ch) then rearm c ch v else goIdle c ch v).out = v.out := by intro v; split <;> rfl
      simp only [this]
      split
      · simp [State.emit, hu, p1, irqOf]
      · simp [hu, p1]
    unfold endRun
    simp only
    split
    · apply key; rfl; simp [p2]
    · apply key; rfl; simp [p2]

theorem serviceList_irqs {c : Config} {ev : DmaEvent} {l : List Chan} (hl : l.Nodup) : ∀ {s t : State}, serviceList c ev l s = .ok t →
   t.out.signals.filterMap irqOf = s.out.signals.filterMap irqOf ++ l.filter fun k => eligible c k (s.chan k) ev && ctlIrq (s.chan k).ctrl := by
  induction l with
  | nil => intro s t h; cases h; simp
  | cons k l ih =>
    intro s t h
    have hnd := List.nodup_cons.mp hl
    obtain ⟨s1, h1, h2⟩ := serviceList_cons h
    have hf : (l.filter fun k => eligible c k (s.chan k) ev && ctlIrq (s.chan k).ctrl) = l.filter fun k => eligible c k (s1.chan k) ev && ctlIrq (s1.chan k).ctrl := by
      apply List.filter_congr
      intro j hj
      have hjk : j ≠ k := fun e => hnd.1 (e ▸ hj)
      rw [serviceChan_other hjk h1]
    rw [ih hnd.2 h2, ← hf]
    unfold serviceChan at h1
    split at h1
    · rename_i he
      rw [dmaRun_irqs h1, List.filter_cons, he]
      simp only [Bool.true_and, List.append_assoc]
      split <;> simp
    · rename_i he
      cases h1
      rw [List.filter_cons_of_neg (by simp [he])]

end Sys2Proof.Machine
end

