-- ==== Sys2Proof/Laws/DmaFrames.lean ====
section
/-! SUPPORT. What a DMA run leaves of the register block, of BIOS and of ROM; completion of a run with no unit left (41_dma.md R192 to R197). -/

namespace Sys2Proof.Machine

/-- Only RAM and I/O bytes are written by the bus. -/
theorem writeByte_region {org : Origin} {a b : Addr} {v : Byte} {s t : State} (h : writeByte Config.default org a v s = .ok t)
   (hb : regionOf Config.default b = .bios ∨ regionOf Config.default b = .rom) : t.asByte b = s.asByte b := by
  by_cases hab : b = a
  · subst hab
    rcases writeByte_cases h with ⟨b', l, rfl, _, htag, _⟩ | ⟨htag, rfl⟩ | ⟨htag, rfl⟩ | ⟨htag, rfl⟩
    · exfalso
      have : decodeTag Config.default s.cart.gpioType b ≠ .gpio := by rcases htag with ht | ht | ht | ht | ht | ht <;> simp [ht]
      rw [decodeTag_of_region this] at htag
      rcases hb with hb | hb <;> simp [hb] at htag
    · exact asByte_congr (gpioWriteByte_frame ..).2.2.1 _
    · exact asByte_congr (backupWriteByte_frame ..).2.2.1 _
    · rfl
  · exact (writeByte_frame h).bytes b hab

theorem writeByte_dmaBlock {org : Origin} {a b : Addr} {v : Byte} {s t : State} (ho : org ≠ .cpu) (h : writeByte Config.default org a v s = .ok t)
   (hb : inDmaBlock Config.default b = true) : t.asByte b = s.asByte b := by
  refine (writeByte_frame h).bytes b ?_
  rintro rfl
  unfold writeByte at h
  simp only [dmaBlock_io hb, hb, if_true] at h
  cases org
  · exact absurd rfl ho
  · cases h

theorem asByte_clear (s : State) (ch : Chan) (b : Addr) :
   (s.setMem (s.mem.write (cntHAddr Config.default ch + 1).toNat (s.mem.read (cntHAddr Config.default ch + 1).toNat &&& 0x7F))).asByte b
    = if b = cntHAddr Config.default ch + 1 then s.asByte b &&& 0x7F else s.asByte b := by
  rw [asByte_write]; split
  · rename_i h; rw [h]; rfl
  · rfl

/-- What a DMA run can do to a byte of the DMA register block. -/
theorem Prim.block {O : Origin → Prop} {A : Chan → Prop} (hO : ∀ o, O o → o ≠ .cpu) {s t : State} (h : Prim Config.default O A s t) {b : Addr} (hb : inDmaBlock Config.default b = true) :
    t.asByte b = s.asByte b ∨ (∃ ch, A ch ∧ b = cntHAddr Config.default ch + 1 ∧ t.asByte b = s.asByte b &&& 0x7F) := by
  cases h with
  | byte ho h => exact .inl (writeByte_dmaBlock (hO _ ho) h hb)
  | @clear ch _ hA =>
    rw [asByte_clear]
    split
    · rename_i h; exact .inr ⟨ch, hA, h, rfl⟩
    · exact .inl rfl
  | _ => exact .inl rfl

theorem Prims.block {O : Origin → Prop} {A : Chan → Prop} (hO : ∀ o, O o → o ≠ .cpu) {s t : State} (h : Prims Config.default O A s t) {b : Addr} (hb : inDmaBlock Config.default b = true) :
    t.asByte b = s.asByte b ∨ (∃ ch, A ch ∧ b = cntHAddr Config.default ch + 1 ∧ t.asByte b = s.asByte b &&& 0x7F) := by
  induction h with
  | refl => exact .inl rfl
  | step hp _ ih =>
    rcases hp.block hO hb with h1 | ⟨ch, h1, h2, h3⟩ <;> rcases ih with h4 | ⟨ch', h4, h5, h6⟩
    · exact .inl (h4.trans h1)
    · exact .inr ⟨ch', h4, h5, by rw [h6, h1]⟩
    · exact .inr ⟨ch, h1, h2, by rw [h4, h3]⟩
    · exact .inr ⟨ch, h1, h2, by rw [h6, h3, BitVec.and_assoc]; rfl⟩

theorem Prims.romBytes {O : Origin → Prop} {A : Chan → Prop} {s t : State} (h : Prims Config.default O A s t) {b : Addr}
   (hb : regionOf Config.default b = .bios ∨ regionOf Config.default b = .rom) : t.asByte b = s.asByte b := by
  refine h.rel (R := fun s t => t.asByte b = s.asByte b) (fun _ => rfl) (fun h h' => h'.trans h) fun hp => ?_
  cases hp with
  | byte ho h => exact writeByte_region h hb
  | @clear ch _ hA =>
    rw [asByte_clear, if_neg]
    rintro rfl
    have hv := cntHAddr_succ_default ch
    have := ch.isLt
    rw [regionOf_default] at hb
    split_ifs at hb <;> first | omega | simp at hb
  | _ => rfl

theorem cntH_block (ch : Chan) : inDmaBlock Config.default (cntHAddr Config.default ch) = true ∧ inDmaBlock Config.default (cntHAddr Config.default ch + 1) = true := by
  have hv := cntHAddr_default ch
  have hv1 := cntHAddr_succ_default ch
  have := ch.isLt
  exact ⟨(inDmaBlock_default _).mpr (by omega), (inDmaBlock_default _).mpr (by omega)⟩

theorem cntHAddr_succ_inj {k ch : Chan} (h : cntHAddr Config.default k + 1 = cntHAddr Config.default ch + 1) : k = ch := by
  have := congrArg BitVec.toNat h
  rw [cntHAddr_succ_default, cntHAddr_succ_default] at this
  exact Fin.ext (by omega)

theorem cntHAddr_low {k ch : Chan} : cntHAddr Config.default k ≠ cntHAddr Config.default ch + 1 := by
  intro h
  have := congrArg BitVec.toNat h
  rw [cntHAddr_succ_default, cntHAddr_default] at this
  omega

/-- What a DMA run leaves of the DMA registers. -/
theorem Prims.registers {O : Origin → Prop} {A : Chan → Prop} (hO : ∀ o, O o → o ≠ .cpu) {s t : State} (h : Prims Config.default O A s t) (k : Chan) :
   sadOf Config.default t k = sadOf Config.default s k ∧ dadOf Config.default t k = dadOf Config.default s k ∧ cntLOf Config.default t k = cntLOf Config.default s k
   ∧ cntHOf Config.default t k &&& 0x7FFF = cntHOf Config.default s k &&& 0x7FFF
   ∧ (¬ A k → cntHOf Config.default t k = cntHOf Config.default s k) := by
  have same : ∀ b : Addr, inDmaBlock Config.default b = true → isCntHByte Config.default b = false → t.asByte b = s.asByte b := by
    intro b hb hn
    rcases h.block hO hb with h1 | ⟨ch, _, rfl, _⟩
    · exact h1
    · have := (isCntHByte_iff (cntHAddr Config.default ch + 1)).mpr ⟨ch, .inr (cntHAddr_succ_default ch)⟩
      rw [hn] at this; cases this
  have low : t.asByte (cntHAddr Config.default k) = s.asByte (cntHAddr Config.default k) := by
    rcases h.block hO (cntH_block k).1 with h1 | ⟨ch, _, h2, _⟩
    · exact h1
    · exact absurd h2 cntHAddr_low
  refine ⟨io32_congr fun j hj => same _ (sad_block k j hj).1 (sad_block k j hj).2, io32_congr fun j hj => same _ (dad_block k j hj).1 (dad_block k j hj).2,
    io16_congr fun j hj => same _ (cntL_block k j hj).1 (cntL_block k j hj).2, ?_, ?_⟩
  · unfold cntHOf State.io16
    rw [low]
    rcases h.block hO (cntH_block k).2 with h1 | ⟨ch, _, _, h3⟩
    · rw [h1]
    · rw [h3]
      apply BitVec.eq_of_getLsbD_eq; intro i hi
      simp only [BitVec.getLsbD_and, BitVec.getLsbD_append]
      interval_cases i <;> simp
  · intro hA
    unfold cntHOf State.io16
    rw [low]
    rcases h.block hO (cntH_block k).2 with h1 | ⟨ch, h1, h2, _⟩
    · rw [h1]
    · exact absurd (cntHAddr_succ_inj h2 ▸ h1) hA

/-- A run with no unit left. -/
theorem dmaRun_zero {c : Config} {ch : Chan} {s : State} (h : unitsLeft (s.chan ch) = 0) (hr : (s.chan ch).running = false) : dmaRun c ch s = .ok (complete c ch s) := by
  unfold dmaRun
  simp only [h, dmaUnits]
  unfold endRun
  have : (s.setChan ch { s.chan ch with running := true }).setChan ch { (s.setChan ch { s.chan ch with running := true }).chan ch with running := false } = s := by
    rw [State.chan_setChan_same]
    have e : ({ enabled := (s.chan ch).enabled, running := false, srcOrig := (s.chan ch).srcOrig, src := (s.chan ch).src, dst := (s.chan ch).dst, cursor := (s.chan ch).cursor, count := (s.chan ch).count, width := (s.chan ch).width, ctrl := (s.chan ch).ctrl, delay := (s.chan ch).delay } : DmaChan) = s.chan ch := by rw [← hr]
    show (s.setChan ch _).setChan ch _ = s
    rw [e]
    unfold State.setChan State.chan Channels.set Channels.get
    match ch with | 0 => rfl | 1 => rfl | 2 => rfl | 3 => rfl
  simp only [Bool.false_eq_true, if_false]
  rw [this]

end Sys2Proof.Machine
end

