-- ==== Sys2Proof/Laws/Copy.lean ====
section
/-! SUPPORT. Runs between memory and RAM: the units of a run copy bytes; what the end of a run leaves (41_dma.md R192 to R197, 20_memory.md R63). -/

namespace Sys2Proof.Machine

theorem splitLE_joinLE_two (b0 b1 : Byte) : splitLE 2 (joinLE [b0, b1]) = [b0, b1] := by
  simp only [splitLE, joinLE, List.cons.injEq, and_true]
  constructor <;> apply BitVec.eq_of_getLsbD_eq <;> intro i hi <;>
    simp only [BitVec.getLsbD_setWidth, BitVec.getLsbD_or, BitVec.getLsbD_shiftLeft, BitVec.getLsbD_ushiftRight] <;> interval_cases i <;> simp

theorem splitLE_joinLE_four (b0 b1 b2 b3 : Byte) : splitLE 4 (joinLE [b0, b1, b2, b3]) = [b0, b1, b2, b3] := by
  rw [joinLE_four, splitLE_four]
  simp only [wordBytes, List.cons.injEq, and_true]
  refine ⟨?_, ?_, ?_, ?_⟩ <;> apply BitVec.eq_of_getLsbD_eq <;> intro i hi <;>
    simp only [BitVec.getLsbD_extractLsb', BitVec.getLsbD_append] <;> interval_cases i <;> simp

/-- The bytes of a unit read are the bytes it writes (R63). -/
theorem unit_bytes (c : Config) (s : State) (a : Addr) (w : UnitWidth) : splitLE (unitBytes w) (memRead c s a (unitBytes w)) = readBytes c s a (unitBytes w) := by
  cases w
  · exact splitLE_joinLE_two _ _
  · exact splitLE_joinLE_four _ _ _ _

theorem isRamTag_region {t : Tag} (h : isRamTag t = true) : t = .wram ∨ t = .iwram ∨ t = .pal ∨ t = .vram ∨ t = .oam := by
  cases t <;> simp [isRamTag] at h ⊢

theorem writeByte_ram {org : Origin} {a : Addr} {b : Byte} {s : State} (h : isRamTag (decodeTag Config.default s.cart.gpioType a) = true) :
   writeByte Config.default org a b s = .ok (s.setMem (s.mem.write a.toNat b)) := by
  unfold writeByte
  rcases isRamTag_region h with h | h | h | h | h <;> simp only [h]

theorem writeBytes_ram {org : Origin} (bs : List Byte) : ∀ {a : Addr} {s : State}, (∀ k, k < bs.length → isRamTag (decodeTag Config.default s.cart.gpioType (a + BitVec.ofNat 32 k)) = true) →
   writeBytes Config.default org a bs s = .ok (s.setMem (storeBytes s.mem a bs)) := by
  induction bs with
  | nil => intro a s _; rfl
  | cons b bs ih =>
    intro a s h
    have h0 := h 0 (by simp)
    simp only [BitVec.ofNat_eq_ofNat, BitVec.add_zero] at h0
    simp only [writeBytes, writeByte_ram h0]
    rw [ih]; rfl
    intro k hk; rw [add_one_ofNat]; exact h (k+1) (by simpa using hk)

theorem readByte_store {s : State} {a : Addr} (h : isStoreTag (decodeTag Config.default s.cart.gpioType a) = true) : readByte Config.default s a = s.asByte a := by
  unfold readByte
  cases ht : decodeTag Config.default s.cart.gpioType a <;> simp [ht, isStoreTag] at h ⊢

theorem readBytes_length (c : Config) (s : State) (n : Nat) : ∀ a, (readBytes c s a n).length = n := by
  induction n with
  | zero => intro a; rfl
  | succ n ih => intro a; simp [readBytes, ih]

theorem ram_noEep {s : State} {a : Addr} (h : isRamTag (decodeTag Config.default s.cart.gpioType a) = true) : inEepWindow Config.default s a = false := by
  by_contra hc
  have hc : inEepWindow Config.default s a = true := by simpa using hc
  simp only [inEepWindow, Bool.and_eq_true, Range.has_iff, default_eep] at hc
  have h2 := hc.2; simp at h2
  rw [decodeTag_default] at h
  split_ifs at h <;> first | omega | simp [isRamTag] at h

/-- One step, then `k` more (41_dma.md R194). -/
theorem ptrAt_stepPtr (p : Addr) (m : AddrCtl) (w : UnitWidth) (k : Nat) : ptrAt (stepPtr p m w) m w k = ptrAt p m w (k + 1) := by
  have hk : BitVec.ofNat 32 ((k + 1) * unitBytes w) = BitVec.ofNat 32 (unitBytes w) + BitVec.ofNat 32 (k * unitBytes w) := by
    rw [Nat.succ_mul, Nat.add_comm, BitVec.ofNat_add]
  cases m <;> simp only [ptrAt, stepPtr, hk]
  · rw [BitVec.add_assoc]
  · rw [sub_sub]
  · rw [BitVec.add_assoc]

@[simp] theorem ptrAt_zero (p : Addr) (m : AddrCtl) (w : UnitWidth) : ptrAt p m w 0 = p := by
  cases m <;> simp [ptrAt]

theorem srcUnit_advance (x : DmaChan) (k : Nat) : srcUnit (x.advance x.src x.dst) k = srcUnit x (k + 1) := ptrAt_stepPtr ..
theorem dstUnit_advance (x : DmaChan) (k : Nat) : dstUnit (x.advance x.src x.dst) k = dstUnit x (k + 1) := ptrAt_stepPtr ..
@[simp] theorem srcUnit_zero (x : DmaChan) : srcUnit x 0 = x.src := ptrAt_zero ..
@[simp] theorem dstUnit_zero (x : DmaChan) : dstUnit x 0 = x.dst := ptrAt_zero ..

/-- One unit from memory to RAM, whatever the address controls (R193). -/
theorem dmaUnit_move {ch : Chan} {e : Bool} {s : State}
   (hsrc : ∀ k, k < unitBytes (s.chan ch).width → isStoreTag (decodeTag Config.default s.cart.gpioType ((s.chan ch).src + BitVec.ofNat 32 k)) = true
      ∧ inEepWindow Config.default s ((s.chan ch).src + BitVec.ofNat 32 k) = false)
   (hdst : ∀ k, k < unitBytes (s.chan ch).width → isRamTag (decodeTag Config.default s.cart.gpioType ((s.chan ch).dst + BitVec.ofNat 32 k)) = true) :
   ∃ t, dmaUnit Config.default ch e s = .ok (t, e)
     ∧ t = { s with mem := t.mem, dma := t.dma }
     ∧ t.chan ch = (s.chan ch).advance (s.chan ch).src (s.chan ch).dst
     ∧ (∀ k, k ≠ ch → t.chan k = s.chan k)
     ∧ ∀ b : Addr, t.asByte b = if (b - (s.chan ch).dst).toNat < unitBytes (s.chan ch).width then s.asByte ((s.chan ch).src + (b - (s.chan ch).dst)) else s.asByte b := by
  have hU : 0 < unitBytes (s.chan ch).width := by cases (s.chan ch).width <;> decide
  have hU4 := unitBytes_le (s.chan ch).width
  have hs0 := (hsrc 0 hU).2
  have hd0 := ram_noEep (hdst 0 hU)
  simp only [BitVec.ofNat_eq_ofNat, BitVec.add_zero] at hs0 hd0
  have hw : unitWrite Config.default ch (s.chan ch).src (s.chan ch).dst (s.chan ch).width (unitRead Config.default s (s.chan ch).src (s.chan ch).width) s
     = .ok (s.setMem (storeBytes s.mem (s.chan ch).dst (readBytes Config.default s (s.chan ch).src (unitBytes (s.chan ch).width)))) := by
    unfold unitWrite unitRead
    rw [hs0, hd0]
    simp only [Bool.false_eq_true, if_false]
    rw [unit_bytes, writeBytes_ram]
    intro k hk
    rw [readBytes_length] at hk; exact hdst k hk
  have ha : afterUnitRead Config.default s (s.chan ch).src = s := by unfold afterUnitRead; rw [hs0]; rfl
  refine ⟨(s.setMem (storeBytes s.mem (s.chan ch).dst (readBytes Config.default s (s.chan ch).src (unitBytes (s.chan ch).width)))).setChan ch ((s.chan ch).advance (s.chan ch).src (s.chan ch).dst), ?_, rfl, State.chan_setChan_same .., ?_, ?_⟩
  · unfold dmaUnit
    simp only [ha, hw, hd0, Bool.or_false]
    rfl
  · intro k hk; rw [State.chan_setChan_other _ _ hk]; rfl
  · intro b
    show (storeBytes _ _ _).read b.toNat = _
    rw [read_storeBytes _ _ _ _ (by rw [readBytes_length]; exact hU4), readBytes_length]
    split
    · rename_i hb
      rw [readBytes_get _ _ _ _ hb, readByte_store (hsrc _ hb).1]
      congr 2
      apply BitVec.eq_of_toNat_eq; simp
    · rfl

/-- Units from memory to RAM, whatever the address controls: unit `k` copies its bytes, a later unit on the same bytes wins (R192 to R194). -/
theorem dmaUnits_move {ch : Chan} {w : Nat} (n : Nat) : ∀ {e : Bool} {s : State}, w = unitBytes (s.chan ch).width →
   (∀ k j, k < n → j < w → isStoreTag (decodeTag Config.default s.cart.gpioType (srcUnit (s.chan ch) k + BitVec.ofNat 32 j)) = true
      ∧ inEepWindow Config.default s (srcUnit (s.chan ch) k + BitVec.ofNat 32 j) = false) →
   (∀ k j, k < n → j < w → isRamTag (decodeTag Config.default s.cart.gpioType (dstUnit (s.chan ch) k + BitVec.ofNat 32 j)) = true) →
   (∀ k k' j j', k < n → k' < n → j < w → j' < w → srcUnit (s.chan ch) k + BitVec.ofNat 32 j ≠ dstUnit (s.chan ch) k' + BitVec.ofNat 32 j') →
   ∃ t, dmaUnits Config.default ch n e s = .ok (t, e)
     ∧ t = { s with mem := t.mem, dma := t.dma }
     ∧ (∀ k, k ≠ ch → t.chan k = s.chan k)
     ∧ (∀ k, k < n → (∀ k' j j', k < k' → k' < n → j < w → j' < w → dstUnit (s.chan ch) k + BitVec.ofNat 32 j ≠ dstUnit (s.chan ch) k' + BitVec.ofNat 32 j') →
          ∀ j, j < w → t.asByte (dstUnit (s.chan ch) k + BitVec.ofNat 32 j) = s.asByte (srcUnit (s.chan ch) k + BitVec.ofNat 32 j))
     ∧ (∀ b : Addr, (∀ k j, k < n → j < w → b ≠ dstUnit (s.chan ch) k + BitVec.ofNat 32 j) → t.asByte b = s.asByte b) := by
  induction n with
  | zero => intro e s _ _ _ _; exact ⟨s, rfl, rfl, fun _ _ => rfl, fun k hk => by omega, fun _ _ => rfl⟩
  | succ n ih =>
    intro e s hw hsrc hdst hdis
    have hw4 : w ≤ 4 := hw ▸ unitBytes_le _
    obtain ⟨u, h1, hu, hch, hoth, hby⟩ := dmaUnit_move (ch := ch) (e := e) (s := s) (fun j hj => by simpa using hsrc 0 j (by omega) (hw ▸ hj)) (fun j hj => by simpa using hdst 0 j (by omega) (hw ▸ hj))
    rw [← hw] at hby
    have hcart : u.cart = s.cart := by rw [hu]
    have hwin : ∀ a, inEepWindow Config.default u a = inEepWindow Config.default s a := by
      intro a; unfold inEepWindow; rw [hcart]
    obtain ⟨t, g1, gt, goth, gcp, gfr⟩ := ih (e := e) (s := u) (by rw [hch]; exact hw)
      (fun k j hk hj => by rw [hch, srcUnit_advance, hcart, hwin]; exact hsrc (k+1) j (by omega) hj)
      (fun k j hk hj => by rw [hch, dstUnit_advance, hcart]; exact hdst (k+1) j (by omega) hj)
      (fun k k' j j' hk hk' hj hj' => by rw [hch, srcUnit_advance, dstUnit_advance]; exact hdis (k+1) (k'+1) j j' (by omega) (by omega) hj hj')
    simp only [hch, srcUnit_advance, dstUnit_advance] at gcp gfr
    have hfirst : ∀ b : Addr, (∀ j, j < w → b ≠ (s.chan ch).dst + BitVec.ofNat 32 j) → u.asByte b = s.asByte b := by
      intro b hb
      rw [hby, if_neg]
      intro hlt
      refine hb _ hlt ?_
      rw [BitVec.ofNat_toNat, BitVec.setWidth_eq, BitVec.add_comm, BitVec.sub_add_cancel]
    refine ⟨t, by simp only [dmaUnits, h1, g1], ?_, ?_, ?_, ?_⟩
    · rw [gt]; rw [hu]
    · intro k hk; rw [goth k hk, hoth k hk]
    · intro k hk hlast j hj
      cases k with
      | zero =>
        rw [gfr _ (fun k' j' hk' hj' => hlast (k'+1) j j' (by omega) (by omega) hj hj')]
        simp only [dstUnit_zero, srcUnit_zero]
        rw [hby]
        have e1 : (s.chan ch).dst + BitVec.ofNat 32 j - (s.chan ch).dst = BitVec.ofNat 32 j := by rw [BitVec.add_comm, BitVec.add_sub_cancel]
        have e2 : (BitVec.ofNat 32 j).toNat = j := by rw [BitVec.toNat_ofNat, Nat.mod_eq_of_lt (by omega)]
        rw [e1, e2, if_pos hj]
      | succ k =>
        rw [gcp k (by omega) (fun k' j j' h1 h2 hj hj' => hlast (k'+1) j j' (by omega) (by omega) hj hj') j hj]
        exact hfirst _ fun j' hj' => by simpa using hdis (k+1) 0 j j' (by omega) (by omega) hj hj'
    · intro b hb
      rw [gfr b fun k j hk hj => hb (k+1) j (by omega) hj]
      exact hfirst b fun j hj => by simpa using hb 0 j (by omega) hj

/-- Units from memory to RAM: the bytes are copied (R192, R193). -/
theorem dmaUnits_copy {ch : Chan} (n : Nat) : ∀ {e : Bool} {s : State}, ctlSac (s.chan ch).ctrl = .inc → ctlDac (s.chan ch).ctrl = .inc →
   n * unitBytes (s.chan ch).width < 2 ^ 32 →
   (∀ k, k < n * unitBytes (s.chan ch).width → isStoreTag (decodeTag Config.default s.cart.gpioType ((s.chan ch).src + BitVec.ofNat 32 k)) = true
      ∧ inEepWindow Config.default s ((s.chan ch).src + BitVec.ofNat 32 k) = false) →
   (∀ k, k < n * unitBytes (s.chan ch).width → isRamTag (decodeTag Config.default s.cart.gpioType ((s.chan ch).dst + BitVec.ofNat 32 k)) = true) →
   (∀ j k, j < n * unitBytes (s.chan ch).width → k < n * unitBytes (s.chan ch).width → (s.chan ch).src + BitVec.ofNat 32 j ≠ (s.chan ch).dst + BitVec.ofNat 32 k) →
   ∃ t, dmaUnits Config.default ch n e s = .ok (t, e)
     ∧ t = { s with mem := t.mem, dma := t.dma }
     ∧ t.chan ch = { s.chan ch with src := (s.chan ch).src + BitVec.ofNat 32 (n * unitBytes (s.chan ch).width), dst := (s.chan ch).dst + BitVec.ofNat 32 (n * unitBytes (s.chan ch).width), cursor := (s.chan ch).cursor + BitVec.ofNat 32 n }
     ∧ (∀ k, k ≠ ch → t.chan k = s.chan k)
     ∧ (∀ k, k < n * unitBytes (s.chan ch).width → t.asByte ((s.chan ch).dst + BitVec.ofNat 32 k) = s.asByte ((s.chan ch).src + BitVec.ofNat 32 k))
     ∧ (∀ b : Addr, (∀ k, k < n * unitBytes (s.chan ch).width → b ≠ (s.chan ch).dst + BitVec.ofNat 32 k) → t.asByte b = s.asByte b) := by
  induction n with
  | zero => intro e s _ _ _ _ _ _; exact ⟨s, rfl, rfl, by simp, fun _ _ => rfl, fun k hk => by omega, fun _ _ => rfl⟩
  | succ n ih =>
    intro e s hsac hdac hlen hsrc hdst hdis
    have hU4 := unitBytes_le (s.chan ch).width
    have hUle : unitBytes (s.chan ch).width ≤ (n + 1) * unitBytes (s.chan ch).width := by
      rw [Nat.add_mul]; omega
    have hn : (n + 1) * unitBytes (s.chan ch).width = unitBytes (s.chan ch).width + n * unitBytes (s.chan ch).width := by
      rw [Nat.add_mul]; omega
    obtain ⟨u, h1, hu, hch, hoth, hby⟩ := dmaUnit_move (e := e) (fun k hk => hsrc k (by omega)) (fun k hk => hdst k (by omega))
    simp only [DmaChan.advance, hsac, hdac, stepPtr] at hch
    have hcart : u.cart = s.cart := by rw [hu]
    have hwid : (u.chan ch).width = (s.chan ch).width := by rw [hch]
    have hsrc' : (u.chan ch).src = (s.chan ch).src + BitVec.ofNat 32 (unitBytes (s.chan ch).width) := by rw [hch]
    have hdst' : (u.chan ch).dst = (s.chan ch).dst + BitVec.ofNat 32 (unitBytes (s.chan ch).width) := by rw [hch]
    have hctrl : (u.chan ch).ctrl = (s.chan ch).ctrl := by rw [hch]
    have add : ∀ (a : Addr) (k : Nat), a + BitVec.ofNat 32 (unitBytes (s.chan ch).width) + BitVec.ofNat 32 k = a + BitVec.ofNat 32 (unitBytes (s.chan ch).width + k) := by
      intro a k; rw [BitVec.add_assoc, BitVec.ofNat_add]
    have hwin : ∀ a, inEepWindow Config.default u a = inEepWindow Config.default s a := by
      intro a; unfold inEepWindow; rw [hcart]
    obtain ⟨t, g1, gt, gch, goth, gcp, gfr⟩ := ih (e := e) (s := u) (by rw [hctrl]; exact hsac) (by rw [hctrl]; exact hdac)
      (by rw [hwid]; omega)
      (fun k hk => by rw [hwid] at hk; rw [hsrc', add, hcart, hwin]; exact hsrc _ (by omega))
      (fun k hk => by rw [hwid] at hk; rw [hdst', add, hcart]; exact hdst _ (by omega))
      (fun j k hj hk => by rw [hwid] at hj hk; rw [hsrc', hdst', add, add]; exact hdis _ _ (by omega) (by omega))
    rw [hwid] at gch gcp gfr
    rw [hsrc'] at gcp
    rw [hdst'] at gcp gfr
    simp only [add] at gcp gfr
    refine ⟨t, by simp only [dmaUnits, h1, g1], ?_, ?_, ?_, ?_, ?_⟩
    · rw [gt]; rw [hu]
    · rw [gch, hch]
      simp only [DmaChan.mk.injEq, true_and, and_true]
      refine ⟨by rw [add, hn], by rw [add, hn], ?_⟩
      rw [BitVec.add_assoc]; congr 1
      rw [Nat.add_comm n 1, BitVec.ofNat_add]; rfl
    · intro k hk; rw [goth k hk, hoth k hk]
    · intro k hk
      by_cases hkU : k < unitBytes (s.chan ch).width
      · rw [gfr, hby]
        · have : (s.chan ch).dst + BitVec.ofNat 32 k - (s.chan ch).dst = BitVec.ofNat 32 k := by
            rw [BitVec.add_comm, BitVec.add_sub_cancel]
          rw [this]
          have hk' : (BitVec.ofNat 32 k).toNat = k := by rw [BitVec.toNat_ofNat, Nat.mod_eq_of_lt (by omega)]
          rw [hk', if_pos hkU]
        · intro j hj hh
          have := add_ofNat_inj (by omega) (by omega) hh
          omega
      · have := gcp (k - unitBytes (s.chan ch).width) (by omega)
        rw [show unitBytes (s.chan ch).width + (k - unitBytes (s.chan ch).width) = k by omega] at this
        rw [this, hby, if_neg]
        intro hlt
        have e : (s.chan ch).src + BitVec.ofNat 32 k = (s.chan ch).dst + BitVec.ofNat 32 (((s.chan ch).src + BitVec.ofNat 32 k - (s.chan ch).dst).toNat) := by
          rw [BitVec.ofNat_toNat, BitVec.setWidth_eq]
          rw [BitVec.add_comm (s.chan ch).dst, BitVec.sub_add_cancel]
        exact hdis k _ hk (by omega) e
    · intro b hb
      rw [gfr b fun k hk => hb _ (by omega), hby, if_neg]
      intro hlt
      refine hb _ (by omega : (b - (s.chan ch).dst).toNat < _) ?_
      rw [BitVec.ofNat_toNat, BitVec.setWidth_eq, BitVec.add_comm, BitVec.sub_add_cancel]

theorem range_small {s : State} {a : Addr} {n : Nat} (h : ∀ k, k < n → isStoreTag (decodeTag Config.default s.cart.gpioType (a + BitVec.ofNat 32 k)) = true) : n < 2 ^ 32 := by
  by_contra hc
  have := h ((0x10000000 : Addr) - a).toNat (by have := ((0x10000000 : Addr) - a).isLt; omega)
  rw [BitVec.ofNat_toNat, BitVec.setWidth_eq, BitVec.add_comm, BitVec.sub_add_cancel] at this
  rw [decodeTag_default] at this
  simp [isStoreTag] at this

/-- A forced run of an armed channel, after its start delay is dropped. -/
theorem exec_forcedma {ch : Chan} {s : State} (h1 : (s.chan ch).enabled = true) (h2 : (s.chan ch).running = false) :
   exec (.forcedma ch) s = toOutcome (dmaRun Config.default ch (s.start.setChan ch { s.chan ch with delay := 0 })) := by
  show toOutcome (forceDma _ _ _) = _
  unfold forceDma
  simp only [State.start_chan, h1, h2, and_self, if_true]

theorem setChan_setChan (s : State) (ch : Chan) (x y : DmaChan) : (s.setChan ch x).setChan ch y = s.setChan ch y := by
  unfold State.setChan State.setDma Channels.set
  match ch with | 0 => rfl | 1 => rfl | 2 => rfl | 3 => rfl

/-- A forced run: its units, then its end. -/
theorem exec_forcedma_units {ch : Chan} {s t : State} {e : Bool} (h1 : (s.chan ch).enabled = true) (h2 : (s.chan ch).running = false)
   (h : dmaUnits Config.default ch (unitsLeft (s.chan ch)) false (s.start.setChan ch { s.chan ch with running := true, delay := 0 }) = .ok (t, e)) :
   exec (.forcedma ch) s = .next (endRun Config.default ch e t) := by
  rw [exec_forcedma h1 h2]
  unfold dmaRun
  simp only [State.chan_setChan_same, setChan_setChan]
  rw [show dmaUnits Config.default ch (unitsLeft { s.chan ch with delay := 0 }) false (s.start.setChan ch { s.chan ch with running := true, delay := 0 }) = .ok (t, e) from h]
  rfl

/-- What the end of a run leaves, its EEPROM burst apart. -/
theorem endRun_frame (ch : Chan) (t : State) : (endRun Config.default ch false t) = { t with mem := (endRun Config.default ch false t).mem, dma := (endRun Config.default ch false t).dma, out := (endRun Config.default ch false t).out } := by
  unfold endRun complete
  simp only [Bool.false_eq_true, if_false]
  split <;> split <;> rfl

theorem endRun_bytes (ch : Chan) (e : Bool) (t : State) (b : Addr) (hb : b ≠ cntHAddr Config.default ch + 1) : (endRun Config.default ch e t).asByte b = t.asByte b := by
  have key : ∀ u : State, u.mem = t.mem → (complete Config.default ch u).asByte b = t.asByte b := by
    intro u hu
    unfold complete
    have : ∀ v : State, v.mem = t.mem → (if recurs (u.chan ch) then rearm Config.default ch v else goIdle Config.default ch v).asByte b = t.asByte b := by
      intro v hv
      split
      · exact asByte_congr hv _
      · unfold goIdle
        exact (asByte_clear (v.setChan ch { v.chan ch with enabled := false, running := false }) ch b).trans (by rw [if_neg hb]; exact asByte_congr hv _)
    apply this
    split <;> exact hu
  unfold endRun
  simp only
  split <;> exact key _ rfl

theorem endRun_other {ch k : Chan} (hk : k ≠ ch) (e : Bool) (t : State) : (endRun Config.default ch e t).chan k = t.chan k := by
  have key : ∀ u : State, u.chan k = t.chan k → (complete Config.default ch u).chan k = t.chan k := by
    intro u hu
    unfold complete
    have : ∀ v : State, v.chan k = t.chan k → (if recurs (u.chan ch) then rearm Config.default ch v else goIdle Config.default ch v).chan k = t.chan k := by
      intro v hv
      split
      · unfold rearm; simp only; rw [State.chan_setChan_other _ _ hk]; exact hv
      · unfold goIdle; simp only [State.setMem_chan]; rw [State.chan_setChan_other _ _ hk]; exact hv
    apply this
    split <;> exact hu
  unfold endRun
  simp only
  split
  · exact key _ (State.chan_setChan_other _ _ hk)
  · exact key _ (State.chan_setChan_other _ _ hk)

/-- The channel after the end of a run. -/
theorem endRun_chan (ch : Chan) (e : Bool) (t : State) :
   ((endRun Config.default ch e t).chan ch).src = (t.chan ch).src
   ∧ (recurs (t.chan ch) = false → (endRun Config.default ch e t).chan ch = { t.chan ch with enabled := false, running := false }
       ∧ (cntHOf Config.default (endRun Config.default ch e t) ch).getLsbD 15 = false)
   ∧ (ctlDac (t.chan ch).ctrl ≠ .reload → ((endRun Config.default ch e t).chan ch).dst = (t.chan ch).dst) := by
  have key : ∀ u : State, u.chan ch = { t.chan ch with running := false } →
    ((complete Config.default ch u).chan ch).src = (t.chan ch).src
   ∧ (recurs (t.chan ch) = false → (complete Config.default ch u).chan ch = { t.chan ch with enabled := false, running := false }
       ∧ (cntHOf Config.default (complete Config.default ch u) ch).getLsbD 15 = false)
   ∧ (ctlDac (t.chan ch).ctrl ≠ .reload → ((complete Config.default ch u).chan ch).dst = (t.chan ch).dst) := by
    intro u hu
    unfold complete
    have hr : recurs (u.chan ch) = recurs (t.chan ch) := by rw [hu]; rfl
    rw [hr]
    have h2 : ∀ v : State, v.chan ch = { t.chan ch with running := false } → 
       ((if recurs (t.chan ch) then rearm Config.default ch v else goIdle Config.default ch v).chan ch).src = (t.chan ch).src
   ∧ (recurs (t.chan ch) = false → (if recurs (t.chan ch) then rearm Config.default ch v else goIdle Config.default ch v).chan ch = { t.chan ch with enabled := false, running := false }
       ∧ (cntHOf Config.default (if recurs (t.chan ch) then rearm Config.default ch v else goIdle Config.default ch v) ch).getLsbD 15 = false)
   ∧ (ctlDac (t.chan ch).ctrl ≠ .reload → ((if recurs (t.chan ch) then rearm Config.default ch v else goIdle Config.default ch v).chan ch).dst = (t.chan ch).dst) := by
      intro v hv
      by_cases hrec : recurs (t.chan ch) = true
      · simp only [hrec, if_true]
        unfold rearm
        simp only [State.chan_setChan_same, hv]
        refine ⟨trivial, by simp, fun h => by rw [if_neg h]⟩
      · have hrec : recurs (t.chan ch) = false := by simpa using hrec
        simp only [hrec, Bool.false_eq_true, if_false]
        unfold goIdle
        simp only [State.setMem_chan, State.chan_setChan_same, hv]
        refine ⟨trivial, fun _ => ⟨trivial, ?_⟩, fun _ => trivial⟩
        have hcl := asByte_clear (v.setChan ch { t.chan ch with enabled := false, running := false }) ch (cntHAddr Config.default ch + 1)
        rw [if_pos rfl] at hcl
        unfold cntHOf State.io16
        have e : ∀ x : Byte × Byte, ((x.1 &&& 0x7F) ++ x.2).getLsbD 15 = false := by
          intro x; rw [BitVec.getLsbD_append]; simp
        have := e (v.asByte (cntHAddr Config.default ch + 1), ((v.setChan ch { t.chan ch with enabled := false, running := false }).setMem (v.mem.write (cntHAddr Config.default ch + 1).toNat (v.mem.read (cntHAddr Config.default ch + 1).toNat &&& 0x7F))).asByte (cntHAddr Config.default ch))
        rw [← this]
        congr 2
    apply h2
    split
    · exact hu
    · exact hu
  unfold endRun
  simp only
  split
  · exact key _ (by rw [State.setEe_chan, State.chan_setChan_same])
  · exact key _ (by rw [State.chan_setChan_same])

end Sys2Proof.Machine
end

