-- ==== Sys2Proof/Laws/Eeprom.lean ====
section
/-! SUPPORT. Bursts into the EEPROM engine: what the buffer holds, and the effect of read and write requests (42_eeprom.md R233 to R239). -/

namespace Sys2Proof.Machine

theorem bitsOfNat_length (n v : Nat) : (bitsOfNat n v).length = n := by
  induction n with
  | zero => rfl
  | succ n ih => simp [bitsOfNat, ih]

theorem bitsOfNat_getD (n v i : Nat) (hi : i < n) : (bitsOfNat n v).getD i false = v.testBit (n - 1 - i) := by
  induction n generalizing i with
  | zero => omega
  | succ n ih =>
    cases i with
    | zero => simp [bitsOfNat]
    | succ i =>
      simp only [bitsOfNat, List.getD_cons_succ]
      rw [ih _ (by omega)]
      congr 1; omega

theorem setBufBit_getLsbD (buf : BitVec 81) (i j : Nat) (b : Bool) (hi : i < 81) : (setBufBit buf i b).getLsbD j = if j = i then b else buf.getLsbD j := by
  unfold setBufBit
  simp only [BitVec.getLsbD_or, BitVec.getLsbD_and, BitVec.getLsbD_not, BitVec.getLsbD_twoPow, BitVec.getLsbD_shiftLeft, BitVec.getLsbD_setWidth, BitVec.getLsbD_ofBool]
  by_cases hj : j < 81
  · by_cases hji : j = i
    · subst hji; simp [hj]
    · have : ¬ i = j := fun h => hji h.symm
      by_cases hlt : j < i
      · simp [hj, hji, this, hlt]
      · have hne : j - i ≠ 0 := by omega
        simp [hj, hji, this, hlt, hne]
  · have hb : buf.getLsbD j = false := BitVec.getLsbD_of_ge _ _ (by omega)
    have hji : j ≠ i := by omega
    simp [hj, hb, hji]

theorem take_bit (b : Bool) (ee : Eeprom) (i : Nat) : (ee.take b).buf.getLsbD i = if i = ee.cursor ∧ i < 81 then b else ee.buf.getLsbD i := by
  unfold Eeprom.take
  by_cases hc : ee.cursor < 81
  · simp only [if_pos hc]
    rw [setBufBit_getLsbD _ _ _ _ hc]
    by_cases hi : i = ee.cursor
    · rw [if_pos hi, if_pos ⟨hi, by omega⟩]
    · rw [if_neg hi, if_neg fun h => hi h.1]
  · simp only [if_neg hc]
    rw [if_neg]; omega

/-- Bits shifted into a burst in progress (R233). -/
theorem shiftIn_fold (bits : List Bool) (src : Addr) : ∀ ee : Eeprom, ee.phase = .shiftIn →
   ∃ B, bits.foldl (fun e b => eepromShiftIn b src e) ee = { ee with cursor := ee.cursor + bits.length, buf := B }
     ∧ ∀ i, B.getLsbD i = if ee.cursor ≤ i ∧ i < ee.cursor + bits.length ∧ i < 81 then bits.getD (i - ee.cursor) false else ee.buf.getLsbD i := by
  induction bits with
  | nil => intro ee _; exact ⟨ee.buf, rfl, fun i => by rw [if_neg]; simp only [List.length_nil]; omega⟩
  | cons b bits ih =>
    intro ee hp
    have h1 : eepromShiftIn b src ee = ee.take b := by unfold eepromShiftIn Eeprom.begin; rw [if_pos hp]
    have hbit := take_bit b ee
    have hcur : (ee.take b).cursor = ee.cursor + 1 := rfl
    obtain ⟨B, hB, hget⟩ := ih (ee.take b) hp
    refine ⟨B, ?_, ?_⟩
    · rw [List.foldl_cons, h1, hB]
      simp only [Eeprom.take, List.length_cons]
      congr 1; omega
    · intro i
      rw [hget, hcur, hbit]
      simp only [List.length_cons]
      by_cases hi : i = ee.cursor
      · subst hi
        rw [if_neg (by omega)]
        by_cases h81 : ee.cursor < 81
        · rw [if_pos ⟨rfl, h81⟩, if_pos (by omega)]; simp
        · rw [if_neg (by omega), if_neg (by omega)]
      · rw [if_neg (c := i = ee.cursor ∧ i < 81) (fun h => hi h.1)]
        by_cases hr : ee.cursor ≤ i ∧ i < ee.cursor + (bits.length + 1) ∧ i < 81
        · rw [if_pos (by omega), if_pos hr]
          have : i - ee.cursor = (i - (ee.cursor + 1)) + 1 := by omega
          rw [this, List.getD_cons_succ]
        · rw [if_neg (by omega), if_neg hr]

/-- A burst of bits from an engine with no burst in progress (R233). -/
theorem shiftIn_burst {bits : List Bool} (hne : bits ≠ []) (src : Addr) {ee : Eeprom} (hp : ee.phase ≠ .shiftIn) :
   ∃ B, bits.foldl (fun e b => eepromShiftIn b src e) ee = { ee with phase := .shiftIn, cursor := bits.length, buf := B, dmaPtr := src }
     ∧ ∀ i, i < 81 → B.getLsbD i = bits.getD i false := by
  cases bits with
  | nil => exact absurd rfl hne
  | cons b bits =>
    have h1 : eepromShiftIn b src ee = ({ ee with phase := .shiftIn, cursor := 0, buf := 0, dmaPtr := src } : Eeprom).take b := by unfold eepromShiftIn Eeprom.begin; rw [if_neg hp]
    have h2 : eepromShiftIn b src { ee with phase := .shiftIn, cursor := 0, buf := 0, dmaPtr := src } = eepromShiftIn b src ee := by
      rw [h1]; unfold eepromShiftIn Eeprom.begin; rw [if_pos rfl]
    obtain ⟨B, hB, hget⟩ := shiftIn_fold (b :: bits) src { ee with phase := .shiftIn, cursor := 0, buf := 0, dmaPtr := src } rfl
    refine ⟨B, ?_, ?_⟩
    · rw [List.foldl_cons, ← h2, ← List.foldl_cons (f := fun e b => eepromShiftIn b src e), hB]
      simp only [Nat.zero_add]
    · intro i hi
      rw [hget]
      simp only [Nat.zero_le, true_and, Nat.zero_add, Nat.sub_zero]
      split
      · rfl
      · rename_i hc
        have : (b :: bits).length ≤ i := by omega
        rw [List.getD_eq_default _ _ this]; simp

theorem bufNat_testBit (buf : BitVec 81) (start len j : Nat) : (bufNat buf start len).testBit j = (decide (j < len) && buf.getLsbD (start + (len - 1 - j))) := by
  induction len generalizing j with
  | zero => simp [bufNat]
  | succ len ih =>
    simp only [bufNat]
    cases j with
    | zero =>
      rw [Nat.testBit_zero, show len + 1 - 1 - 0 = len by omega]
      cases buf.getLsbD (start + len)
      · have : (2 * bufNat buf start len + false.toNat) % 2 = 0 := by simp
        rw [this]; simp
      · have : (2 * bufNat buf start len + true.toNat) % 2 = 1 := by simp
        rw [this]; simp
    | succ j =>
      rw [Nat.testBit_succ]
      have : (2 * bufNat buf start len + (buf.getLsbD (start + len)).toNat) / 2 = bufNat buf start len := by
        cases buf.getLsbD (start + len) <;> simp <;> omega
      rw [this, ih]
      have e : len - 1 - j = len + 1 - 1 - (j + 1) := by omega
      rw [e]
      simp

/-- The request address, read back from the buffered bits (R234). -/
theorem bufNat_addr {buf : BitVec 81} {n : Nat} (hn : n ≤ 14) {a : BitVec n} (h : ∀ i, i < n → buf.getLsbD (2 + i) = a.getLsbD (n - 1 - i)) :
   BitVec.ofNat 14 (bufNat buf 2 n) = a.setWidth 14 := by
  apply BitVec.eq_of_getLsbD_eq; intro i hi
  rw [BitVec.getLsbD_ofNat, BitVec.getLsbD_setWidth, bufNat_testBit]
  by_cases hin : i < n
  · simp only [hi, hin, decide_true, Bool.true_and]
    rw [h _ (by omega)]; congr 1; omega
  · have : a.getLsbD i = false := BitVec.getLsbD_of_ge _ _ (by omega)
    simp [hin, this]

theorem readRequestBits_length {n : Nat} (a : BitVec n) (stop : Bool) : (readRequestBits a stop).length = n + 3 := by
  simp [readRequestBits, bitsOfVec, bitsOfNat_length]

theorem writeBits_length {n : Nat} (a : BitVec n) (d : BitVec 64) (stop : Bool) : (writeBits a d stop).length = n + 67 := by
  simp [writeBits, bitsOfVec, bitsOfNat_length]

theorem bitsOfVec_getD {n : Nat} (v : BitVec n) (i : Nat) (hi : i < n) : (bitsOfVec v).getD i false = v.getLsbD (n - 1 - i) := by
  unfold bitsOfVec; rw [bitsOfNat_getD _ _ _ hi]; rfl

theorem getD_append_left' {l l' : List Bool} {i : Nat} (h : i < l.length) : (l ++ l').getD i false = l.getD i false := by
  rw [List.getD_eq_getElem?_getD, List.getD_eq_getElem?_getD, List.getElem?_append_left h]

theorem getD_append_right' {l l' : List Bool} {i : Nat} (h : l.length ≤ i) : (l ++ l').getD i false = l'.getD (i - l.length) false := by
  rw [List.getD_eq_getElem?_getD, List.getD_eq_getElem?_getD, List.getElem?_append_right h]

theorem readRequestBits_addr {n : Nat} (a : BitVec n) (stop : Bool) (i : Nat) (hi : i < n) : (readRequestBits a stop).getD (2 + i) false = a.getLsbD (n - 1 - i) := by
  unfold readRequestBits
  rw [show 2 + i = i + 1 + 1 by omega, List.getD_cons_succ, List.getD_cons_succ, getD_append_left' (by simp [bitsOfVec, bitsOfNat_length, hi]), bitsOfVec_getD _ _ hi]

theorem writeBits_addr {n : Nat} (a : BitVec n) (d : BitVec 64) (stop : Bool) (i : Nat) (hi : i < n) : (writeBits a d stop).getD (2 + i) false = a.getLsbD (n - 1 - i) := by
  unfold writeBits
  rw [show 2 + i = i + 1 + 1 by omega, List.getD_cons_succ, List.getD_cons_succ, getD_append_left' (by simp [bitsOfVec, bitsOfNat_length, hi]), bitsOfVec_getD _ _ hi]

theorem writeBits_data {n : Nat} (a : BitVec n) (d : BitVec 64) (stop : Bool) (i : Nat) (hi : i < 64) : (writeBits a d stop).getD (2 + n + i) false = d.getLsbD (63 - i) := by
  unfold writeBits
  rw [show 2 + n + i = n + i + 1 + 1 by omega, List.getD_cons_succ, List.getD_cons_succ, getD_append_right' (by simp [bitsOfVec, bitsOfNat_length])]
  rw [show n + i - (bitsOfVec a).length = i by simp [bitsOfVec, bitsOfNat_length], getD_append_left' (by simp [bitsOfVec, bitsOfNat_length, hi]), bitsOfVec_getD _ _ hi]

/-- The burst of a read request, when its size class is accepted (R234 to R237). -/
theorem burst_read {n : Nat} {sz : EeSize} (hsz : (n = 6 ∧ sz = .small) ∨ (n = 14 ∧ sz = .large)) (src : Addr) (a : BitVec n) (stop : Bool) {ee : Eeprom} (hp : ee.phase ≠ .shiftIn) (hl : ee.sizeLock = true → ee.size = sz) :
   ∃ B, eepromBurst Config.default src (readRequestBits a stop) ee = { ee with phase := .readOut, cursor := 0, addr := a.setWidth 14, size := sz, sizeLock := true, dmaPtr := src, buf := B } := by
  obtain ⟨B, hB, hget⟩ := shiftIn_burst (bits := readRequestBits a stop) (by simp [readRequestBits]) src hp
  refine ⟨B, ?_⟩
  unfold eepromBurst
  rw [hB]
  unfold eepromBurstEnd
  have hreq : reqForm Config.default (readRequestBits a stop).length = some (sz, .read) := by
    rw [readRequestBits_length]; rcases hsz with ⟨rfl, rfl⟩ | ⟨rfl, rfl⟩ <;> rfl
  have hn : n = eeAddrBits Config.default sz := by rcases hsz with ⟨rfl, rfl⟩ | ⟨rfl, rfl⟩ <;> rfl
  have hn14 : n ≤ 14 := by rcases hsz with ⟨rfl, rfl⟩ | ⟨rfl, rfl⟩ <;> omega
  have haddr : BitVec.ofNat 14 (bufNat B 2 (eeAddrBits Config.default sz)) = a.setWidth 14 := by
    rw [← hn]; exact bufNat_addr hn14 fun i hi => by rw [hget _ (by omega), readRequestBits_addr _ _ _ hi]
  have hacc : burstAccepted { ee with phase := .shiftIn, cursor := (readRequestBits a stop).length, buf := B, dmaPtr := src } sz .read = true := by
    unfold burstAccepted
    rw [hget 0 (by omega), hget 1 (by omega)]
    simp [readRequestBits]
    cases hlk : ee.sizeLock <;> simp [hlk] at hl ⊢; exact hl
  simp only [hreq, hacc, if_true, Eeprom.latch, haddr]

theorem commitBytes_read (buf : BitVec 81) (n base : Nat) (k : Nat) : ∀ (j : Nat) (m : Memory) (o : Nat),
   (commitBytes buf n base j k m).read o = if base + j ≤ o ∧ o < base + j + k then burstByte buf n (o - base) else m.read o := by
  induction k with
  | zero => intro j m o; rw [if_neg (by omega)]; rfl
  | succ k ih =>
    intro j m o
    simp only [commitBytes]
    rw [ih, Memory.read_write]
    by_cases h : base + (j + 1) ≤ o ∧ o < base + (j + 1) + k
    · rw [if_pos h, if_pos (by omega)]
    · rw [if_neg h]
      by_cases ho : o = base + j
      · rw [if_pos ho, if_pos (by omega), ho]; congr 1; omega
      · rw [if_neg ho, if_neg (by omega)]

theorem burstByte_data {B : BitVec 81} {n : Nat} (hn : n ≤ 14) {d : BitVec 64} (h : ∀ i, i < 64 → B.getLsbD (2 + n + i) = d.getLsbD (63 - i)) (j : Nat) (hj : j < 8) :
   burstByte B n j = d.extractLsb' (8 * (7 - j)) 8 := by
  unfold burstByte
  apply BitVec.eq_of_getLsbD_eq; intro i hi
  rw [BitVec.getLsbD_ofNat, BitVec.getLsbD_extractLsb', bufNat_testBit]
  simp only [hi, decide_true, Bool.true_and]
  rw [show 2 + n + 8 * j + (8 - 1 - i) = 2 + n + (8 * j + (7 - i)) by omega, h _ (by omega)]
  congr 1; omega

/-- The burst of a write, when its size class is accepted (R234, R238, R239). -/
theorem burst_write {n : Nat} {sz : EeSize} (hsz : (n = 6 ∧ sz = .small) ∨ (n = 14 ∧ sz = .large)) (src : Addr) (a : BitVec n) (d : BitVec 64) (stop : Bool) {ee : Eeprom} (hp : ee.phase ≠ .shiftIn) (hl : ee.sizeLock = true → ee.size = sz) :
   ∃ B M, eepromBurst Config.default src (writeBits a d stop) ee = { ee with phase := .idle, cursor := 0, addr := a.setWidth 14, size := sz, sizeLock := true, dmaPtr := src, buf := B, data := M }
    ∧ ∀ o, M.read o = if 8 * eePageOf Config.default (a.setWidth 14) sz ≤ o ∧ o < 8 * eePageOf Config.default (a.setWidth 14) sz + 8 then d.extractLsb' (8 * (7 - (o - 8 * eePageOf Config.default (a.setWidth 14) sz))) 8 else ee.data.read o := by
  obtain ⟨B, hB, hget⟩ := shiftIn_burst (bits := writeBits a d stop) (by simp [writeBits]) src hp
  have hreq : reqForm Config.default (writeBits a d stop).length = some (sz, .write) := by
    rw [writeBits_length]; rcases hsz with ⟨rfl, rfl⟩ | ⟨rfl, rfl⟩ <;> rfl
  have hn : n = eeAddrBits Config.default sz := by rcases hsz with ⟨rfl, rfl⟩ | ⟨rfl, rfl⟩ <;> rfl
  have hn14 : n ≤ 14 := by rcases hsz with ⟨rfl, rfl⟩ | ⟨rfl, rfl⟩ <;> omega
  have haddr : BitVec.ofNat 14 (bufNat B 2 (eeAddrBits Config.default sz)) = a.setWidth 14 := by
    rw [← hn]; exact bufNat_addr hn14 fun i hi => by rw [hget _ (by omega), writeBits_addr _ _ _ _ hi]
  have hacc : burstAccepted { ee with phase := .shiftIn, cursor := (writeBits a d stop).length, buf := B, dmaPtr := src } sz .write = true := by
    unfold burstAccepted
    rw [hget 0 (by omega), hget 1 (by omega)]
    simp [writeBits]
    cases hlk : ee.sizeLock <;> simp [hlk] at hl ⊢; exact hl
  refine ⟨B, commitBytes B (eeAddrBits Config.default sz) (8 * eePageOf Config.default (a.setWidth 14) sz) 0 8 ee.data, ?_, ?_⟩
  · unfold eepromBurst
    rw [hB]
    unfold eepromBurstEnd
    simp only [hreq, hacc, if_true, Eeprom.latch, haddr, commitPage, default_eePage]
  · intro o
    rw [commitBytes_read]
    simp only [Nat.add_zero]
    split
    · rw [← hn, burstByte_data hn14 (d := d) (fun i hi => by rw [hget _ (by omega), writeBits_data _ _ _ _ hi]) _ (by omega)]
    · rfl

theorem page_small (a : BitVec 14) : eePageOf Config.default a .small = a.toNat % 64 := by
  simp [eePageOf, eeBytes]

theorem page_large (a : BitVec 14) : eePageOf Config.default a .large = a.toNat % 1024 := by
  simp [eePageOf, eeBytes]

theorem exec_burst {s : State} (h : s.cart.backupType = .eeprom) (src : Addr) (bits : List Bool) :
   burstIntoWindow Config.default src bits s = s.start.setEe (eepromBurst Config.default src bits s.ee) := by
  unfold burstIntoWindow; rw [if_pos h]

end Sys2Proof.Machine
end

