-- ==== Sys2Proof/Laws/EepromReply.lean ====
section
/-! SUPPORT. Malformed bursts, replies bit by bit, and which instructions change the EEPROM store (42_eeprom.md R234, R240, R241). -/

namespace Sys2Proof.Machine

/-- What the end of a burst does to an engine that holds it (R234). -/
theorem burstEnd_cases (ee : Eeprom) :
   eepromBurstEnd Config.default ee = ee.bad
   ∨ (∃ sz, reqForm Config.default ee.cursor = some (sz, .read) ∧ burstAccepted ee sz .read = true ∧ eepromBurstEnd Config.default ee = { ee.latch Config.default sz with phase := .readOut, cursor := 0 })
   ∨ (∃ sz, reqForm Config.default ee.cursor = some (sz, .write) ∧ burstAccepted ee sz .write = true ∧ eepromBurstEnd Config.default ee = { commitPage Config.default (eeAddrBits Config.default sz) (ee.latch Config.default sz) with phase := .idle, cursor := 0 }) := by
  unfold eepromBurstEnd
  split
  · exact .inl rfl
  · rename_i sz k hr
    split
    · rename_i ha
      cases k
      · exact .inr (.inl ⟨sz, hr, ha, rfl⟩)
      · exact .inr (.inr ⟨sz, hr, ha, rfl⟩)
    · exact .inl rfl

theorem reqForm_write {n : Nat} {sz : EeSize} (h : reqForm Config.default n = some (sz, .write)) : (n = 73 ∧ sz = .small) ∨ (n = 81 ∧ sz = .large) := by
  unfold reqForm at h
  split_ifs at h with h1 h2 h3 h4 <;> simp at h
  · exact .inl ⟨h3, h.symm⟩
  · exact .inr ⟨h4, h.symm⟩

theorem reqForm_read {n : Nat} {sz : EeSize} (h : reqForm Config.default n = some (sz, .read)) : (n = 9 ∧ sz = .small) ∨ (n = 17 ∧ sz = .large) := by
  unfold reqForm at h
  split_ifs at h with h1 h2 h3 h4 <;> simp at h
  · exact .inl ⟨h1, h.symm⟩
  · exact .inr ⟨h2, h.symm⟩

theorem burst_bad {s : State} {bits : List Bool} (hne : bits ≠ []) (src : Addr) (hp : s.ee.phase ≠ .shiftIn) (hbad : burstIsBad s.ctx bits = true) :
   ∃ B, eepromBurst Config.default src bits s.ee = { s.ee with phase := .idle, cursor := 0, dmaPtr := src, buf := B } := by
  obtain ⟨B, hB, hget⟩ := shiftIn_burst hne src hp
  refine ⟨B, ?_⟩
  unfold eepromBurst
  rw [hB]
  have hctx1 : s.ctx.eeLock = s.ee.sizeLock := rfl
  have hctx2 : s.ctx.eeSize = s.ee.size := rfl
  have e0 := hget 0 (by omega)
  have e1 := hget 1 (by omega)
  rcases burstEnd_cases { s.ee with phase := .shiftIn, cursor := bits.length, buf := B, dmaPtr := src } with h | ⟨sz, hr, ha, h⟩ | ⟨sz, hr, ha, h⟩
  · rw [h]; rfl
  · exfalso
    unfold burstAccepted at ha
    simp only [e0, e1, Bool.and_eq_true] at ha
    obtain ⟨⟨a1, a2⟩, a3⟩ := ha
    have a2 : bits.getD 1 false = true := by simpa using a2
    rcases reqForm_read hr with ⟨hl, rfl⟩ | ⟨hl, rfl⟩ <;>
    · simp only at hl
      unfold burstIsBad DecodeCtx.sizeOk at hbad
      simp only [hl, a1, a2, hctx1, hctx2, a3] at hbad
      simp at hbad
  · exfalso
    unfold burstAccepted at ha
    simp only [e0, e1, Bool.and_eq_true] at ha
    obtain ⟨⟨a1, a2⟩, a3⟩ := ha
    have a2 : bits.getD 1 false = false := by simpa using a2
    rcases reqForm_write hr with ⟨hl, rfl⟩ | ⟨hl, rfl⟩ <;>
    · simp only at hl
      unfold burstIsBad DecodeCtx.sizeOk at hbad
      simp only [hl, a1, a2, hctx1, hctx2, a3] at hbad
      simp at hbad

/-- A burst changes the store only if it is an accepted write (R234, R250). -/
theorem burst_data {bits : List Bool} (hne : bits ≠ []) (src : Addr) {ee : Eeprom} (hp : ee.phase ≠ .shiftIn) :
   (eepromBurst Config.default src bits ee).data = ee.data ∨
   ((bits.length = 73 ∨ bits.length = 81) ∧ bits.getD 0 false = true ∧ bits.getD 1 true = false
      ∧ (ee.sizeLock = true → (ee.size = .small ↔ bits.length = 73))
      ∧ ∀ o, o / 8 ≠ eePageOf Config.default (eepromBurst Config.default src bits ee).addr (eepromBurst Config.default src bits ee).size → (eepromBurst Config.default src bits ee).data.read o = ee.data.read o) := by
  obtain ⟨B, hB, hget⟩ := shiftIn_burst hne src hp
  unfold eepromBurst
  rw [hB]
  have e0 := hget 0 (by omega)
  have e1 := hget 1 (by omega)
  rcases burstEnd_cases { ee with phase := .shiftIn, cursor := bits.length, buf := B, dmaPtr := src } with h | ⟨sz, hr, ha, h⟩ | ⟨sz, hr, ha, h⟩
  · rw [h]; exact .inl rfl
  · rw [h]; exact .inl rfl
  · right
    unfold burstAccepted at ha
    simp only [e0, e1, Bool.and_eq_true] at ha
    obtain ⟨⟨a1, a2⟩, a3⟩ := ha
    have a2 : bits.getD 1 false = false := by simpa using a2
    have hl := reqForm_write hr
    simp only at hl
    have hlen : 1 < bits.length := by omega
    refine ⟨by omega, a1, ?_, ?_, ?_⟩
    · rw [List.getD_eq_getElem _ _ hlen] at a2 ⊢; exact a2
    · intro hlk
      simp only [hlk, Bool.not_true, Bool.false_or, decide_eq_true_eq] at a3
      rw [a3]
      rcases hl with ⟨hl, rfl⟩ | ⟨hl, rfl⟩
      · simp [hl]
      · simp [hl]
    · intro o ho
      rw [h] at ho ⊢
      simp only [commitPage, default_eePage, commitBytes_read] at ho ⊢
      rw [if_neg]; rfl
      intro hc
      apply ho
      omega

theorem onFlash_ee (f : BackupType → Flash → Flash) (s : State) : (onFlash f s).ee = s.ee := by unfold onFlash; split <;> rfl

theorem onGpio_ee {f : State → State} (hf : ∀ s, (f s).ee = s.ee) (u : Nat) (s : State) : (onGpio u f s).ee = s.ee := by
  unfold onGpio; split; rfl; split; rfl; exact hf _

theorem exec_ee_data {i : Instr} {s t : State} (hp : s.ee.phase ≠ .shiftIn) (hx : exec i s = .next t) (hm : mayRunDma i = false)
    (h1 : ∀ src a d stop, i ≠ .eewr6 src a d stop) (h2 : ∀ src a d stop, i ≠ .eewr14 src a d stop)
    (h3 : ∀ src bits, i ≠ .eebad src bits) (h4 : ∀ m b g, i ≠ .loadcart m b g) (h5 : ∀ f, i ≠ .loadbkp f) : t.ee.data = s.ee.data := by
  have hrb : ∀ {n : Nat} (hn : n = 6 ∨ n = 14) (src : Addr) (a : BitVec n) (stop : Bool), (burstIntoWindow Config.default src (readRequestBits a stop) s).ee.data = s.ee.data := by
    intro n hn src a stop
    unfold burstIntoWindow
    split
    · rcases burst_data (bits := readRequestBits a stop) (by simp [readRequestBits]) src hp with h | h
      · exact h
      · have := h.1; rw [readRequestBits_length] at this; omega
    · rfl
  cases i <;> first | (simp [mayRunDma, writeAccess, passEvent] at hm; done) | skip
  case loadfw m => simp only [exec, execLoadfw, loadfwIn] at hx; split at hx <;> cases hx <;> rfl
  case loadcart m b g => exact absurd rfl (h4 m b g)
  case loadbkp f => exact absurd rfl (h5 f)
  case savebkp f => simp only [exec, execSavebkp, savebkpIn] at hx; split at hx <;> cases hx <;> rfl
  case cstore => cases hx; unfold collabStore; split <;> rfl
  case sensor => cases hx; unfold senseInput; split <;> rfl
  case eewr6 => exact absurd rfl (h1 _ _ _ _)
  case eewr14 => exact absurd rfl (h2 _ _ _ _)
  case eebad => exact absurd rfl (h3 _ _)
  case eerdreq6 => cases hx; exact hrb (.inl rfl) _ _ _
  case eerdreq14 => cases hx; exact hrb (.inr rfl) _ _ _
  case eerdbit a w => 
    cases hx; unfold afterUnitRead; split
    · show (eepromShiftOut _ _).data = _
      unfold eepromShiftOut; split; split <;> rfl; rfl
    · rfl
  case fldata => cases hx; rw [onFlash_ee]
  case flbanksel => cases hx; rw [onFlash_ee]
  case flkey1 => cases hx; rw [onFlash_ee]
  case flkey2 => cases hx; rw [onFlash_ee]
  case flidenter => cases hx; rw [onFlash_ee]
  case flidexit => cases hx; rw [onFlash_ee]
  case flerasesetup => cases hx; rw [onFlash_ee]
  case flchiperase => cases hx; rw [onFlash_ee]
  case flprogram => cases hx; rw [onFlash_ee]
  case flbank => cases hx; rw [onFlash_ee]
  case flsectorerase => cases hx; rw [onFlash_ee]
  case flignored => cases hx; rw [onFlash_ee]
  case gpwrdata => cases hx; rw [onGpio_ee]; intro; rfl
  case gpwrdir => cases hx; rw [onGpio_ee]; intro; rfl
  case gpwrctl => cases hx; rw [onGpio_ee]; intro; rfl
  case gpwrrsv => cases hx; rw [onGpio_ee]; intro; rfl
  all_goals (cases hx; rfl)

theorem eep_window {s : State} (h : s.cart.backupType = .eeprom) {a : Addr} (h1 : 0x0D000000 ≤ a) (h2 : a ≤ 0x0DFFFFFF) : inEepWindow Config.default s a = true := by
  unfold inEepWindow Range.has
  rw [h, default_eep]; simp only [decide_true, Bool.true_and, Bool.and_eq_true, decide_eq_true_eq]; exact ⟨h1, h2⟩

theorem exec_eerdbit {s : State} (h : s.cart.backupType = .eeprom) {a : Addr} (h1 : 0x0D000000 ≤ a) (h2 : a ≤ 0x0DFFFFFF) (w : UnitWidth) :
   exec (.eerdbit a w) s = .next ((s.start.setEe (eepromShiftOut Config.default s.ee)).answer (some (unitValue w ((BitVec.ofBool (shiftOutBit Config.default s.ee)).setWidth 32))) none) := by
  show Host.Outcome.next _ = _
  unfold afterUnitRead unitRead
  rw [eep_window (s := s.start) h h1 h2, eep_window h h1 h2]
  rfl

theorem unitValue_bit (w : UnitWidth) (b : Bool) : unitValue w ((BitVec.ofBool b).setWidth 32) = (match w with | .half => .half (if b then 1 else 0) | .word => .word (if b then 1 else 0)) := by
  cases w <;> cases b <;> rfl

theorem eePage_lit (a : BitVec 14) (sz : EeSize) : eePageOf Config.default a sz = a.toNat % (match sz with | .small => 64 | .large => 1024) := by
  cases sz
  · exact page_small a
  · exact page_large a

theorem execAll_append (l l' : List Instr) (s : State) : execAll (l ++ l') s = match execAll l s with | .next t => execAll l' t | .fault f => .fault f | .refused r => .refused r := by
  induction l generalizing s with
  | nil => rfl
  | cons i l ih =>
    simp only [List.cons_append, execAll]
    cases exec i s with
    | next t => exact ih t
    | fault f => rfl
    | refused r => rfl

/-- The bit a reply gives after `k` others (R241). -/
theorem reply_bits (k : Nat) : ∀ {s : State}, s.cart.backupType = .eeprom → ∀ {a : Addr}, 0x0D000000 ≤ a → a ≤ 0x0DFFFFFF → ∀ (w : UnitWidth), s.ee.phase = .readOut → s.ee.cursor + k < 68 →
   ∃ t, execAll (List.replicate (k + 1) (.eerdbit a w)) s = .next t ∧ t.out.value = some (unitValue w ((BitVec.ofBool (shiftOutBit Config.default { s.ee with cursor := s.ee.cursor + k })).setWidth 32)) := by
  induction k with
  | zero =>
    intro s hb a h1 h2 w hp hc
    refine ⟨(s.start.setEe (eepromShiftOut Config.default s.ee)).answer (some (unitValue w ((BitVec.ofBool (shiftOutBit Config.default s.ee)).setWidth 32))) none, ?_, rfl⟩
    simp only [List.replicate, execAll, exec_eerdbit hb h1 h2]
  | succ k ih =>
    intro s hb a h1 h2 w hp hc
    have hout : eepromShiftOut Config.default s.ee = { s.ee with cursor := s.ee.cursor + 1 } := by
      unfold eepromShiftOut; rw [if_pos hp, default_eeDummy, if_neg (by omega)]
    obtain ⟨t, ht, hv⟩ := ih (s := (s.start.setEe (eepromShiftOut Config.default s.ee)).answer (some (unitValue w ((BitVec.ofBool (shiftOutBit Config.default s.ee)).setWidth 32))) none) hb h1 h2 w
      (by show (eepromShiftOut _ _).phase = _; rw [hout]; exact hp) (by show (eepromShiftOut _ _).cursor + _ < _; rw [hout]; show s.ee.cursor + 1 + k < 68; omega)
    refine ⟨t, ?_, ?_⟩
    · rw [List.replicate_succ, execAll, exec_eerdbit hb h1 h2]; exact ht
    · rw [hv]
      show some (unitValue w ((BitVec.ofBool (shiftOutBit Config.default { eepromShiftOut Config.default s.ee with cursor := (eepromShiftOut Config.default s.ee).cursor + k })).setWidth 32)) = _
      rw [hout]
      simp only
      rw [show s.ee.cursor + 1 + k = s.ee.cursor + (k + 1) by omega]

theorem roundtrip_gen {n : Nat} {sz : EeSize} (hsz : (n = 6 ∧ sz = .small) ∨ (n = 14 ∧ sz = .large)) {s : State} (hb : s.cart.backupType = .eeprom) (hp : s.ee.phase ≠ .shiftIn) (hl : s.ee.sizeLock = true → s.ee.size = sz)
   (src src' a' : Addr) (h1 : 0x0D000000 ≤ a') (h2 : a' ≤ 0x0DFFFFFF) (w : UnitWidth) (a : BitVec n) (d : BitVec 64) (stop stop' : Bool) (i j : Instr)
   (hi : ∀ s, exec i s = .next (burstIntoWindow Config.default src (writeBits a d stop) s)) (hj : ∀ s, exec j s = .next (burstIntoWindow Config.default src' (readRequestBits a stop') s))
   (k : Nat) (hk : k < 68) :
   ∃ t, execAll ([i, j] ++ List.replicate (k + 1) (.eerdbit a' w)) s = .next t
        ∧ t.out.value = some (unitValue w (if k < 4 then 0 else (BitVec.ofBool (d.getLsbD (63 - (k - 4)))).setWidth 32)) := by
  obtain ⟨B, M, hB, hM⟩ := burst_write hsz src a d stop hp hl
  obtain ⟨B', hB'⟩ := burst_read hsz src' a stop' (ee := eepromBurst Config.default src (writeBits a d stop) s.ee) (by rw [hB]; simp) (by rw [hB]; intro; rfl)
  have e1 : exec i s = .next (s.start.setEe (eepromBurst Config.default src (writeBits a d stop) s.ee)) := by rw [hi, exec_burst hb]
  have e2 : exec j (s.start.setEe (eepromBurst Config.default src (writeBits a d stop) s.ee)) = .next ((s.start.setEe (eepromBurst Config.default src (writeBits a d stop) s.ee)).start.setEe (eepromBurst Config.default src' (readRequestBits a stop') (eepromBurst Config.default src (writeBits a d stop) s.ee))) := by
    rw [hj, exec_burst]; rfl; exact hb
  obtain ⟨t, ht, hv⟩ := reply_bits k (s := (s.start.setEe (eepromBurst Config.default src (writeBits a d stop) s.ee)).start.setEe (eepromBurst Config.default src' (readRequestBits a stop') (eepromBurst Config.default src (writeBits a d stop) s.ee))) hb h1 h2 w
    (by show (eepromBurst _ _ _ _).phase = _; rw [hB']) (by show (eepromBurst _ _ _ _).cursor + _ < _; rw [hB']; show 0 + k < 68; omega)
  refine ⟨t, ?_, ?_⟩
  · rw [execAll_append]
    simp only [execAll, e1, e2]; exact ht
  · rw [hv]
    show some (unitValue w ((BitVec.ofBool (shiftOutBit Config.default { eepromBurst Config.default src' (readRequestBits a stop') (eepromBurst Config.default src (writeBits a d stop) s.ee) with cursor := (eepromBurst Config.default src' (readRequestBits a stop') (eepromBurst Config.default src (writeBits a d stop) s.ee)).cursor + k })).setWidth 32)) = _
    rw [hB', hB]
    unfold shiftOutBit
    simp only [if_true, default_eeDummy, Nat.zero_add, default_eePage]
    by_cases hk4 : k < 4
    · rw [if_pos hk4, if_pos hk4]; rfl
    · rw [if_neg hk4, if_neg hk4]
      have hr : 8 * eePageOf Config.default (BitVec.setWidth 14 a) sz ≤ 8 * eePageOf Config.default (BitVec.setWidth 14 a) sz + (k - 4) / 8 ∧ 8 * eePageOf Config.default (BitVec.setWidth 14 a) sz + (k - 4) / 8 < 8 * eePageOf Config.default (BitVec.setWidth 14 a) sz + 8 := by omega
      rw [hM, if_pos hr]
      unfold pageBit
      rw [BitVec.getLsbD_extractLsb']
      have : 7 - (k - 4) % 8 < 8 := by omega
      simp only [this, decide_true, Bool.true_and]
      rw [show 8 * (7 - (8 * eePageOf Config.default (BitVec.setWidth 14 a) sz + (k - 4) / 8 - 8 * eePageOf Config.default (BitVec.setWidth 14 a) sz)) + (7 - (k - 4) % 8) = 63 - (k - 4) by omega]

/-- The bits of a reply in progress, by their place in it (R241). -/
theorem eepromReply_bits (n : Nat) : ∀ {ee : Eeprom}, ee.phase = .readOut → ee.cursor + n ≤ 68 →
    eepromReply Config.default n ee = (List.range n).map fun k => shiftOutBit Config.default { ee with cursor := ee.cursor + k } := by
  induction n with
  | zero => intro ee _ _; rfl
  | succ n ih =>
    intro ee hp hc
    rw [List.range_succ_eq_map, List.map_cons, List.map_map]
    unfold eepromReply
    congr 1
    cases n with
    | zero => rfl
    | succ n =>
      have hout : eepromShiftOut Config.default ee = { ee with cursor := ee.cursor + 1 } := by
        unfold eepromShiftOut; rw [if_pos hp, default_eeDummy, if_neg (by omega)]
      rw [hout, ih (by exact hp) (by show ee.cursor + 1 + (n + 1) ≤ 68; omega)]
      apply List.map_congr_left
      intro k _
      simp only [Function.comp]
      rw [show ee.cursor + 1 + k = ee.cursor + (k + 1) by omega]

/-- The reply after a write and a read request with the same address (R243). -/
theorem roundtrip_reply {n : Nat} {sz : EeSize} (hsz : (n = 6 ∧ sz = .small) ∨ (n = 14 ∧ sz = .large)) {ee : Eeprom} (hp : ee.phase ≠ .shiftIn)
    (hl : ee.sizeLock = true → ee.size = sz) (src src' : Addr) (a : BitVec n) (d : BitVec 64) (stop stop' : Bool) :
    eepromReply Config.default 68 (eepromBurst Config.default src' (readRequestBits a stop') (eepromBurst Config.default src (writeBits a d stop) ee))
      = [false, false, false, false] ++ bitsOfVec d := by
  obtain ⟨B, M, hB, hM⟩ := burst_write hsz src a d stop hp hl
  obtain ⟨B', hB'⟩ := burst_read hsz src' a stop' (ee := eepromBurst Config.default src (writeBits a d stop) ee) (by rw [hB]; simp) (by rw [hB]; intro; rfl)
  rw [eepromReply_bits 68 (by rw [hB']) (by rw [hB'])]
  apply List.ext_getElem
  · simp [bitsOfVec, bitsOfNat_length]
  intro k hk hk'
  have hk68 : k < 68 := by simpa using hk
  have e : ([false, false, false, false] ++ bitsOfVec d)[k]'hk' = if k < 4 then false else d.getLsbD (63 - (k - 4)) := by
    rw [← List.getD_eq_getElem _ false hk']
    by_cases h4 : k < 4
    · rw [if_pos h4, getD_append_left' (by simpa using h4)]
      interval_cases k <;> rfl
    · rw [if_neg h4, getD_append_right' (by simp; omega)]
      exact bitsOfVec_getD d (k - 4) (by omega)
  rw [e, List.getElem_map, List.getElem_range, hB', hB]
  unfold shiftOutBit
  simp only [if_true, default_eeDummy, Nat.zero_add, default_eePage]
  split
  · rfl
  · rw [hM, if_pos (by omega)]
    unfold pageBit
    rw [BitVec.getLsbD_extractLsb']
    have : 7 - (k - 4) % 8 < 8 := by omega
    simp only [this, decide_true, Bool.true_and]
    congr 1; omega

end Sys2Proof.Machine
end

