-- ==== Sys2Proof/Laws/BurstRun.lean ====
section
/-! SUPPORT. A run from memory into the EEPROM window is one burst (41_dma.md R192, R193, 42_eeprom.md R233). -/

namespace Sys2Proof.Machine

theorem shiftIn_shifting {ee : Eeprom} (hp : ee.phase = .shiftIn) (b : Bool) (src src' : Addr) : eepromShiftIn b src ee = eepromShiftIn b src' ee := by
  unfold eepromShiftIn Eeprom.begin; rw [if_pos hp, if_pos hp]

theorem shiftIn_phase (b : Bool) (src : Addr) (ee : Eeprom) : (eepromShiftIn b src ee).phase = .shiftIn := by
  unfold eepromShiftIn Eeprom.begin Eeprom.take
  split
  · assumption
  · rfl

theorem fold_src (bits : List Bool) (src src' : Addr) : ∀ {ee : Eeprom}, ee.phase = .shiftIn →
   bits.foldl (fun e b => eepromShiftIn b src e) ee = bits.foldl (fun e b => eepromShiftIn b src' e) ee := by
  induction bits with
  | nil => intro ee _; rfl
  | cons b bits ih =>
    intro ee hp
    rw [List.foldl_cons, List.foldl_cons, shiftIn_shifting hp b src src']
    exact ih (shiftIn_phase _ _ _)

theorem joinLE_bit_zero (b : Byte) (bs : List Byte) : (joinLE (b :: bs)).getLsbD 0 = b.getLsbD 0 := by
  simp [joinLE]

/-- One unit from memory into the EEPROM window: bit 0 of the unit is shifted in (R193). -/
theorem dmaUnit_shift {ch : Chan} {e : Bool} {s : State} (hb : s.cart.backupType = .eeprom)
   (h1 : 0x0D000000 ≤ (s.chan ch).dst) (h2 : (s.chan ch).dst ≤ 0x0DFFFFFF)
   (hs0 : isStoreTag (decodeTag Config.default s.cart.gpioType (s.chan ch).src) = true) (hn : inEepWindow Config.default s (s.chan ch).src = false) :
   dmaUnit Config.default ch e s = .ok ((s.setEe (eepromShiftIn ((s.asByte (s.chan ch).src).getLsbD 0) (s.chan ch).src s.ee)).setChan ch ((s.chan ch).advance (s.chan ch).src (s.chan ch).dst), true) := by
  have ha : afterUnitRead Config.default s (s.chan ch).src = s := by unfold afterUnitRead; rw [hn]; rfl
  have hd := eep_window hb h1 h2
  unfold dmaUnit
  simp only [ha, hd, unitWrite, if_true, Bool.or_true]
  have hv : (unitRead Config.default s (s.chan ch).src (s.chan ch).width).getLsbD 0 = (s.asByte (s.chan ch).src).getLsbD 0 := by
    unfold unitRead; rw [hn]
    simp only [Bool.false_eq_true, if_false, memRead]
    cases (s.chan ch).width <;> simp only [unitBytes, readBytes] <;> rw [joinLE_bit_zero, readByte_store (hs0)]
  rw [hv]; rfl

/-- Units from memory into the EEPROM window, whatever the address controls: the bits of one burst (R192 to R194, 42_eeprom.md R233). -/
theorem dmaUnits_shift {ch : Chan} (n : Nat) : ∀ {e : Bool} {s : State}, s.cart.backupType = .eeprom →
   (∀ k, k < n → 0x0D000000 ≤ dstUnit (s.chan ch) k ∧ dstUnit (s.chan ch) k ≤ 0x0DFFFFFF) →
   (∀ k, k < n → isStoreTag (decodeTag Config.default s.cart.gpioType (srcUnit (s.chan ch) k)) = true
      ∧ inEepWindow Config.default s (srcUnit (s.chan ch) k) = false) →
   ∃ t, dmaUnits Config.default ch n e s = .ok (t, e || decide (0 < n))
     ∧ t.ee = ((List.range n).map fun k => (s.asByte (srcUnit (s.chan ch) k)).getLsbD 0).foldl (fun x b => eepromShiftIn b (s.chan ch).src x) s.ee := by
  induction n with
  | zero => intro e s _ _ _; exact ⟨s, by simp [dmaUnits], rfl⟩
  | succ n ih =>
    intro e s hb hdst hsrc
    have hd0 := hdst 0 (by omega)
    have hs0 := hsrc 0 (by omega)
    rw [dstUnit_zero] at hd0
    rw [srcUnit_zero] at hs0
    have hu := dmaUnit_shift (e := e) hb hd0.1 hd0.2 hs0.1 hs0.2
    obtain ⟨u, hud⟩ : ∃ u, u = (s.setEe (eepromShiftIn ((s.asByte (s.chan ch).src).getLsbD 0) (s.chan ch).src s.ee)).setChan ch ((s.chan ch).advance (s.chan ch).src (s.chan ch).dst) := ⟨_, rfl⟩
    rw [← hud] at hu
    have hch : u.chan ch = (s.chan ch).advance (s.chan ch).src (s.chan ch).dst := by rw [hud, State.chan_setChan_same]
    have hcart : u.cart = s.cart := by rw [hud]; rfl
    have hwin : ∀ a, inEepWindow Config.default u a = inEepWindow Config.default s a := by
      intro a; unfold inEepWindow; rw [hcart]
    have hby : ∀ a, u.asByte a = s.asByte a := by intro a; rw [hud]; rfl
    have hee : u.ee = eepromShiftIn ((s.asByte (s.chan ch).src).getLsbD 0) (s.chan ch).src s.ee := by rw [hud]; rfl
    obtain ⟨t, ht, hte⟩ := ih (e := true) (s := u) (by rw [hcart]; exact hb)
      (fun k hk => by rw [hch, dstUnit_advance]; exact hdst (k+1) (by omega))
      (fun k hk => by rw [hcart, hwin, hch, srcUnit_advance]; exact hsrc (k+1) (by omega))
    refine ⟨t, ?_, ?_⟩
    · simp only [dmaUnits, hu, ht]; simp
    · rw [hte, fold_src _ _ (s.chan ch).src (by rw [hee]; exact shiftIn_phase _ _ _), hee]
      rw [List.range_succ_eq_map, List.map_cons, List.foldl_cons, List.map_map, srcUnit_zero]
      congr 1
      apply List.map_congr_left
      intro k _
      simp only [Function.comp, hby, hch, srcUnit_advance]

theorem complete_ee (c : Config) (ch : Chan) (s : State) : (complete c ch s).ee = s.ee := by
  unfold complete; simp only
  split <;> split <;> rfl

end Sys2Proof.Machine
end

