-- ==== Sys2Proof/Laws/Gpio.lean ====
section
/-! SUPPORT. The GPIO window behind the bus, and that every change of what the block drives is reported (44_gpio.md R310 to R317). -/

namespace Sys2Proof.Machine

theorem onGpio_active {s : State} (h : s.cart.gpioType ≠ .disabled) (u : Nat) (f : State → State) : onGpio u f s = if u ≠ 0 then s.start else f s.start := by
  unfold onGpio; rw [if_neg h]

theorem window_tag {g : GpioType} (h : g ≠ .disabled) {a : Addr} (h1 : 0x080000C4 ≤ a) (h2 : a ≤ 0x080000CB) : decodeTag Config.default g a = .gpio := by
  rw [BitVec.le_def] at h1 h2
  rw [decodeTag_default, if_pos ⟨h, h1, h2⟩]

theorem window_noCntH {a : Addr} (h1 : 0x080000C4 ≤ a) : isCntHByte Config.default a = false := by
  by_contra hc
  obtain ⟨ch, h⟩ := (isCntHByte_iff _).mp (by simpa using hc)
  rw [BitVec.le_def] at h1
  have e : (0x080000C4 : Addr).toNat = 0x080000C4 := rfl
  have := ch.isLt; omega

theorem exec_fwr8_window {s : State} (h : s.cart.gpioType ≠ .disabled) {a : Addr} (h1 : 0x080000C4 ≤ a) (h2 : a ≤ 0x080000CB) (b : Byte) :
   exec (.fwr8 a b) s = .next (gpioWriteByte Config.default (gpioOffset Config.default a) b s.start) := by
  obtain ⟨t, ht, hb⟩ := exec_write_plain (i := .fwr8 a b) rfl s (by intro k hk; simp at hk; subst hk; simpa using window_noCntH h1)
  rw [ht]; congr 1
  have hw : writeByte Config.default .cpu a b s.start = .ok t := by
    simp only [writeBytes] at hb; split at hb <;> cases hb; assumption
  unfold writeByte at hw
  rw [window_tag (by exact h) h1 h2] at hw
  simp only at hw
  cases hw; rfl

theorem gpioAddr_offset (k : Fin 4) {u : Nat} (hu : u < 2) : gpioOffset Config.default (gpioAddr Config.default k.val u) = 2 * k.val + u := by
  unfold gpioOffset gpioAddr
  rw [default_gpioBase, default_gpioStride, BitVec.add_comm, BitVec.add_sub_cancel, BitVec.toNat_ofNat]
  have := k.isLt; omega

theorem window_offset {a : Addr} (h1 : 0x080000C4 ≤ a) (h2 : a ≤ 0x080000CB) : gpioOffset Config.default a < 8 ∧ (gpioOffset Config.default a) = a.toNat - 0x080000C4 := by
  rw [BitVec.le_def] at h1 h2
  have e1 : (0x080000C4 : Addr).toNat = 0x080000C4 := rfl
  have e2 : (0x080000CB : Addr).toNat = 0x080000CB := rfl
  unfold gpioOffset
  rw [default_gpioBase, BitVec.toNat_sub, e1]
  omega

theorem window_addr {a : Addr} (h1 : 0x080000C4 ≤ a) (h2 : a ≤ 0x080000CB) (n : Nat) (hn : n < 4) (hk : gpioOffset Config.default a / 2 = n) :
    gpioAddr Config.default n (gpioOffset Config.default a % 2) = a := by
  have ho := window_offset h1 h2
  rw [BitVec.le_def] at h1 h2
  have e1 : (0x080000C4 : Addr).toNat = 0x080000C4 := rfl
  apply BitVec.eq_of_toNat_eq
  unfold gpioAddr
  rw [default_gpioBase, default_gpioStride, BitVec.toNat_add, BitVec.toNat_ofNat, e1]
  omega

theorem gpioAddr_bounds (k : Fin 4) {u : Nat} (hu : u < 2) : 0x080000C4 ≤ gpioAddr Config.default k.val u ∧ gpioAddr Config.default k.val u ≤ 0x080000CB := by
  unfold gpioAddr
  rw [default_gpioBase, default_gpioStride, BitVec.le_def, BitVec.le_def, BitVec.toNat_add, BitVec.toNat_ofNat]
  have := k.isLt
  have e1 : (0x080000C4 : Addr).toNat = 0x080000C4 := rfl
  have e2 : (0x080000CB : Addr).toNat = 0x080000CB := rfl
  rw [e1, e2]
  omega

theorem gpio_window_rom {a : Addr} (h1 : 0x080000C4 ≤ a) (h2 : a ≤ 0x080000CB) : decodeTag Config.default .disabled a = .rom := by
  rw [BitVec.le_def] at h1 h2
  have e1 : (0x080000C4 : Addr).toNat = 0x080000C4 := rfl
  have e2 : (0x080000CB : Addr).toNat = 0x080000CB := rfl
  rw [decodeTag_default]; split_ifs <;> first | rfl | omega | (exfalso; simp_all)

/-- A byte in the GPIO window, with the device or without, is no byte of `AS` to a write (44_gpio.md R322 (b)). -/
theorem writeByte_window_mem {a : Addr} (h1 : 0x080000C4 ≤ a) (h2 : a ≤ 0x080000CB) {o : Origin} {b : Byte} {s t : State}
    (h : writeByte Config.default o a b s = .ok t) : t.mem = s.mem := by
  unfold writeByte at h
  by_cases hg : s.cart.gpioType = .disabled
  · rw [hg, gpio_window_rom h1 h2] at h
    cases h; rfl
  · rw [window_tag hg h1 h2] at h
    cases h
    exact (gpioWriteByte_frame Config.default (gpioOffset Config.default a) b s).2.2.1

/-- Bytes written in the GPIO window are no bytes of `AS` (44_gpio.md R322 (b)). -/
theorem writeBytes_window_mem (bs : List Byte) : ∀ {a : Addr} {o : Origin} {s t : State},
    (∀ k, k < bs.length → 0x080000C4 ≤ a + BitVec.ofNat 32 k ∧ a + BitVec.ofNat 32 k ≤ 0x080000CB) →
    writeBytes Config.default o a bs s = .ok t → t.mem = s.mem := by
  induction bs with
  | nil => intro a o s t _ h; cases h; rfl
  | cons b bs ih =>
    intro a o s t hin h
    obtain ⟨u, h1, h2⟩ := writeBytes_cons h
    have h0 := hin 0 (by simp)
    rw [BitVec.add_zero] at h0
    rw [ih (fun k hk => by rw [add_one_ofNat]; exact hin (k + 1) (by simpa using hk)) h2, writeByte_window_mem h0.1 h0.2 h1]

/-- Signals are only appended, and a change of what the block drives is reported (R313, R314). -/
def Reports (s t : State) : Prop :=
  s.out.signals <+: t.out.signals ∧ (t.gpio.driven = s.gpio.driven ∨ Signal.gpioOut t.gpio.driven ∈ t.out.signals)

theorem Reports.refl (s : State) : Reports s s := ⟨List.prefix_refl _, .inl rfl⟩

theorem Reports.trans {s t u : State} (h : Reports s t) (h' : Reports t u) : Reports s u := by
  refine ⟨h.1.trans h'.1, ?_⟩
  rcases h'.2 with h2 | h2
  · rcases h.2 with h1 | h1
    · exact .inl (h2.trans h1)
    · refine .inr (h'.1.subset ?_); rw [h2]; exact h1
  · exact .inr h2

theorem Reports.same {s t : State} (hg : t.gpio = s.gpio) (l : List Signal) (ho : t.out.signals = s.out.signals ++ l) : Reports s t :=
  ⟨⟨l, ho.symm⟩, .inl (by rw [hg])⟩

theorem gpioWriteByte_reports (c : Config) (off : Nat) (b : Byte) (s : State) : Reports s (gpioWriteByte c off b s) := by
  unfold gpioWriteByte
  split
  · exact .refl _
  · split
    · exact ⟨⟨_, rfl⟩, .inr (List.mem_append_right _ (List.mem_singleton.mpr rfl))⟩
    · exact ⟨⟨_, rfl⟩, .inr (List.mem_append_right _ (List.mem_singleton.mpr rfl))⟩
    · exact ⟨List.prefix_refl _, .inl rfl⟩
    · exact .refl _

theorem Prim.reports {c : Config} {O : Origin → Prop} {A : Chan → Prop} {s t : State} (h : Prim c O A s t) : Reports s t := by
  cases h with
  | byte _ hb =>
    rcases writeByte_cases hb with ⟨b', l, rfl, _⟩ | ⟨_, rfl⟩ | ⟨_, rfl⟩ | ⟨_, rfl⟩
    · exact .same rfl l rfl
    · exact gpioWriteByte_reports ..
    · have := backupWriteByte_frame c (bkpOffset c ‹_›) ‹_› s
      exact .same this.2.2.2.1 [] (by rw [this.2.2.2.2.2.1, List.append_nil])
    · exact .refl _
  | irq _ => exact .same rfl _ rfl
  | _ => exact .same rfl [] (by simp)

theorem Prims.reports {c : Config} {O : Origin → Prop} {A : Chan → Prop} {s t : State} (h : Prims c O A s t) : Reports s t :=
  h.rel (R := Reports) .refl .trans Prim.reports

theorem onGpio_reports {f : State → State} (hf : ∀ s, Reports s (f s)) (u : Nat) (s : State) : Reports s.start (onGpio u f s) := by
  unfold onGpio; split; exact .refl _; split; exact .refl _; exact hf _

theorem onFlash_reports (f : BackupType → Flash → Flash) (s : State) : Reports s.start (onFlash f s) := by
  unfold onFlash; split; exact .same rfl [] rfl; exact .refl _

/-- Every instruction but RESET and LOADCART reports what it changes at the pins. -/
theorem exec_reports {i : Instr} {s t : State} (h : exec i s = .next t) (h1 : i ≠ .reset) (h2 : ∀ m b g, i ≠ .loadcart m b g) : Reports s.start t := by
  by_cases hw : ∃ a bs, writeAccess i = some (a, bs)
  · obtain ⟨a, bs, hw⟩ := hw
    have := (exec_write_prims hw h).reports
    refine ⟨?_, ?_⟩
    · have := this.1; rw [writeStart_signals] at this; exact this
    · have := this.2; rw [writeStart_gpio] at this; exact this
  by_cases hp : ∃ ev, passEvent i = some ev
  · obtain ⟨ev, hp⟩ := hp
    rw [exec_pass hp] at h
    exact (dmaService_prims (O := fun _ => True) (fun _ => trivial) (toOutcome_next h)).reports
  cases i
  case dmatick => exact Reports.trans (.same (t := tickAll s.start) rfl [] rfl) (dmaService_prims (O := fun _ => True) (fun _ => trivial) (toOutcome_next h)).reports
  case forcedma ch => exact (forceDma_prims (O := fun _ => True) (A := fun _ => True) (fun _ => trivial) trivial (toOutcome_next h)).reports
  case dmaarm ch f => exact Reports.trans (.same (t := storeReg16 (cntHAddr Config.default ch) (f.toHalf true) s) rfl [] rfl) (regCommit_prims (O := fun _ => True) (fun _ => trivial) (toOutcome_next h)).reports
  case dmaoff ch f => exact Reports.trans (.same (t := storeReg16 (cntHAddr Config.default ch) (f.toHalf false) s) rfl [] rfl) (regCommit_prims (O := fun _ => True) (fun _ => trivial) (toOutcome_next h)).reports
  case reset => exact absurd rfl h1
  case loadcart m b g => exact absurd rfl (h2 m b g)
  case loadfw m => simp only [exec, execLoadfw, loadfwIn] at h; split at h <;> cases h <;> exact .same rfl [] rfl
  case loadbkp f =>
    simp only [exec, execLoadbkp, loadbkpIn] at h; split at h <;> cases h
    · exact .same rfl [] rfl
    · exact .same rfl [] rfl
    · unfold loadBackup; split <;> exact .same rfl [] rfl
  case savebkp f => simp only [exec, execSavebkp, savebkpIn] at h; split at h <;> cases h <;> exact .same rfl [] rfl
  case cstore => cases h; unfold collabStore; split <;> exact .same rfl [] rfl
  case sensor => cases h; unfold senseInput; split; exact .same rfl [] rfl; exact ⟨List.prefix_refl _, .inl rfl⟩
  case eerdreq6 => cases h; unfold burstIntoWindow; split <;> exact .same rfl [] rfl
  case eerdreq14 => cases h; unfold burstIntoWindow; split <;> exact .same rfl [] rfl
  case eewr6 => cases h; unfold burstIntoWindow; split <;> exact .same rfl [] rfl
  case eewr14 => cases h; unfold burstIntoWindow; split <;> exact .same rfl [] rfl
  case eebad => cases h; unfold burstIntoWindow; split <;> exact .same rfl [] rfl
  case eerdbit => cases h; unfold afterUnitRead; split <;> exact .same rfl [] rfl
  case fldata => cases h; exact onFlash_reports ..
  case flbanksel => cases h; exact onFlash_reports ..
  case flkey1 => cases h; exact onFlash_reports ..
  case flkey2 => cases h; exact onFlash_reports ..
  case flidenter => cases h; exact onFlash_reports ..
  case flidexit => cases h; exact onFlash_reports ..
  case flerasesetup => cases h; exact onFlash_reports ..
  case flchiperase => cases h; exact onFlash_reports ..
  case flprogram => cases h; exact onFlash_reports ..
  case flbank => cases h; exact onFlash_reports ..
  case flsectorerase => cases h; exact onFlash_reports ..
  case flignored => cases h; exact onFlash_reports ..
  case gpwrdata => cases h; exact onGpio_reports (fun s => ⟨⟨_, rfl⟩, .inr (List.mem_append_right _ (List.mem_singleton.mpr rfl))⟩) _ _
  case gpwrdir => cases h; exact onGpio_reports (fun s => ⟨⟨_, rfl⟩, .inr (List.mem_append_right _ (List.mem_singleton.mpr rfl))⟩) _ _
  case gpwrctl u b => cases h; exact onGpio_reports (f := gpioWriteCtl b) (fun s => ⟨List.prefix_refl _, .inl rfl⟩) _ _
  case gpwrrsv => cases h; exact onGpio_reports (fun s => .refl _) _ _
  all_goals first
    | (exfalso; simp [writeAccess, passEvent] at hw hp; done)
    | (cases h; exact .same rfl [] rfl)

end Sys2Proof.Machine
end

