-- ==== Sys2Proof/Laws/HostOps.lean ====
section
/-! SUPPORT. Loading, detection and saving (45_host_ops.md R341 to R345). -/

namespace Sys2Proof.Machine

theorem usable {image : List Byte} (h : image ≠ []) : usableImage (.bytes image) = some image := by
  cases image with
  | nil => exact absurd rfl h
  | cons b bs => rfl

theorem bios_size : Config.default.bios.size = 0x4000 := by rw [default_bios]; rfl

theorem rom_size : Config.default.rom.size = 0x6000000 := by rw [default_rom]; rfl

theorem exec_loadcart {image : List Byte} (h : image ≠ []) (hl : image.length ≤ 0x02000000) (backup : Option BackupType) (g : GpioType) (s : State) :
   exec (.loadcart (.bytes image) backup g) s = .next (loadCartridge Config.default image backup g s) := by
  simp only [exec, execLoadcart, loadcartIn, usable h, default_romMax]
  rw [if_neg (by omega)]

theorem startsWith_iff (l m : List Byte) : startsWith l m = true ↔ l <+: m := by
  induction l generalizing m with
  | nil => simp [startsWith]
  | cons x xs ih =>
    cases m with
    | nil => simp [startsWith]
    | cons y ys => simp [startsWith, ih, List.cons_prefix_cons]

def sigTable : List (List Byte × BackupType) :=
  [([0x45, 0x45, 0x50, 0x52, 0x4F, 0x4D, 0x5F, 0x56], .eeprom), ([0x53, 0x52, 0x41, 0x4D, 0x5F, 0x56], .sram),
        ([0x46, 0x4C, 0x41, 0x53, 0x48, 0x5F, 0x56], .flash64),
        ([0x46, 0x4C, 0x41, 0x53, 0x48, 0x35, 0x31, 0x32, 0x5F, 0x56], .flash64),
        ([0x46, 0x4C, 0x41, 0x53, 0x48, 0x31, 0x4D, 0x5F, 0x56], .flash128)]

@[simp] theorem default_sigEeprom : Config.default.sigEeprom = [0x45, 0x45, 0x50, 0x52, 0x4F, 0x4D, 0x5F, 0x56] := by rfl
@[simp] theorem default_sigSram : Config.default.sigSram = [0x53, 0x52, 0x41, 0x4D, 0x5F, 0x56] := by rfl
@[simp] theorem default_sigFlash64A : Config.default.sigFlash64A = [0x46, 0x4C, 0x41, 0x53, 0x48, 0x5F, 0x56] := by rfl
@[simp] theorem default_sigFlash64B : Config.default.sigFlash64B = [0x46, 0x4C, 0x41, 0x53, 0x48, 0x35, 0x31, 0x32, 0x5F, 0x56] := by rfl
@[simp] theorem default_sigFlash128 : Config.default.sigFlash128 = [0x46, 0x4C, 0x41, 0x53, 0x48, 0x31, 0x4D, 0x5F, 0x56] := by rfl

theorem sig_none {bytes : List Byte} (h : ∀ q ∈ sigTable, ¬ q.1 <+: bytes) : signatureAt Config.default bytes = none := by
  unfold signatureAt
  have hh : ∀ q ∈ sigTable, startsWith q.1 bytes = false := by
    intro q hq; have := h q hq; rw [← startsWith_iff] at this; simpa using this
  simp only [sigTable, List.mem_cons, List.not_mem_nil, or_false, forall_eq_or_imp, forall_eq] at hh
  obtain ⟨h1, h2, h3, h4, h5⟩ := hh
  rw [default_sigEeprom, default_sigSram, default_sigFlash64A, default_sigFlash64B, default_sigFlash128, h1, h2, h3, h4, h5]
  rfl

theorem sig_some {bytes : List Byte} {q : List Byte × BackupType} (hq : q ∈ sigTable) (h : q.1 <+: bytes) : signatureAt Config.default bytes = some q.2 := by
  unfold signatureAt
  simp only [sigTable, List.mem_cons, List.not_mem_nil, or_false] at hq
  obtain ⟨r, rfl⟩ := h
  rcases hq with rfl | rfl | rfl | rfl | rfl <;>
  · simp only [List.cons_append, List.nil_append]
    simp [startsWith]

theorem getD_drop (l : List Byte) (n i : Nat) : (l.drop n).getD i 0 = l.getD (n + i) 0 := by
  rw [List.getD_eq_getElem?_getD, List.getD_eq_getElem?_getD, List.getElem?_drop]

theorem savedBytes_length (s : State) : (savedBytes Config.default s).length = (match s.cart.backupType with
        | .none => 0
        | .eeprom => (match s.ee.size with | .small => 512 | .large => 8192)
        | .flash64 => 65536 | .flash128 => 131072 | .sram => 32768) := by
  unfold savedBytes
  cases s.cart.backupType
  · rfl
  · simp only [Memory.dump_length]; cases s.ee.size <;> simp [eeBytes]
  · simp only [Memory.dump_length, default_flBankSize]
  · simp only [List.length_append, Memory.dump_length, default_flBankSize]
  · simp only [Memory.dump_length, default_sramSize]

theorem getD_dump_lt (m : Memory) (n o : Nat) (h : o < n) : (m.dump 0 n).getD o 0 = m.read o := by
  rw [Memory.getD_dump, if_pos h, Nat.zero_add]

end Sys2Proof.Machine
end

