-- ==== Sys2Proof/Laws/Reset.lean ====
section
/-! SUPPORT. What RESET clears; what no instruction but the loads changes; who can be refused (70_reset_and_hazards.md R400, 93_implementation_defined.md U2 to U4). -/

namespace Sys2Proof.Machine

theorem inAddressSpace_store (a : Addr) : inAddressSpace Config.default a.toNat = isStoreTag (regionOf Config.default a) := by
  unfold inAddressSpace
  have h : a.toNat < 2 ^ 32 := a.isLt
  simp only [default_addrBits, h, decide_true, Bool.true_and, BitVec.ofNat_toNat, BitVec.setWidth_eq]
  cases hr : regionOf Config.default a <;> rfl

theorem resetMem_read (bl : Bool) (m : Memory) (a : Addr) : (resetMem Config.default bl m).read a.toNat = if isStoreTag (regionOf Config.default a) = true ∧ ¬ (bl = true ∧ regionOf Config.default a = .bios) then 0 else m.read a.toNat := by
  unfold resetMem
  have hz : resetZeroes Config.default bl a.toNat = (isStoreTag (regionOf Config.default a) && !(bl && decide (regionOf Config.default a = .bios))) := by
    unfold resetZeroes; rw [inAddressSpace_store, BitVec.ofNat_toNat, BitVec.setWidth_eq]
  by_cases h : resetZeroes Config.default bl a.toNat = true
  · rw [Memory.read_filter_drop (fun n => !resetZeroes Config.default bl n) m (by simp [h]), if_pos]
    rw [hz] at h; cases bl <;> simpa using h
  · rw [Memory.read_filter_keep (fun n => !resetZeroes Config.default bl n) m (by simpa using h), if_neg]
    rw [hz] at h; cases bl <;> simpa using h

theorem region_bios (a : Addr) : regionOf Config.default a = .bios ↔ a ≤ 0x00003FFF := by
  rw [regionOf_default, BitVec.le_def]
  show _ ↔ a.toNat ≤ 0x3FFF
  constructor
  · intro h; by_contra hc; split_ifs at h
  · intro h; rw [if_pos h]

/-- Nothing but the loads changes the configuration; nothing but RESET and the loads changes a BIOS or ROM byte. -/
theorem dmaReg_region {a : Addr} (h : inDmaBlock Config.default a = true) : regionOf Config.default a = .io := by
  have := (inDmaBlock_default a).mp h
  rw [regionOf_default]; split_ifs <;> first | rfl | omega

theorem storeReg32_rom (s : State) (a b : Addr) (v : Word) (h : ∀ k, k < 4 → inDmaBlock Config.default (a + BitVec.ofNat 32 k) = true) (hb : regionOf Config.default b = .bios ∨ regionOf Config.default b = .rom) : (storeReg32 a v s).asByte b = s.asByte b := by
  apply storeReg32_frame
  by_contra hc
  have := dmaReg_region (h (b - a).toNat (by omega))
  rw [BitVec.ofNat_toNat, BitVec.setWidth_eq, BitVec.add_comm, BitVec.sub_add_cancel] at this
  rcases hb with hb | hb <;> simp [hb] at this

theorem storeReg16_rom (s : State) (a b : Addr) (v : Half) (h : ∀ k, k < 2 → inDmaBlock Config.default (a + BitVec.ofNat 32 k) = true) (hb : regionOf Config.default b = .bios ∨ regionOf Config.default b = .rom) : (storeReg16 a v s).asByte b = s.asByte b := by
  apply storeReg16_frame
  by_contra hc
  have := dmaReg_region (h (b - a).toNat (by omega))
  rw [BitVec.ofNat_toNat, BitVec.setWidth_eq, BitVec.add_comm, BitVec.sub_add_cancel] at this
  rcases hb with hb | hb <;> simp [hb] at this

theorem cntH_block2 (ch : Chan) : ∀ k, k < 2 → inDmaBlock Config.default (cntHAddr Config.default ch + BitVec.ofNat 32 k) = true := by
  intro k hk
  have hv := toNat_add_small (k := k) (cntHAddr_default ch) (by have := ch.isLt; omega)
  exact (inDmaBlock_default _).mpr (by have := ch.isLt; omega)

theorem collab_io {a : Addr} (h : collaboratorOwns Config.default a = true) : regionOf Config.default a = .io := by
  have : (0x04000000 ≤ a.toNat ∧ a.toNat ≤ 0x040003FF) := by
    simp only [collaboratorOwns, Bool.or_eq_true, Range.has_iff] at h
    simp only [default_lcdIo, default_apuIo, default_tmrIo] at h
    simp at h; omega
  rw [regionOf_default]; split_ifs <;> first | rfl | omega

theorem onFlash_frame (f : BackupType → Flash → Flash) (s : State) : (onFlash f s).cart = s.cart ∧ (onFlash f s).mem = s.mem := by
  unfold onFlash; split <;> exact ⟨rfl, rfl⟩

theorem onGpio_frame {f : State → State} (hf : ∀ s, (f s).cart = s.cart ∧ (f s).mem = s.mem) (u : Nat) (s : State) : (onGpio u f s).cart = s.cart ∧ (onGpio u f s).mem = s.mem := by
  unfold onGpio; split; exact ⟨rfl, rfl⟩; split; exact ⟨rfl, rfl⟩; exact hf _

theorem burst_frame (src : Addr) (bits : List Bool) (s : State) : (burstIntoWindow Config.default src bits s).cart = s.cart ∧ (burstIntoWindow Config.default src bits s).mem = s.mem := by
  unfold burstIntoWindow; split <;> exact ⟨rfl, rfl⟩

theorem exec_cartRom {i : Instr} {s t : State} (h : exec i s = .next t) (h1 : ∀ m, i ≠ .loadfw m) (h2 : ∀ m b g, i ≠ .loadcart m b g) :
   t.cart = s.cart ∧ (i ≠ .reset → ∀ a : Addr, regionOf Config.default a = .bios ∨ regionOf Config.default a = .rom → t.asByte a = s.asByte a) := by
  by_cases hw : ∃ a bs, writeAccess i = some (a, bs)
  · obtain ⟨a, bs, hw⟩ := hw
    have hp := exec_write_prims hw h
    refine ⟨by rw [hp.frame.1]; simp, fun _ a ha => ?_⟩
    rw [hp.romBytes ha]; exact asByte_congr (by simp) _
  by_cases hp : ∃ ev, passEvent i = some ev
  · obtain ⟨ev, hp⟩ := hp
    rw [exec_pass hp] at h
    have hp := dmaService_prims (O := fun _ => True) (fun _ => trivial) (toOutcome_next h)
    exact ⟨hp.frame.1, fun _ a ha => hp.romBytes ha⟩
  have mm : ∀ {u : State}, u.cart = s.cart → u.mem = s.mem → u.cart = s.cart ∧ (i ≠ .reset → ∀ a : Addr, regionOf Config.default a = .bios ∨ regionOf Config.default a = .rom → u.asByte a = s.asByte a) :=
    fun hc hm => ⟨hc, fun _ a _ => asByte_congr hm a⟩
  cases i
  case dmatick =>
    have hp := dmaService_prims (O := fun _ => True) (fun _ => trivial) (toOutcome_next h)
    exact ⟨hp.frame.1, fun _ a ha => hp.romBytes ha⟩
  case forcedma ch =>
    have hp := forceDma_prims (O := fun _ => True) (A := fun _ => True) (fun _ => trivial) trivial (toOutcome_next h)
    exact ⟨hp.frame.1, fun _ a ha => hp.romBytes ha⟩
  case dmaarm ch f =>
    have hp := regCommit_prims (O := fun _ => True) (fun _ => trivial) (toOutcome_next h)
    exact ⟨hp.frame.1, fun _ a ha => (hp.romBytes ha).trans (storeReg16_rom _ _ _ _ (cntH_block2 ch) ha)⟩
  case dmaoff ch f =>
    have hp := regCommit_prims (O := fun _ => True) (fun _ => trivial) (toOutcome_next h)
    exact ⟨hp.frame.1, fun _ a ha => (hp.romBytes ha).trans (storeReg16_rom _ _ _ _ (cntH_block2 ch) ha)⟩
  case dmasad ch v => cases h; exact ⟨rfl, fun _ a ha => storeReg32_rom _ _ _ _ (fun k hk => (sad_block ch k hk).1) ha⟩
  case dmadad ch v => cases h; exact ⟨rfl, fun _ a ha => storeReg32_rom _ _ _ _ (fun k hk => (dad_block ch k hk).1) ha⟩
  case dmacnt ch v => cases h; exact ⟨rfl, fun _ a ha => storeReg16_rom _ _ _ _ (fun k hk => (cntL_block ch k hk).1) ha⟩
  case reset => cases h; exact ⟨rfl, fun hh => absurd rfl hh⟩
  case loadcart m b g => exact absurd rfl (h2 m b g)
  case loadfw m => exact absurd rfl (h1 m)
  case loadbkp f =>
    simp only [exec, execLoadbkp, loadbkpIn] at h; split at h <;> cases h
    · exact mm rfl rfl
    · exact mm rfl rfl
    · unfold loadBackup; split <;> exact mm rfl rfl
  case savebkp f => simp only [exec, execSavebkp, savebkpIn] at h; split at h <;> cases h <;> exact mm rfl rfl
  case cstore a b =>
    cases h; unfold collabStore
    split
    · rename_i hc
      refine ⟨rfl, fun _ x hx => ?_⟩
      refine (asByte_write s a x b).trans ?_
      rw [if_neg]
      rintro rfl
      rw [collab_io hc] at hx; simp at hx
    · exact mm rfl rfl
  case sensor => cases h; unfold senseInput; split <;> exact mm rfl rfl
  case eerdreq6 => cases h; exact mm (burst_frame ..).1 (burst_frame ..).2
  case eerdreq14 => cases h; exact mm (burst_frame ..).1 (burst_frame ..).2
  case eewr6 => cases h; exact mm (burst_frame ..).1 (burst_frame ..).2
  case eewr14 => cases h; exact mm (burst_frame ..).1 (burst_frame ..).2
  case eebad => cases h; exact mm (burst_frame ..).1 (burst_frame ..).2
  case eerdbit => cases h; unfold afterUnitRead; split <;> exact mm rfl rfl
  case fldata => cases h; exact mm (onFlash_frame ..).1 (onFlash_frame ..).2
  case flbanksel => cases h; exact mm (onFlash_frame ..).1 (onFlash_frame ..).2
  case flkey1 => cases h; exact mm (onFlash_frame ..).1 (onFlash_frame ..).2
  case flkey2 => cases h; exact mm (onFlash_frame ..).1 (onFlash_frame ..).2
  case flidenter => cases h; exact mm (onFlash_frame ..).1 (onFlash_frame ..).2
  case flidexit => cases h; exact mm (onFlash_frame ..).1 (onFlash_frame ..).2
  case flerasesetup => cases h; exact mm (onFlash_frame ..).1 (onFlash_frame ..).2
  case flchiperase => cases h; exact mm (onFlash_frame ..).1 (onFlash_frame ..).2
  case flprogram => cases h; exact mm (onFlash_frame ..).1 (onFlash_frame ..).2
  case flbank => cases h; exact mm (onFlash_frame ..).1 (onFlash_frame ..).2
  case flsectorerase => cases h; exact mm (onFlash_frame ..).1 (onFlash_frame ..).2
  case flignored => cases h; exact mm (onFlash_frame ..).1 (onFlash_frame ..).2
  case gpwrdata u b => cases h; exact mm (onGpio_frame (f := gpioWriteData Config.default b) (fun _ => ⟨rfl, rfl⟩) ..).1 (onGpio_frame (f := gpioWriteData Config.default b) (fun _ => ⟨rfl, rfl⟩) ..).2
  case gpwrdir u b => cases h; exact mm (onGpio_frame (f := gpioWriteDir Config.default b) (fun _ => ⟨rfl, rfl⟩) ..).1 (onGpio_frame (f := gpioWriteDir Config.default b) (fun _ => ⟨rfl, rfl⟩) ..).2
  case gpwrctl u b => cases h; exact mm (onGpio_frame (f := gpioWriteCtl b) (fun _ => ⟨rfl, rfl⟩) ..).1 (onGpio_frame (f := gpioWriteCtl b) (fun _ => ⟨rfl, rfl⟩) ..).2
  case gpwrrsv u b => cases h; exact mm (onGpio_frame (f := gpioWriteRsv) (fun _ => ⟨rfl, rfl⟩) ..).1 (onGpio_frame (f := gpioWriteRsv) (fun _ => ⟨rfl, rfl⟩) ..).2
  all_goals first
    | (exfalso; simp [writeAccess, passEvent] at hw hp; done)
    | (cases h; exact mm rfl rfl)

theorem forceDma_refused {c : Config} {ch : Chan} {s : State} {r : Refusal} (h : forceDma c ch s = .error r) : r = .dmaWritesDmaRegisters := by
  unfold forceDma at h; simp only at h
  split at h
  · exact dmaRun_refused h
  · cases h

theorem mayRun_write {i : Instr} {a : Addr} {bs : List Byte} (h : writeAccess i = some (a, bs)) : mayRunDma i = true ∧ mayArm i = true := by
  unfold mayRunDma mayArm; simp [h]

theorem chanOrder {s : State} {ch : Chan} {w : Half} {r : Refusal} (h : writeControl Config.default ch w s = .error r) (hw : ctlEnable w = false) : r = .dmaWritesDmaRegisters ∨ cntHOf Config.default (storeReg16 (cntHAddr Config.default ch) w s) ch ≠ w := by
  by_cases hc : cntHOf Config.default (storeReg16 (cntHAddr Config.default ch) w s) ch = w
  · left
    unfold writeControl at h
    rw [regCommit_one] at h
    unfold commitCntH at h
    rw [hc, hw] at h
    exact dmaService_refused h
  · exact .inr hc

end Sys2Proof.Machine
end

