-- ==== Sys2Proof/Laws/Flash.lean ====
section
/-! SUPPORT. The Flash engine behind the bus: one byte access is one row of R289; unlock sequences; what programming and erasing leave (43_flash.md R271 to R289). -/

namespace Sys2Proof.Machine

theorem bkpAddr_toNat (off : Half) : (bkpAddr Config.default off).toNat = 0x0E000000 + off.toNat := by
  unfold bkpAddr; rw [default_bkp, BitVec.toNat_add, BitVec.toNat_setWidth]
  have := off.isLt
  simp; omega

theorem bkpAddr_tag (g : GpioType) (off : Half) : decodeTag Config.default g (bkpAddr Config.default off) = .bkp := by
  have h := bkpAddr_toNat off
  have := off.isLt
  rw [decodeTag_default]; split_ifs <;> first | rfl | omega

theorem bkpOffset_bkpAddr (off : Half) : bkpOffset Config.default (bkpAddr Config.default off) = off := by
  apply BitVec.eq_of_toNat_eq
  unfold bkpOffset
  rw [BitVec.toNat_setWidth, BitVec.toNat_sub, bkpAddr_toNat, default_bkp]
  have := off.isLt
  simp; omega

theorem bkpAddr_noCntH (off : Half) : isCntHByte Config.default (bkpAddr Config.default off) = false := by
  by_contra hc
  obtain ⟨ch, h⟩ := (isCntHByte_iff _).mp (by simpa using hc)
  rw [bkpAddr_toNat] at h
  have := ch.isLt; omega

theorem exec_fwr8_flash {s : State} (h : s.cart.backupType.isFlash = true) (off : Half) (b : Byte) :
   exec (.fwr8 (bkpAddr Config.default off) b) s = .next (s.start.setFl (flashWrite Config.default s.cart.backupType off b s.fl)) := by
  obtain ⟨t, ht, hb⟩ := exec_write_plain (i := .fwr8 (bkpAddr Config.default off) b) rfl s (by intro k hk; simp at hk; subst hk; simpa using bkpAddr_noCntH off)
  rw [ht]; congr 1
  have hw : writeByte Config.default .cpu (bkpAddr Config.default off) b s.start = .ok t := by
    simp only [writeBytes] at hb; split at hb <;> cases hb; assumption
  unfold writeByte at hw
  rw [bkpAddr_tag] at hw
  simp only [backupWriteByte, bkpOffset_bkpAddr] at hw
  cases hbt : s.cart.backupType <;> simp [hbt, BackupType.isFlash] at h <;> · simp only [State.start_cart, hbt] at hw; cases hw; rfl

theorem exec_frd8_flash {s : State} (h : s.cart.backupType.isFlash = true) (off : Half) :
   exec (.frd8 (bkpAddr Config.default off)) s = .next (s.start.answer (some (.byte (flashRead Config.default s.cart.backupType s.fl off))) none) := by
  show Host.Outcome.next _ = _
  unfold fastRead
  have : readByte Config.default s (bkpAddr Config.default off) = flashRead Config.default s.cart.backupType s.fl off := by
    unfold readByte; rw [bkpAddr_tag]
    simp only [backupReadByte, bkpOffset_bkpAddr]
    cases hbt : s.cart.backupType <;> simp [hbt, BackupType.isFlash] at h <;> rfl
  simp only [memRead, AccessWidth.bytes, readBytes, this, readValue, joinLE_one]

/-- The engine row of an instruction of format FLASHCMD. -/
theorem flashWrite_row {s : State} (h : s.cart.backupType.isFlash = true) (off : Half) (b : Byte) :
   exec (decodeFlash Config.default s.ctx off b) s = .next (s.start.setFl (flashWrite Config.default s.cart.backupType off b s.fl)) := by
  have on : ∀ f, onFlash f s = s.start.setFl (f s.cart.backupType s.fl) := by intro f; unfold onFlash; rw [if_pos h]
  have c1 : s.ctx.writeSingleByte = s.fl.writeSingleByte := rfl
  have c2 : s.ctx.switchBank = s.fl.switchBank := rfl
  have c3 : s.ctx.pending = s.fl.pending := rfl
  have c4 : s.ctx.writeArmed = s.fl.writeArmed := rfl
  have c5 : s.ctx.backup = s.cart.backupType := rfl
  have ign : exec (.flignored off b) s = .next (s.start.setFl s.fl.ignored) := congrArg Host.Outcome.next (on _)
  unfold decodeFlash flashWrite
  rw [c1, c2, c3]
  by_cases w1 : s.fl.writeSingleByte = true
  · rw [if_pos w1, if_pos w1]; exact congrArg Host.Outcome.next (on _)
  rw [if_neg w1, if_neg w1]
  by_cases w2 : s.fl.switchBank = true
  · rw [if_pos w2, if_pos w2]; exact congrArg Host.Outcome.next (on _)
  rw [if_neg w2, if_neg w2]
  cases hp : s.fl.pending
  · simp only
    split
    · exact congrArg Host.Outcome.next (on _)
    · exact ign
  · simp only
    split
    · exact congrArg Host.Outcome.next (on _)
    · exact ign
  · simp only
    have cm : s.fl.ignored = s.fl.common := by unfold Flash.ignored; rw [hp]
    unfold decodeFlashCommand Flash.command
    rw [c4, c5]
    by_cases ho : off = Config.default.flAddr1
    · rw [if_pos ho, if_pos ho]
      by_cases h1 : b = Config.default.flCmdIdEnter
      · rw [if_pos h1, if_pos h1]; exact congrArg Host.Outcome.next (on _)
      rw [if_neg h1, if_neg h1]
      by_cases h1 : b = Config.default.flCmdIdExit
      · rw [if_pos h1, if_pos h1]; exact congrArg Host.Outcome.next (on _)
      rw [if_neg h1, if_neg h1]
      by_cases h1 : b = Config.default.flCmdEraseSetup
      · rw [if_pos h1, if_pos h1]; exact congrArg Host.Outcome.next (on _)
      rw [if_neg h1, if_neg h1]
      by_cases h1 : b = Config.default.flCmdChipErase
      · rw [if_pos h1]
        by_cases ha : s.fl.writeArmed = true
        · rw [if_pos ⟨h1, ha⟩]; exact congrArg Host.Outcome.next (on _)
        · rw [if_neg fun h => ha h.2]
          have e1 : b ≠ Config.default.flCmdProgram := by rw [h1]; simp
          have e2 : b ≠ Config.default.flCmdBank := by rw [h1]; simp
          rw [if_neg e1, if_neg fun h => e2 h.1, ign, cm]
          unfold Flash.chipErase; rw [if_neg ha]
      · rw [if_neg fun h => h1 h.1, if_neg h1]
        by_cases h1 : b = Config.default.flCmdProgram
        · rw [if_pos h1, if_pos h1]; exact congrArg Host.Outcome.next (on _)
        rw [if_neg h1, if_neg h1]
        by_cases h1 : b = Config.default.flCmdBank
        · rw [if_pos h1]
          by_cases hb : s.cart.backupType = .flash128
          · rw [if_pos ⟨h1, hb⟩]; exact congrArg Host.Outcome.next (on _)
          · rw [if_neg fun h => hb h.2, ign, cm]
            unfold Flash.armBank; rw [if_neg hb]
        · rw [if_neg fun h => h1 h.1, if_neg h1]; exact ign
    · rw [if_neg ho, if_neg ho]
      by_cases h1 : b = Config.default.flCmdSectorErase
      · rw [if_pos h1]
        by_cases ha : s.fl.writeArmed = true
        · rw [if_pos ⟨h1, ha⟩]; exact congrArg Host.Outcome.next (on _)
        · rw [if_neg fun h => ha h.2, ign, cm]
          unfold Flash.sectorErase; rw [if_neg ha]
      · rw [if_neg fun h => h1 h.1, if_neg h1]; exact ign

theorem exec_flread_flash {s : State} (h : s.cart.backupType.isFlash = true) (off : Half) :
   exec (.flread off) s = .next (s.start.answer (some (.byte (flashRead Config.default s.cart.backupType s.fl off))) none) := by
  show Host.Outcome.next _ = _
  have : backupReadByte Config.default s off = flashRead Config.default s.cart.backupType s.fl off := by
    unfold backupReadByte
    cases hbt : s.cart.backupType <;> simp [hbt, BackupType.isFlash] at h <;> rfl
  rw [this]

theorem flashRead_default (bt : BackupType) (fl : Flash) (off : Half) : flashRead Config.default bt fl off = 
   (if fl.idMode = true ∧ off = 0 then (if bt = .flash64 then 0x32 else 0xC2)
        else if fl.idMode = true ∧ off = 1 then (if bt = .flash64 then 0x1B else 0x09)
        else fl.active.read off.toNat) := by
  unfold flashRead idPair
  by_cases h : bt = .flash64
  · simp only [if_pos h]; simp only [default_fl64Man, default_fl64Dev]
  · simp only [if_neg h]; simp only [default_fl128Man, default_fl128Dev]

theorem on_flash {s : State} (h : s.cart.backupType.isFlash = true) (f : BackupType → Flash → Flash) : onFlash f s = s.start.setFl (f s.cart.backupType s.fl) := by
  unfold onFlash; rw [if_pos h]

theorem program_read (off : Half) (b : Byte) (fl : Flash) :
   (∀ o, (fl.program off b).data0.read o = if fl.bank = .bank0 ∧ o = off.toNat then fl.data0.read o &&& b else fl.data0.read o)
   ∧ (∀ o, (fl.program off b).data1.read o = if fl.bank = .bank1 ∧ o = off.toNat then fl.data1.read o &&& b else fl.data1.read o)
   ∧ fl.program off b = { fl with writeSingleByte := false, data0 := (fl.program off b).data0, data1 := (fl.program off b).data1 } := by
  unfold Flash.program Flash.setActive Flash.active
  cases fl.bank
  · refine ⟨fun o => ?_, fun o => by simp, rfl⟩
    simp only [true_and]
    rw [Memory.read_write]
    split
    · rename_i h; rw [h]
    · rfl
  · refine ⟨fun o => by simp, fun o => ?_, rfl⟩
    simp only [true_and]
    rw [Memory.read_write]
    split
    · rename_i h; rw [h]
    · rfl

theorem getD_replicate (n i : Nat) (b : Byte) (h : i < n) : (List.replicate n b).getD i 0 = b := by
  rw [List.getD_eq_getElem _ _ (by simpa using h)]; simp

theorem sector_read (m : Memory) (off : Half) (o : Nat) : (m.fill (sectorOf off * 0x1000) 0x1000 (List.replicate 0x1000 0xFF)).read o = if o / 0x1000 = off.toNat / 0x1000 then 0xFF else m.read o := by
  have hs : sectorOf off = off.toNat / 0x1000 := by
    unfold sectorOf
    rw [BitVec.extractLsb'_toNat]
    have := off.isLt
    rw [Nat.shiftRight_eq_div_pow]; omega
  rw [Memory.read_fill, hs]
  by_cases h : o / 0x1000 = off.toNat / 0x1000
  · rw [if_pos h, if_pos (by omega), getD_replicate]; omega
  · rw [if_neg h, if_neg (by omega)]

theorem erased_read (m : Memory) (o : Nat) (h : o < 0x10000) : (erasedBank Config.default m).read o = 0xFF := by
  unfold erasedBank
  rw [Memory.read_fill, default_flBankSize, if_pos (by omega), getD_replicate]; omega

theorem sectorErase_frame (off : Half) {fl : Flash} (ha : fl.writeArmed = true) : fl.sectorErase Config.default off
   = { fl with pending := .none, writeArmed := false, data0 := (fl.sectorErase Config.default off).data0, data1 := (fl.sectorErase Config.default off).data1 } := by
  obtain ⟨p, b, d0, d1, w, sb, i, ar⟩ := fl
  unfold Flash.sectorErase Flash.eraseSector Flash.setActive Flash.common
  simp only at ha
  subst ha
  cases b <;> rfl

theorem flashWrite_key1 {bt : BackupType} {fl : Flash} (h1 : fl.writeSingleByte = false) (h2 : fl.switchBank = false) (h3 : fl.pending = .none) :
   flashWrite Config.default bt 0x5555 0xAA fl = { fl with pending := .key1 } := by
  unfold flashWrite; simp [h1, h2, h3, Flash.key1]

theorem flashWrite_key2 {bt : BackupType} {fl : Flash} (h1 : fl.writeSingleByte = false) (h2 : fl.switchBank = false) (h3 : fl.pending = .key1) :
   flashWrite Config.default bt 0x2AAA 0x55 fl = { fl with pending := .key2 } := by
  unfold flashWrite; simp [h1, h2, h3, Flash.key2]

theorem flashWrite_command {bt : BackupType} {fl : Flash} (off : Half) (b : Byte) (h1 : fl.writeSingleByte = false) (h2 : fl.switchBank = false) (h3 : fl.pending = .key2) :
   flashWrite Config.default bt off b fl = fl.command Config.default bt off b := by
  unfold flashWrite; simp [h1, h2, h3]

theorem command_program {bt : BackupType} {fl : Flash} : fl.command Config.default bt 0x5555 0xA0 = fl.armProgram := by
  unfold Flash.command; simp

theorem command_eraseSetup {bt : BackupType} {fl : Flash} : fl.command Config.default bt 0x5555 0x80 = fl.eraseSetup := by
  unfold Flash.command; simp

theorem command_sector {bt : BackupType} {fl : Flash} {off : Half} (h : off ≠ 0x5555) : fl.command Config.default bt off 0x30 = fl.sectorErase Config.default off := by
  unfold Flash.command; rw [if_neg (by simpa using h)]; simp

theorem addr1 : (0x0E005555 : Addr) = bkpAddr Config.default 0x5555 := by rfl

theorem addr2 : (0x0E002AAA : Addr) = bkpAddr Config.default 0x2AAA := by rfl

/-- Bytes written to the Flash one after another are those writes of the engine. -/
theorem execAll_flash (bt : BackupType) (hbt : bt.isFlash = true) (l : List (Half × Byte)) : ∀ {s : State}, s.cart.backupType = bt → l ≠ [] →
   execAll (l.map fun p => .fwr8 (bkpAddr Config.default p.1) p.2) s = .next (s.start.setFl (l.foldl (fun fl p => flashWrite Config.default bt p.1 p.2 fl) s.fl)) := by
  induction l with
  | nil => intro s _ h; exact absurd rfl h
  | cons p l ih =>
    intro s hb _
    rw [List.map_cons, execAll, exec_fwr8_flash (by rw [hb]; exact hbt), hb]
    cases l with
    | nil => rfl
    | cons q l => 
      simp only
      rw [ih (by exact hb) (by simp)]
      rfl

/-- The unlock prefix, then a command byte. -/
theorem flash_unlock (bt : BackupType) {fl : Flash} (h1 : fl.writeSingleByte = false) (h2 : fl.switchBank = false) (h3 : fl.pending = .none) (off : Half) (b : Byte) :
   flashWrite Config.default bt off b (flashWrite Config.default bt 0x2AAA 0x55 (flashWrite Config.default bt 0x5555 0xAA fl)) = Flash.command Config.default bt off b { fl with pending := .key2 } := by
  rw [flashWrite_key1 h1 h2 h3]
  rw [flashWrite_key2 (fl := { fl with pending := .key1 }) h1 h2 rfl]
  rw [flashWrite_command (fl := { fl with pending := .key2 }) off b h1 h2 rfl]

theorem flash_programSeq (bt : BackupType) {fl : Flash} (h1 : fl.writeSingleByte = false) (h2 : fl.switchBank = false) (h3 : fl.pending = .none) (off : Half) (b : Byte) :
   ([(0x5555, 0xAA), (0x2AAA, 0x55), (0x5555, 0xA0), (off, b)] : List (Half × Byte)).foldl (fun fl p => flashWrite Config.default bt p.1 p.2 fl) fl
    = Flash.program off b { fl with pending := .none, writeArmed := false, writeSingleByte := true } := by
  simp only [List.foldl]
  rw [flash_unlock bt h1 h2 h3, command_program]
  unfold flashWrite
  rw [if_pos (by rfl)]
  rfl

theorem flash_eraseSeq (bt : BackupType) {fl : Flash} (h1 : fl.writeSingleByte = false) (h2 : fl.switchBank = false) (h3 : fl.pending = .none) (off : Half) (ho : off ≠ 0x5555) :
   ([(0x5555, 0xAA), (0x2AAA, 0x55), (0x5555, 0x80), (0x5555, 0xAA), (0x2AAA, 0x55), (off, 0x30)] : List (Half × Byte)).foldl (fun fl p => flashWrite Config.default bt p.1 p.2 fl) fl
    = Flash.sectorErase Config.default off { fl with pending := .key2, writeArmed := true } := by
  simp only [List.foldl]
  rw [flash_unlock bt h1 h2 h3, command_eraseSetup]
  have e : Flash.eraseSetup { fl with pending := .key2 } = { fl with pending := .none, writeArmed := true } := rfl
  rw [e, flash_unlock bt (fl := { fl with pending := .none, writeArmed := true }) h1 h2 rfl, command_sector ho]

end Sys2Proof.Machine
end

