-- ==== Sys2Proof/Laws/Stores.lean ====
section
/-! SUPPORT. Every instruction keeps the stores canonical and inside their ranges; what a step is. -/

namespace Sys2Proof.Machine

/-- A store in its canonical form, inside its range. -/
def Memory.okIn (p : Nat → Bool) (m : Memory) : Prop := m.wf = true ∧ m.within p = true

theorem Memory.okIn_write {p : Nat → Bool} {m : Memory} {a : Nat} (b : Byte) (h : m.okIn p) (ha : p a = true) : (m.write a b).okIn p :=
  ⟨Memory.wf_write a b h.1, Memory.within_write b h.2 ha⟩

theorem Memory.okIn_fill {p : Nat → Bool} {m : Memory} {lo n : Nat} (bs : List Byte) (h : m.okIn p) (ha : ∀ i, i < n → p (lo + i) = true) : (m.fill lo n bs).okIn p :=
  ⟨Memory.wf_fill lo n bs h.1, Memory.within_fill bs h.2 fun a h1 h2 => by rw [show a = lo + (a - lo) by omega]; exact ha _ (by omega)⟩

theorem Memory.okIn_filter {p : Nat → Bool} {m : Memory} (q : Host.Cell → Bool) (h : m.okIn p) : Memory.okIn p (m.filter q) :=
  ⟨Memory.wf_filter q h.1, Memory.within_filter q h.2⟩

theorem Memory.okIn_nil (p : Nat → Bool) : Memory.okIn p [] := ⟨rfl, rfl⟩

/-- The stores of a state, one by one. -/
def StoresOk (s : State) : Prop :=
  s.mem.okIn (inAddressSpace Config.default) ∧ s.sram.okIn (fun o => decide (o < 0x10000)) ∧ s.ee.data.okIn (fun o => decide (o < 8192))
   ∧ s.fl.data0.okIn (fun o => decide (o < 0x10000)) ∧ s.fl.data1.okIn (fun o => decide (o < 0x10000))

theorem storesOk_iff (s : State) : s.storesOk Config.default = true ↔ StoresOk s := by
  unfold State.storesOk StoresOk Memory.okIn
  simp only [Bool.and_eq_true, default_sramWindow, default_eeLarge, default_flBankSize]
  tauto

theorem storeTag_region {g : GpioType} {a : Addr} (h : decodeTag Config.default g a = .wram ∨ decodeTag Config.default g a = .iwram
        ∨ decodeTag Config.default g a = .pal ∨ decodeTag Config.default g a = .vram ∨ decodeTag Config.default g a = .oam ∨ decodeTag Config.default g a = .io) : inAddressSpace Config.default a.toNat = true := by
  have hg : decodeTag Config.default g a ≠ .gpio := by rcases h with h | h | h | h | h | h <;> rw [h] <;> simp
  rw [decodeTag_of_region hg] at h
  unfold inAddressSpace
  have hlt : a.toNat < 2 ^ 32 := a.isLt
  simp only [default_addrBits, hlt, decide_true, Bool.true_and, BitVec.ofNat_toNat, BitVec.setWidth_eq]
  rcases h with h | h | h | h | h | h <;> simp only [h]

/-- The Flash arrays. -/
def FlashOk (fl : Flash) : Prop := fl.data0.okIn (fun o => decide (o < 0x10000)) ∧ fl.data1.okIn (fun o => decide (o < 0x10000))

theorem FlashOk.setActive {fl : Flash} {m : Memory} (h : FlashOk fl) (hm : m.okIn (fun o => decide (o < 0x10000))) : FlashOk (fl.setActive m) := by
  unfold Flash.setActive; split
  · exact ⟨hm, h.2⟩
  · exact ⟨h.1, hm⟩

theorem FlashOk.active {fl : Flash} (h : FlashOk fl) : fl.active.okIn (fun o => decide (o < 0x10000)) := by
  unfold Flash.active; split
  · exact h.1
  · exact h.2

theorem FlashOk.program {fl : Flash} (h : FlashOk fl) (off : Half) (b : Byte) : FlashOk (fl.program off b) := by
  have := h.setActive (Memory.okIn_write (a := off.toNat) (fl.active.read off.toNat &&& b) h.active (by simpa using off.isLt))
  exact this

theorem FlashOk.chipErase {fl : Flash} (h : FlashOk fl) (bt : BackupType) : FlashOk (fl.chipErase Config.default bt) := by
  have e : ∀ {m : Memory}, m.okIn (fun o => decide (o < 0x10000)) → (erasedBank Config.default m).okIn (fun o => decide (o < 0x10000)) := by
    intro m hm
    unfold erasedBank; rw [default_flBankSize]
    exact Memory.okIn_fill _ hm fun i hi => by simp; omega
  unfold Flash.chipErase Flash.eraseAll
  split
  · refine ⟨e h.1, ?_⟩
    show Memory.okIn _ (if bt = .flash128 then _ else _)
    split
    · exact e h.2
    · exact h.2
  · exact h

theorem sectorOf_lt (off : Half) : sectorOf off < 16 := by
  unfold sectorOf; exact (off.extractLsb' 12 4).isLt

theorem FlashOk.sectorErase {fl : Flash} (h : FlashOk fl) (off : Half) : FlashOk (fl.sectorErase Config.default off) := by
  unfold Flash.sectorErase Flash.eraseSector
  split
  · refine FlashOk.setActive (fl := fl.common) h (Memory.okIn_fill _ (FlashOk.active (fl := fl.common) h) fun i hi => ?_)
    have := sectorOf_lt off
    rw [default_flSector] at hi ⊢
    simp; omega
  · exact h

theorem FlashOk.ignored {fl : Flash} (h : FlashOk fl) : FlashOk fl.ignored := by
  unfold Flash.ignored; split <;> exact h

theorem FlashOk.armBank {fl : Flash} (h : FlashOk fl) (bt : BackupType) : FlashOk (fl.armBank bt) := by
  unfold Flash.armBank; split <;> exact h

theorem FlashOk.write {fl : Flash} (h : FlashOk fl) (bt : BackupType) (off : Half) (b : Byte) : FlashOk (flashWrite Config.default bt off b fl) := by
  unfold flashWrite
  split
  · exact h.program off b
  split
  · exact h
  split
  · split
    · exact h
    · exact h.ignored
  · split
    · exact h
    · exact h.ignored
  · unfold Flash.command
    split
    · split; exact h
      split; exact h
      split; exact h
      split; exact h.chipErase bt
      split; exact h
      split; exact h.armBank bt
      exact h.ignored
    · split
      · exact h.sectorErase off
      · exact h.ignored

theorem page_lt (a : BitVec 14) (sz : EeSize) : eePageOf Config.default a sz < 1024 := by
  cases sz
  · rw [page_small]; omega
  · rw [page_large]; omega

theorem commitBytes_ok (buf : BitVec 81) (n base : Nat) (k : Nat) : ∀ (j : Nat) {m : Memory}, base + j + k ≤ 8192 → m.okIn (fun o => decide (o < 8192)) → (commitBytes buf n base j k m).okIn (fun o => decide (o < 8192)) := by
  induction k with
  | zero => intro j m _ h; exact h
  | succ k ih =>
    intro j m hb h
    exact ih (j + 1) (by omega) (Memory.okIn_write _ h (by simp; omega))

theorem burstEnd_ok {ee : Eeprom} (h : ee.data.okIn (fun o => decide (o < 8192))) : (eepromBurstEnd Config.default ee).data.okIn (fun o => decide (o < 8192)) := by
  rcases burstEnd_cases ee with e | ⟨sz, -, -, e⟩ | ⟨sz, -, -, e⟩
  · rw [e]; exact h
  · rw [e]; exact h
  · rw [e]
    show (commitBytes _ _ _ _ _ _).okIn _
    refine commitBytes_ok _ _ _ _ _ ?_ h
    rw [default_eePage]
    have := page_lt (ee.latch Config.default sz).addr (ee.latch Config.default sz).size
    omega

theorem shiftIn_data (b : Bool) (src : Addr) (ee : Eeprom) : (eepromShiftIn b src ee).data = ee.data := by
  unfold eepromShiftIn Eeprom.begin Eeprom.take; split <;> rfl

theorem shiftOut_data (ee : Eeprom) : (eepromShiftOut Config.default ee).data = ee.data := by
  unfold eepromShiftOut; split; split <;> rfl; rfl

theorem fold_data (bits : List Bool) (src : Addr) : ∀ ee : Eeprom, (bits.foldl (fun e b => eepromShiftIn b src e) ee).data = ee.data := by
  induction bits with
  | nil => intro ee; rfl
  | cons b bits ih => intro ee; rw [List.foldl_cons, ih, shiftIn_data]

theorem burst_ok {ee : Eeprom} (h : ee.data.okIn (fun o => decide (o < 8192))) (src : Addr) (bits : List Bool) : (eepromBurst Config.default src bits ee).data.okIn (fun o => decide (o < 8192)) := by
  unfold eepromBurst; exact burstEnd_ok (by rw [fold_data]; exact h)

theorem writeByte_stores {org : Origin} {a : Addr} {b : Byte} {s t : State} (h : writeByte Config.default org a b s = .ok t) (hs : StoresOk s) : StoresOk t := by
  obtain ⟨h1, h2, h3, h4, h5⟩ := hs
  rcases writeByte_cases h with ⟨b', l, rfl, _, htag, _⟩ | ⟨htag, rfl⟩ | ⟨htag, rfl⟩ | ⟨htag, rfl⟩
  · exact ⟨Memory.okIn_write _ h1 (storeTag_region htag), h2, h3, h4, h5⟩
  · obtain ⟨g1, g2, g3, g4, g5, -⟩ := gpioWriteByte_frame Config.default (gpioOffset Config.default a) b s
    unfold StoresOk
    rw [g3, g5, g2, g4]; exact ⟨h1, h2, h3, h4, h5⟩
  · have hlt := (bkpOffset Config.default a).isLt
    unfold backupWriteByte
    split
    · exact ⟨h1, Memory.okIn_write _ h2 (by simpa using hlt), h3, h4, h5⟩
    · have := FlashOk.write ⟨h4, h5⟩ s.cart.backupType (bkpOffset Config.default a) b
      exact ⟨h1, h2, h3, this.1, this.2⟩
    · have := FlashOk.write ⟨h4, h5⟩ s.cart.backupType (bkpOffset Config.default a) b
      exact ⟨h1, h2, h3, this.1, this.2⟩
    · exact ⟨h1, h2, h3, h4, h5⟩
    · exact ⟨h1, h2, h3, h4, h5⟩
  · exact ⟨h1, h2, h3, h4, h5⟩

theorem block_space {a : Addr} (h : inDmaBlock Config.default a = true) : inAddressSpace Config.default a.toNat = true := by
  have := (inDmaBlock_default a).mp h
  rw [inAddressSpace_default]; omega

theorem Prim.stores {O : Origin → Prop} {A : Chan → Prop} {s t : State} (h : Prim Config.default O A s t) (hs : StoresOk s) : StoresOk t := by
  have hs' := hs
  obtain ⟨h1, h2, h3, h4, h5⟩ := hs
  cases h with
  | byte _ hb => exact writeByte_stores hb hs'
  | shiftOut _ => refine ⟨h1, h2, ?_, h4, h5⟩; rw [State.setEe_ee, shiftOut_data]; exact h3
  | shiftIn b src _ => refine ⟨h1, h2, ?_, h4, h5⟩; rw [State.setEe_ee, shiftIn_data]; exact h3
  | burstEnd _ => exact ⟨h1, h2, burstEnd_ok h3, h4, h5⟩
  | chan _ _ => exact hs'
  | irq _ => exact hs'
  | clear _ => exact ⟨Memory.okIn_write _ h1 (block_space (cntH_block _).2), h2, h3, h4, h5⟩

theorem Prims.stores {O : Origin → Prop} {A : Chan → Prop} {s t : State} (h : Prims Config.default O A s t) (hs : StoresOk s) : StoresOk t :=
  h.keeps (P := StoresOk) (fun hp hs => hp.stores hs) hs

theorem storeBytes_ok (bs : List Byte) : ∀ {m : Memory} {a : Addr}, (∀ k, k < bs.length → inDmaBlock Config.default (a + BitVec.ofNat 32 k) = true) → m.okIn (inAddressSpace Config.default) → (storeBytes m a bs).okIn (inAddressSpace Config.default) := by
  induction bs with
  | nil => intro m a _ h; exact h
  | cons b bs ih =>
    intro m a h hm
    have h0 := h 0 (by simp)
    rw [show a + BitVec.ofNat 32 0 = a by simp] at h0
    exact ih (fun k hk => by rw [add_one_ofNat]; exact h (k + 1) (by simpa using hk)) (Memory.okIn_write b hm (block_space h0))

theorem onFlash_stores {f : BackupType → Flash → Flash} (hf : ∀ bt fl, FlashOk fl → FlashOk (f bt fl)) {s : State} (hs : StoresOk s) : StoresOk (onFlash f s) := by
  obtain ⟨h1, h2, h3, h4, h5⟩ := hs
  unfold onFlash; split
  · have := hf s.cart.backupType s.fl ⟨h4, h5⟩
    exact ⟨h1, h2, h3, this.1, this.2⟩
  · exact ⟨h1, h2, h3, h4, h5⟩

theorem onGpio_stores {f : State → State} (hf : ∀ s, StoresOk s → StoresOk (f s)) (u : Nat) {s : State} (hs : StoresOk s) : StoresOk (onGpio u f s) := by
  unfold onGpio; split; exact hs; split; exact hs; exact hf _ hs

theorem intoWindow_stores (src : Addr) (bits : List Bool) {s : State} (hs : StoresOk s) : StoresOk (burstIntoWindow Config.default src bits s) := by
  obtain ⟨h1, h2, h3, h4, h5⟩ := hs
  unfold burstIntoWindow; split
  · exact ⟨h1, h2, burst_ok h3 _ _, h4, h5⟩
  · exact ⟨h1, h2, h3, h4, h5⟩

theorem start_stores {s : State} (hs : StoresOk s) : StoresOk s.start := hs

theorem exec_stores {i : Instr} {s t : State} (h : exec i s = .next t) (hs : StoresOk s) : StoresOk t := by
  by_cases hw : ∃ a bs, writeAccess i = some (a, bs)
  · obtain ⟨a, bs, hw⟩ := hw
    refine (exec_write_prims hw h).stores ?_
    unfold StoresOk
    simp only [writeStart_mem, writeStart_sram, writeStart_ee, writeStart_fl]; exact hs
  by_cases hp : ∃ ev, passEvent i = some ev
  · obtain ⟨ev, hp⟩ := hp
    rw [exec_pass hp] at h
    exact (dmaService_prims (O := fun _ => True) (fun _ => trivial) (toOutcome_next h)).stores hs
  have hs' := hs
  obtain ⟨h1, h2, h3, h4, h5⟩ := hs
  cases i
  case dmatick => exact (dmaService_prims (O := fun _ => True) (fun _ => trivial) (toOutcome_next h)).stores hs'
  case forcedma ch => exact (forceDma_prims (O := fun _ => True) (A := fun _ => True) (fun _ => trivial) trivial (toOutcome_next h)).stores hs'
  case dmaarm ch f =>
    refine (regCommit_prims (O := fun _ => True) (fun _ => trivial) (toOutcome_next h)).stores ⟨?_, h2, h3, h4, h5⟩
    exact storeBytes_ok _ (fun k hk => by
      match k, hk with | 0, _ => simpa using (cntH_block ch).1 | 1, _ => exact (cntH_block ch).2) h1
  case dmaoff ch f =>
    refine (regCommit_prims (O := fun _ => True) (fun _ => trivial) (toOutcome_next h)).stores ⟨?_, h2, h3, h4, h5⟩
    exact storeBytes_ok _ (fun k hk => by
      match k, hk with | 0, _ => simpa using (cntH_block ch).1 | 1, _ => exact (cntH_block ch).2) h1
  case dmasad ch v => cases h; exact ⟨storeBytes_ok _ (fun k hk => (sad_block ch k hk).1) h1, h2, h3, h4, h5⟩
  case dmadad ch v => cases h; exact ⟨storeBytes_ok _ (fun k hk => (dad_block ch k hk).1) h1, h2, h3, h4, h5⟩
  case dmacnt ch v => cases h; exact ⟨storeBytes_ok _ (fun k hk => (cntL_block ch k hk).1) h1, h2, h3, h4, h5⟩
  case reset => cases h; exact ⟨Memory.okIn_filter _ h1, h2, h3, h4, h5⟩
  case loadcart m b g =>
    simp only [exec, execLoadcart, loadcartIn] at h
    split at h
    · cases h; exact hs'
    · split at h
      · cases h
      · cases h
        refine ⟨?_, Memory.okIn_nil _, Memory.okIn_nil _, Memory.okIn_nil _, Memory.okIn_nil _⟩
        refine Memory.okIn_fill _ h1 fun i hi => ?_
        rw [rom_size] at hi
        rw [default_rom, inAddressSpace_default]
        have e : (0x08000000 : Addr).toNat = 0x08000000 := rfl
        simp only [e]; omega
  case loadfw m =>
    simp only [exec, execLoadfw, loadfwIn] at h
    split at h
    · cases h; exact hs'
    · cases h
      refine ⟨Memory.okIn_fill _ h1 fun i hi => ?_, h2, h3, h4, h5⟩
      rw [bios_size] at hi
      rw [default_bios, inAddressSpace_default]
      have e : (0x00000000 : Addr).toNat = 0 := rfl
      simp only [e]; omega
  case loadbkp f =>
    simp only [exec, execLoadbkp, loadbkpIn] at h; split at h <;> cases h
    · exact hs'
    · exact hs'
    · unfold loadBackup
      split
      · exact hs'
      · refine ⟨h1, h2, Memory.okIn_fill _ h3 fun i hi => ?_, h4, h5⟩
        have : eeBytes Config.default (fileEeSize Config.default (‹List Byte›).length) ≤ 8192 := by
          cases fileEeSize Config.default (‹List Byte›).length <;> simp [eeBytes]
        simp; omega
      · refine ⟨h1, h2, h3, Memory.okIn_fill _ h4 fun i hi => ?_, h5⟩
        rw [default_flBankSize] at hi; simp; omega
      · refine ⟨h1, h2, h3, Memory.okIn_fill _ h4 fun i hi => ?_, Memory.okIn_fill _ h5 fun i hi => ?_⟩
        · rw [default_flBankSize] at hi; simp; omega
        · rw [default_flBankSize] at hi; simp; omega
      · refine ⟨h1, Memory.okIn_fill _ h2 fun i hi => ?_, h3, h4, h5⟩
        rw [default_sramSize] at hi; simp; omega
  case savebkp f => simp only [exec, execSavebkp, savebkpIn] at h; split at h <;> cases h <;> exact hs'
  case cstore a b =>
    cases h; unfold collabStore
    split
    · rename_i hc
      refine ⟨Memory.okIn_write _ h1 ?_, h2, h3, h4, h5⟩
      simp only [collaboratorOwns, Bool.or_eq_true, Range.has_iff] at hc
      simp only [default_lcdIo, default_apuIo, default_tmrIo] at hc
      simp at hc
      rw [inAddressSpace_default]; omega
    · exact hs'
  case sensor => cases h; unfold senseInput; split <;> exact hs'
  case eerdreq6 => cases h; exact intoWindow_stores _ _ hs'
  case eerdreq14 => cases h; exact intoWindow_stores _ _ hs'
  case eewr6 => cases h; exact intoWindow_stores _ _ hs'
  case eewr14 => cases h; exact intoWindow_stores _ _ hs'
  case eebad => cases h; exact intoWindow_stores _ _ hs'
  case eerdbit => cases h; exact (afterUnitRead_prims (O := fun _ => True) (A := fun _ => True) _).stores (start_stores hs')
  case fldata off v => cases h; exact onFlash_stores (fun _ _ h => h.program off v) hs'
  case flbanksel off v => cases h; exact onFlash_stores (f := fun _ fl => Flash.selectBank off v fl) (fun _ _ h => h) hs'
  case flkey1 => cases h; exact onFlash_stores (f := fun _ fl => fl.key1) (fun _ _ h => h) hs'
  case flkey2 => cases h; exact onFlash_stores (f := fun _ fl => fl.key2) (fun _ _ h => h) hs'
  case flidenter => cases h; exact onFlash_stores (f := fun _ fl => fl.idEnter) (fun _ _ h => h) hs'
  case flidexit => cases h; exact onFlash_stores (f := fun _ fl => fl.idExit) (fun _ _ h => h) hs'
  case flerasesetup => cases h; exact onFlash_stores (f := fun _ fl => fl.eraseSetup) (fun _ _ h => h) hs'
  case flchiperase => cases h; exact onFlash_stores (fun bt _ h => h.chipErase bt) hs'
  case flprogram => cases h; exact onFlash_stores (f := fun _ fl => fl.armProgram) (fun _ _ h => h) hs'
  case flbank => cases h; exact onFlash_stores (fun bt _ h => h.armBank bt) hs'
  case flsectorerase off => cases h; exact onFlash_stores (fun _ _ h => h.sectorErase off) hs'
  case flignored => cases h; exact onFlash_stores (fun _ _ h => h.ignored) hs'
  case gpwrdata u b => cases h; exact onGpio_stores (f := gpioWriteData Config.default b) (fun _ h => h) _ hs'
  case gpwrdir u b => cases h; exact onGpio_stores (f := gpioWriteDir Config.default b) (fun _ h => h) _ hs'
  case gpwrctl u b => cases h; exact onGpio_stores (f := gpioWriteCtl b) (fun _ h => h) _ hs'
  case gpwrrsv u b => cases h; exact onGpio_stores (f := gpioWriteRsv) (fun _ h => h) _ hs'
  all_goals first
    | (exfalso; simp [writeAccess, passEvent] at hw hp; done)
    | (cases h; exact hs')

/-- What a step is: nothing presented, or an instruction on the state without its word. -/
theorem step_cases {s t : State} (h : step s = .next t) : (s.inputs = [] ∧ t = s.start) ∨ ∃ p rest i, s.inputs = p :: rest ∧ decode Config.default s.ctx p = .ok i ∧ exec i (s.setInputs rest) = .next t := by
  unfold step at h
  split at h
  · rename_i hi; cases h; exact .inl ⟨hi, rfl⟩
  · rename_i p rest hi
    split at h
    · cases h
    · rename_i i hd; exact .inr ⟨p, rest, i, hi, hd, h⟩

end Sys2Proof.Machine
end

