-- ==== Sys2Proof/Laws/Channels.lean ====
section
/-! SUPPORT. Every instruction keeps the DMA channels as they must be between steps (10_state.md R26, R31 (b), R33). -/

namespace Sys2Proof.Machine

theorem chanOk_congr {s t : State} {ch : Chan} (h1 : t.chan ch = s.chan ch) (h2 : cntHOf Config.default t ch = cntHOf Config.default s ch) (h : s.chanOk Config.default ch) : t.chanOk Config.default ch := by
  unfold State.chanOk at h ⊢; rw [h1, h2]; exact h

theorem cntHOf_congr {s t : State} {ch : Chan} (h : ∀ b, isCntHByte Config.default b = true → t.asByte b = s.asByte b) : cntHOf Config.default t ch = cntHOf Config.default s ch := by
  unfold cntHOf State.io16
  rw [h _ ((isCntHByte_iff _).mpr ⟨ch, .inl (cntHAddr_default ch)⟩), h _ ((isCntHByte_iff _).mpr ⟨ch, .inr (cntHAddr_succ_default ch)⟩)]

/-- Channels and control registers alike. -/
theorem dmaOk_congr {s t : State} (h1 : ∀ ch, t.chan ch = s.chan ch) (h2 : ∀ b, isCntHByte Config.default b = true → t.asByte b = s.asByte b) (h : s.dmaOk Config.default) : t.dmaOk Config.default :=
  fun ch => chanOk_congr (h1 ch) (cntHOf_congr h2) (h ch)

theorem cntLOf_le (s : State) (ch : Chan) : ((cntLOf Config.default s ch).setWidth 32).toNat ≤ 65535 := by
  rw [BitVec.toNat_setWidth]; have := (cntLOf Config.default s ch).isLt; omega

/-- The channel after `n` units. -/
theorem dmaUnits_chan {c : Config} {ch : Chan} (n : Nat) : ∀ {e e' : Bool} {s t : State}, dmaUnits c ch n e s = .ok (t, e') →
   (t.chan ch).enabled = (s.chan ch).enabled ∧ (t.chan ch).cursor = (s.chan ch).cursor + BitVec.ofNat 32 n ∧ (t.chan ch).count = (s.chan ch).count ∧ (t.chan ch).ctrl = (s.chan ch).ctrl ∧ (t.chan ch).width = (s.chan ch).width ∧ (t.chan ch).delay = (s.chan ch).delay := by
  induction n with
  | zero => intro e e' s t h; cases h; simp
  | succ n ih =>
    intro e e' s t h
    obtain ⟨s1, e1, h1, h2⟩ := dmaUnits_succ h
    have hc := dmaUnit_chan h1
    obtain ⟨a1, a2, a3, a4, a5, a6⟩ := ih h2
    rw [hc] at a1 a2 a3 a4 a5 a6
    refine ⟨a1, ?_, a3, a4, a5, a6⟩
    rw [a2]
    show (s.chan ch).cursor + 1 + BitVec.ofNat 32 n = _
    rw [BitVec.add_assoc]; congr 1
    rw [Nat.add_comm n 1, BitVec.ofNat_add]; rfl

theorem low_and (x y : Byte) : (x ++ y) &&& (0x1F : Half) = 0 ↔ y &&& 0x1F = 0 := by
  constructor
  · intro h
    apply BitVec.eq_of_getLsbD_eq; intro i hi
    have := congrArg (fun z : Half => z.getLsbD i) h
    simp only [BitVec.getLsbD_and, BitVec.getLsbD_append] at this ⊢
    interval_cases i <;> simp at this ⊢ <;> exact this
  · intro h
    apply BitVec.eq_of_getLsbD_eq; intro i hi
    by_cases h8 : i < 8
    · have := congrArg (fun z : Byte => z.getLsbD i) h
      simp only [BitVec.getLsbD_and, BitVec.getLsbD_append] at this ⊢
      interval_cases i <;> simp at this ⊢ <;> exact this
    · simp only [BitVec.getLsbD_and]
      interval_cases i <;> simp at h8 ⊢

theorem endRun_cntH (ch : Chan) (e : Bool) (t : State) : cntHOf Config.default (endRun Config.default ch e t) ch = if recurs (t.chan ch) then cntHOf Config.default t ch else cntHOf Config.default t ch &&& 0x7FFF := by
  have key : ∀ u : State, u.mem = t.mem → recurs (u.chan ch) = recurs (t.chan ch) → cntHOf Config.default (complete Config.default ch u) ch = if recurs (t.chan ch) then cntHOf Config.default t ch else cntHOf Config.default t ch &&& 0x7FFF := by
    intro u hu hr
    unfold complete
    rw [hr]
    have : ∀ v : State, v.mem = t.mem → cntHOf Config.default (if recurs (t.chan ch) then rearm Config.default ch v else goIdle Config.default ch v) ch = if recurs (t.chan ch) then cntHOf Config.default t ch else cntHOf Config.default t ch &&& 0x7FFF := by
      intro v hv
      by_cases hrec : recurs (t.chan ch) = true
      · simp only [hrec, if_true]
        exact io16_congr fun k _ => asByte_congr hv _
      · have hrec : recurs (t.chan ch) = false := by simpa using hrec
        simp only [hrec, Bool.false_eq_true, if_false]
        have hcl := fun b => asByte_clear (v.setChan ch { v.chan ch with enabled := false, running := false }) ch b
        have e1 := hcl (cntHAddr Config.default ch + 1)
        have e2 := hcl (cntHAddr Config.default ch)
        rw [if_pos rfl] at e1
        rw [if_neg cntHAddr_low] at e2
        have g1 : (goIdle Config.default ch v).asByte (cntHAddr Config.default ch + 1) = t.asByte (cntHAddr Config.default ch + 1) &&& 0x7F := e1.trans (by rw [show (v.setChan ch { v.chan ch with enabled := false, running := false }).asByte (cntHAddr Config.default ch + 1) = t.asByte (cntHAddr Config.default ch + 1) from asByte_congr hv _])
        have g2 : (goIdle Config.default ch v).asByte (cntHAddr Config.default ch) = t.asByte (cntHAddr Config.default ch) := e2.trans (asByte_congr hv _)
        unfold cntHOf State.io16
        rw [g1, g2]
        apply BitVec.eq_of_getLsbD_eq; intro i hi
        simp only [BitVec.getLsbD_and, BitVec.getLsbD_append]
        interval_cases i <;> simp
    apply this
    split <;> exact hu
  unfold endRun
  simp only
  split
  · exact key _ rfl (by rw [State.setEe_chan, State.chan_setChan_same]; rfl)
  · exact key _ rfl (by rw [State.chan_setChan_same]; rfl)

theorem endRun_rearmed (ch : Chan) (e : Bool) (t : State) (h : recurs (t.chan ch) = true) :
   ∃ d, (endRun Config.default ch e t).chan ch = { t.chan ch with running := false, cursor := 0, count := (cntLOf Config.default t ch).setWidth 32, dst := d, delay := 0 } := by
  have key : ∀ u : State, u.mem = t.mem → u.chan ch = { t.chan ch with running := false } → ∃ d, (complete Config.default ch u).chan ch = { t.chan ch with running := false, cursor := 0, count := (cntLOf Config.default t ch).setWidth 32, dst := d, delay := 0 } := by
    intro u hu hc
    have hr : recurs (u.chan ch) = true := by rw [hc]; exact h
    unfold complete
    simp only [hr, if_true]
    have : ∀ v : State, v.mem = t.mem → v.chan ch = { t.chan ch with running := false } → ∃ d, (rearm Config.default ch v).chan ch = { t.chan ch with running := false, cursor := 0, count := (cntLOf Config.default t ch).setWidth 32, dst := d, delay := 0 } := by
      intro v hv hvc
      unfold rearm
      simp only [State.chan_setChan_same]
      have e1 : cntLOf Config.default v ch = cntLOf Config.default t ch := io16_congr fun _ _ => asByte_congr hv _
      rw [e1, hvc]
      exact ⟨_, rfl⟩
    split
    · exact this _ hu hc
    · exact this _ hu hc
  unfold endRun
  simp only
  split
  · exact key _ rfl (by rw [State.setEe_chan, State.chan_setChan_same])
  · exact key _ rfl (by rw [State.chan_setChan_same])

/-- The channel after `n` units: pointers stepped `n` times, cursor advanced by `n` (R193, R194). -/
theorem dmaUnits_pointers {c : Config} {ch : Chan} (n : Nat) : ∀ {e e' : Bool} {s t : State}, dmaUnits c ch n e s = .ok (t, e') →
    t.chan ch = { s.chan ch with src := srcUnit (s.chan ch) n, dst := dstUnit (s.chan ch) n, cursor := (s.chan ch).cursor + BitVec.ofNat 32 n } := by
  induction n with
  | zero => intro e e' s t h; cases h; simp
  | succ n ih =>
    intro e e' s t h
    obtain ⟨s1, e1, h1, h2⟩ := dmaUnits_succ h
    rw [ih h2, dmaUnit_chan h1, srcUnit_advance, dstUnit_advance]
    show ({ s.chan ch with src := _, dst := _, cursor := (s.chan ch).cursor + 1 + BitVec.ofNat 32 n } : DmaChan) = _
    rw [BitVec.add_assoc, Nat.add_comm n 1, BitVec.ofNat_add]; rfl

/-- The pointers after the end of a run: a reloaded destination is read anew (R197). -/
theorem endRun_pointers (ch : Chan) (e : Bool) (t : State) : ((endRun Config.default ch e t).chan ch).src = (t.chan ch).src
    ∧ ((endRun Config.default ch e t).chan ch).dst
      = if recurs (t.chan ch) = true ∧ ctlDac (t.chan ch).ctrl = .reload then dadOf Config.default t ch else (t.chan ch).dst := by
  have key : ∀ u : State, u.mem = t.mem → u.chan ch = { t.chan ch with running := false } → 
      ((complete Config.default ch u).chan ch).src = (t.chan ch).src ∧ ((complete Config.default ch u).chan ch).dst
      = if recurs (t.chan ch) = true ∧ ctlDac (t.chan ch).ctrl = .reload then dadOf Config.default t ch else (t.chan ch).dst := by
    intro u hu hc
    unfold complete
    have hr : recurs (u.chan ch) = recurs (t.chan ch) := by rw [hc]; rfl
    rw [hr]
    have : ∀ v : State, v.mem = t.mem → v.chan ch = { t.chan ch with running := false } →
       ((if recurs (t.chan ch) then rearm Config.default ch v else goIdle Config.default ch v).chan ch).src = (t.chan ch).src ∧
       ((if recurs (t.chan ch) then rearm Config.default ch v else goIdle Config.default ch v).chan ch).dst
         = if recurs (t.chan ch) = true ∧ ctlDac (t.chan ch).ctrl = .reload then dadOf Config.default t ch else (t.chan ch).dst := by
      intro v hv hvc
      by_cases h : recurs (t.chan ch) = true
      · simp only [h, if_true, true_and]
        unfold rearm
        simp only [State.chan_setChan_same]
        have e1 : dadOf Config.default v ch = dadOf Config.default t ch := io32_congr fun _ _ => asByte_congr hv _
        rw [e1, hvc]; exact ⟨rfl, rfl⟩
      · have h : recurs (t.chan ch) = false := by simpa using h
        simp only [h, Bool.false_eq_true, if_false, false_and]
        unfold goIdle
        simp only [State.setMem_chan, State.chan_setChan_same, hvc]; exact ⟨trivial, trivial⟩
    split
    · exact this _ hu hc
    · exact this _ hu hc
  unfold endRun
  simp only
  split
  · exact key _ rfl (by rw [State.setEe_chan, State.chan_setChan_same])
  · exact key _ rfl (by rw [State.chan_setChan_same])

theorem half_7FFF (w : Half) : ctlEnable (w &&& 0x7FFF) = false ∧ (w &&& 0x1F = 0 → (w &&& 0x7FFF) &&& 0x1F = 0) := by
  constructor
  · unfold ctlEnable; simp
  · intro h; rw [BitVec.and_assoc]; exact h

theorem ofNat_toNat32 (x : Word) : BitVec.ofNat 32 x.toNat = x := by rw [BitVec.ofNat_toNat, BitVec.setWidth_eq]

/-- Units leave the DMA registers alone. -/
theorem dmaUnits_block {ch : Chan} (n : Nat) : ∀ {e e' : Bool} {s t : State}, dmaUnits Config.default ch n e s = .ok (t, e') → ∀ b, inDmaBlock Config.default b = true → t.asByte b = s.asByte b := by
  induction n with
  | zero => intro e e' s t h b _; cases h; rfl
  | succ n ih =>
    intro e e' s t h b hb
    obtain ⟨s1, e1, h1, h2⟩ := dmaUnits_succ h
    rw [ih h2 b hb]
    obtain ⟨s2, hw, rfl, -⟩ := dmaUnit_ok h1
    have hp : Prims Config.default (fun o => o ≠ .cpu) (fun _ => False) s s2 := (afterUnitRead_prims _).trans (unitWrite_prims (by simp) hw)
    rcases hp.block (fun _ h => h) hb with h3 | ⟨_, h3, _⟩
    · exact h3
    · exact h3.elim

theorem dmaUnits_regs {ch : Chan} {n : Nat} {e e' : Bool} {s t : State} (h : dmaUnits Config.default ch n e s = .ok (t, e')) :
   cntHOf Config.default t ch = cntHOf Config.default s ch ∧ cntLOf Config.default t ch = cntLOf Config.default s ch := by
  have hb := dmaUnits_block _ h
  constructor
  · unfold cntHOf State.io16
    rw [hb _ (cntH_block ch).1, hb _ (cntH_block ch).2]
  · exact io16_congr fun j hj => hb _ (cntL_block ch j hj).1

/-- A run of an enabled channel keeps the channels as they must be. -/
theorem dmaRun_ok {ch : Chan} {s t : State} (h : dmaRun Config.default ch s = .ok t) (he : (s.chan ch).enabled = true) (hs : s.dmaOk Config.default) : t.dmaOk Config.default := by
  intro k
  by_cases hk : k = ch
  · subst hk
    obtain ⟨o1, o2, o3, o4, o5, o6, o7, o8, o9, o10⟩ := hs k
    unfold dmaRun at h
    simp only at h
    split at h
    · cases h
    · rename_i s2 e hu
      cases h
      obtain ⟨a1, a2, a3, a4, a5, a6⟩ := dmaUnits_chan _ hu
      obtain ⟨r1, r2⟩ := dmaUnits_regs hu
      rw [State.chan_setChan_same] at a1 a2 a3 a4 a5 a6
      simp only at a1 a2 a3 a4 a5 a6
      have c0 := o3 he
      have hcur : (s2.chan k).cursor = (s2.chan k).count := by
        rw [a2, a3, c0]; unfold unitsLeft; rw [c0]; simp
      have q1 : cntHOf Config.default s2 k = cntHOf Config.default s k := r1
      by_cases hr : recurs (s2.chan k) = true
      · obtain ⟨d, hd⟩ := endRun_rearmed k e s2 hr
        have hh := endRun_cntH k e s2
        rw [if_pos hr] at hh
        unfold State.chanOk
        rw [hd, hh, q1]
        refine ⟨rfl, ?_, fun _ => rfl, ?_, cntLOf_le _ _, ?_, ?_, ?_, Nat.zero_le _, o10⟩
        · exact a1.trans o2
        · simp
        · simpa [a4] using o6
        · simpa [a4] using o7
        · simpa [a4, a5] using o8
      · have hr : recurs (s2.chan k) = false := by simpa using hr
        have hd := ((endRun_chan k e s2).2.1 hr).1
        have hh := endRun_cntH k e s2
        rw [hr] at hh
        simp only [Bool.false_eq_true, if_false] at hh
        obtain ⟨z1, z2⟩ := half_7FFF (cntHOf Config.default s2 k)
        unfold State.chanOk
        rw [hd, hh]
        refine ⟨rfl, by rw [z1], fun h => by simp at h, ?_, ?_, ?_, ?_, ?_, ?_, z2 (by rw [q1]; exact o10)⟩
        · simp [hcur]
        · simpa [a3] using o5
        · simpa [a4] using o6
        · simpa [a4] using o7
        · simpa [a4, a5] using o8
        · simpa [a6] using o9
  · have hp := dmaRun_prims (O := fun o => o ≠ .cpu) (A := fun j => j = ch) (by simp) rfl h
    exact chanOk_congr (hp.other_chan hk) ((hp.registers (fun _ h => h) k).2.2.2.2 hk) (hs k)

theorem serviceList_ok {ev : DmaEvent} {l : List Chan} : ∀ {s t : State}, serviceList Config.default ev l s = .ok t → s.dmaOk Config.default → t.dmaOk Config.default := by
  induction l with
  | nil => intro s t h hs; cases h; exact hs
  | cons ch l ih =>
    intro s t h hs
    obtain ⟨s1, h1, h2⟩ := serviceList_cons h
    refine ih h2 ?_
    unfold serviceChan at h1
    split at h1
    · rename_i he; exact dmaRun_ok h1 (eligible_armed he).1 hs
    · cases h1; exact hs

theorem dmaService_ok {ev : DmaEvent} {s t : State} (h : dmaService Config.default ev s = .ok t) (hs : s.dmaOk Config.default) : t.dmaOk Config.default := serviceList_ok h hs

theorem forceDma_ok {ch : Chan} {s t : State} (h : forceDma Config.default ch s = .ok t) (hs : s.dmaOk Config.default) : t.dmaOk Config.default := by
  unfold forceDma at h
  simp only at h
  split at h
  · rename_i he
    refine dmaRun_ok h (by rw [State.chan_setChan_same]; exact he.1) ?_
    intro k
    by_cases hk : k = ch
    · subst hk
      obtain ⟨o1, o2, o3, o4, o5, o6, o7, o8, o9, o10⟩ := hs k
      unfold State.chanOk
      rw [State.chan_setChan_same]
      exact ⟨o1, o2, o3, o4, o5, o6, o7, o8, Nat.zero_le _, o10⟩
    · exact chanOk_congr (State.chan_setChan_other (s := s) (ch := ch) { s.chan ch with delay := 0 } hk) rfl (hs k)
  · cases h; exact hs

theorem tickAll_ok {s : State} (hs : s.dmaOk Config.default) : (tickAll s).dmaOk Config.default := by
  intro k
  obtain ⟨o1, o2, o3, o4, o5, o6, o7, o8, o9, o10⟩ := hs k
  unfold State.chanOk
  rw [tickAll_chan]
  unfold tickChan
  split
  · exact ⟨o1, o2, o3, o4, o5, o6, o7, o8, by show _ - 1 ≤ _; omega, o10⟩
  · exact ⟨o1, o2, o3, o4, o5, o6, o7, o8, o9, o10⟩

/-- What the channels must be for a commit of the channels `touched`: the others as between steps, no reserved bit anywhere. -/
def Between (touched : List Chan) (s : State) : Prop :=
  ∀ k, cntHOf Config.default s k &&& 0x1F = 0 ∧ (k ∉ touched → s.chanOk Config.default k)
   ∧ (s.chan k).count.toNat ≤ 65535 ∧ (s.chan k).cursor.toNat ≤ (s.chan k).count.toNat ∧ (s.chan k).ctrl &&& 0x1F = 0
   ∧ ctlSac (s.chan k).ctrl ≠ .reload ∧ (s.chan k).width = ctlWidth (s.chan k).ctrl

theorem commitCntH_ok {ch : Chan} {touched rest : List Chan} {s t : State} (h : commitCntH Config.default ch s = .ok t) (hr : ∀ k, k ∈ touched → k = ch ∨ k ∈ rest) (hs : Between touched s) : Between rest t := by
  have hp := commitCntH_prims (O := fun o => o ≠ .cpu) (A := fun j => j = ch) rfl h
  have hm : t.mem = s.mem := by
    unfold commitCntH arm at h
    split at h
    · split at h
      · cases h
      · cases h; rfl
    · cases h; rfl
  have hcn : ∀ k, cntHOf Config.default t k = cntHOf Config.default s k := fun k => io16_congr fun _ _ => asByte_congr hm _
  intro k
  by_cases hk : k = ch
  · subst hk
    obtain ⟨b1, b2, b3, b4, b5, b6, b7⟩ := hs k
    unfold commitCntH arm at h
    unfold State.chanOk
    rw [hcn]
    split at h
    · rename_i hen
      split at h
      · cases h
      · rename_i hsac
        cases h
        rw [State.chan_setChan_same]
        have hc : (armedChan Config.default s k).count.toNat ≤ 65535 := cntLOf_le s k
        exact ⟨b1, fun _ => ⟨rfl, hen.symm, fun _ => rfl, Nat.zero_le _, hc, b1, hsac, rfl, Nat.le_refl _, b1⟩, hc, Nat.zero_le _, b1, hsac, rfl⟩
    · rename_i hen
      cases h
      unfold disarm
      rw [State.chan_setChan_same]
      exact ⟨b1, fun _ => ⟨rfl, by simpa using hen, fun h => by simp at h, b4, b3, b5, b6, b7, Nat.zero_le _, b1⟩, b3, b4, b5, b6, b7⟩
  · have hc : t.chan k = s.chan k := hp.other_chan (A := fun j => j = ch) hk
    obtain ⟨b1, b2, b3⟩ := hs k
    rw [hcn, hc]
    refine ⟨b1, fun hn => chanOk_congr hc (hcn k) (b2 fun hm => ?_), b3⟩
    rcases hr k hm with h1 | h1
    · exact hk h1
    · exact hn h1

theorem commitList_ok {touched l : List Chan} : ∀ {s t : State}, commitList Config.default touched l s = .ok t → Between (touched.filter (· ∈ l)) s → Between [] t := by
  induction l with
  | nil => intro s t h hs; cases h; simpa using hs
  | cons ch l ih =>
    intro s t h hs
    simp only [commitList] at h
    split at h
    · rename_i hin
      split at h
      · cases h
      · rename_i s1 h1
        refine ih h (commitCntH_ok h1 ?_ hs)
        intro k hk
        simp at hk ⊢
        tauto
    · rename_i hin
      refine ih h ?_
      have : touched.filter (· ∈ ch :: l) = touched.filter (· ∈ l) := by
        apply List.filter_congr
        intro x hx
        have : x ≠ ch := by rintro rfl; exact hin (by simpa using hx)
        simp [this]
      rw [this] at hs; exact hs

theorem regCommit_ok {touched : List Chan} {s t : State} (h : regCommit Config.default touched s = .ok t) (hs : Between touched s) : t.dmaOk Config.default := by
  have hb : ∀ {u : State}, Between [] u → u.dmaOk Config.default := fun hu k => (hu k).2.1 (by simp)
  unfold regCommit at h
  split at h
  · rename_i he
    cases h
    have : touched = [] := by simpa using he
    subst this; exact hb hs
  · split at h
    · cases h
    · rename_i s1 h1
      refine dmaService_ok h (hb (commitList_ok h1 ?_))
      have : touched.filter (· ∈ channels Config.default) = touched := by
        apply List.filter_eq_self.mpr
        intro x _; have := mem_chans x; simpa using this
      rw [this]; exact hs

/-- The reserved bits of every control register read 0. -/
def LowOk (s : State) : Prop := ∀ k, s.asByte (cntHAddr Config.default k) &&& 0x1F = 0

theorem lowOk_iff (s : State) : LowOk s ↔ ∀ k, cntHOf Config.default s k &&& 0x1F = 0 :=
  forall_congr' fun _ => (low_and _ _).symm

theorem writeByte_low {a : Addr} {v : Byte} {s t : State} (h : writeByte Config.default .cpu a v s = .ok t) (hs : LowOk s) : LowOk t := by
  intro k
  by_cases ha : cntHAddr Config.default k = a
  · subst ha
    unfold writeByte at h
    simp only [dmaBlock_io (cntH_block k).1, (cntH_block k).1, if_true] at h
    cases h
    unfold writeDmaRegByte
    rw [asByte_write, if_pos rfl, ioMask_low (cntHAddr_default k), BitVec.and_assoc]
    have : (0xE0 : Byte) &&& 0x1F = 0 := by decide
    rw [this]; simp
  · rw [(writeByte_frame h).bytes _ ha]; exact hs k

theorem writeByte_cntH {a : Addr} {v : Byte} {s t : State} (h : writeByte Config.default .cpu a v s = .ok t) {k : Chan}
   (hk : k ∉ (if decodeTag Config.default s.cart.gpioType a = .io then cntHAt Config.default a else [])) : cntHOf Config.default t k = cntHOf Config.default s k := by
  have key : ∀ b, dmaRegAt Config.default b = some (k, .cntH) → inDmaBlock Config.default b = true → b ≠ a := by
    rintro b hb hbl rfl
    rw [if_pos (dmaBlock_io hbl)] at hk
    unfold cntHAt at hk
    rw [hb] at hk
    simp at hk
  unfold cntHOf State.io16
  rw [(writeByte_frame h).bytes _ (key _ ((dmaRegAt_cntH _ _).mpr (.inl (cntHAddr_default k))) (cntH_block k).1),
    (writeByte_frame h).bytes _ (key _ ((dmaRegAt_cntH _ _).mpr (.inr (cntHAddr_succ_default k))) (cntH_block k).2)]

theorem writeBytes_between (bs : List Byte) : ∀ {a : Addr} {s t : State}, writeBytes Config.default .cpu a bs s = .ok t → LowOk s →
   LowOk t ∧ t.dma = s.dma ∧ ∀ k, k ∉ touchedCntH Config.default s.cart.gpioType a bs.length → cntHOf Config.default t k = cntHOf Config.default s k := by
  induction bs with
  | nil => intro a s t h hs; cases h; exact ⟨hs, rfl, fun _ _ => rfl⟩
  | cons b bs ih =>
    intro a s t h hs
    obtain ⟨s1, h1, h2⟩ := writeBytes_cons h
    obtain ⟨i1, i2, i3⟩ := ih h2 (writeByte_low h1 hs)
    rw [writeByte_cart h1] at i3
    refine ⟨i1, i2.trans (writeByte_frame h1).dma, fun k hk => ?_⟩
    have hk' : k ∉ (if decodeTag Config.default s.cart.gpioType a = .io then cntHAt Config.default a else []) ++ touchedCntH Config.default s.cart.gpioType (a + 1) bs.length := hk
    rw [List.mem_append, not_or] at hk'
    rw [i3 k hk'.2]
    exact writeByte_cntH h1 hk'.1

theorem between_of {s t : State} {touched : List Chan} (hs : s.dmaOk Config.default) (hl : LowOk t) (hd : ∀ k, t.chan k = s.chan k) (hc : ∀ k, k ∉ touched → cntHOf Config.default t k = cntHOf Config.default s k) : Between touched t := by
  intro k
  obtain ⟨o1, o2, o3, o4, o5, o6, o7, o8, o9, o10⟩ := hs k
  rw [hd]
  exact ⟨(lowOk_iff t).mp hl k, fun hn => chanOk_congr (hd k) (hc k hn) (hs k), o5, o4, o6, o7, o8⟩

theorem lowOk_of {s : State} (hs : s.dmaOk Config.default) : LowOk s := (lowOk_iff s).mpr fun k => (hs k).2.2.2.2.2.2.2.2.2

theorem writeTransaction_ok {a : Addr} {bs : List Byte} {s t : State} (h : writeTransaction Config.default a bs s = .ok t) (hs : s.dmaOk Config.default) : t.dmaOk Config.default := by
  unfold writeTransaction at h
  split at h
  · cases h
  · rename_i s1 h1
    obtain ⟨i1, i2, i3⟩ := writeBytes_between bs h1 (lowOk_of hs)
    refine regCommit_ok h (between_of hs i1 (fun k => by unfold State.chan; rw [i2]) i3)

theorem toHalf_low (e : Bool) (f : CtlFields) : f.toHalf e &&& 0x1F = 0 := by
  obtain ⟨a, b, c, d, e', f', g⟩ := f
  cases e <;> cases a <;> cases b <;> cases c <;> cases d <;> cases e' <;> cases f' <;> cases g <;> decide

theorem writeControl_ok {ch : Chan} {e : Bool} {f : CtlFields} {s t : State} (h : writeControl Config.default ch (f.toHalf e) s = .ok t) (hs : s.dmaOk Config.default) : t.dmaOk Config.default := by
  unfold writeControl at h
  have hc : ∀ k, k ∉ [ch] → cntHOf Config.default (storeReg16 (cntHAddr Config.default ch) (f.toHalf e) s) k = cntHOf Config.default s k := by
    intro k hk
    have hk : k ≠ ch := by simpa using hk
    have : k.val ≠ ch.val := fun h => hk (Fin.ext h)
    have := k.isLt; have := ch.isLt
    refine io16_congr fun j hj => ?_
    refine storeReg16_frame _ _ _ _ ?_
    exact far_of_toNat (toNat_add_small (k := j) (cntHAddr_default k) (by omega)) (cntHAddr_default ch) (by omega) (by omega) (by omega)
  refine regCommit_ok h (between_of hs ?_ (fun k => rfl) hc)
  rw [lowOk_iff]
  intro k
  by_cases hk : k = ch
  · subst hk; rw [cntHOf_store]; exact toHalf_low e f
  · rw [hc k (by simpa using hk)]; exact (hs k).2.2.2.2.2.2.2.2.2

theorem sameBlock {s t : State} (hd : t.dma = s.dma) (hb : ∀ b, inDmaBlock Config.default b = true → t.asByte b = s.asByte b) (hs : s.dmaOk Config.default) : t.dmaOk Config.default := by
  refine dmaOk_congr (fun ch => by unfold State.chan; rw [hd]) (fun b hc => hb b ?_) hs
  obtain ⟨ch, h⟩ := (isCntHByte_iff b).mp hc
  have := ch.isLt
  exact (inDmaBlock_default b).mpr (by omega)

theorem sameMem {s t : State} (hd : t.dma = s.dma) (hm : t.mem = s.mem) (hs : s.dmaOk Config.default) : t.dmaOk Config.default :=
  sameBlock hd (fun b _ => asByte_congr hm b) hs

theorem onFlash_dma (f : BackupType → Flash → Flash) (s : State) : (onFlash f s).dma = s.dma := by
  unfold onFlash; split <;> rfl

theorem onGpio_dma {f : State → State} (hf : ∀ s, (f s).dma = s.dma) (u : Nat) (s : State) : (onGpio u f s).dma = s.dma := by
  unfold onGpio; split
  · rfl
  · split
    · rfl
    · exact hf _

theorem intoWindow_dma (src : Addr) (bits : List Bool) (s : State) : (burstIntoWindow Config.default src bits s).dma = s.dma := by
  unfold burstIntoWindow; split <;> rfl

theorem cntH_after_other {a : Addr} {n : Nat} {s t : State} (hd : t.dma = s.dma) (hb : ∀ b : Addr, n ≤ (b - a).toNat → t.asByte b = s.asByte b)
  (hf : ∀ b, isCntHByte Config.default b = true → n ≤ (b - a).toNat) (hs : s.dmaOk Config.default) : t.dmaOk Config.default :=
  dmaOk_congr (fun ch => by unfold State.chan; rw [hd]) (fun b hc => hb b (hf b hc)) hs

theorem exec_dma {i : Instr} {s t : State} (h : exec i s = .next t) (hs : s.dmaOk Config.default) : t.dmaOk Config.default := by
  by_cases hw : ∃ a bs, writeAccess i = some (a, bs)
  · obtain ⟨a, bs, hw⟩ := hw
    rw [exec_write hw] at h
    refine writeTransaction_ok (toOutcome_next h) (sameMem ?_ ?_ hs)
    · simp
    · simp
  by_cases hp : ∃ ev, passEvent i = some ev
  · obtain ⟨ev, hp⟩ := hp
    rw [exec_pass hp] at h
    exact dmaService_ok (toOutcome_next h) hs
  cases i
  case dmatick => exact dmaService_ok (toOutcome_next h) (tickAll_ok (s := s.start) hs)
  case forcedma ch => exact forceDma_ok (toOutcome_next h) (s := s.start) hs
  case dmaarm ch f => exact writeControl_ok (toOutcome_next h) hs
  case dmaoff ch f => exact writeControl_ok (toOutcome_next h) hs
  case dmasad ch v =>
    cases h
    refine cntH_after_other (n := 4) (s := s) (t := storeReg32 (sadAddr Config.default ch) v s) rfl (fun b hb => storeReg32_frame _ _ _ _ hb) (fun b hc => ?_) hs
    obtain ⟨k, hk⟩ := (isCntHByte_iff b).mp hc
    have := k.isLt; have := ch.isLt
    rcases hk with hk | hk <;> exact far_of_toNat hk (sadAddr_default ch) (by omega) (by omega) (by omega)
  case dmadad ch v =>
    cases h
    refine cntH_after_other (n := 4) (s := s) (t := storeReg32 (dadAddr Config.default ch) v s) rfl (fun b hb => storeReg32_frame _ _ _ _ hb) (fun b hc => ?_) hs
    obtain ⟨k, hk⟩ := (isCntHByte_iff b).mp hc
    have := k.isLt; have := ch.isLt
    rcases hk with hk | hk <;> exact far_of_toNat hk (dadAddr_default ch) (by omega) (by omega) (by omega)
  case dmacnt ch v =>
    cases h
    refine cntH_after_other (n := 2) (s := s) (t := storeReg16 (cntLAddr Config.default ch) v s) rfl (fun b hb => storeReg16_frame _ _ _ _ hb) (fun b hc => ?_) hs
    obtain ⟨k, hk⟩ := (isCntHByte_iff b).mp hc
    have := k.isLt; have := ch.isLt
    rcases hk with hk | hk <;> exact far_of_toNat hk (cntLAddr_default ch) (by omega) (by omega) (by omega)
  case reset =>
    cases h
    have hz : ∀ k, cntHOf Config.default (resetBlock Config.default s) k = 0 := by
      intro k
      have hz : ∀ b, inDmaBlock Config.default b = true → (resetBlock Config.default s).asByte b = 0 := by
        intro b hb
        refine (resetMem_read s.cart.biosLoaded s.mem b).trans (if_pos ?_)
        rw [dmaReg_region hb]; simp [isStoreTag]
      unfold cntHOf State.io16
      rw [hz _ (cntH_block k).1, hz _ (cntH_block k).2]; rfl
    intro k
    unfold State.chanOk
    rw [hz]
    have : (resetBlock Config.default s).chan k = DmaChan.reset := by
      show Channels.get _ k = _
      match k with | 0 => rfl | 1 => rfl | 2 => rfl | 3 => rfl
    rw [this]
    decide
  case loadcart m b g =>
    simp only [exec, execLoadcart, loadcartIn] at h
    split at h
    · cases h; exact hs
    · split at h
      · cases h
      · cases h
        refine sameBlock (s := s) rfl (fun b hb => ?_) hs
        refine (Memory.read_fill _ _ _ _ _).trans (if_neg ?_)
        rw [rom_size, default_rom]
        have := (inDmaBlock_default b).mp hb
        have e : (0x08000000 : Addr).toNat = 0x08000000 := rfl
        simp only [e]; omega
  case loadfw m =>
    simp only [exec, execLoadfw, loadfwIn] at h
    split at h
    · cases h; exact hs
    · cases h
      refine sameBlock (s := s) rfl (fun b hb => ?_) hs
      refine (Memory.read_fill _ _ _ _ _).trans (if_neg ?_)
      rw [bios_size, default_bios]
      have := (inDmaBlock_default b).mp hb
      have e : (0x00000000 : Addr).toNat = 0 := rfl
      simp only [e]; omega
  case loadbkp f =>
    simp only [exec, execLoadbkp, loadbkpIn] at h; split at h <;> cases h
    · exact hs
    · exact hs
    · unfold loadBackup
      split <;> exact hs
  case savebkp f => simp only [exec, execSavebkp, savebkpIn] at h; split at h <;> cases h <;> exact hs
  case cstore a b =>
    cases h; unfold collabStore
    split
    · rename_i hc
      refine sameBlock (s := s) rfl (fun b' hb => ?_) hs
      refine (asByte_write (s := s.start) _ _ _).trans (if_neg ?_)
      rintro rfl
      have := (inDmaBlock_default b').mp hb
      simp only [collaboratorOwns, Bool.or_eq_true, Range.has_iff] at hc
      simp only [default_lcdIo, default_apuIo, default_tmrIo] at hc
      simp at hc; omega
    · exact hs
  case sensor => cases h; unfold senseInput; split <;> exact hs
  case eerdreq6 => cases h; exact sameMem (intoWindow_dma _ _ _) (burst_frame _ _ _).2 hs
  case eerdreq14 => cases h; exact sameMem (intoWindow_dma _ _ _) (burst_frame _ _ _).2 hs
  case eewr6 => cases h; exact sameMem (intoWindow_dma _ _ _) (burst_frame _ _ _).2 hs
  case eewr14 => cases h; exact sameMem (intoWindow_dma _ _ _) (burst_frame _ _ _).2 hs
  case eebad => cases h; exact sameMem (intoWindow_dma _ _ _) (burst_frame _ _ _).2 hs
  case eerdbit =>
    cases h
    refine sameMem (s := s) ?_ ?_ hs
    · simp [afterUnitRead]; split <;> rfl
    · simp [afterUnitRead]; split <;> rfl
  case fldata off v => cases h; exact sameMem (onFlash_dma _ _) (onFlash_frame _ _).2 hs
  case flbanksel off v => cases h; exact sameMem (onFlash_dma _ _) (onFlash_frame _ _).2 hs
  case flkey1 => cases h; exact sameMem (onFlash_dma _ _) (onFlash_frame _ _).2 hs
  case flkey2 => cases h; exact sameMem (onFlash_dma _ _) (onFlash_frame _ _).2 hs
  case flidenter => cases h; exact sameMem (onFlash_dma _ _) (onFlash_frame _ _).2 hs
  case flidexit => cases h; exact sameMem (onFlash_dma _ _) (onFlash_frame _ _).2 hs
  case flerasesetup => cases h; exact sameMem (onFlash_dma _ _) (onFlash_frame _ _).2 hs
  case flchiperase => cases h; exact sameMem (onFlash_dma _ _) (onFlash_frame _ _).2 hs
  case flprogram => cases h; exact sameMem (onFlash_dma _ _) (onFlash_frame _ _).2 hs
  case flbank => cases h; exact sameMem (onFlash_dma _ _) (onFlash_frame _ _).2 hs
  case flsectorerase off => cases h; exact sameMem (onFlash_dma _ _) (onFlash_frame _ _).2 hs
  case flignored => cases h; exact sameMem (onFlash_dma _ _) (onFlash_frame _ _).2 hs
  case gpwrdata u b => cases h; exact sameMem (onGpio_dma (f := gpioWriteData Config.default b) (fun _ => rfl) u s) (onGpio_frame (f := gpioWriteData Config.default b) (fun _ => ⟨rfl, rfl⟩) u s).2 hs
  case gpwrdir u b => cases h; exact sameMem (onGpio_dma (f := gpioWriteDir Config.default b) (fun _ => rfl) u s) (onGpio_frame (f := gpioWriteDir Config.default b) (fun _ => ⟨rfl, rfl⟩) u s).2 hs
  case gpwrctl u b => cases h; exact sameMem (onGpio_dma (f := gpioWriteCtl b) (fun _ => rfl) u s) (onGpio_frame (f := gpioWriteCtl b) (fun _ => ⟨rfl, rfl⟩) u s).2 hs
  case gpwrrsv u b => cases h; exact sameMem (onGpio_dma (f := gpioWriteRsv) (fun _ => rfl) u s) (onGpio_frame (f := gpioWriteRsv) (fun _ => ⟨rfl, rfl⟩) u s).2 hs
  all_goals first
    | (exfalso; simp [writeAccess, passEvent] at hw hp; done)
    | (cases h; exact hs)

end Sys2Proof.Machine
end

