-- ==== Sys2Proof/Laws/Selected.lean ====
section
/-! SUPPORT. Whatever is decoded is well-formed and selected, port by port (30_encoding.md R106, R107). -/

namespace Sys2Proof.Machine

theorem decodeHeader_sel {h : Byte} {a d : Word} {side : Side} {i : Instr} (x : DecodeCtx) (hd : decodeHeader Config.default h a d side = .ok i) : i.WellFormed = true ∧ i.selectedIn Config.default x = true := by
  unfold decodeHeader at hd
  split at hd
  case h_19 =>
    cases hd
    refine ⟨?_, rfl⟩
    show decide _ = true
    rw [decide_eq_true_eq, BitVec.and_assoc, BitVec.and_self]
  case h_25 => split at hd <;> cases hd; exact ⟨rfl, rfl⟩
  case h_26 => split at hd <;> cases hd; exact ⟨rfl, rfl⟩
  case h_27 => split at hd <;> cases hd; exact ⟨rfl, rfl⟩
  case h_28 => split at hd <;> cases hd; exact ⟨rfl, rfl⟩
  case h_29 => split_ifs at hd
  all_goals (cases hd; exact ⟨rfl, rfl⟩)

theorem decodeFlash_sel (x : DecodeCtx) (hf : x.backup.isFlash = true) (off : Half) (v : Byte) : (decodeFlash Config.default x off v).WellFormed = true ∧ (decodeFlash Config.default x off v).selectedIn Config.default x = true := by
  unfold decodeFlash decodeFlashCommand
  cases hw : x.writeSingleByte <;> cases hs : x.switchBank <;> cases hp : x.pending <;> simp only [if_true, if_false, Bool.false_eq_true]
  all_goals (try split_ifs)
  all_goals (refine ⟨by first | rfl | (simp [Instr.WellFormed, Instr.wf]; simp_all), ?_⟩)
  all_goals (simp only [Instr.selectedIn, flashIgnores, DecodeCtx.atCommand, hw, hs, hp, hf])
  all_goals (try simp_all)
  all_goals tauto

theorem natOfBits_bit (bits : List Bool) (k : Nat) (hk : k < bits.length) : bits.getD k false = (natOfBits bits).testBit (bits.length - 1 - k) := by
  induction bits generalizing k with
  | nil => simp at hk
  | cons b bs ih =>
    have hlt := natOfBits_lt bs
    rw [show natOfBits (b :: bs) = b.toNat * 2 ^ bs.length + natOfBits bs from rfl]
    match k with
    | 0 =>
      simp only [List.getD_cons_zero, List.length_cons, Nat.add_sub_cancel, Nat.sub_zero]
      rw [Nat.mul_comm, Nat.testBit_two_pow_mul_add _ hlt]
      simp; cases b <;> rfl
    | k + 1 =>
      have hk' : k < bs.length := by simpa using hk
      rw [List.getD_cons_succ, ih k hk', Nat.mul_comm, Nat.testBit_two_pow_mul_add _ hlt]
      have : (b :: bs).length - 1 - (k + 1) = bs.length - 1 - k := by simp; omega
      rw [this, if_pos (by omega)]

theorem topTwo (bits : List Bool) (n : Nat) (hn : bits.length = n + 2) : natOfBits bits / 2 ^ n = 2 * (bits.getD 0 false).toNat + (bits.getD 1 false).toNat := by
  match bits, hn with
  | a :: b :: l, hn =>
    have hl : l.length = n := by simpa using hn
    have hlt := natOfBits_lt l
    rw [hl] at hlt
    show (a.toNat * 2 ^ (l.length + 1) + (b.toNat * 2 ^ l.length + natOfBits l)) / 2 ^ n = _
    rw [hl]
    have : a.toNat * 2 ^ (n + 1) + (b.toNat * 2 ^ n + natOfBits l) = natOfBits l + 2 ^ n * (2 * a.toNat + b.toNat) := by ring
    rw [this, Nat.add_mul_div_left _ _ (Nat.two_pow_pos n), Nat.div_eq_of_lt hlt, Nat.zero_add]
    rfl

theorem decodeBurst_sel (x : DecodeCtx) (hx : x.backup = .eeprom) (src : Addr) {bits : List Bool} (hne : bits ≠ []) : (decodeBurst x src bits).WellFormed = true ∧ (decodeBurst x src bits).selectedIn Config.default x = true := by
  have hwf : (Instr.eebad src bits).WellFormed = true := by
    cases bits with
    | nil => exact absurd rfl hne
    | cons => rfl
  have hbad : burstIsBad x bits = true → (Instr.eebad src bits).WellFormed = true ∧ (Instr.eebad src bits).selectedIn Config.default x = true := fun h => ⟨hwf, by show (decide (x.backup = .eeprom) && burstIsBad x bits) = true; simp [hx, h]⟩
  unfold decodeBurst
  simp only
  split
  · rename_i hl
    rw [topTwo bits 7 hl]
    split_ifs with hc
    · exact ⟨rfl, by show (decide (x.backup = .eeprom) && x.sizeOk .small) = true; simp [hx, hc.2]⟩
    · refine hbad ?_
      unfold burstIsBad
      simp only [hl]
      cases h0 : bits.getD 0 false <;> cases h1 : bits.getD 1 false <;> rw [h0, h1] at hc <;> simp at hc ⊢
      exact hc
  · rename_i hl
    rw [topTwo bits 15 hl]
    split_ifs with hc
    · exact ⟨rfl, by show (decide (x.backup = .eeprom) && x.sizeOk .large) = true; simp [hx, hc.2]⟩
    · refine hbad ?_
      unfold burstIsBad
      simp only [hl]
      cases h0 : bits.getD 0 false <;> cases h1 : bits.getD 1 false <;> rw [h0, h1] at hc <;> simp at hc ⊢
      exact hc
  · rename_i hl
    rw [topTwo bits 71 hl]
    split_ifs with hc
    · exact ⟨rfl, by show (decide (x.backup = .eeprom) && x.sizeOk .small) = true; simp [hx, hc.2]⟩
    · refine hbad ?_
      unfold burstIsBad
      simp only [hl]
      cases h0 : bits.getD 0 false <;> cases h1 : bits.getD 1 false <;> rw [h0, h1] at hc <;> simp at hc ⊢
      exact hc
  · rename_i hl
    rw [topTwo bits 79 hl]
    split_ifs with hc
    · exact ⟨rfl, by show (decide (x.backup = .eeprom) && x.sizeOk .large) = true; simp [hx, hc.2]⟩
    · refine hbad ?_
      unfold burstIsBad
      simp only [hl]
      cases h0 : bits.getD 0 false <;> cases h1 : bits.getD 1 false <;> rw [h0, h1] at hc <;> simp at hc ⊢
      exact hc
  · refine hbad ?_
    unfold burstIsBad
    simp only
    simp

theorem decode_sel {x : DecodeCtx} {p : Presented} {i : Instr} (h : decode Config.default x p = .ok i) : i.WellFormed = true ∧ i.selectedIn Config.default x = true := by
  cases p with
  | event bytes side =>
    simp only [decode, decodeEvent] at h
    split at h
    · exact decodeHeader_sel x h
    · cases h
  | dmaSad => cases h; exact ⟨rfl, rfl⟩
  | dmaDad => cases h; exact ⟨rfl, rfl⟩
  | dmaCnt => cases h; exact ⟨rfl, rfl⟩
  | dmaCtl => cases h; unfold decodeCtl; split <;> exact ⟨rfl, rfl⟩
  | flashWrite w =>
    simp only [decode] at h
    split at h
    · rename_i hf; cases h; exact decodeFlash_sel x hf _ _
    · cases h
  | flashRead w =>
    simp only [decode] at h
    split at h
    · rename_i hf; cases h; exact ⟨rfl, hf⟩
    · cases h
  | eeBurst src bits =>
    simp only [decode] at h
    split at h
    · rename_i hx
      split at h
      · cases h
      · rename_i hn; cases h; exact decodeBurst_sel x hx src (by simpa using hn)
    · cases h
  | eeRead a w =>
    simp only [decode] at h
    split at h
    · rename_i hx
      split at h
      · rename_i ha; cases h; exact ⟨ha, by show decide _ = true; simp [hx]⟩
      · cases h
    · cases h
  | gpioWrite a b =>
    simp only [decode] at h
    split at h
    · cases h
    · rename_i hx
      have : decide (x.gpio ≠ .disabled) = true := by simp [hx]
      simp only [decodeGpioWrite] at h
      split at h
      · split at h <;> cases h <;> exact ⟨decide_eq_true (Nat.mod_lt _ (by decide)), this⟩
      · cases h
  | gpioRead a =>
    simp only [decode] at h
    split at h
    · cases h
    · rename_i hx
      have : decide (x.gpio ≠ .disabled) = true := by simp [hx]
      simp only [decodeGpioRead] at h
      split at h
      · cases h; exact ⟨decide_eq_true (Nat.mod_lt _ (by decide)), this⟩
      · cases h

end Sys2Proof.Machine
end

