-- ==== Sys2Proof/Laws/Bursts.lean ====
section
/-! SUPPORT. What bursts do to the EEPROM's bytes, size and lock, and what instructions leave them alone (42_eeprom.md R231, R234 to R240, R244). -/

namespace Sys2Proof.Machine

/-- The address and data operands of a write request, read from its bits (R107, R234). -/
theorem writeOperands {n : Nat} (hn : n ≤ 14) {B : BitVec 81} {bits : List Bool} (hlen : bits.length = n + 67)
    (hget : ∀ i, i < 81 → i < n + 67 → B.getLsbD i = bits.getD i false) :
    (∀ i, i < n → B.getLsbD (2 + i) = (BitVec.ofNat n (natOfBits bits / 2 ^ 65)).getLsbD (n - 1 - i))
    ∧ (∀ i, i < 64 → B.getLsbD (2 + n + i) = (BitVec.ofNat 64 (natOfBits bits / 2)).getLsbD (63 - i)) := by
  refine ⟨fun i hi => ?_, fun i hi => ?_⟩
  · rw [hget _ (by omega) (by omega), natOfBits_bit bits _ (by omega), BitVec.getLsbD_ofNat, Nat.testBit_div_two_pow, hlen]
    have : n - 1 - i < n := by omega
    simp only [this, decide_true, Bool.true_and]
    congr 1; omega
  · rw [hget _ (by omega) (by omega), natOfBits_bit bits _ (by omega), BitVec.getLsbD_ofNat, hlen]
    have h2 : natOfBits bits / 2 = natOfBits bits / 2 ^ 1 := by simp
    rw [h2, Nat.testBit_div_two_pow]
    have : 63 - i < 64 := by omega
    simp only [this, decide_true, Bool.true_and]
    congr 1; omega

/-- The eight byte writes of a page are the page replaced (R234). -/
theorem commitBytes_page {B : BitVec 81} {n : Nat} (hn : n ≤ 14) {d : BitVec 64} (h : ∀ i, i < 64 → B.getLsbD (2 + n + i) = d.getLsbD (63 - i)) (p : Nat) (m : Memory) :
    commitBytes B n (8 * p) 0 8 m = pageReplaced p d m := by
  have hb := burstByte_data hn h
  unfold pageReplaced
  simp only [commitBytes, List.range, List.range.loop, List.foldl_cons, List.foldl_nil, Nat.zero_add, Nat.reduceAdd]
  simp only [hb _ (show 0 < 8 by omega), hb _ (show 1 < 8 by omega), hb _ (show 2 < 8 by omega), hb _ (show 3 < 8 by omega), hb _ (show 4 < 8 by omega),
    hb _ (show 5 < 8 by omega), hb _ (show 6 < 8 by omega), hb _ (show 7 < 8 by omega)]

/-- The store, the size and the lock of an engine. -/
def Eeprom.kept (ee : Eeprom) : Memory × EeSize × Bool := (ee.data, ee.size, ee.sizeLock)

/-- The bits an engine has taken in. -/
def Eeprom.taken (ee : Eeprom) : List Bool := (List.range ee.cursor).map ee.buf.getLsbD

theorem taken_length (ee : Eeprom) : ee.taken.length = ee.cursor := by simp [Eeprom.taken]

theorem taken_getD (ee : Eeprom) (i : Nat) (hi : i < ee.cursor) : ee.taken.getD i false = ee.buf.getLsbD i := by
  unfold Eeprom.taken
  rw [List.getD_eq_getElem _ _ (by simpa using hi)]; simp

theorem decodeBurst_other (x : DecodeCtx) (src : Addr) {bits : List Bool} (h9 : bits.length ≠ 9) (h17 : bits.length ≠ 17) (h73 : bits.length ≠ 73) (h81 : bits.length ≠ 81) :
    decodeBurst x src bits = .eebad src bits := by
  unfold decodeBurst
  simp only

/-- The end of a burst does to the store, the size and the lock what the row of its bits says (R234 to R240). -/
theorem burstEnd_kept (ee : Eeprom) : (eepromBurstEnd Config.default ee).kept = burstEffect ee.kept ee.taken := by
  have hl := taken_length ee
  have hsz : ∀ sz, (DecodeCtx.mk .eeprom .disabled false false false .none ee.kept.2.1 ee.kept.2.2).sizeOk sz = (!ee.sizeLock || decide (ee.size = sz)) := fun _ => rfl
  have hg := taken_getD ee
  by_cases h9 : ee.cursor = 9
  · have hr : reqForm Config.default ee.cursor = some (.small, .read) := by rw [h9]; rfl
    unfold burstEffect decodeBurst eepromBurstEnd
    simp only
    rw [hr, hl, h9]
    simp only [topTwo ee.taken 7 (by rw [hl, h9]), hsz, burstAccepted, hg 0 (by omega), hg 1 (by omega)]
    cases ee.buf.getLsbD 0 <;> cases ee.buf.getLsbD 1 <;> cases hk : ee.sizeLock <;> cases hz : ee.size <;> simp [Eeprom.kept, Eeprom.bad, Eeprom.latch, hk, hz]
  by_cases h17 : ee.cursor = 17
  · have hr : reqForm Config.default ee.cursor = some (.large, .read) := by rw [h17]; rfl
    unfold burstEffect decodeBurst eepromBurstEnd
    simp only
    rw [hr, hl, h17]
    simp only [topTwo ee.taken 15 (by rw [hl, h17]), hsz, burstAccepted, hg 0 (by omega), hg 1 (by omega)]
    cases ee.buf.getLsbD 0 <;> cases ee.buf.getLsbD 1 <;> cases hk : ee.sizeLock <;> cases hz : ee.size <;> simp [Eeprom.kept, Eeprom.bad, Eeprom.latch, hk, hz]
  by_cases h73 : ee.cursor = 73
  · have hr : reqForm Config.default ee.cursor = some (.small, .write) := by rw [h73]; rfl
    obtain ⟨ha, hd⟩ := writeOperands (n := 6) (B := ee.buf) (bits := ee.taken) (by omega) (by rw [hl, h73]) (fun i _ hi => (hg i (by omega)).symm)
    have haddr := bufNat_addr (n := 6) (by omega) ha
    have hc := fun p m => commitBytes_page (n := 6) (by omega) hd p m
    unfold burstEffect decodeBurst eepromBurstEnd
    simp only
    rw [hr, hl, h73]
    have hp : eePageOf Config.default (BitVec.setWidth 14 (BitVec.ofNat 6 (natOfBits ee.taken / 2 ^ 65))) .small = (BitVec.ofNat 6 (natOfBits ee.taken / 2 ^ 65)).toNat % 64 := by
      rw [page_small, BitVec.toNat_setWidth]
      have := (BitVec.ofNat 6 (natOfBits ee.taken / 2 ^ 65)).isLt; omega
    have hab : eeAddrBits Config.default .small = 6 := rfl
    simp only [topTwo ee.taken 71 (by rw [hl, h73]), hsz, burstAccepted, hg 0 (by omega), hg 1 (by omega), commitPage, Eeprom.latch, hab, haddr, default_eePage, hc, hp]
    cases ee.buf.getLsbD 0 <;> cases ee.buf.getLsbD 1 <;> cases hk : ee.sizeLock <;> cases hz : ee.size <;> simp [Eeprom.kept, Eeprom.bad, hk, hz]
  by_cases h81 : ee.cursor = 81
  · have hr : reqForm Config.default ee.cursor = some (.large, .write) := by rw [h81]; rfl
    obtain ⟨ha, hd⟩ := writeOperands (n := 14) (B := ee.buf) (bits := ee.taken) (by omega) (by rw [hl, h81]) (fun i _ hi => (hg i (by omega)).symm)
    have haddr := bufNat_addr (n := 14) (by omega) ha
    have hc := fun p m => commitBytes_page (n := 14) (by omega) hd p m
    unfold burstEffect decodeBurst eepromBurstEnd
    simp only
    rw [hr, hl, h81]
    have hp : eePageOf Config.default (BitVec.setWidth 14 (BitVec.ofNat 14 (natOfBits ee.taken / 2 ^ 65))) .large = (BitVec.ofNat 14 (natOfBits ee.taken / 2 ^ 65)).toNat % 1024 := by
      rw [page_large, BitVec.setWidth_eq]
    have hab : eeAddrBits Config.default .large = 14 := rfl
    simp only [topTwo ee.taken 79 (by rw [hl, h81]), hsz, burstAccepted, hg 0 (by omega), hg 1 (by omega), commitPage, Eeprom.latch, hab, haddr, default_eePage, hc, hp]
    cases ee.buf.getLsbD 0 <;> cases ee.buf.getLsbD 1 <;> cases hk : ee.sizeLock <;> cases hz : ee.size <;> simp [Eeprom.kept, Eeprom.bad, hk, hz]
  · have hr : reqForm Config.default ee.cursor = none := by
      unfold reqForm; simp [h9, h17, h73, h81]
    have hb := decodeBurst_other ⟨.eeprom, .disabled, false, false, false, .none, ee.kept.2.1, ee.kept.2.2⟩ 0 (bits := ee.taken) (by rw [hl]; exact h9) (by rw [hl]; exact h17) (by rw [hl]; exact h73) (by rw [hl]; exact h81)
    unfold burstEffect eepromBurstEnd
    rw [hr, hb]; rfl

theorem shiftIn_kept (b : Bool) (src : Addr) (ee : Eeprom) : (eepromShiftIn b src ee).kept = ee.kept := by
  unfold eepromShiftIn Eeprom.take Eeprom.begin; split <;> rfl

theorem shiftOut_kept (c : Config) (ee : Eeprom) : (eepromShiftOut c ee).kept = ee.kept := by
  unfold eepromShiftOut; split; split <;> rfl; rfl

theorem writeBytes_ee {org : Origin} {a : Addr} {bs : List Byte} {s t : State} (h : writeBytes Config.default org a bs s = .ok t) : t.ee = s.ee := (writeBytes_frame h).ee

theorem commitList_ee {touched : List Chan} (l : List Chan) : ∀ {s t : State}, commitList Config.default touched l s = .ok t → t.ee = s.ee := by
  induction l with
  | nil => intro s t h; cases h; rfl
  | cons ch l ih =>
    intro s t h
    simp only [commitList] at h
    split at h
    · split at h
      · cases h
      · rename_i s1 h1
        rw [ih h]
        unfold commitCntH arm at h1
        split at h1
        · split at h1
          · cases h1
          · cases h1; rfl
        · cases h1; rfl
    · exact ih h

/-- Without an EEPROM cartridge a run leaves the engine alone (R231). -/
theorem Prims.noEeprom {c : Config} {O : Origin → Prop} {A : Chan → Prop} {s t : State} (h : Prims c O A s t) (hb : s.cart.backupType ≠ .eeprom) :
    t.ee = s.ee := by
  refine (h.rel (R := fun s t => t.cart = s.cart ∧ (s.cart.backupType ≠ .eeprom → t.ee = s.ee)) (fun _ => ⟨rfl, fun _ => rfl⟩)
    (fun h h' => ⟨h'.1.trans h.1, fun hb => (h'.2 (by rw [h.1]; exact hb)).trans (h.2 hb)⟩) fun hp => ⟨hp.frame.1, fun hb => ?_⟩).2 hb
  cases hp with
  | byte _ hw =>
    rcases writeByte_cases hw with ⟨_, _, rfl, _⟩ | ⟨_, rfl⟩ | ⟨_, rfl⟩ | ⟨_, rfl⟩
    · rfl
    · exact (gpioWriteByte_frame ..).2.1
    · exact (backupWriteByte_frame ..).2.1
    · rfl
  | shiftOut h => exact absurd h hb
  | shiftIn _ _ h => exact absurd h hb
  | burstEnd h => exact absurd h hb
  | _ => rfl

/-- An instruction that is no burst, starts no run and loads nothing keeps the EEPROM's store, size and lock (R244). -/
theorem exec_kept {i : Instr} {s t : State} (hx : exec i s = .next t) (hm : mayRunDma i = false) (hb : burstBits i = none)
    (h4 : ∀ m b g, i ≠ .loadcart m b g) (h5 : ∀ f, i ≠ .loadbkp f) : t.ee.kept = s.ee.kept := by
  cases i
  case loadfw m => simp only [exec, execLoadfw, loadfwIn] at hx; split at hx <;> cases hx <;> rfl
  case loadcart m b g => exact absurd rfl (h4 m b g)
  case loadbkp f => exact absurd rfl (h5 f)
  case savebkp f => simp only [exec, execSavebkp, savebkpIn] at hx; split at hx <;> cases hx <;> rfl
  case cstore => cases hx; unfold collabStore; split <;> rfl
  case sensor => cases hx; unfold senseInput; split <;> rfl
  case eerdbit a w =>
    cases hx; unfold afterUnitRead; split
    · exact shiftOut_kept _ _
    · rfl
  case fldata => cases hx; rw [onFlash_ee]
  case flbanksel => cases hx; rw [onFlash_ee]
  case flkey1 => cases hx; rw [onFlash_ee]
  case flkey2 => cases hx; rw [onFlash_ee]
  case flidenter => cases hx; rw [onFlash_ee]
  case flidexit => cases hx; rw [onFlash_ee]
  case flerasesetup => cases hx; rw [onFlash_ee]
  case flchiperase => cases hx; rw [onFlash_ee]
  case flprogram => cases hx; rw [onFlash_ee]
  case flbank => cases hx; rw [onFlash_ee]
  case flsectorerase => cases hx; rw [onFlash_ee]
  case flignored => cases hx; rw [onFlash_ee]
  case gpwrdata => cases hx; rw [onGpio_ee]; intro; rfl
  case gpwrdir => cases hx; rw [onGpio_ee]; intro; rfl
  case gpwrctl => cases hx; rw [onGpio_ee]; intro; rfl
  case gpwrrsv => cases hx; rw [onGpio_ee]; intro; rfl
  all_goals first
    | (simp [mayRunDma, writeAccess, passEvent] at hm; done)
    | (simp [burstBits] at hb; done)
    | (cases hx; rfl)

/-- A row of a whole burst is the burst of its bits under an EEPROM cartridge, and nothing under another (R107, R231). -/
theorem exec_burstBits {i : Instr} {bits : List Bool} (h : burstBits i = some bits) (s : State) :
    ∃ src, exec i s = .next (burstIntoWindow Config.default src bits s) := by
  cases i <;> simp only [burstBits, Option.some.injEq, reduceCtorEq] at h <;> subst h <;> exact ⟨_, rfl⟩

end Sys2Proof.Machine
end

