-- ==== Sys2Proof/Laws/Passive.lean ====
section
/-! SUPPORT. Changes of the state that no write and no run reads (the timing bookkeeping, the outputs so far, for a write the channels too): writes and runs are the same before and after them (40_bus_access.md R150 to R152, 41_dma.md R190 to R197). -/

namespace Sys2Proof.Machine

/-- A change of the state that no write reads. -/
structure Inert (f : State → State) : Prop where
  mem : ∀ s, (f s).mem = s.mem
  cart : ∀ s, (f s).cart = s.cart
  ee : ∀ s, (f s).ee = s.ee
  fl : ∀ s, (f s).fl = s.fl
  sram : ∀ s, (f s).sram = s.sram
  gpio : ∀ s, (f s).gpio = s.gpio
  setMem : ∀ s m, (f s).setMem m = f (s.setMem m)
  setEe : ∀ s x, (f s).setEe x = f (s.setEe x)
  setFl : ∀ s x, (f s).setFl x = f (s.setFl x)
  setSram : ∀ s m, (f s).setSram m = f (s.setSram m)
  setGpio : ∀ s x, (f s).setGpio x = f (s.setGpio x)
  emit : ∀ s l, (f s).emit l = f (s.emit l)

/-- A change of the state that no run reads. -/
structure Passive (f : State → State) : Prop extends Inert f where
  dma : ∀ s, (f s).dma = s.dma
  setChan : ∀ s ch x, (f s).setChan ch x = f (s.setChan ch x)

/-- Another class output. -/
def State.setCls (k : Option TimingClass) (s : State) : State := s.setOut { s.out with cls := k }

theorem passive_setTc (x : Tc) : Passive (fun s => s.setTc x) where
  mem _ := rfl
  cart _ := rfl
  ee _ := rfl
  fl _ := rfl
  sram _ := rfl
  gpio _ := rfl
  setMem _ _ := rfl
  setEe _ _ := rfl
  setFl _ _ := rfl
  setSram _ _ := rfl
  setGpio _ _ := rfl
  emit _ _ := rfl
  dma _ := rfl
  setChan _ _ _ := rfl

theorem passive_setCls (k : Option TimingClass) : Passive (State.setCls k) where
  mem _ := rfl
  cart _ := rfl
  ee _ := rfl
  fl _ := rfl
  sram _ := rfl
  gpio _ := rfl
  setMem _ _ := rfl
  setEe _ _ := rfl
  setFl _ _ := rfl
  setSram _ _ := rfl
  setGpio _ _ := rfl
  emit _ _ := rfl
  dma _ := rfl
  setChan _ _ _ := rfl

/-- Other outputs, and earlier signals before those of the state. -/
def State.over (o : Outputs) (s : State) : State := s.setOut { o with signals := o.signals ++ s.out.signals }

theorem passive_over (o : Outputs) : Passive (State.over o) where
  mem _ := rfl
  cart _ := rfl
  ee _ := rfl
  fl _ := rfl
  sram _ := rfl
  gpio _ := rfl
  setMem _ _ := rfl
  setEe _ _ := rfl
  setFl _ _ := rfl
  setSram _ _ := rfl
  setGpio _ _ := rfl
  emit s l' := by simp only [State.over, State.emit, State.setOut, List.append_assoc]
  dma _ := rfl
  setChan _ _ _ := rfl

/-- Any state is its outputs over itself without outputs. -/
theorem over_start (s : State) : s.start.over s.out = s := by
  simp [State.over, State.start, State.setOut, Outputs.empty]

theorem inert_setDma (d : Channels) : Inert (fun s => s.setDma d) where
  mem _ := rfl
  cart _ := rfl
  ee _ := rfl
  fl _ := rfl
  sram _ := rfl
  gpio _ := rfl
  setMem _ _ := rfl
  setEe _ _ := rfl
  setFl _ _ := rfl
  setSram _ _ := rfl
  setGpio _ _ := rfl
  emit _ _ := rfl

variable {c : Config} {f : State → State}

theorem Inert.readByte (hf : Inert f) (s : State) (a : Addr) : readByte c (f s) a = Machine.readByte c s a := by
  unfold Machine.readByte backupReadByte State.asByte
  simp only [hf.mem, hf.cart, hf.fl, hf.sram, hf.gpio]

theorem Inert.memRead (hf : Inert f) (s : State) (a : Addr) (n : Nat) : memRead c (f s) a n = Machine.memRead c s a n := by
  unfold Machine.memRead; rw [readBytes_congr c (hf.readByte s)]

theorem Inert.writeByte (hf : Inert f) (org : Origin) (a : Addr) (b : Byte) (s : State) :
    writeByte c org a b (f s) = (Machine.writeByte c org a b s).map f := by
  unfold Machine.writeByte
  simp only [hf.cart, hf.mem]
  cases decodeTag c s.cart.gpioType a <;> simp only
  case io => split; split; rfl; all_goals simp only [writeIoByte, writeDmaRegByte, hf.mem, hf.setMem, hf.emit, Except.map]
  case gpio =>
    unfold gpioWriteByte gpioWriteData gpioWriteDir gpioWriteCtl gpioWriteRsv
    simp only [hf.gpio, hf.setGpio, hf.emit]
    split; rfl; split <;> rfl
  case bkp =>
    unfold backupWriteByte
    simp only [hf.cart, hf.sram, hf.fl, hf.setSram, hf.setFl]
    split <;> rfl
  all_goals simp only [hf.setMem, Except.map]

theorem Inert.writeBytes (hf : Inert f) (org : Origin) (bs : List Byte) : ∀ (a : Addr) (s : State),
    writeBytes c org a bs (f s) = (Machine.writeBytes c org a bs s).map f := by
  induction bs with
  | nil => intro a s; rfl
  | cons b bs ih =>
    intro a s
    simp only [Machine.writeBytes, hf.writeByte]
    cases Machine.writeByte c org a b s with
    | error r => rfl
    | ok u => exact ih _ u

theorem Inert.inEepWindow (hf : Inert f) (s : State) (a : Addr) : inEepWindow c (f s) a = Machine.inEepWindow c s a := by
  unfold Machine.inEepWindow; rw [hf.cart]

theorem Inert.unitRead (hf : Inert f) (s : State) (a : Addr) (w : UnitWidth) : unitRead c (f s) a w = Machine.unitRead c s a w := by
  unfold Machine.unitRead; rw [hf.inEepWindow, hf.ee, hf.memRead]

theorem Inert.afterUnitRead (hf : Inert f) (s : State) (a : Addr) : afterUnitRead c (f s) a = f (Machine.afterUnitRead c s a) := by
  unfold Machine.afterUnitRead; rw [hf.inEepWindow, hf.ee, hf.setEe]; split <;> rfl

theorem Inert.unitWrite (hf : Inert f) (ch : Chan) (src dst : Addr) (w : UnitWidth) (v : Word) (s : State) :
    unitWrite c ch src dst w v (f s) = (Machine.unitWrite c ch src dst w v s).map f := by
  unfold Machine.unitWrite; rw [hf.inEepWindow, hf.ee, hf.setEe, hf.writeBytes]; split <;> rfl

theorem Passive.chan (hf : Passive f) (s : State) (ch : Chan) : (f s).chan ch = s.chan ch := by
  unfold State.chan; rw [hf.dma]

theorem Passive.dmaUnit (hf : Passive f) (ch : Chan) (e : Bool) (s : State) :
    dmaUnit c ch e (f s) = (Machine.dmaUnit c ch e s).map fun p => (f p.1, p.2) := by
  unfold Machine.dmaUnit
  simp only [hf.chan, hf.unitRead, hf.afterUnitRead, hf.unitWrite, hf.inEepWindow]
  cases Machine.unitWrite c ch (s.chan ch).src (s.chan ch).dst (s.chan ch).width (Machine.unitRead c s (s.chan ch).src (s.chan ch).width)
    (Machine.afterUnitRead c s (s.chan ch).src) with
  | error r => rfl
  | ok u => simp only [Except.map, hf.chan, hf.setChan]

theorem Passive.dmaUnits (hf : Passive f) (ch : Chan) (n : Nat) : ∀ (e : Bool) (s : State),
    dmaUnits c ch n e (f s) = (Machine.dmaUnits c ch n e s).map fun p => (f p.1, p.2) := by
  induction n with
  | zero => intro e s; rfl
  | succ n ih =>
    intro e s
    simp only [Machine.dmaUnits, hf.dmaUnit]
    cases Machine.dmaUnit c ch e s with
    | error r => rfl
    | ok p => exact ih _ _

theorem Passive.complete (hf : Passive f) (ch : Chan) (s : State) : complete c ch (f s) = f (Machine.complete c ch s) := by
  have hm : ∀ s, (f s).mem = s.mem := hf.mem
  have hr : ∀ s, rearm c ch (f s) = f (rearm c ch s) := fun s => by
    unfold rearm
    simp only [hf.chan, hf.setChan, cntLOf, dadOf, State.io16, State.io32, State.asByte, hm]
  have hg : ∀ s, goIdle c ch (f s) = f (goIdle c ch s) := fun s => by
    unfold goIdle
    simp only [hf.chan, hf.setChan, hf.setMem, hm]
  unfold Machine.complete
  simp only [hf.chan, hf.emit]
  split <;> split <;> simp only [hr, hg]

theorem Passive.endRun (hf : Passive f) (ch : Chan) (e : Bool) (s : State) : endRun c ch e (f s) = f (Machine.endRun c ch e s) := by
  unfold Machine.endRun
  simp only [hf.chan, hf.setChan, hf.ee, hf.setEe]
  cases e <;> exact hf.complete ch _

theorem Passive.dmaRun (hf : Passive f) (ch : Chan) (s : State) : dmaRun c ch (f s) = (Machine.dmaRun c ch s).map f := by
  unfold Machine.dmaRun
  simp only [hf.chan, hf.setChan, hf.dmaUnits]
  cases Machine.dmaUnits c ch (unitsLeft (s.chan ch)) false (s.setChan ch { s.chan ch with running := true }) with
  | error r => rfl
  | ok p => exact congrArg Except.ok (hf.endRun ch p.2 p.1)

theorem Passive.serviceChan (hf : Passive f) (ev : DmaEvent) (ch : Chan) (s : State) :
    serviceChan c ev ch (f s) = (Machine.serviceChan c ev ch s).map f := by
  unfold Machine.serviceChan
  rw [hf.chan, hf.dmaRun]; split <;> rfl

theorem Passive.serviceList (hf : Passive f) (ev : DmaEvent) (l : List Chan) : ∀ s : State,
    serviceList c ev l (f s) = (Machine.serviceList c ev l s).map f := by
  induction l with
  | nil => intro s; rfl
  | cons ch l ih =>
    intro s
    simp only [Machine.serviceList, hf.serviceChan]
    cases Machine.serviceChan c ev ch s with
    | error r => rfl
    | ok u => exact ih u

theorem Passive.forceDma (hf : Passive f) (ch : Chan) (s : State) : forceDma c ch (f s) = (Machine.forceDma c ch s).map f := by
  unfold Machine.forceDma
  simp only [hf.chan, hf.setChan, hf.dmaRun]
  split <;> rfl

theorem Passive.cntHOf (hf : Passive f) (ch : Chan) (s : State) : cntHOf c (f s) ch = Machine.cntHOf c s ch := by
  simp only [Machine.cntHOf, State.io16, State.asByte, hf.mem]

theorem Passive.commitCntH (hf : Passive f) (ch : Chan) (s : State) : commitCntH c ch (f s) = (Machine.commitCntH c ch s).map f := by
  unfold Machine.commitCntH arm armedChan disarm
  simp only [hf.cntHOf, hf.chan, hf.setChan, sadOf, dadOf, cntLOf, State.io16, State.io32, State.asByte, hf.mem]
  split
  · split <;> rfl
  · rfl

theorem Passive.commitList (hf : Passive f) (touched l : List Chan) : ∀ s : State,
    commitList c touched l (f s) = (Machine.commitList c touched l s).map f := by
  induction l with
  | nil => intro s; rfl
  | cons ch l ih =>
    intro s
    simp only [Machine.commitList, hf.commitCntH]
    split
    · cases Machine.commitCntH c ch s with
      | error r => rfl
      | ok u => exact ih u
    · exact ih s

/-- The register side effects of a write are the same before and after a passive change (40_bus_access.md R152). -/
theorem Passive.regCommit (hf : Passive f) (touched : List Chan) (s : State) : regCommit c touched (f s) = (Machine.regCommit c touched s).map f := by
  unfold Machine.regCommit
  split
  · rfl
  · rw [hf.commitList]
    cases Machine.commitList c touched (channels c) s with
    | error r => rfl
    | ok u => exact hf.serviceList _ _ u

/-- A write transaction is the same before and after a passive change (R150). -/
theorem Passive.writeTransaction (hf : Passive f) (a : Addr) (bs : List Byte) (s : State) :
    writeTransaction c a bs (f s) = (Machine.writeTransaction c a bs s).map f := by
  unfold Machine.writeTransaction
  simp only [hf.writeBytes, hf.cart]
  cases Machine.writeBytes c .cpu a bs s with
  | error r => rfl
  | ok u => exact hf.regCommit _ u

end Sys2Proof.Machine
end

