-- ==== Sys2Proof/Laws/Commit.lean ====
section
/-! SUPPORT. Writes that cover a control register: which channels they touch, what they store, and that the class they report has no part in what follows (40_bus_access.md R150 to R152). -/

namespace Sys2Proof.Machine

variable {c : Config}

/-- The class a write reports has no part in its register side effects (40_bus_access.md R152). -/
theorem regCommit_cls (k : Option TimingClass) (touched : List Chan) (s : State) : regCommit c touched (s.setCls k) = (regCommit c touched s).map (State.setCls k) :=
  (passive_setCls k).regCommit touched s

/-- A list of channels that is one channel, however often. -/
theorem regCommit_same {ch : Chan} {touched : List Chan} (h1 : ch ∈ touched) (h2 : ∀ j ∈ touched, j = ch) (s : State) :
    regCommit c touched s = regCommit c [ch] s := by
  have hc : ∀ j, touched.contains j = [ch].contains j := by
    intro j
    rw [Bool.eq_iff_iff]
    simp only [List.contains_iff_mem, List.mem_singleton]
    exact ⟨h2 j, fun h => h ▸ h1⟩
  have hl : ∀ (l : List Chan) (s : State), commitList c touched l s = commitList c [ch] l s := by
    intro l; induction l with
    | nil => intro s; rfl
    | cons j l ih => intro s; simp only [commitList, ih, hc]
  unfold regCommit
  have he : touched.isEmpty = false := by
    cases touched with
    | nil => cases h1
    | cons _ _ => rfl
  rw [he, hl]; rfl

/-- A byte written near the DMA registers: stored under its mask, nothing forwarded (40_bus_access.md R151). -/
theorem writeByte_quiet {a : Addr} (h1 : 0x040000B0 ≤ a.toNat) (h2 : a.toNat ≤ 0x040000FF) (b : Byte) (s : State) :
    writeByte Config.default .cpu a b s = .ok (s.setMem (s.mem.write a.toNat (b &&& ioMask Config.default a))) := by
  have htag : decodeTag Config.default s.cart.gpioType a = .io := by
    rw [decodeTag_default]; split_ifs <;> first | rfl | omega
  unfold writeByte
  simp only [htag]
  split
  · rfl
  · rename_i hn
    have hn : inDmaBlock Config.default a = false := by simpa using hn
    have hm : ioMask Config.default a = 0xFF := by unfold ioMask; simp [hn]
    have hf : forwards Config.default a b = [] := by
      unfold forwards
      have l1 : Config.default.lcdIo.has a = false := by
        by_contra hc
        have hc : Config.default.lcdIo.has a = true := by simpa using hc
        have := (Range.has_iff _ _).mp hc
        simp at this; omega
      have l2 : Config.default.apuIo.has a = false := by
        by_contra hc
        have hc : Config.default.apuIo.has a = true := by simpa using hc
        have := (Range.has_iff _ _).mp hc
        simp at this; omega
      have l3 : Config.default.tmrIo.has a = false := by
        by_contra hc
        have hc : Config.default.tmrIo.has a = true := by simpa using hc
        have := (Range.has_iff _ _).mp hc
        simp at this; omega
      simp only [l1, l2, l3, Bool.false_eq_true, if_false, List.append_nil]
    unfold writeIoByte
    rw [hf, hm]
    have : b &&& 0xFF = b := BitVec.and_allOnes
    rw [this]
    simp [State.emit]
    rfl

theorem writeBytes_quiet (bs : List Byte) : ∀ (a : Addr) (s : State), bs.length ≤ 4 →
    (∀ k, k < bs.length → 0x040000B0 ≤ (a + BitVec.ofNat 32 k).toNat ∧ (a + BitVec.ofNat 32 k).toNat ≤ 0x040000FF) →
    ∃ m, writeBytes Config.default .cpu a bs s = .ok (s.setMem m) ∧ (s.mem.wf = true → m.wf = true)
      ∧ ∀ k b, bs[k]? = some b → m.read (a + BitVec.ofNat 32 k).toNat = b &&& ioMask Config.default (a + BitVec.ofNat 32 k) := by
  induction bs with
  | nil => intro a s _ _; exact ⟨s.mem, rfl, id, by simp⟩
  | cons b bs ih =>
    intro a s hl h
    simp only [List.length_cons] at hl
    have h0 := h 0 (by simp)
    simp only [BitVec.ofNat_eq_ofNat, BitVec.add_zero] at h0
    obtain ⟨m, e1, e2, e3⟩ := ih (a + 1) (s.setMem (s.mem.write a.toNat (b &&& ioMask Config.default a))) (by omega) (fun k hk => by rw [add_one_ofNat]; exact h (k+1) (by simpa using hk))
    refine ⟨m, by simp only [writeBytes, writeByte_quiet h0.1 h0.2]; exact e1, fun hw => e2 (Memory.wf_write _ _ hw), ?_⟩
    intro k b' hb
    cases k with
    | zero =>
      simp only [List.getElem?_cons_zero, Option.some.injEq] at hb
      subst hb
      have hf := (writeBytes_frame e1).bytes a (fun k hk hh => by
        rw [add_one_ofNat] at hh
        have : a + BitVec.ofNat 32 0 = a + BitVec.ofNat 32 (k + 1) := by simpa using hh
        have := add_ofNat_inj (by omega) (by omega) this
        omega)
      simp only [BitVec.ofNat_eq_ofNat, BitVec.add_zero]
      refine Eq.trans hf ?_
      show (s.mem.write _ _).read _ = _
      rw [Memory.read_write_same]
    | succ k =>
      have := e3 k b' (by simpa using hb)
      rw [add_one_ofNat] at this; exact this

theorem touchedCntH_mem {g : GpioType} {ch : Chan} (n : Nat) : ∀ {a : Addr}, 
    (∃ j, j < n ∧ (a + BitVec.ofNat 32 j = cntHAddr Config.default ch ∨ a + BitVec.ofNat 32 j = cntHAddr Config.default ch + 1)) →
    ch ∈ touchedCntH Config.default g a n := by
  induction n with
  | zero => rintro a ⟨j, hj, _⟩; omega
  | succ n ih =>
    rintro a ⟨j, hj, h⟩
    unfold touchedCntH
    rw [List.mem_append]
    cases j with
    | zero =>
      left
      simp only [BitVec.ofNat_eq_ofNat, BitVec.add_zero] at h
      have hb : inDmaBlock Config.default a = true := by rcases h with rfl | rfl; exacts [(cntH_block ch).1, (cntH_block ch).2]
      have hr : dmaRegAt Config.default a = some (ch, .cntH) := by
        rw [dmaRegAt_cntH]
        rcases h with rfl | rfl
        · exact .inl (cntHAddr_default ch)
        · exact .inr (cntHAddr_succ_default ch)
      rw [if_pos (dmaBlock_io hb)]
      unfold cntHAt; rw [hr]; simp
    | succ j =>
      right
      rw [← add_one_ofNat] at h
      exact ih ⟨j, by omega, h⟩
theorem mem_touchedCntH {g : GpioType} {k : Chan} (n : Nat) : ∀ {a : Addr}, k ∈ touchedCntH Config.default g a n →
    ∃ j, j < n ∧ (a + BitVec.ofNat 32 j = cntHAddr Config.default k ∨ a + BitVec.ofNat 32 j = cntHAddr Config.default k + 1) := by
  induction n with
  | zero => intro a h; cases h
  | succ n ih =>
    intro a h
    unfold touchedCntH at h
    rcases List.mem_append.mp h with h | h
    · refine ⟨0, by omega, ?_⟩
      split at h
      · unfold cntHAt at h
        split at h
        · rename_i ch hr
          have : k = ch := by simpa using h
          subst this
          simp only [BitVec.ofNat_eq_ofNat, BitVec.add_zero]
          rcases (dmaRegAt_cntH a k).mp hr with h | h
          · exact .inl (addr_eq_of_toNat (by rw [h, cntHAddr_default]))
          · exact .inr (addr_eq_of_toNat (h.trans (cntHAddr_succ_default k).symm))
        · cases h
      · cases h
    · obtain ⟨j, hj, h⟩ := ih h
      refine ⟨j + 1, by omega, ?_⟩
      rw [add_one_ofNat] at h; exact h

/-- A register stored over itself is no change. -/
theorem storeReg16_self {s : State} {a : Addr} (h : s.mem.wf = true) : storeReg16 a (s.io16 a) s = s.start := by
  unfold storeReg16
  have hm : storeBytes s.mem a (splitLE 2 ((s.io16 a).setWidth 32)) = s.mem := by
    rw [splitLE_two]
    have b0 : (s.io16 a).extractLsb' 0 8 = s.asByte a := by
      unfold State.io16; apply BitVec.eq_of_getLsbD_eq; intro i hi
      simp only [BitVec.getLsbD_extractLsb', BitVec.getLsbD_append]
      interval_cases i <;> simp
    have b1 : (s.io16 a).extractLsb' 8 8 = s.asByte (a + 1) := by
      unfold State.io16; apply BitVec.eq_of_getLsbD_eq; intro i hi
      simp only [BitVec.getLsbD_extractLsb', BitVec.getLsbD_append]
      interval_cases i <;> simp
    simp only [halfBytes, b0, b1, storeBytes]
    apply Memory.ext_read (Memory.wf_write _ _ (Memory.wf_write _ _ h)) h
    intro n
    rw [Memory.read_write]
    split
    · rename_i hn; rw [hn]; rfl
    · rw [Memory.read_write]; split
      · rename_i hn; rw [hn]; rfl
      · rfl
  rw [hm]; rfl

end Sys2Proof.Machine
end

