-- ==== Sys2Proof/Laws/Engines.lean ====
section
/-! SUPPORT. Every instruction in its own engine state keeps the engines as they must be between steps (10_state.md R29, R31, 43_flash.md R271). -/

namespace Sys2Proof.Machine

theorem Flash.ok_fresh (bt : BackupType) : Flash.fresh.ok bt := by
  refine ⟨fun _ => ⟨rfl, rfl, rfl⟩, fun h => ?_, fun h => ?_⟩
  · simp [Flash.fresh] at h
  · simp [Flash.fresh] at h

/-- The engine while no flag is pending. -/
def Flash.quiet (bt : BackupType) (fl : Flash) : Prop :=
  (bt = .flash64 → fl.bank = .bank0 ∧ fl.data1 = []) ∧ fl.writeSingleByte = false ∧ fl.switchBank = false

theorem Flash.quiet.ok {bt : BackupType} {fl : Flash} (h : fl.quiet bt) : fl.ok bt := by
  obtain ⟨h1, h2, h3⟩ := h
  exact ⟨fun e => ⟨(h1 e).1, h3, (h1 e).2⟩, fun h => by rw [h2] at h; simp at h, fun h => by rw [h2, h3] at h; simp at h⟩

theorem setActive_bank0 {fl : Flash} (h : fl.bank = .bank0) (m : Memory) : fl.setActive m = { fl with data0 := m } := by
  unfold Flash.setActive; rw [h]

theorem setActive_rest (fl : Flash) (m : Memory) : (fl.setActive m).bank = fl.bank ∧ (fl.setActive m).writeSingleByte = fl.writeSingleByte ∧ (fl.setActive m).switchBank = fl.switchBank
   ∧ (fl.setActive m).pending = fl.pending ∧ (fl.setActive m).writeArmed = fl.writeArmed ∧ (fl.bank = .bank0 → (fl.setActive m).data1 = fl.data1) := by
  unfold Flash.setActive; split <;> rename_i h <;> simp [h]

theorem program_ok {bt : BackupType} {fl : Flash} (h : fl.ok bt) (hw : fl.writeSingleByte = true) (off : Half) (b : Byte) : (fl.program off b).ok bt := by
  obtain ⟨h1, h2, h3⟩ := h
  obtain ⟨r1, r2, r3, r4, r5, r6⟩ := setActive_rest fl (fl.active.write off.toNat (fl.active.read off.toNat &&& b))
  refine Flash.quiet.ok ⟨fun e => ?_, rfl, ?_⟩
  · exact ⟨r1.trans (h1 e).1, (r6 (h1 e).1).trans (h1 e).2.2⟩
  · exact r3.trans (h2 hw)

theorem selectBank_ok {bt : BackupType} {fl : Flash} (h : fl.ok bt) (hw : fl.writeSingleByte = false) (hs : fl.switchBank = true) (off : Half) (b : Byte) : (fl.selectBank off b).ok bt := by
  obtain ⟨h1, h2, h3⟩ := h
  refine Flash.quiet.ok ⟨fun e => ?_, hw, rfl⟩
  have := (h1 e).2.1
  rw [hs] at this; cases this

theorem quiet_of_ok {bt : BackupType} {fl : Flash} (h : fl.ok bt) (hw : fl.writeSingleByte = false) (hs : fl.switchBank = false) : fl.quiet bt :=
  ⟨fun e => ⟨(h.1 e).1, (h.1 e).2.2⟩, hw, hs⟩

theorem chipErase_quiet {bt : BackupType} {fl : Flash} (h : fl.quiet bt) : (fl.chipErase Config.default bt).quiet bt := by
  unfold Flash.chipErase; split
  · refine ⟨fun e => ⟨(h.1 e).1, ?_⟩, h.2.1, h.2.2⟩
    show (if bt = .flash128 then _ else _) = _
    rw [if_neg (by rw [e]; simp)]; exact (h.1 e).2
  · exact h

theorem sectorErase_quiet {bt : BackupType} {fl : Flash} (h : fl.quiet bt) (off : Half) : (fl.sectorErase Config.default off).quiet bt := by
  unfold Flash.sectorErase; split
  · unfold Flash.eraseSector
    obtain ⟨r1, r2, r3, r4, r5, r6⟩ := setActive_rest fl.common (fl.common.active.fill (sectorOf off * Config.default.flSector) Config.default.flSector (List.replicate Config.default.flSector 0xFF))
    refine ⟨fun e => ⟨r1.trans (h.1 e).1, (r6 (h.1 e).1).trans (h.1 e).2⟩, r2.trans h.2.1, r3.trans h.2.2⟩
  · exact h

theorem armProgram_ok {bt : BackupType} {fl : Flash} (h : fl.quiet bt) : fl.armProgram.ok bt :=
  ⟨fun e => ⟨(h.1 e).1, h.2.2, (h.1 e).2⟩, fun _ => h.2.2, fun _ => ⟨rfl, rfl⟩⟩

theorem armBank_ok {bt : BackupType} {fl : Flash} (h : fl.quiet bt) : (fl.armBank bt).ok bt := by
  unfold Flash.armBank; split
  · rename_i hb
    refine ⟨fun e => by rw [hb] at e; simp at e, fun hw => ?_, fun _ => ⟨rfl, rfl⟩⟩
    exact absurd (h.2.1.symm.trans hw) (by simp)
  · exact Flash.quiet.ok (fl := fl.common) h

theorem ignored_quiet {bt : BackupType} {fl : Flash} (h : fl.quiet bt) : fl.ignored.quiet bt := by
  unfold Flash.ignored; split <;> exact h

theorem flashWrite_ok {bt : BackupType} {fl : Flash} (h : fl.ok bt) (off : Half) (b : Byte) : (flashWrite Config.default bt off b fl).ok bt := by
  unfold flashWrite
  split
  · rename_i hw; exact program_ok h hw off b
  rename_i hw
  have hw : fl.writeSingleByte = false := by simpa using hw
  split
  · rename_i hs; exact selectBank_ok h hw hs off b
  rename_i hs
  have hs : fl.switchBank = false := by simpa using hs
  have hq := quiet_of_ok h hw hs
  split
  · split
    · exact Flash.quiet.ok (fl := fl.key1) hq
    · exact (ignored_quiet hq).ok
  · split
    · exact Flash.quiet.ok (fl := fl.key2) hq
    · exact (ignored_quiet hq).ok
  · unfold Flash.command
    split
    · split; exact Flash.quiet.ok (fl := fl.idEnter) hq
      split; exact Flash.quiet.ok (fl := fl.idExit) hq
      split; exact Flash.quiet.ok (fl := fl.eraseSetup) hq
      split; exact (chipErase_quiet hq).ok
      split; exact armProgram_ok hq
      split; exact armBank_ok hq
      exact (ignored_quiet hq).ok
    · split
      · exact (sectorErase_quiet hq off).ok
      · exact (ignored_quiet hq).ok

/-! ## The EEPROM engine -/

theorem ee_fresh_ok : Eeprom.fresh.ok Config.default := rfl

theorem burstEnd_phase (ee : Eeprom) : (eepromBurstEnd Config.default ee).ok Config.default := by
  rcases burstEnd_cases ee with e | ⟨sz, -, -, e⟩ | ⟨sz, -, -, e⟩
  · rw [e]; exact rfl
  · rw [e]; exact ⟨Nat.zero_le _, rfl⟩
  · rw [e]; exact rfl

theorem ee_ok_phase {ee : Eeprom} (h : ee.ok Config.default) : ee.phase ≠ .shiftIn := by
  intro e; unfold Eeprom.ok at h; rw [e] at h; exact h

theorem shiftOut_ok {ee : Eeprom} (h : ee.ok Config.default) : (eepromShiftOut Config.default ee).ok Config.default := by
  unfold eepromShiftOut
  split
  · rename_i hp
    unfold Eeprom.ok at h
    rw [hp] at h
    split
    · exact rfl
    · rename_i hc
      unfold Eeprom.ok
      show match ee.phase with | .idle => _ | .readOut => _ | .shiftIn => _
      rw [hp]
      refine ⟨?_, h.2⟩
      have := h.1
      show ee.cursor + 1 ≤ _
      omega
  · exact h

/-- The EEPROM engine during a run: as between steps until the first bit is shifted in, then shifting in. -/
def EeRun (e : Bool) (ee : Eeprom) : Prop := if e then ee.phase = .shiftIn else ee.ok Config.default

theorem shiftOut_run {e : Bool} {ee : Eeprom} (h : EeRun e ee) : EeRun e (eepromShiftOut Config.default ee) := by
  cases e
  · exact shiftOut_ok h
  · have h : ee.phase = .shiftIn := h
    show (eepromShiftOut Config.default ee).phase = .shiftIn
    unfold eepromShiftOut
    rw [if_neg (by rw [h]; simp)]; exact h

theorem dmaUnit_eeRun {ch : Chan} {e e' : Bool} {s t : State} (h : dmaUnit Config.default ch e s = .ok (t, e')) (hs : EeRun e s.ee) : EeRun e' t.ee := by
  obtain ⟨s2, hw, rfl, he⟩ := dmaUnit_ok h
  have h1 : EeRun e (afterUnitRead Config.default s (s.chan ch).src).ee := by
    unfold afterUnitRead; split
    · exact shiftOut_run hs
    · exact hs
  show EeRun e' s2.ee
  unfold unitWrite at hw
  split at hw
  · rename_i hin
    cases hw
    rw [he, hin, Bool.or_true]
    exact shiftIn_phase _ _ _
  · rename_i hin
    have hin : inEepWindow Config.default (afterUnitRead Config.default s (s.chan ch).src) (s.chan ch).dst = false := by simpa using hin
    rw [writeBytes_ee hw, he, hin, Bool.or_false]; exact h1

theorem dmaUnits_eeRun {ch : Chan} (n : Nat) : ∀ {e e' : Bool} {s t : State}, dmaUnits Config.default ch n e s = .ok (t, e') → EeRun e s.ee → EeRun e' t.ee := by
  induction n with
  | zero => intro e e' s t h hs; cases h; exact hs
  | succ n ih =>
    intro e e' s t h hs
    obtain ⟨s1, e1, h1, h2⟩ := dmaUnits_succ h
    exact ih h2 (dmaUnit_eeRun h1 hs)

theorem dmaRun_ee {ch : Chan} {s t : State} (h : dmaRun Config.default ch s = .ok t) (hs : s.ee.ok Config.default) : t.ee.ok Config.default := by
  unfold dmaRun at h
  simp only at h
  split at h
  · cases h
  · rename_i s2 e hu
    cases h
    have := dmaUnits_eeRun _ hu (e := false) hs
    unfold endRun
    rw [complete_ee]
    cases e
    · exact this
    · exact burstEnd_phase _

theorem serviceList_ee {ev : DmaEvent} {l : List Chan} : ∀ {s t : State}, serviceList Config.default ev l s = .ok t → s.ee.ok Config.default → t.ee.ok Config.default := by
  induction l with
  | nil => intro s t h hs; cases h; exact hs
  | cons ch l ih =>
    intro s t h hs
    obtain ⟨s1, h1, h2⟩ := serviceList_cons h
    refine ih h2 ?_
    unfold serviceChan at h1
    split at h1
    · exact dmaRun_ee h1 hs
    · cases h1; exact hs

theorem regCommit_ee {touched : List Chan} {s t : State} (h : regCommit Config.default touched s = .ok t) (hs : s.ee.ok Config.default) : t.ee.ok Config.default := by
  unfold regCommit at h
  split at h
  · cases h; exact hs
  · split at h
    · cases h
    · rename_i s1 h1
      exact serviceList_ee h (by rw [commitList_ee _ h1]; exact hs)

theorem writeTransaction_ee {a : Addr} {bs : List Byte} {s t : State} (h : writeTransaction Config.default a bs s = .ok t) (hs : s.ee.ok Config.default) : t.ee.ok Config.default := by
  unfold writeTransaction at h
  split at h
  · cases h
  · rename_i s1 h1
    exact regCommit_ee h (by rw [writeBytes_ee h1]; exact hs)

/-! ## The other engines -/

/-- The Flash engine, the GPIO controller, the engines the cartridge does not have. -/
def RestOk (s : State) : Prop := s.fl.ok s.cart.backupType ∧ s.gpio.ok Config.default ∧ s.inactiveOk

theorem gpio_fresh_ok : Gpio.fresh.ok Config.default := ⟨BitVec.zero_and, BitVec.zero_and, BitVec.zero_and⟩

theorem gpioWriteByte_ok {off : Nat} {b : Byte} {s : State} (h : s.gpio.ok Config.default) : (gpioWriteByte Config.default off b s).gpio.ok Config.default := by
  obtain ⟨h1, h2, h3⟩ := h
  unfold gpioWriteByte
  split
  · exact ⟨h1, h2, h3⟩
  · split
    · exact ⟨h1, h2, by show (b &&& _) &&& _ = _; rw [BitVec.and_assoc, BitVec.and_self]; rfl⟩
    · exact ⟨by show (b &&& _) &&& _ = _; rw [BitVec.and_assoc, BitVec.and_self]; rfl, h2, h3⟩
    · exact ⟨h1, h2, h3⟩
    · exact ⟨h1, h2, h3⟩

theorem writeByte_rest {org : Origin} {a : Addr} {b : Byte} {s t : State} (h : writeByte Config.default org a b s = .ok t) (hs : RestOk s) : RestOk t := by
  obtain ⟨h1, h2, h3, h4, h5, h6⟩ := hs
  have hc := writeByte_cart h
  rcases writeByte_cases h with ⟨b', l, rfl, _⟩ | ⟨htag, rfl⟩ | ⟨htag, rfl⟩ | ⟨_, rfl⟩
  · exact ⟨h1, h2, h3, h4, h5, h6⟩
  · obtain ⟨g1, g2, g3, g4, g5, g6⟩ := gpioWriteByte_frame Config.default (gpioOffset Config.default a) b s
    refine ⟨by rw [g4, g6]; exact h1, gpioWriteByte_ok h2, by rw [g2, g6]; exact h3, by rw [g4, g6]; exact h4, by rw [g5, g6]; exact h5, ?_⟩
    rw [g6]
    intro hd
    rw [decodeTag_default, hd] at htag
    split_ifs at htag <;> simp_all
  · obtain ⟨g1, g2, g3, g4, g5, g6, g7, g8⟩ := backupWriteByte_frame Config.default (bkpOffset Config.default a) b s
    refine ⟨?_, by rw [g4]; exact h2, by rw [g2, g5]; exact h3, fun hn => by rw [g8 (by rw [← g5]; exact hn)]; exact h4 (by rw [← g5]; exact hn), fun hn => by rw [g7 (by rw [← g5]; exact hn)]; exact h5 (by rw [← g5]; exact hn), by rw [g4, g5]; exact h6⟩
    rw [g5]
    unfold backupWriteByte
    split
    · exact h1
    · exact flashWrite_ok h1 _ _
    · exact flashWrite_ok h1 _ _
    · exact h1
    · exact h1
  · exact ⟨h1, h2, h3, h4, h5, h6⟩

theorem Prim.rest {O : Origin → Prop} {A : Chan → Prop} {s t : State} (h : Prim Config.default O A s t) (hs : RestOk s) : RestOk t := by
  have hs' := hs
  obtain ⟨h1, h2, h3, h4, h5, h6⟩ := hs
  cases h with
  | byte _ hb => exact writeByte_rest hb hs'
  | shiftOut hb => exact ⟨h1, h2, fun hn => absurd hb hn, h4, h5, h6⟩
  | shiftIn _ _ hb => exact ⟨h1, h2, fun hn => absurd hb hn, h4, h5, h6⟩
  | burstEnd hb => exact ⟨h1, h2, fun hn => absurd hb hn, h4, h5, h6⟩
  | _ => exact hs'

theorem Prims.rest {O : Origin → Prop} {A : Chan → Prop} {s t : State} (h : Prims Config.default O A s t) (hs : RestOk s) : RestOk t := h.keeps Prim.rest hs

theorem restOk_of_eq {s t : State} (h1 : t.cart = s.cart) (h2 : t.ee = s.ee) (h3 : t.fl = s.fl) (h4 : t.gpio = s.gpio) (h5 : t.sram = s.sram) (hs : RestOk s) : RestOk t := by
  unfold RestOk State.inactiveOk at hs ⊢
  rw [h1, h2, h3, h4, h5]; exact hs

theorem onFlash_engines {f : BackupType → Flash → Flash} {s : State} (hs : s.enginesOk Config.default) (hf : s.cart.backupType.isFlash = true → (f s.cart.backupType s.fl).ok s.cart.backupType) : (onFlash f s).enginesOk Config.default := by
  unfold onFlash
  split
  · rename_i h
    obtain ⟨h0, h1, h2, h3, h4, h5, h6⟩ := hs
    exact ⟨h0, hf h, h2, h3, fun hn => absurd h (by rw [show s.cart.backupType.isFlash = false from hn]; simp), h5, h6⟩
  · exact hs

theorem onGpio_engines {f : State → State} (u : Nat) {s : State} (hs : s.enginesOk Config.default)
  (hf : ∀ s : State, s.gpio.ok Config.default → (f s).gpio.ok Config.default ∧ (f s).cart = s.cart ∧ (f s).ee = s.ee ∧ (f s).fl = s.fl ∧ (f s).sram = s.sram) : (onGpio u f s).enginesOk Config.default := by
  unfold onGpio
  split
  · exact hs
  · rename_i hg
    split
    · exact hs
    · obtain ⟨h0, h1, h2, h3, h4, h5, h6⟩ := hs
      obtain ⟨f1, f2, f3, f4, f5⟩ := hf s.start h2
      unfold State.enginesOk State.inactiveOk
      rw [f2, f3, f4, f5]
      exact ⟨h0, h1, f1, h3, h4, h5, fun hd => absurd hd hg⟩

theorem intoWindow_engines (src : Addr) (bits : List Bool) {s : State} (hs : s.enginesOk Config.default) : (burstIntoWindow Config.default src bits s).enginesOk Config.default := by
  unfold burstIntoWindow
  split
  · rename_i hb
    obtain ⟨h0, h1, h2, h3, h4, h5, h6⟩ := hs
    exact ⟨burstEnd_phase _, h1, h2, fun hn => absurd hb hn, h4, h5, h6⟩
  · exact hs

theorem mask_idem (b : Byte) : b &&& Config.default.gpioMask &&& Config.default.gpioMask = b &&& Config.default.gpioMask := by
  rw [BitVec.and_assoc, BitVec.and_self]

theorem flags_of {s : State} {i : Instr} (h : i.selectedIn Config.default s.ctx = true) (hi : i = .flkey1 ∨ i = .flkey2 ∨ i = .flidenter ∨ i = .flidexit ∨ i = .flerasesetup ∨ i = .flchiperase ∨ i = .flprogram ∨ i = .flbank ∨ (∃ o, i = .flsectorerase o) ∨ (∃ o v, i = .flignored o v)) :
   s.fl.writeSingleByte = false ∧ s.fl.switchBank = false := by
  have c1 : s.ctx.writeSingleByte = s.fl.writeSingleByte := rfl
  have c2 : s.ctx.switchBank = s.fl.switchBank := rfl
  rcases hi with rfl | rfl | rfl | rfl | rfl | rfl | rfl | rfl | ⟨o, rfl⟩ | ⟨o, v, rfl⟩ <;>
    simp only [Instr.selectedIn, DecodeCtx.atCommand, flashIgnores, Bool.and_eq_true, Bool.not_eq_true', c1, c2] at h <;> tauto

theorem exec_engines {i : Instr} {s t : State} (h : exec i s = .next t) (hsel : i.selectedIn Config.default s.ctx = true) (hs : s.enginesOk Config.default) : t.enginesOk Config.default := by
  by_cases hw : ∃ a bs, writeAccess i = some (a, bs)
  · obtain ⟨a, bs, hw⟩ := hw
    have hp := (exec_write_prims hw h).rest (restOk_of_eq (s := s) (by simp) (by simp) (by simp) (by simp) (by simp) hs.2)
    rw [exec_write hw] at h
    exact ⟨writeTransaction_ee (toOutcome_next h) (by simpa using hs.1), hp⟩
  by_cases hp : ∃ ev, passEvent i = some ev
  · obtain ⟨ev, hp⟩ := hp
    rw [exec_pass hp] at h
    exact ⟨serviceList_ee (toOutcome_next h) (s := s.start) hs.1, (dmaService_prims (O := fun _ => True) (fun _ => trivial) (toOutcome_next h)).rest (s := s.start) hs.2⟩
  have hq := fun (h1 : s.fl.writeSingleByte = false ∧ s.fl.switchBank = false) => quiet_of_ok hs.2.1 h1.1 h1.2
  have hfl := fun hi => hq (flags_of hsel hi)
  cases i
  case dmatick => exact ⟨serviceList_ee (toOutcome_next h) (s := tickAll s.start) hs.1, (dmaService_prims (O := fun _ => True) (fun _ => trivial) (toOutcome_next h)).rest (s := tickAll s.start) hs.2⟩
  case forcedma ch =>
    refine ⟨?_, (forceDma_prims (O := fun _ => True) (A := fun _ => True) (fun _ => trivial) trivial (toOutcome_next h)).rest (s := s.start) hs.2⟩
    have h := toOutcome_next h
    unfold forceDma at h
    simp only at h
    split at h
    · exact dmaRun_ee h hs.1
    · cases h; exact hs.1
  case dmaarm ch f =>
    exact ⟨regCommit_ee (toOutcome_next h) hs.1, (regCommit_prims (O := fun _ => True) (fun _ => trivial) (toOutcome_next h)).rest hs.2⟩
  case dmaoff ch f =>
    exact ⟨regCommit_ee (toOutcome_next h) hs.1, (regCommit_prims (O := fun _ => True) (fun _ => trivial) (toOutcome_next h)).rest hs.2⟩
  case reset =>
    cases h
    obtain ⟨h0, h1, h2, h3, h4, h5, h6⟩ := hs
    refine ⟨rfl, ?_, gpio_fresh_ok, ?_, ?_, h5, fun _ => rfl⟩
    · exact ⟨fun e => ⟨rfl, rfl, (h1.1 e).2.2⟩, fun hw => by simp [resetBlock, Flash.reset] at hw, fun hw => by simp [resetBlock, Flash.reset] at hw⟩
    · intro hn; show s.ee.reset = _; rw [h3 hn]; rfl
    · intro hn; show s.fl.reset = _; rw [h4 hn]; rfl
  case loadcart m b g =>
    simp only [exec, execLoadcart, loadcartIn] at h
    split at h
    · cases h; exact hs
    · split at h
      · cases h
      · cases h
        exact ⟨rfl, Flash.ok_fresh _, gpio_fresh_ok, fun _ => rfl, fun _ => rfl, fun _ => rfl, fun _ => rfl⟩
  case loadfw m =>
    simp only [exec, execLoadfw, loadfwIn] at h
    split at h
    · cases h; exact hs
    · cases h; exact hs
  case loadbkp f =>
    simp only [exec, execLoadbkp, loadbkpIn] at h; split at h <;> cases h
    · exact hs
    · exact hs
    · obtain ⟨h0, h1, h2, h3, h4, h5, h6⟩ := hs
      unfold loadBackup
      split <;> rename_i hb
      · exact ⟨h0, h1, h2, h3, h4, h5, h6⟩
      · refine ⟨?_, h1, h2, fun hn => absurd hb hn, h4, h5, h6⟩
        show Eeprom.ok _ { s.ee with size := _, sizeLock := true, data := _ }
        unfold Eeprom.ok at h0 ⊢
        simp only
        cases hph : s.ee.phase <;> rw [hph] at h0
        · exact h0
        · exact h0
        · exact ⟨h0.1, trivial⟩
      · refine ⟨h0, ?_, h2, h3, fun hn => absurd hn (by show BackupType.isFlash s.cart.backupType ≠ false; rw [hb]; simp [BackupType.isFlash]), h5, h6⟩
        exact ⟨h1.1, h1.2⟩
      · refine ⟨h0, ?_, h2, h3, fun hn => absurd hn (by show BackupType.isFlash s.cart.backupType ≠ false; rw [hb]; simp [BackupType.isFlash]), h5, h6⟩
        exact ⟨fun e => absurd (hb.symm.trans e) (by simp), h1.2⟩
      · exact ⟨h0, h1, h2, h3, h4, fun hn => absurd hb hn, h6⟩
  case savebkp f => simp only [exec, execSavebkp, savebkpIn] at h; split at h <;> cases h <;> exact hs
  case cstore a b => cases h; unfold collabStore; split <;> exact hs
  case sensor v =>
    cases h; unfold senseInput
    split
    · exact hs
    · rename_i hg
      obtain ⟨h0, h1, h2, h3, h4, h5, h6⟩ := hs
      exact ⟨h0, h1, ⟨h2.1, mask_idem v, h2.2.2⟩, h3, h4, h5, fun hd => absurd hd hg⟩
  case eerdreq6 => cases h; exact intoWindow_engines _ _ hs
  case eerdreq14 => cases h; exact intoWindow_engines _ _ hs
  case eewr6 => cases h; exact intoWindow_engines _ _ hs
  case eewr14 => cases h; exact intoWindow_engines _ _ hs
  case eebad => cases h; exact intoWindow_engines _ _ hs
  case eerdbit a w =>
    cases h
    have hp := (afterUnitRead_prims (c := Config.default) (s := s.start) (O := fun _ => True) (A := fun _ => True) a).rest hs.2
    refine ⟨?_, hp⟩
    show Eeprom.ok Config.default (afterUnitRead Config.default s.start a).ee
    unfold afterUnitRead
    split
    · exact shiftOut_ok hs.1
    · exact hs.1
  case fldata off v =>
    cases h
    refine onFlash_engines hs fun _ => program_ok hs.2.1 ?_ off v
    have c1 : s.ctx.writeSingleByte = s.fl.writeSingleByte := rfl
    simp only [Instr.selectedIn, Bool.and_eq_true, c1] at hsel; exact hsel.2
  case flbanksel off v =>
    cases h
    have c1 : s.ctx.writeSingleByte = s.fl.writeSingleByte := rfl
    have c2 : s.ctx.switchBank = s.fl.switchBank := rfl
    simp only [Instr.selectedIn, Bool.and_eq_true, Bool.not_eq_true', c1, c2] at hsel
    exact onFlash_engines hs fun _ => selectBank_ok hs.2.1 hsel.1.2 hsel.2 off v
  case flkey1 => cases h; exact onFlash_engines hs fun _ => Flash.quiet.ok (fl := s.fl.key1) (hfl (by simp))
  case flkey2 => cases h; exact onFlash_engines hs fun _ => Flash.quiet.ok (fl := s.fl.key2) (hfl (by simp))
  case flidenter => cases h; exact onFlash_engines hs fun _ => Flash.quiet.ok (fl := s.fl.idEnter) (hfl (by simp))
  case flidexit => cases h; exact onFlash_engines hs fun _ => Flash.quiet.ok (fl := s.fl.idExit) (hfl (by simp))
  case flerasesetup => cases h; exact onFlash_engines hs fun _ => Flash.quiet.ok (fl := s.fl.eraseSetup) (hfl (by simp))
  case flchiperase => cases h; exact onFlash_engines hs fun _ => (chipErase_quiet (hfl (by simp))).ok
  case flprogram => cases h; exact onFlash_engines hs fun _ => armProgram_ok (hfl (by simp))
  case flbank => cases h; exact onFlash_engines hs fun _ => armBank_ok (hfl (by simp))
  case flsectorerase off => cases h; exact onFlash_engines hs fun _ => (sectorErase_quiet (hfl (by simp)) off).ok
  case flignored off v => cases h; exact onFlash_engines hs fun _ => (ignored_quiet (hfl (by simp))).ok
  case gpwrdata u b =>
    cases h; exact onGpio_engines (f := gpioWriteData Config.default b) u hs fun s hg => ⟨⟨hg.1, hg.2.1, mask_idem b⟩, rfl, rfl, rfl, rfl⟩
  case gpwrdir u b =>
    cases h; exact onGpio_engines (f := gpioWriteDir Config.default b) u hs fun s hg => ⟨⟨mask_idem b, hg.2⟩, rfl, rfl, rfl, rfl⟩
  case gpwrctl u b => cases h; exact onGpio_engines (f := gpioWriteCtl b) u hs fun s hg => ⟨hg, rfl, rfl, rfl, rfl⟩
  case gpwrrsv u b => cases h; exact onGpio_engines (f := gpioWriteRsv) u hs fun s hg => ⟨hg, rfl, rfl, rfl, rfl⟩
  all_goals first
    | (exfalso; simp [writeAccess, passEvent] at hw hp; done)
    | (cases h; exact hs)

end Sys2Proof.Machine
end

