-- ==== Sys2Proof/Laws/PerInstr.lean ====
section
/-! SUPPORT. Per-instruction laws: EncodeDecode, every operand of every row is read back from the row's word (30_encoding.md). -/

namespace Sys2Proof.Laws.EncodeDecode

/-- The word of `i` decodes to `i`, in every engine state in which its row is selected. -/
def Statement (i : Instr) : Prop :=
  ∀ x : DecodeCtx, i.WellFormed = true → i.selectedIn Config.default x = true →
    decode Config.default x (encode Config.default i) = .ok i

/-! ## Formats BUS, EVT, HOST -/

/-- An event word is decoded by its header. -/
theorem decode_event (x : DecodeCtx) (h : Byte) (addr data : Word) (side : Side) :
    decode Config.default x (.event (eventBytes h addr data) side) = decodeHeader Config.default h addr data side :=
  decodeEvent_eventBytes ..

theorem rd8 (a : Addr) : Statement (.rd8 a) := fun x _ _ => (decode_event x _ _ _ _).trans rfl

theorem rd16 (a : Addr) : Statement (.rd16 a) := fun x _ _ => (decode_event x _ _ _ _).trans rfl

theorem rd32 (a : Addr) : Statement (.rd32 a) := fun x _ _ => (decode_event x _ _ _ _).trans rfl

theorem wr8 (a : Addr) (v : Byte) : Statement (.wr8 a v) := fun _ _ _ => by
  simp only [encode, encodeEvent, decode, decodeEvent_eventBytes]
  simp [decodeHeader]

theorem wr16 (a : Addr) (v : Half) : Statement (.wr16 a v) := fun _ _ _ => by
  simp only [encode, encodeEvent, decode, decodeEvent_eventBytes]
  simp [decodeHeader]

theorem wr32 (a : Addr) (v : Word) : Statement (.wr32 a v) := fun x _ _ => (decode_event x _ _ _ _).trans rfl

theorem frd8 (a : Addr) : Statement (.frd8 a) := fun x _ _ => (decode_event x _ _ _ _).trans rfl

theorem frd16 (a : Addr) : Statement (.frd16 a) := fun x _ _ => (decode_event x _ _ _ _).trans rfl

theorem frd32 (a : Addr) : Statement (.frd32 a) := fun x _ _ => (decode_event x _ _ _ _).trans rfl

theorem fwr8 (a : Addr) (v : Byte) : Statement (.fwr8 a v) := fun _ _ _ => by
  simp only [encode, encodeEvent, decode, decodeEvent_eventBytes]
  simp [decodeHeader]

theorem fwr16 (a : Addr) (v : Half) : Statement (.fwr16 a v) := fun _ _ _ => by
  simp only [encode, encodeEvent, decode, decodeEvent_eventBytes]
  simp [decodeHeader]

theorem fwr32 (a : Addr) (v : Word) : Statement (.fwr32 a v) := fun x _ _ => (decode_event x _ _ _ _).trans rfl

theorem reset : Statement .reset := fun x _ _ => (decode_event x _ _ _ _).trans rfl

theorem vblank : Statement .vblank := fun x _ _ => (decode_event x _ _ _ _).trans rfl

theorem hblank : Statement .hblank := fun x _ _ => (decode_event x _ _ _ _).trans rfl

theorem fifoA : Statement .fifoA := fun x _ _ => (decode_event x _ _ _ _).trans rfl

theorem fifoB : Statement .fifoB := fun x _ _ => (decode_event x _ _ _ _).trans rfl

theorem dmatick : Statement .dmatick := fun x _ _ => (decode_event x _ _ _ _).trans rfl

theorem cstore (a : Addr) (b : Byte) : Statement (.cstore a b) := fun _ _ _ => by
  simp only [encode, encodeEvent, decode, decodeEvent_eventBytes]
  simp [decodeHeader]

theorem loadfw (m : ImageArg) : Statement (.loadfw m) := fun x _ _ => (decode_event x _ _ _ _).trans rfl

theorem loadcart (m : ImageArg) (b : Option BackupType) (g : GpioType) : Statement (.loadcart m b g) := fun x _ _ => (decode_event x _ _ _ _).trans rfl

theorem loadbkp (f : FileArg) : Statement (.loadbkp f) := fun x _ _ => (decode_event x _ _ _ _).trans rfl

theorem savebkp (k : SinkArg) : Statement (.savebkp k) := fun x _ _ => (decode_event x _ _ _ _).trans rfl

theorem sensor (v : Byte) : Statement (.sensor v) := fun _ h _ => by
  have hv : v &&& Config.default.gpioMask = v := of_decide_eq_true h
  simp only [encode, encodeEvent, decode, decodeEvent_eventBytes]
  simp [decodeHeader]
  exact hv

theorem forcedma (ch : Chan) : Statement (.forcedma ch) := fun _ _ _ => by
  simp only [encode, encodeEvent, decode, decodeEvent_eventBytes]
  match ch with | 0 => rfl | 1 => rfl | 2 => rfl | 3 => rfl

/-! ## Formats DMAREG, DMACTL -/

theorem dmasad (ch : Chan) (a : Word) : Statement (.dmasad ch a) := fun _ _ _ => rfl

theorem dmadad (ch : Chan) (a : Word) : Statement (.dmadad ch a) := fun _ _ _ => rfl

theorem dmacnt (ch : Chan) (n : Half) : Statement (.dmacnt ch n) := fun _ _ _ => rfl

theorem dmaarm (ch : Chan) (f : CtlFields) : Statement (.dmaarm ch f) := fun _ _ _ => by
  simp [encode, decode, decodeCtl_toHalf]

theorem dmaoff (ch : Chan) (f : CtlFields) : Statement (.dmaoff ch f) := fun _ _ _ => by
  simp [encode, decode, decodeCtl_toHalf]

/-! ## Format FLASHCMD -/

/-- A Flash word is read back as its offset and value. -/
theorem decode_flashWord (x : DecodeCtx) (h : x.backup.isFlash = true) (off : Half) (v : Byte) :
    decode Config.default x (.flashWrite (flashWord off v)) = .ok (decodeFlash Config.default x off v) := by
  simp [decode, h]

theorem fldata (off : Half) (v : Byte) : Statement (.fldata off v) := fun x _ h => by
  simp [Instr.selectedIn] at h
  have hf : x.backup.isFlash = true := by simp [h]
  rw [encode, decode_flashWord x hf]
  simp [decodeFlash, h]

theorem flbanksel (off : Half) (v : Byte) : Statement (.flbanksel off v) := fun x _ h => by
  simp [Instr.selectedIn] at h
  have hf : x.backup.isFlash = true := by simp [h]
  rw [encode, decode_flashWord x hf]
  simp [decodeFlash, h]

theorem flkey1 : Statement .flkey1 := fun x _ h => by
  simp [Instr.selectedIn] at h
  have hf : x.backup.isFlash = true := by simp [h]
  rw [encode, decode_flashWord x hf]
  simp [decodeFlash, h]

theorem flkey2 : Statement .flkey2 := fun x _ h => by
  simp [Instr.selectedIn] at h
  have hf : x.backup.isFlash = true := by simp [h]
  rw [encode, decode_flashWord x hf]
  simp [decodeFlash, h]

theorem flidenter : Statement .flidenter := fun x _ h => by
  simp [Instr.selectedIn, DecodeCtx.atCommand] at h
  have hf : x.backup.isFlash = true := by simp [h]
  rw [encode, decode_flashWord x hf]
  simp [decodeFlash, decodeFlashCommand, h, Config.default]

theorem flidexit : Statement .flidexit := fun x _ h => by
  simp [Instr.selectedIn, DecodeCtx.atCommand] at h
  have hf : x.backup.isFlash = true := by simp [h]
  rw [encode, decode_flashWord x hf]
  simp [decodeFlash, decodeFlashCommand, h, Config.default]

theorem flerasesetup : Statement .flerasesetup := fun x _ h => by
  simp [Instr.selectedIn, DecodeCtx.atCommand] at h
  have hf : x.backup.isFlash = true := by simp [h]
  rw [encode, decode_flashWord x hf]
  simp [decodeFlash, decodeFlashCommand, h, Config.default]

theorem flchiperase : Statement .flchiperase := fun x _ h => by
  simp [Instr.selectedIn, DecodeCtx.atCommand] at h
  have hf : x.backup.isFlash = true := by simp [h]
  rw [encode, decode_flashWord x hf]
  simp [decodeFlash, decodeFlashCommand, h, Config.default]

theorem flprogram : Statement .flprogram := fun x _ h => by
  simp [Instr.selectedIn, DecodeCtx.atCommand] at h
  have hf : x.backup.isFlash = true := by simp [h]
  rw [encode, decode_flashWord x hf]
  simp [decodeFlash, decodeFlashCommand, h, Config.default]

theorem flbank : Statement .flbank := fun x _ h => by
  simp [Instr.selectedIn, DecodeCtx.atCommand] at h
  have hf : x.backup.isFlash = true := h.1.1.1.1
  rw [encode, decode_flashWord x hf]
  simp [decodeFlash, decodeFlashCommand, h, Config.default]

theorem flsectorerase (off : Half) : Statement (.flsectorerase off) := fun x hw h => by
  have hoff : off ≠ Config.default.flAddr1 := of_decide_eq_true hw
  simp [Instr.selectedIn, DecodeCtx.atCommand] at h
  rw [encode, decode_flashWord x (by simp [h])]
  simp only [decodeFlash, decodeFlashCommand, h, if_neg hoff]
  simp

theorem flignored (off : Half) (v : Byte) : Statement (.flignored off v) := fun x _ h => by
  simp only [Instr.selectedIn, Bool.and_eq_true] at h
  rw [encode, decode_flashWord x h.1]
  have h2 := h.2
  simp only [flashIgnores, Bool.and_eq_true, Bool.not_eq_true'] at h2
  obtain ⟨⟨hw, hs⟩, hp⟩ := h2
  simp only [decodeFlash, hw, hs]
  cases hx : x.pending with
  | none => simp only [hx] at hp; simp at hp; simp; tauto
  | key1 => simp only [hx] at hp; simp at hp; simp; tauto
  | key2 =>
    simp only [hx] at hp
    simp only [Bool.false_eq_true, if_false, decodeFlashCommand]
    split
    · rename_i ho
      simp only [ho, if_true] at hp
      simp at hp
      obtain ⟨⟨⟨⟨⟨p1, p2⟩, p3⟩, p4⟩, p5⟩, p6⟩ := hp
      have q1 : ¬ v = Config.default.flCmdIdEnter := p1
      have q2 : ¬ v = Config.default.flCmdIdExit := p2
      have q3 : ¬ v = Config.default.flCmdEraseSetup := p3
      have q5 : ¬ v = Config.default.flCmdProgram := p5
      rw [if_neg q1, if_neg q2, if_neg q3, if_neg (by simp; tauto), if_neg q5, if_neg (by simp; tauto)]
    · rename_i ho
      simp only [ho, if_false] at hp
      simp at hp
      rw [if_neg (by simp; tauto)]

theorem flread (off : Half) : Statement (.flread off) := fun x _ h => by
  have : x.backup.isFlash = true := h
  simp [encode, decode, this]

/-! ## Format EESTREAM -/

/-- A burst under an EEPROM cartridge is decoded by its bits. -/
theorem decode_burst (x : DecodeCtx) (h : x.backup = .eeprom) (src : Addr) (bits : List Bool) (hb : bits.isEmpty = false) :
    decode Config.default x (.eeBurst src bits) = .ok (decodeBurst x src bits) := by
  simp [decode, h, hb]

theorem readBits_nonempty {n : Nat} (a : BitVec n) (s : Bool) : (readRequestBits a s).isEmpty = false := rfl

theorem writeBits_nonempty {n : Nat} (a : BitVec n) (d : BitVec 64) (s : Bool) : (writeBits a d s).isEmpty = false := rfl

theorem stop_bit (k : Nat) (s : Bool) : (2 * k + s.toNat).testBit 0 = s := by
  cases s <;> simp [Nat.testBit_zero]

theorem eerdreq6 (src : Addr) (a : BitVec 6) (s : Bool) : Statement (.eerdreq6 src a s) := fun x _ h => by
  simp only [Instr.selectedIn, Bool.and_eq_true, decide_eq_true_eq] at h
  rw [encode, decode_burst x h.1 _ _ (readBits_nonempty a s)]
  have hs : s.toNat < 2 := Bool.toNat_lt s
  have ha := a.isLt
  have hv := natOfBits_readRequest a s
  simp only [decodeBurst, readRequestBits_length, hv]
  have hd : (3 * 2 ^ 7 + (a.toNat * 2 + s.toNat)) / 2 ^ 7 = 3 := by omega
  have he : (3 * 2 ^ 7 + (a.toNat * 2 + s.toNat)) / 2 = 3 * 2 ^ 6 + a.toNat := by omega
  have ht : (3 * 2 ^ 7 + (a.toNat * 2 + s.toNat)).testBit 0 = s := by
    have : 3 * 2 ^ 7 + (a.toNat * 2 + s.toNat) = 2 * (3 * 2 ^ 6 + a.toNat) + s.toNat := by omega
    rw [this]; exact stop_bit _ _
  have hf : BitVec.ofNat 6 (3 * 2 ^ 6 + a.toNat) = a := by
    apply BitVec.eq_of_toNat_eq; rw [BitVec.toNat_ofNat]; omega
  simp only [hd, he, ht, hf, h.2, and_self, if_true]

theorem eerdreq14 (src : Addr) (a : BitVec 14) (s : Bool) : Statement (.eerdreq14 src a s) := fun x _ h => by
  simp only [Instr.selectedIn, Bool.and_eq_true, decide_eq_true_eq] at h
  rw [encode, decode_burst x h.1 _ _ (readBits_nonempty a s)]
  have hs : s.toNat < 2 := Bool.toNat_lt s
  have ha := a.isLt
  have hv := natOfBits_readRequest a s
  simp only [decodeBurst, readRequestBits_length, hv]
  have hd : (3 * 2 ^ 15 + (a.toNat * 2 + s.toNat)) / 2 ^ 15 = 3 := by omega
  have he : (3 * 2 ^ 15 + (a.toNat * 2 + s.toNat)) / 2 = 3 * 2 ^ 14 + a.toNat := by omega
  have ht : (3 * 2 ^ 15 + (a.toNat * 2 + s.toNat)).testBit 0 = s := by
    have : 3 * 2 ^ 15 + (a.toNat * 2 + s.toNat) = 2 * (3 * 2 ^ 14 + a.toNat) + s.toNat := by omega
    rw [this]; exact stop_bit _ _
  have hf : BitVec.ofNat 14 (3 * 2 ^ 14 + a.toNat) = a := by
    apply BitVec.eq_of_toNat_eq; rw [BitVec.toNat_ofNat]; omega
  simp only [hd, he, ht, hf, h.2, and_self, if_true]

theorem eewr6 (src : Addr) (a : BitVec 6) (d : BitVec 64) (s : Bool) : Statement (.eewr6 src a d s) := fun x _ h => by
  simp only [Instr.selectedIn, Bool.and_eq_true, decide_eq_true_eq] at h
  rw [encode, decode_burst x h.1 _ _ (writeBits_nonempty a d s)]
  have hs : s.toNat < 2 := Bool.toNat_lt s
  have ha := a.isLt
  have hd64 := d.isLt
  have hv := natOfBits_write a d s
  simp only [decodeBurst, writeBits_length, hv]
  have hd : (2 * 2 ^ 71 + (a.toNat * 2 ^ 65 + (d.toNat * 2 + s.toNat))) / 2 ^ 71 = 2 := by omega
  have he : (2 * 2 ^ 71 + (a.toNat * 2 ^ 65 + (d.toNat * 2 + s.toNat))) / 2 ^ 65 = 2 * 2 ^ 6 + a.toNat := by omega
  have he' : (2 * 2 ^ 71 + (a.toNat * 2 ^ 65 + (d.toNat * 2 + s.toNat))) / 2
      = 2 * 2 ^ 70 + (a.toNat * 2 ^ 64 + d.toNat) := by omega
  have ht : (2 * 2 ^ 71 + (a.toNat * 2 ^ 65 + (d.toNat * 2 + s.toNat))).testBit 0 = s := by
    have : 2 * 2 ^ 71 + (a.toNat * 2 ^ 65 + (d.toNat * 2 + s.toNat))
        = 2 * (2 * 2 ^ 70 + (a.toNat * 2 ^ 64 + d.toNat)) + s.toNat := by omega
    rw [this]; exact stop_bit _ _
  have hf : BitVec.ofNat 6 (2 * 2 ^ 6 + a.toNat) = a := by
    apply BitVec.eq_of_toNat_eq; rw [BitVec.toNat_ofNat]; omega
  have hf' : BitVec.ofNat 64 (2 * 2 ^ 70 + (a.toNat * 2 ^ 64 + d.toNat)) = d := by
    apply BitVec.eq_of_toNat_eq; rw [BitVec.toNat_ofNat]; omega
  simp only [hd, he, he', ht, hf, hf', h.2, and_self, if_true]

theorem eewr14 (src : Addr) (a : BitVec 14) (d : BitVec 64) (s : Bool) : Statement (.eewr14 src a d s) := fun x _ h => by
  simp only [Instr.selectedIn, Bool.and_eq_true, decide_eq_true_eq] at h
  rw [encode, decode_burst x h.1 _ _ (writeBits_nonempty a d s)]
  have hs : s.toNat < 2 := Bool.toNat_lt s
  have ha := a.isLt
  have hd64 := d.isLt
  have hv := natOfBits_write a d s
  simp only [decodeBurst, writeBits_length, hv]
  have hd : (2 * 2 ^ 79 + (a.toNat * 2 ^ 65 + (d.toNat * 2 + s.toNat))) / 2 ^ 79 = 2 := by omega
  have he : (2 * 2 ^ 79 + (a.toNat * 2 ^ 65 + (d.toNat * 2 + s.toNat))) / 2 ^ 65 = 2 * 2 ^ 14 + a.toNat := by omega
  have he' : (2 * 2 ^ 79 + (a.toNat * 2 ^ 65 + (d.toNat * 2 + s.toNat))) / 2
      = 2 * 2 ^ 78 + (a.toNat * 2 ^ 64 + d.toNat) := by omega
  have ht : (2 * 2 ^ 79 + (a.toNat * 2 ^ 65 + (d.toNat * 2 + s.toNat))).testBit 0 = s := by
    have : 2 * 2 ^ 79 + (a.toNat * 2 ^ 65 + (d.toNat * 2 + s.toNat))
        = 2 * (2 * 2 ^ 78 + (a.toNat * 2 ^ 64 + d.toNat)) + s.toNat := by omega
    rw [this]; exact stop_bit _ _
  have hf : BitVec.ofNat 14 (2 * 2 ^ 14 + a.toNat) = a := by
    apply BitVec.eq_of_toNat_eq; rw [BitVec.toNat_ofNat]; omega
  have hf' : BitVec.ofNat 64 (2 * 2 ^ 78 + (a.toNat * 2 ^ 64 + d.toNat)) = d := by
    apply BitVec.eq_of_toNat_eq; rw [BitVec.toNat_ofNat]; omega
  simp only [hd, he, he', ht, hf, hf', h.2, and_self, if_true]

/-- The first two bits of a stream are the top two bits of its number. -/
theorem natOfBits_top (b0 b1 : Bool) (bs : List Bool) :
    natOfBits (b0 :: b1 :: bs) / 2 ^ bs.length = 2 * b0.toNat + b1.toNat := by
  have h := natOfBits_lt bs
  simp only [natOfBits, List.length_cons, Nat.pow_succ]
  have : b0.toNat * (2 ^ bs.length * 2) + (b1.toNat * 2 ^ bs.length + natOfBits bs)
      = natOfBits bs + 2 ^ bs.length * (2 * b0.toNat + b1.toNat) := by ring
  rw [this, Nat.add_mul_div_left _ _ (by positivity), Nat.div_eq_of_lt h]; omega

theorem eebad (src : Addr) (bits : List Bool) : Statement (.eebad src bits) := fun x hw h => by
  have hne : bits.isEmpty = false := by simpa [Instr.WellFormed, Instr.wf] using hw
  simp only [Instr.selectedIn, Bool.and_eq_true, decide_eq_true_eq] at h
  rw [encode, decode_burst x h.1 _ _ hne]
  have hbad := h.2
  have key : ∀ b0 b1 bs, bits = b0 :: b1 :: bs → ∀ k m, bs.length = k → (natOfBits bits / 2 ^ k = m ↔ 2 * b0.toNat + b1.toNat = m) := by
    intro b0 b1 bs hb k m hk; rw [hb, ← hk, natOfBits_top]
  simp only [decodeBurst]
  match bits, hne with
  | [b0], _ => rfl
  | b0 :: b1 :: bs, _ =>
    have hk := fun k m hk => key b0 b1 bs rfl k m hk
    simp only [burstIsBad, List.getD_cons_zero, List.getD_cons_succ] at hbad
    split
    · rename_i hl
      have hl' : bs.length = 7 := by simpa using hl
      simp only [hl] at hbad
      rw [if_neg]
      rintro ⟨h1, h2⟩
      rw [hk 7 3 hl'] at h1
      cases b0 <;> cases b1 <;> simp_all
    · rename_i hl
      have hl' : bs.length = 15 := by simpa using hl
      simp only [hl] at hbad
      rw [if_neg]
      rintro ⟨h1, h2⟩
      rw [hk 15 3 hl'] at h1
      cases b0 <;> cases b1 <;> simp_all
    · rename_i hl
      have hl' : bs.length = 71 := by simpa using hl
      simp only [hl] at hbad
      rw [if_neg]
      rintro ⟨h1, h2⟩
      rw [hk 71 2 hl'] at h1
      cases b0 <;> cases b1 <;> simp_all
    · rename_i hl
      have hl' : bs.length = 79 := by simpa using hl
      simp only [hl] at hbad
      rw [if_neg]
      rintro ⟨h1, h2⟩
      rw [hk 79 2 hl'] at h1
      cases b0 <;> cases b1 <;> simp_all
    · rfl

theorem eerdbit (a : Addr) (w : UnitWidth) : Statement (.eerdbit a w) := fun x hw h => by
  have hin : Config.default.eep.has a = true := hw
  have hb : x.backup = .eeprom := by simpa [Instr.selectedIn] using h
  simp only [encode, decode, hb, if_true, hin]

/-! ## Format GPIOREG -/

theorem gpwrdata (u : Nat) (b : Byte) : Statement (.gpwrdata u b) := fun x hw h => by
  have hg : x.gpio ≠ .disabled := by simpa [Instr.selectedIn] using h
  have hu : u < 2 := by simpa [Instr.WellFormed, Instr.wf] using hw
  simp only [encode, decode, if_neg hg]
  match u, hu with
  | 0, _ => rfl
  | 1, _ => rfl

theorem gpwrdir (u : Nat) (b : Byte) : Statement (.gpwrdir u b) := fun x hw h => by
  have hg : x.gpio ≠ .disabled := by simpa [Instr.selectedIn] using h
  have hu : u < 2 := by simpa [Instr.WellFormed, Instr.wf] using hw
  simp only [encode, decode, if_neg hg]
  match u, hu with
  | 0, _ => rfl
  | 1, _ => rfl

theorem gpwrctl (u : Nat) (b : Byte) : Statement (.gpwrctl u b) := fun x hw h => by
  have hg : x.gpio ≠ .disabled := by simpa [Instr.selectedIn] using h
  have hu : u < 2 := by simpa [Instr.WellFormed, Instr.wf] using hw
  simp only [encode, decode, if_neg hg]
  match u, hu with
  | 0, _ => rfl
  | 1, _ => rfl

theorem gpwrrsv (u : Nat) (b : Byte) : Statement (.gpwrrsv u b) := fun x hw h => by
  have hg : x.gpio ≠ .disabled := by simpa [Instr.selectedIn] using h
  have hu : u < 2 := by simpa [Instr.WellFormed, Instr.wf] using hw
  simp only [encode, decode, if_neg hg]
  match u, hu with
  | 0, _ => rfl
  | 1, _ => rfl

theorem gprd (k : Fin 4) (u : Nat) : Statement (.gprd k u) := fun x hw h => by
  have hg : x.gpio ≠ .disabled := by simpa [Instr.selectedIn] using h
  have hu : u < 2 := by simpa [Instr.WellFormed, Instr.wf] using hw
  simp only [encode, decode, if_neg hg]
  match k, u, hu with
  | 0, 0, _ => rfl | 0, 1, _ => rfl
  | 1, 0, _ => rfl | 1, 1, _ => rfl
  | 2, 0, _ => rfl | 2, 1, _ => rfl
  | 3, 0, _ => rfl | 3, 1, _ => rfl

end Sys2Proof.Laws.EncodeDecode
end

