-- ==== Sys2Proof/Laws/Writes.lean ====
section
/-! SUPPORT. A plain write is the fast write of its width and a class; a fast write that covers no control register is its bytes in turn (40_bus_access.md R143 to R145, R150, R157, R158, R160). -/

namespace Sys2Proof.Machine

/-- Where the bytes of a plain write are written: the fast write's state with the class recorded. -/
theorem writeStart_plain {i : Instr} {a : Addr} {n : Nat} (h : classifiedAccess i = some (a, n)) (s : State) :
    writeStart i s = State.setCls (some (classify Config.default s.cart.gpioType s.tc a n).1)
      (s.start.setTc (classify Config.default s.cart.gpioType s.tc a n).2) := by
  unfold writeStart; rw [h]; rfl

/-- Where the bytes of a fast write are written. -/
theorem writeStart_fast {i : Instr} (h : classifiedAccess i = none) (s : State) : writeStart i s = s.start := by
  unfold writeStart; rw [h]

/-- A plain write and the fast write of the same bytes (R143 to R145, R157, R158, R160). -/
theorem exec_plain_fast {i j : Instr} {a : Addr} {bs : List Byte} {n : Nat} (hi : writeAccess i = some (a, bs))
    (hj : writeAccess j = some (a, bs)) (hc : classifiedAccess i = some (a, n)) (hf : classifiedAccess j = none) (s : State) :
    exec i s = withClass a n s (exec j s) := by
  rw [exec_write hi, exec_write hj, writeStart_plain hc, writeStart_fast hf, (passive_setCls _).writeTransaction,
    (passive_setTc _).writeTransaction]
  cases hw : writeTransaction Config.default a bs s.start <;> rfl

/-- Bytes written outside the control registers, in one transaction or in turn (20_memory.md R65). -/
theorem bytesInTurn_eq (bs : List Byte) : ∀ (a : Addr) (s : State),
    (∀ k, k < bs.length → isCntHByte Config.default (a + BitVec.ofNat 32 k) = false) →
    ∃ t, writeBytes Config.default .cpu a bs s.start = .ok t ∧ bytesInTurn a bs s = .next t := by
  induction bs with
  | nil => intro a s _; exact ⟨s.start, rfl, rfl⟩
  | cons b bs ih =>
    intro a s h
    obtain ⟨u, hx, hu⟩ := exec_write_plain (i := .fwr8 a b) rfl s fun k hk => by
      have : k = 0 := by simpa using hk
      subst this; exact h 0 (by simp)
    have hu : writeByte Config.default .cpu a b s.start = .ok u := by
      obtain ⟨v, h1, h2⟩ := writeBytes_cons hu
      cases h2; exact h1
    obtain ⟨t, h1, h2⟩ := ih (a + 1) u fun k hk => by rw [add_one_ofNat]; exact h (k + 1) (by simpa using hk)
    have hf := (Prims.one (Prim.byte (c := Config.default) (O := fun _ => True) (A := fun _ => False) trivial hu)).frame
    have ht := (writeBytes_prims (O := fun _ => True) (A := fun _ => False) trivial h1).frame
    have ho : u.out = { t.out with signals := u.out.signals } := by
      have e : ∀ o o' : Outputs, o.value = o'.value ∧ o.cls = o'.cls ∧ o.host = o'.host → o = { o' with signals := o.signals } := by
        rintro ⟨v, k, l, r⟩ o' ⟨rfl, rfl, rfl⟩; rfl
      exact e _ _ ⟨hf.2.2.2.2.1.trans ht.2.2.2.2.1.symm, hf.2.2.2.2.2.1.trans ht.2.2.2.2.2.1.symm, hf.2.2.2.2.2.2.trans ht.2.2.2.2.2.2.symm⟩
    refine ⟨t.over u.out, ?_, ?_⟩
    · simp only [writeBytes, hu]
      rw [← over_start u, (passive_over _).writeBytes, h1, over_start]; rfl
    · simp only [bytesInTurn, hx, h2]
      unfold State.over; rw [ho]; rfl

/-- A fast write that covers no control register is its bytes in turn. -/
theorem exec_fast_bytes {i : Instr} {a : Addr} {bs : List Byte} (h : writeAccess i = some (a, bs)) (hf : classifiedAccess i = none) (s : State)
    (hno : ∀ k, k < bs.length → isCntHByte Config.default (a + BitVec.ofNat 32 k) = false) : exec i s = bytesInTurn a bs s := by
  obtain ⟨t, h1, h2⟩ := exec_write_plain h s hno
  obtain ⟨u, g1, g2⟩ := bytesInTurn_eq bs a s hno
  rw [writeStart_fast hf, g1] at h2
  rw [h1, g2]; cases h2; rfl

end Sys2Proof.Machine
end

