-- ==== Sys2Proof/Laws/Units.lean ====
section
/-! SUPPORT. A run is its units in order, each the row that reads it and the row that writes it (41_dma.md R192, R193, R321). -/

namespace Sys2Proof.Machine

theorem joinLE_two_word (b0 b1 : Byte) : ((joinLE [b0, b1]).setWidth 16).setWidth 32 = joinLE [b0, b1] := by
  simp only [joinLE]
  apply BitVec.eq_of_getLsbD_eq; intro i hi
  simp only [BitVec.getLsbD_setWidth, BitVec.getLsbD_or, BitVec.getLsbD_shiftLeft]
  by_cases h : i < 16
  · simp [h, hi]
  · have : ¬ i < 8 := by omega
    have h1 : b0.getLsbD i = false := BitVec.getLsbD_of_ge _ _ (by omega)
    have h2 : b1.getLsbD (i - 8) = false := BitVec.getLsbD_of_ge _ _ (by omega)
    simp [h, h1, h2]

theorem splitLE_two_word (v : Word) : splitLE 2 v = halfBytes (v.setWidth 16) := by
  rw [← splitLE_two]
  simp only [splitLE, List.cons.injEq, and_true]
  constructor <;> apply BitVec.eq_of_getLsbD_eq <;> intro i hi <;>
    simp only [BitVec.getLsbD_setWidth, BitVec.getLsbD_ushiftRight] <;> interval_cases i <;> simp

/-- No byte of a unit at `a` lies in the DMA register block. -/
def UnitSafe (a : Addr) (w : UnitWidth) : Prop := ∀ j, j < unitBytes w → inDmaBlock Config.default (a + BitVec.ofNat 32 j) = false

theorem window_congr {s t : State} (h : t.cart = s.cart) (a : Addr) : inEepWindow Config.default t a = inEepWindow Config.default s a := by
  unfold inEepWindow; rw [h]

/-- The row that reads a unit answers its value and does to the state what the read of the unit does (R193). -/
theorem unitReadRow_spec {s0 s : State} (hc : s.cart = s0.cart) (a : Addr) (w : UnitWidth) :
    valueWord (afterRow (unitReadRow s0 a w) s).out.value = unitRead Config.default s a w
    ∧ (afterRow (unitReadRow s0 a w) s).start = (afterUnitRead Config.default s a).start := by
  have hw := window_congr hc a
  unfold unitReadRow unitRead afterUnitRead
  rw [← hw]
  by_cases h : inEepWindow Config.default s a = true
  · simp only [h, if_true]
    have hx : exec (.eerdbit a w) s = .next ((s.start.setEe (eepromShiftOut Config.default s.ee)).answer
        (some (unitValue w ((BitVec.ofBool (shiftOutBit Config.default s.ee)).setWidth 32))) none) := by
      show Host.Outcome.next _ = _
      congr 1
      have h' : inEepWindow Config.default s.start a = true := h
      unfold afterUnitRead unitRead
      rw [if_pos h', if_pos h]; rfl
    unfold afterRow; rw [hx]
    refine ⟨?_, rfl⟩
    cases w <;> cases shiftOutBit Config.default s.ee <;> rfl
  · simp only [h]
    cases w
    · refine ⟨?_, rfl⟩
      exact joinLE_two_word _ _
    · exact ⟨rfl, rfl⟩

/-- Outside the DMA register block a byte written by the CPU and by a channel is the same (R151, R193). -/
theorem writeByte_origin {ch : Chan} {a : Addr} (h : inDmaBlock Config.default a = false) (b : Byte) (s : State) :
    writeByte Config.default (.dma ch) a b s = writeByte Config.default .cpu a b s := by
  unfold writeByte
  split <;> try rfl
  rw [h]; rfl

theorem writeBytes_origin {ch : Chan} (bs : List Byte) : ∀ (a : Addr) (s : State),
    (∀ k, k < bs.length → inDmaBlock Config.default (a + BitVec.ofNat 32 k) = false) →
    writeBytes Config.default (.dma ch) a bs s = writeBytes Config.default .cpu a bs s := by
  induction bs with
  | nil => intro a s _; rfl
  | cons b bs ih =>
    intro a s h
    have h0 := h 0 (by simp)
    simp only [BitVec.add_zero] at h0
    simp only [writeBytes, writeByte_origin h0]
    split
    · exact ih _ _ fun k hk => by rw [add_one_ofNat]; exact h (k + 1) (by simpa using hk)
    · rfl

theorem cntH_in_block {a : Addr} (h : inDmaBlock Config.default a = false) : isCntHByte Config.default a = false := by
  by_contra hc
  have hc : isCntHByte Config.default a = true := by simpa using hc
  simp only [isCntHByte, List.any_eq_true, Bool.or_eq_true, decide_eq_true_eq] at hc
  obtain ⟨k, -, rfl | rfl⟩ := hc
  · rw [(cntH_block k).1] at h; cases h
  · rw [(cntH_block k).2] at h; cases h

/-- A unit by rows is the unit of the engine, its channel apart (R193). -/
theorem unitByRows_spec (ch : Chan) {src dst : Addr} {w : UnitWidth} {s : State} (hs : UnitSafe dst w) :
    unitWrite Config.default ch src dst w (unitRead Config.default s src w) (afterUnitRead Config.default s src) = .ok (unitByRows src dst w s) := by
  obtain ⟨hv, hst⟩ := unitReadRow_spec (s0 := s) (s := s) rfl src w
  obtain ⟨r, hr⟩ : ∃ r, r = afterRow (unitReadRow s src w) s := ⟨_, rfl⟩
  rw [← hr] at hv hst
  have hout : (afterUnitRead Config.default s src).out = s.out := afterUnitRead_out _ _ _
  have hcart : (afterUnitRead Config.default s src).cart = s.cart := by unfold afterUnitRead; split <;> rfl
  have hrr : { r with out := s.out } = afterUnitRead Config.default s src := by
    have h : ({ r with out := s.out } : State) = { r.start with out := s.out } := rfl
    rw [h, hst, ← hout]; rfl
  unfold unitWrite unitByRows
  simp only [← hr, hv, window_congr hcart]
  by_cases hw : inEepWindow Config.default s dst = true
  · simp only [hw, if_true, ← hrr]; rfl
  · simp only [hw]
    have hb : ∀ k, k < (splitLE (unitBytes w) (unitRead Config.default s src w)).length → inDmaBlock Config.default (dst + BitVec.ofNat 32 k) = false := by
      intro k hk; rw [splitLE_length] at hk; exact hs k hk
    obtain ⟨i, hi, hwa, hf⟩ : ∃ i, i = unitWriteRow dst w (unitRead Config.default s src w)
        ∧ writeAccess i = some (dst, splitLE (unitBytes w) (unitRead Config.default s src w)) ∧ classifiedAccess i = none := by
      refine ⟨_, rfl, ?_, ?_⟩
      · cases w
        · simp only [unitWriteRow, unitBytes, writeAccess, splitLE_two_word]
        · simp only [unitWriteRow, unitBytes, writeAccess, splitLE_four]
      · cases w <;> rfl
    obtain ⟨u, hx, hu⟩ := exec_write_plain hwa r fun k hk => cntH_in_block (hb k hk)
    rw [writeStart_fast hf, hst] at hu
    have hau : afterRow (unitWriteRow dst w (unitRead Config.default s src w)) r = u := by
      unfold afterRow; rw [← hi, hx]
    simp only [Bool.false_eq_true, if_false, hau]
    rw [writeBytes_origin _ _ _ hb]
    -- the outputs before the unit have no part in it
    have h0 : afterUnitRead Config.default s src = (afterUnitRead Config.default s src).start.over s.out := by
      rw [← hout, over_start]
    rw [h0, (passive_over s.out).writeBytes, hu]
    rfl

theorem unitByRows_cart {src dst : Addr} {w : UnitWidth} {s : State} (hs : UnitSafe dst w) : (unitByRows src dst w s).cart = s.cart := by
  have h := (unitWrite_prims (O := fun _ => True) (A := fun _ => False) (fun _ => trivial) (unitByRows_spec 0 (src := src) (s := s) hs)).frame.1
  rw [h]; unfold afterUnitRead; split <;> rfl

theorem unitByRows_inert {f : State → State} (hf : Inert f) {src dst : Addr} {w : UnitWidth} {s : State} (hs : UnitSafe dst w) :
    unitByRows src dst w (f s) = f (unitByRows src dst w s) := by
  have h := unitByRows_spec 0 (src := src) (s := f s) hs
  rw [hf.unitRead, hf.afterUnitRead, hf.unitWrite, unitByRows_spec 0 (src := src) (s := s) hs] at h
  exact (Except.ok.inj h).symm

/-- Every unit of the first `n` stays off the DMA register block. -/
def UnitsSafe (x : DmaChan) (n : Nat) : Prop := ∀ k, k < n → UnitSafe (dstUnit x k) x.width

theorem dstAfter_eq (x : DmaChan) (k : Nat) : dstAfter x k = dstUnit x k := by
  induction k generalizing x with
  | zero => simp [dstAfter]
  | succ k ih => rw [← dstAfter_advance, ih, dstUnit_advance]

theorem safeRun_units {x : DmaChan} : safeRun Config.default x ↔ UnitsSafe x (unitsLeft x) := by
  unfold safeRun UnitsSafe UnitSafe
  simp only [dstAfter_eq]

theorem unitsByRows_cart {x : DmaChan} {s : State} (n : Nat) (hs : UnitsSafe x n) : (unitsByRows x s n).cart = s.cart := by
  induction n with
  | zero => rfl
  | succ n ih => exact (unitByRows_cart (hs n (by omega))).trans (ih fun k hk => hs k (by omega))

theorem unitsByRows_inert {f : State → State} (hf : Inert f) {x : DmaChan} {s : State} (n : Nat) (hs : UnitsSafe x n) :
    unitsByRows x (f s) n = f (unitsByRows x s n) := by
  induction n with
  | zero => rfl
  | succ n ih =>
    show unitByRows _ _ _ (unitsByRows x (f s) n) = _
    rw [ih fun k hk => hs k (by omega), unitByRows_inert hf (hs n (by omega))]; rfl

/-- The units depend on the pointers, the width and the control alone. -/
theorem unitsByRows_chan {x y : DmaChan} (h1 : y.src = x.src) (h2 : y.dst = x.dst) (h3 : y.ctrl = x.ctrl) (h4 : y.width = x.width) (s : State) (n : Nat) :
    unitsByRows y s n = unitsByRows x s n := by
  have e1 : ∀ k, srcUnit y k = srcUnit x k := fun k => by unfold srcUnit; rw [h1, h3, h4]
  have e2 : ∀ k, dstUnit y k = dstUnit x k := fun k => by unfold dstUnit; rw [h2, h3, h4]
  induction n with
  | zero => rfl
  | succ n ih => simp only [unitsByRows, ih, e1, e2, h4]

theorem unitsByRows_first (x : DmaChan) (s : State) (n : Nat) :
    unitsByRows (x.advance x.src x.dst) (unitByRows x.src x.dst x.width s) n = unitsByRows x s (n + 1) := by
  induction n with
  | zero => simp [unitsByRows]
  | succ n ih =>
    show unitByRows _ _ _ (unitsByRows (x.advance x.src x.dst) (unitByRows x.src x.dst x.width s) n) = _
    rw [ih, srcUnit_advance, dstUnit_advance]; rfl

/-- A unit off the DMA register block changes no channel. -/
theorem unitByRows_dma {src dst : Addr} {w : UnitWidth} {s : State} (hs : UnitSafe dst w) : (unitByRows src dst w s).dma = s.dma := by
  refine Channels.ext_get fun k => ?_
  have h1 := (unitWrite_prims (O := fun _ => True) (A := fun _ => False) (fun _ => trivial) (unitByRows_spec 0 (src := src) (s := s) hs)).other_chan (k := k) (by simp)
  have h2 := (afterUnitRead_prims (c := Config.default) (O := fun _ => True) (A := fun _ => False) (s := s) src).other_chan (k := k) (by simp)
  exact h1.trans h2

theorem setDma_self {s t : State} (h : t.dma = s.dma) : s.setDma t.dma = s := by rw [h]; rfl

/-- The units of a run are its units by rows, its channel apart; and whether a bit went into the EEPROM window. -/
theorem dmaUnits_rows {ch : Chan} (n : Nat) : ∀ {e e' : Bool} {s t : State}, dmaUnits Config.default ch n e s = .ok (t, e') →
    UnitsSafe (s.chan ch) n
    ∧ t = (unitsByRows (s.chan ch) s n).setDma t.dma
    ∧ e' = (e || (List.range n).any fun k => inEepWindow Config.default s (dstUnit (s.chan ch) k)) := by
  induction n with
  | zero => intro e e' s t h; cases h; exact ⟨fun k hk => by omega, rfl, by simp⟩
  | succ n ih =>
    intro e e' s t h
    have hsafe : UnitsSafe (s.chan ch) (n + 1) := by
      intro k hk j hj
      have := (dmaUnits_ok_iff (n + 1)).mp ⟨_, h⟩ k hk j hj
      rwa [dstAfter_eq] at this
    obtain ⟨s1, e1, h1, h2⟩ := dmaUnits_succ h
    have hch := dmaUnit_chan h1
    have h0 : UnitSafe (s.chan ch).dst (s.chan ch).width := by simpa using hsafe 0 (by omega)
    obtain ⟨s2, hw, hs1, he1⟩ := dmaUnit_ok h1
    rw [unitByRows_spec ch h0] at hw
    cases hw
    have hs1' : s1 = (unitByRows (s.chan ch).src (s.chan ch).dst (s.chan ch).width s).setDma s1.dma := by rw [hs1]; rfl
    have hcart : s1.cart = s.cart := by rw [hs1]; exact unitByRows_cart h0
    have hca : (afterUnitRead Config.default s (s.chan ch).src).cart = s.cart := by unfold afterUnitRead; split <;> rfl
    obtain ⟨i1, i2, i3⟩ := ih h2
    refine ⟨hsafe, ?_, ?_⟩
    · rw [hch, hs1', unitsByRows_inert (inert_setDma s1.dma) n (by rw [hch] at i1; exact i1), unitsByRows_first] at i2
      rw [i2]; rfl
    · rw [i3, he1, window_congr hca, hch]
      simp only [window_congr hcart, dstUnit_advance]
      rw [List.range_succ_eq_map, List.any_cons, List.any_map, dstUnit_zero, Bool.or_assoc]; rfl

end Sys2Proof.Machine
end

