-- ==== Sys2Proof/Laws/RunRows.lean ====
section
/-! SUPPORT. What a whole run leaves, from its units by rows: its end, its burst, its frame, the reply it stores (41_dma.md R192 to R197, 42_eeprom.md R231 to R244). -/

namespace Sys2Proof.Machine

/-- The end of a run: the burst ended, the pulse, the enable bit cleared unless the channel recurs (R192, R195 to R197). -/
theorem endRun_fields (ch : Chan) (e : Bool) (v : State) :
    endRun Config.default ch e v = { v with
      mem := (endRun Config.default ch e v).mem
      dma := (endRun Config.default ch e v).dma
      ee := if e = true then eepromBurstEnd Config.default v.ee else v.ee
      out := { v.out with signals := v.out.signals ++ (if ctlIrq (v.chan ch).ctrl = true then [.irq ch] else []) } }
    ∧ ∀ b : Addr, (endRun Config.default ch e v).asByte b
      = if b = cntHAddr Config.default ch + 1 ∧ recurs (v.chan ch) = false then v.asByte b &&& 0x7F else v.asByte b := by
  have key : ∀ u : State, u.chan ch = { v.chan ch with running := false } →
      complete Config.default ch u = { u with
        mem := (complete Config.default ch u).mem
        dma := (complete Config.default ch u).dma
        out := { u.out with signals := u.out.signals ++ (if ctlIrq (v.chan ch).ctrl = true then [.irq ch] else []) } }
      ∧ ∀ b : Addr, (complete Config.default ch u).asByte b
        = if b = cntHAddr Config.default ch + 1 ∧ recurs (v.chan ch) = false then u.asByte b &&& 0x7F else u.asByte b := by
    intro u hc
    have hr : recurs (u.chan ch) = recurs (v.chan ch) := by rw [hc]; rfl
    have hi : ctlIrq (u.chan ch).ctrl = ctlIrq (v.chan ch).ctrl := by rw [hc]
    have hend : ∀ x : State, (if recurs (v.chan ch) = true then rearm Config.default ch x else goIdle Config.default ch x)
        = { x with
            mem := (if recurs (v.chan ch) = true then rearm Config.default ch x else goIdle Config.default ch x).mem
            dma := (if recurs (v.chan ch) = true then rearm Config.default ch x else goIdle Config.default ch x).dma }
        ∧ ∀ b : Addr, (if recurs (v.chan ch) = true then rearm Config.default ch x else goIdle Config.default ch x).asByte b
          = if b = cntHAddr Config.default ch + 1 ∧ recurs (v.chan ch) = false then x.asByte b &&& 0x7F else x.asByte b := by
      intro x
      by_cases h : recurs (v.chan ch) = true
      · simp only [h, if_true]
        exact ⟨rfl, fun b => by simp; rfl⟩
      · have h : recurs (v.chan ch) = false := by simpa using h
        simp only [h, Bool.false_eq_true, if_false]
        refine ⟨rfl, fun b => ?_⟩
        have := asByte_clear (x.setChan ch { x.chan ch with enabled := false, running := false }) ch b
        refine Eq.trans this ?_
        simp only [and_true]; rfl
    unfold complete
    simp only [hr, hi]
    by_cases h : ctlIrq (v.chan ch).ctrl = true
    · simp only [h, if_true]
      obtain ⟨h1, h2⟩ := hend (u.emit [.irq ch])
      exact ⟨h1, h2⟩
    · simp only [h]
      obtain ⟨h1, h2⟩ := hend u
      refine ⟨?_, h2⟩
      simp only [Bool.false_eq_true, if_false, List.append_nil]
      exact h1
  unfold endRun
  simp only
  cases e
  · exact key (v.setChan ch { v.chan ch with running := false }) (by rw [State.chan_setChan_same])
  · exact key ((v.setChan ch { v.chan ch with running := false }).setEe (eepromBurstEnd Config.default v.ee)) (by rw [State.setEe_chan, State.chan_setChan_same])

/-- Whether any unit of the pass goes into the EEPROM window. -/
theorem windowUnits_any (x : DmaChan) (s : State) :
    ((List.range (unitsLeft x)).any fun k => inEepWindow Config.default s (dstUnit x k)) = decide (windowUnits x s ≠ []) := by
  unfold windowUnits
  rw [Bool.eq_iff_iff, List.any_eq_true, decide_eq_true_eq, ne_eq, List.filter_eq_nil_iff]
  simp only [not_forall, not_not]
  constructor
  · rintro ⟨k, h1, h2⟩; exact ⟨k, h1, h2⟩
  · rintro ⟨k, h1, h2⟩; exact ⟨k, h1, h2⟩

/-- What a run leaves, from its units by rows (R192). -/
theorem dmaRun_rows {ch : Chan} {s t : State} (h : dmaRun Config.default ch s = .ok t) :
    UnitsSafe (s.chan ch) (unitsLeft (s.chan ch))
    ∧ t = { unitsByRows (s.chan ch) s (unitsLeft (s.chan ch)) with
        mem := t.mem
        dma := t.dma
        ee := if windowUnits (s.chan ch) s = [] then (unitsByRows (s.chan ch) s (unitsLeft (s.chan ch))).ee
          else eepromBurstEnd Config.default (unitsByRows (s.chan ch) s (unitsLeft (s.chan ch))).ee
        out := { (unitsByRows (s.chan ch) s (unitsLeft (s.chan ch))).out with
          signals := (unitsByRows (s.chan ch) s (unitsLeft (s.chan ch))).out.signals
            ++ (if ctlIrq (s.chan ch).ctrl = true then [.irq ch] else []) } }
    ∧ ∀ b : Addr, t.asByte b = if b = cntHAddr Config.default ch + 1 ∧ recurs (s.chan ch) = false
        then (unitsByRows (s.chan ch) s (unitsLeft (s.chan ch))).asByte b &&& 0x7F
        else (unitsByRows (s.chan ch) s (unitsLeft (s.chan ch))).asByte b := by
  unfold dmaRun at h
  simp only at h
  split at h
  · cases h
  rename_i v e hu
  cases h
  obtain ⟨h1, h2, h3⟩ := dmaUnits_rows _ hu
  obtain ⟨-, -, -, hctrl, -, -⟩ := dmaUnits_chan _ hu
  rw [State.chan_setChan_same] at h1 h2 h3 hctrl
  have hd : UnitsSafe (s.chan ch) (unitsLeft (s.chan ch)) := h1
  have hrows : unitsByRows { s.chan ch with running := true } (s.setChan ch { s.chan ch with running := true }) (unitsLeft (s.chan ch))
      = (unitsByRows (s.chan ch) s (unitsLeft (s.chan ch))).setDma (s.setChan ch { s.chan ch with running := true }).dma :=
    (unitsByRows_chan (x := s.chan ch) (y := { s.chan ch with running := true }) rfl rfl rfl rfl _ _).trans
      (unitsByRows_inert (s := s) (inert_setDma (s.setChan ch { s.chan ch with running := true }).dma) _ hd)
  rw [hrows] at h2
  have he : e = decide (windowUnits (s.chan ch) s ≠ []) := by
    rw [← windowUnits_any, h3, Bool.false_or]; rfl
  have hrec : recurs (v.chan ch) = recurs (s.chan ch) := by unfold recurs; rw [hctrl]
  obtain ⟨f1, f2⟩ := endRun_fields ch e v
  refine ⟨hd, ?_, ?_⟩
  · rw [hctrl] at f1
    refine f1.trans ?_
    have hv : ∀ m d o ee, ({ v with mem := m, dma := d, ee := ee, out := o } : State) = { unitsByRows (s.chan ch) s (unitsLeft (s.chan ch)) with mem := m, dma := d, ee := ee, out := o } := by
      intro m d o ee; rw [h2]; rfl
    rw [hv]
    have hee : v.ee = (unitsByRows (s.chan ch) s (unitsLeft (s.chan ch))).ee := by rw [h2]; rfl
    have hout : v.out = (unitsByRows (s.chan ch) s (unitsLeft (s.chan ch))).out := by rw [h2]; rfl
    rw [hee, hout, he]
    by_cases hw : windowUnits (s.chan ch) s = [] <;> simp [hw]
  · intro b
    have hb : v.asByte b = (unitsByRows (s.chan ch) s (unitsLeft (s.chan ch))).asByte b := by rw [h2]; rfl
    rw [f2, hrec, hb]

/-! ## The burst of a run -/

theorem unitWrite_ee {ch : Chan} {src dst : Addr} {w : UnitWidth} {v : Word} {s t : State} (h : unitWrite Config.default ch src dst w v s = .ok t) :
    t.ee = if inEepWindow Config.default s dst = true then eepromShiftIn (v.getLsbD 0) src s.ee else s.ee := by
  unfold unitWrite at h
  split at h <;> rename_i hw
  · cases h; rw [if_pos hw]; rfl
  · rw [if_neg hw]; exact writeBytes_ee h

theorem afterUnitRead_ee (s : State) (a : Addr) : (afterUnitRead Config.default s a).ee
    = if inEepWindow Config.default s a = true then eepromShiftOut Config.default s.ee else s.ee := by
  unfold afterUnitRead; split <;> rfl

theorem afterUnitRead_cart (s : State) (a : Addr) : (afterUnitRead Config.default s a).cart = s.cart := by
  unfold afterUnitRead; split <;> rfl

theorem unitByRows_ee {src dst : Addr} {w : UnitWidth} {s : State} (hs : UnitSafe dst w) : (unitByRows src dst w s).ee
    = if inEepWindow Config.default s dst = true
      then eepromShiftIn ((unitRead Config.default s src w).getLsbD 0) src (afterUnitRead Config.default s src).ee
      else (afterUnitRead Config.default s src).ee := by
  have h := unitWrite_ee (unitByRows_spec 0 (src := src) (s := s) hs)
  rwa [window_congr (afterUnitRead_cart s src)] at h

theorem shiftOut_shifting {ee : Eeprom} (h : ee.phase = .shiftIn) : eepromShiftOut Config.default ee = ee := by
  unfold eepromShiftOut; rw [if_neg (by rw [h]; simp)]

theorem shiftOut_phase {ee : Eeprom} (h : ee.phase ≠ .shiftIn) : (eepromShiftOut Config.default ee).phase ≠ .shiftIn := by
  unfold eepromShiftOut; split
  · rename_i hp; split
    · simp
    · show ee.phase ≠ _; rw [hp]; simp
  · exact h

theorem fold_phase (src : Addr) (bits : List Bool) : ∀ {ee : Eeprom}, bits ≠ [] → (bits.foldl (fun e b => eepromShiftIn b src e) ee).phase = .shiftIn := by
  induction bits with
  | nil => intro ee h; exact absurd rfl h
  | cons b bits ih =>
    intro ee _
    rw [List.foldl_cons]
    cases bits with
    | nil => exact shiftIn_phase _ _ _
    | cons b' bits => exact ih (by simp)

/-- The bits the first `n` units shift in. -/
def bitsUpTo (x : DmaChan) (s : State) (n : Nat) : List Bool :=
  ((List.range n).filter fun k => inEepWindow Config.default s (dstUnit x k)).map fun k => (unitWord x s k).getLsbD 0

theorem bitsUpTo_succ (x : DmaChan) (s : State) (n : Nat) : bitsUpTo x s (n + 1)
    = bitsUpTo x s n ++ (if inEepWindow Config.default s (dstUnit x n) = true then [(unitWord x s n).getLsbD 0] else []) := by
  unfold bitsUpTo
  rw [List.range_succ, List.filter_append, List.map_append]
  congr 1
  by_cases h : inEepWindow Config.default s (dstUnit x n) = true <;> simp [h]

theorem unitWord_read {x : DmaChan} {s : State} (n : Nat) (hs : UnitsSafe x n) :
    unitWord x s n = unitRead Config.default (unitsByRows x s n) (srcUnit x n) x.width :=
  (unitReadRow_spec (s0 := s) (unitsByRows_cart n hs) (srcUnit x n) x.width).1

/-- The engine during a run: what the units read out of it, then the burst so far (R193, R233, R241). -/
theorem unitsByRows_ee {x : DmaChan} {s : State} (hp : s.ee.phase ≠ .shiftIn) (n : Nat) (hs : UnitsSafe x n) :
    ∃ ee0 src, ee0.kept = s.ee.kept ∧ ee0.phase ≠ .shiftIn
      ∧ (unitsByRows x s n).ee = (bitsUpTo x s n).foldl (fun e b => eepromShiftIn b src e) ee0 := by
  induction n with
  | zero => exact ⟨s.ee, 0, rfl, hp, rfl⟩
  | succ n ih =>
    have hsn : UnitsSafe x n := fun k hk => hs k (by omega)
    obtain ⟨ee0, src, h1, h2, h3⟩ := ih hsn
    have hcart := unitsByRows_cart (s := s) n hsn
    have hu : (unitsByRows x s (n + 1)).ee = _ := unitByRows_ee (src := srcUnit x n) (s := unitsByRows x s n) (hs n (by omega))
    rw [window_congr hcart, ← unitWord_read n hsn] at hu
    rw [hu, bitsUpTo_succ, afterUnitRead_ee]
    by_cases hb : bitsUpTo x s n = []
    · rw [hb] at h3
      obtain ⟨ee1, g0, g1, g2⟩ : ∃ ee1, ee1 = (if inEepWindow Config.default (unitsByRows x s n) (srcUnit x n) = true
          then eepromShiftOut Config.default (unitsByRows x s n).ee else (unitsByRows x s n).ee) ∧ ee1.kept = s.ee.kept ∧ ee1.phase ≠ .shiftIn := by
        refine ⟨_, rfl, ?_, ?_⟩
        · rw [h3]; split
          · rw [shiftOut_kept]; exact h1
          · exact h1
        · rw [h3]; split
          · exact shiftOut_phase h2
          · exact h2
      rw [← g0, hb]
      refine ⟨ee1, srcUnit x n, g1, g2, ?_⟩
      by_cases hw : inEepWindow Config.default s (dstUnit x n) = true <;> simp [hw]
    · have hph : (unitsByRows x s n).ee.phase = .shiftIn := by rw [h3]; exact fold_phase _ _ hb
      refine ⟨ee0, src, h1, h2, ?_⟩
      rw [shiftOut_shifting hph, ite_self, List.foldl_append, ← h3]
      by_cases hw : inEepWindow Config.default s (dstUnit x n) = true
      · simp only [hw, if_true, List.foldl_cons, List.foldl_nil]
        exact shiftIn_shifting hph _ _ _
      · simp [hw]

theorem burstEffect_nil (x : Memory × EeSize × Bool) : burstEffect x [] = x := rfl

/-- Bursts of a length no request has do nothing. -/
theorem burstEffect_other (x : Memory × EeSize × Bool) {bits : List Bool} (h9 : bits.length ≠ 9) (h17 : bits.length ≠ 17) (h73 : bits.length ≠ 73) (h81 : bits.length ≠ 81) :
    burstEffect x bits = x := by
  unfold burstEffect; rw [decodeBurst_other _ _ h9 h17 h73 h81]

/-- A burst does to the store, the size and the lock what the row of its bits says (R234 to R240). -/
theorem burst_kept {bits : List Bool} (hne : bits ≠ []) (src : Addr) {ee : Eeprom} (hp : ee.phase ≠ .shiftIn) :
    (eepromBurst Config.default src bits ee).kept = burstEffect ee.kept bits := by
  obtain ⟨B, hB, hget⟩ := shiftIn_burst hne src hp
  unfold eepromBurst
  rw [hB, burstEnd_kept]
  show burstEffect ee.kept _ = _
  by_cases hl : bits.length ≤ 81
  · congr 1
    apply List.ext_getElem
    · rw [taken_length]
    · intro i h1 h2
      rw [← List.getD_eq_getElem _ false, ← List.getD_eq_getElem _ false, taken_getD _ _ h2]
      exact hget i (by omega)
  · rw [burstEffect_other _ (by rw [taken_length]; show bits.length ≠ 9; omega) (by rw [taken_length]; show bits.length ≠ 17; omega)
      (by rw [taken_length]; show bits.length ≠ 73; omega) (by rw [taken_length]; show bits.length ≠ 81; omega),
      burstEffect_other _ (by omega) (by omega) (by omega) (by omega)]

theorem burstEnd_notShifting (ee : Eeprom) : (eepromBurstEnd Config.default ee).phase ≠ .shiftIn := by
  unfold eepromBurstEnd Eeprom.bad commitPage
  split
  · simp
  · split
    · split <;> simp
    · simp

theorem passBurst_eq (x : DmaChan) (s : State) : passBurst x s = bitsUpTo x s (unitsLeft x) := rfl

theorem passBurst_length (x : DmaChan) (s : State) : (passBurst x s).length = (windowUnits x s).length := by simp [passBurst]

/-- One run does to the EEPROM's store, size and lock what the burst of its units does, and ends between bursts (R231, R234, R244). -/
theorem dmaRun_kept {ch : Chan} {s t : State} (h : dmaRun Config.default ch s = .ok t) (hp : s.ee.phase ≠ .shiftIn) :
    t.ee.kept = burstEffect s.ee.kept (passBurst (s.chan ch) s) ∧ t.ee.phase ≠ .shiftIn := by
  obtain ⟨hs, ht, -⟩ := dmaRun_rows h
  obtain ⟨ee0, src, h1, h2, h3⟩ := unitsByRows_ee hp (unitsLeft (s.chan ch)) hs
  have hee : t.ee = if windowUnits (s.chan ch) s = [] then (unitsByRows (s.chan ch) s (unitsLeft (s.chan ch))).ee
      else eepromBurstEnd Config.default (unitsByRows (s.chan ch) s (unitsLeft (s.chan ch))).ee := by rw [ht]
  rw [hee, h3, ← passBurst_eq]
  by_cases hw : windowUnits (s.chan ch) s = []
  · have hb : passBurst (s.chan ch) s = [] := by unfold passBurst; rw [hw]; rfl
    rw [if_pos hw, hb]
    exact ⟨h1, h2⟩
  · have hb : passBurst (s.chan ch) s ≠ [] := by
      intro e; apply hw
      have := passBurst_length (s.chan ch) s
      rw [e] at this; exact List.eq_nil_of_length_eq_zero this.symm
    rw [if_neg hw, ← h1]
    exact ⟨burst_kept hb src h2, burstEnd_notShifting _⟩

/-! ## The frame of a run -/

/-- What a unit leaves alone, by where its bytes go. -/
structure UnitFrame (s t : State) (src dst : Addr) (w : UnitWidth) : Prop where
  bytes : ∀ b : Addr, (∀ j, j < unitBytes w → b ≠ dst + BitVec.ofNat 32 j) → t.asByte b = s.asByte b
  bkp : (∀ j, j < unitBytes w → decodeTag Config.default s.cart.gpioType (dst + BitVec.ofNat 32 j) ≠ .bkp) → t.fl = s.fl ∧ t.sram = s.sram
  gpio : (∀ j, j < unitBytes w → decodeTag Config.default s.cart.gpioType (dst + BitVec.ofNat 32 j) ≠ .gpio) → t.gpio = s.gpio
  ee : inEepWindow Config.default s src = false → inEepWindow Config.default s dst = false → t.ee = s.ee

theorem unitByRows_frame {src dst : Addr} {w : UnitWidth} {s : State} (hs : UnitSafe dst w) : UnitFrame s (unitByRows src dst w s) src dst w := by
  have h := unitByRows_spec 0 (src := src) (s := s) hs
  have ha : ∀ b, (afterUnitRead Config.default s src).asByte b = s.asByte b := by intro b; unfold afterUnitRead; split <;> rfl
  have hfl : (afterUnitRead Config.default s src).fl = s.fl ∧ (afterUnitRead Config.default s src).sram = s.sram
      ∧ (afterUnitRead Config.default s src).gpio = s.gpio := by unfold afterUnitRead; split <;> exact ⟨rfl, rfl, rfl⟩
  have hee : inEepWindow Config.default s src = false → inEepWindow Config.default s dst = false → (unitByRows src dst w s).ee = s.ee := by
    intro h1 h2
    rw [unitByRows_ee hs, h2, afterUnitRead_ee, h1]; rfl
  unfold unitWrite at h
  split at h
  · have h := Except.ok.inj h
    exact ⟨fun b _ => by rw [← h]; exact ha b, fun _ => by rw [← h]; exact ⟨hfl.1, hfl.2.1⟩, fun _ => by rw [← h]; exact hfl.2.2, hee⟩
  · have hf := writeBytes_frame h
    rw [splitLE_length] at hf
    have hc := afterUnitRead_cart s src
    refine ⟨fun b hb => (hf.bytes b hb).trans (ha b), fun hb => ?_, fun hb => ?_, hee⟩
    · have := hf.bkp fun k hk => by rw [hc]; exact hb k hk
      exact ⟨this.1.trans hfl.1, this.2.trans hfl.2.1⟩
    · exact (hf.gpio fun k hk => by rw [hc]; exact hb k hk).trans hfl.2.2

/-- What a channel's pass leaves alone. -/
structure PassFrame (x : DmaChan) (s t : State) : Prop where
  bytes : ∀ b : Addr, ¬ passWrites x b → t.asByte b = s.asByte b
  bkp : (∀ b, decodeTag Config.default s.cart.gpioType b = .bkp → ¬ passWrites x b) → t.fl = s.fl ∧ t.sram = s.sram
  gpio : (∀ b, decodeTag Config.default s.cart.gpioType b = .gpio → ¬ passWrites x b) → t.gpio = s.gpio
  ee : passAvoidsEeprom x s → t.ee = s.ee

theorem unitsByRows_frame {x : DmaChan} {s : State} (n : Nat) (hn : n ≤ unitsLeft x) (hs : UnitsSafe x n) : PassFrame x s (unitsByRows x s n) := by
  induction n with
  | zero => exact ⟨fun _ _ => rfl, fun _ => ⟨rfl, rfl⟩, fun _ => rfl, fun _ => rfl⟩
  | succ n ih =>
    have hsn : UnitsSafe x n := fun k hk => hs k (by omega)
    have i := ih (by omega) hsn
    have hc := unitsByRows_cart (s := s) n hsn
    have f := unitByRows_frame (src := srcUnit x n) (s := unitsByRows x s n) (hs n (by omega))
    have hw : ∀ j, j < unitBytes x.width → passWrites x (dstUnit x n + BitVec.ofNat 32 j) := fun j hj => ⟨n, j, by omega, hj, rfl⟩
    refine ⟨fun b hb => (f.bytes b fun j hj e => hb (e ▸ hw j hj)).trans (i.bytes b hb), fun h => ?_, fun h => ?_, fun h => ?_⟩
    · have g := f.bkp fun j hj e => h _ (by rw [← hc]; exact e) (hw j hj)
      exact ⟨g.1.trans (i.bkp h).1, g.2.trans (i.bkp h).2⟩
    · exact (f.gpio fun j hj e => h _ (by rw [← hc]; exact e) (hw j hj)).trans (i.gpio h)
    · obtain ⟨h1, h2⟩ := h n (by omega)
      exact (f.ee (by rw [window_congr hc]; exact h1) (by rw [window_congr hc]; exact h2)).trans (i.ee h)

theorem windowUnits_none {x : DmaChan} {s : State} (h : passAvoidsEeprom x s) : windowUnits x s = [] := by
  unfold windowUnits
  rw [List.filter_eq_nil_iff]
  intro n hn
  simp [(h n (List.mem_range.mp hn)).2]

/-- What a run leaves alone: all its pass leaves alone, its enable bit apart. -/
theorem dmaRun_frame {ch : Chan} {s t : State} (h : dmaRun Config.default ch s = .ok t) :
    (∀ b : Addr, ¬ passWrites (s.chan ch) b → b ≠ cntHAddr Config.default ch + 1 → t.asByte b = s.asByte b)
    ∧ ((∀ b, decodeTag Config.default s.cart.gpioType b = .bkp → ¬ passWrites (s.chan ch) b) → t.fl = s.fl ∧ t.sram = s.sram)
    ∧ ((∀ b, decodeTag Config.default s.cart.gpioType b = .gpio → ¬ passWrites (s.chan ch) b) → t.gpio = s.gpio)
    ∧ (passAvoidsEeprom (s.chan ch) s → t.ee = s.ee) := by
  obtain ⟨hs, ht, hb⟩ := dmaRun_rows h
  have f := unitsByRows_frame (s := s) _ (Nat.le_refl _) hs
  refine ⟨fun b h1 h2 => ?_, fun h => ?_, fun h => ?_, fun h => ?_⟩
  · rw [hb, if_neg (fun e => h2 e.1)]; exact f.bytes b h1
  · have g := f.bkp h
    rw [ht]; exact g
  · rw [ht]; exact f.gpio h
  · have hee : t.ee = _ := congrArg State.ee ht
    rw [hee]
    simp only [windowUnits_none h, if_true]
    exact f.ee h

end Sys2Proof.Machine
end

