-- ==== Sys2Proof/Laws/RunsOf.lean ====
section
/-! SUPPORT. The runs of an instruction: forced runs one after another from the state its own effect leaves; what they do to the EEPROM and what they leave alone (40_bus_access.md R152, 41_dma.md R190, R191, R202, R203). -/

namespace Sys2Proof.Machine

/-- Forced runs of channels, in order. -/
def forceList (c : Config) : List Chan → State → Except Refusal State
  | [], s => .ok s
  | ch :: l, s =>
    match forceDma c ch s with
    | .error r => .error r
    | .ok t => forceList c l t

/-- Distinct channels, each enabled and not running. -/
def Runnable (l : List Chan) (s : State) : Prop := l.Nodup ∧ ∀ ch ∈ l, (s.chan ch).enabled = true ∧ (s.chan ch).running = false

theorem forceList_cons {c : Config} {ch : Chan} {l : List Chan} {s t : State} (h : forceList c (ch :: l) s = .ok t) :
    ∃ u, forceDma c ch s = .ok u ∧ forceList c l u = .ok t := by
  simp only [forceList] at h
  split at h
  · cases h
  · rename_i u hu; exact ⟨u, hu, h⟩

/-- A forced run leaves the cartridge and the other channels alone. -/
theorem forceDma_other {c : Config} {ch : Chan} {s t : State} (h : forceDma c ch s = .ok t) :
    t.cart = s.cart ∧ ∀ k, k ≠ ch → t.chan k = s.chan k := by
  have hp := forceDma_prims (O := fun _ => True) (A := fun j => j = ch) (fun _ => trivial) rfl h
  exact ⟨hp.frame.1, fun k hk => hp.other_chan hk⟩

theorem Runnable.tail {ch : Chan} {l : List Chan} {s t : State} (h : Runnable (ch :: l) s) (ho : ∀ k, k ≠ ch → t.chan k = s.chan k) : Runnable l t := by
  have hn := List.nodup_cons.mp h.1
  refine ⟨hn.2, fun k hk => ?_⟩
  rw [ho k fun e => hn.1 (e ▸ hk)]
  exact h.2 k (List.mem_cons_of_mem _ hk)

/-- A forced run of an armed channel is its run without the start delay. -/
theorem forceDma_run {c : Config} {ch : Chan} {s : State} (h1 : (s.chan ch).enabled = true) (h2 : (s.chan ch).running = false) :
    forceDma c ch s = dmaRun c ch (s.setChan ch { s.chan ch with delay := 0 }) := by
  unfold forceDma; simp only [h1, h2, and_self, if_true]

/-- What a forced run leaves, from its units by rows (R192, R203). -/
theorem forceDma_rows {ch : Chan} {s t : State} (h1 : (s.chan ch).enabled = true) (h2 : (s.chan ch).running = false)
    (h : forceDma Config.default ch s = .ok t) :
    UnitsSafe (s.chan ch) (unitsLeft (s.chan ch))
    ∧ ∀ u, u = unitsByRows (s.chan ch) s (unitsLeft (s.chan ch)) →
      t = { u with
        mem := t.mem
        dma := t.dma
        ee := if windowUnits (s.chan ch) s = [] then u.ee else eepromBurstEnd Config.default u.ee
        out := { u.out with signals := u.out.signals ++ (if ctlIrq (s.chan ch).ctrl = true then [.irq ch] else []) } }
      ∧ ∀ b : Addr, t.asByte b = if b = cntHAddr Config.default ch + 1 ∧ recurs (s.chan ch) = false then u.asByte b &&& 0x7F else u.asByte b := by
  rw [forceDma_run h1 h2] at h
  obtain ⟨hs, r1, r2⟩ := dmaRun_rows h
  rw [State.chan_setChan_same] at hs r1 r2
  have hs : UnitsSafe (s.chan ch) (unitsLeft (s.chan ch)) := hs
  refine ⟨hs, fun u hu => ?_⟩
  have hrows : unitsByRows { s.chan ch with delay := 0 } (s.setChan ch { s.chan ch with delay := 0 }) (unitsLeft (s.chan ch))
      = u.setDma (s.setChan ch { s.chan ch with delay := 0 }).dma := by
    rw [hu]
    exact (unitsByRows_chan (x := s.chan ch) (y := { s.chan ch with delay := 0 }) rfl rfl rfl rfl _ _).trans
      (unitsByRows_inert (s := s) (inert_setDma (s.setChan ch { s.chan ch with delay := 0 }).dma) _ hs)
  have e : unitsLeft { s.chan ch with delay := 0 } = unitsLeft (s.chan ch) := rfl
  simp only [e, hrows] at r1 r2
  exact ⟨r1, r2⟩

/-- A forced run completes where its units stay off the DMA register block (R404). -/
theorem forceDma_safe {ch : Chan} {s : State} (h1 : (s.chan ch).enabled = true) (h2 : (s.chan ch).running = false)
    (hs : safeRun Config.default (s.chan ch)) : ∃ t, forceDma Config.default ch s = .ok t := by
  rw [forceDma_run h1 h2, dmaRun_ok_iff, State.chan_setChan_same]
  exact (safeRun_congr (x := s.chan ch) (y := { s.chan ch with delay := 0 }) rfl rfl rfl rfl rfl).mpr hs

/-- A service pass is the forced runs of the channels it finds eligible (R190). -/
theorem serviceList_force {c : Config} {ev : DmaEvent} {l : List Chan} (hl : l.Nodup) : ∀ s : State,
    serviceList c ev l s = forceList c (l.filter fun k => eligible c k (s.chan k) ev) s := by
  induction l with
  | nil => intro s; rfl
  | cons k l ih =>
    intro s
    have hn := List.nodup_cons.mp hl
    have hf : ∀ u : State, (∀ j, j ≠ k → u.chan j = s.chan j) →
        (l.filter fun j => eligible c j (u.chan j) ev) = l.filter fun j => eligible c j (s.chan j) ev := by
      intro u hu
      exact List.filter_congr fun j hj => by rw [hu j fun e => hn.1 (e ▸ hj)]
    unfold serviceList serviceChan
    by_cases he : eligible c k (s.chan k) ev = true
    · obtain ⟨g1, g2, g3⟩ := eligible_armed he
      rw [if_pos he, List.filter_cons_of_pos (by simpa using he)]
      simp only [forceList, forceDma_armed g1 g2 g3]
      cases hr : dmaRun c k s with
      | error r => rfl
      | ok u =>
        have ho := (dmaRun_prims (O := fun _ => True) (A := fun j => j = k) (fun _ => trivial) rfl hr)
        simp only
        rw [ih hn.2, hf u fun j hj => ho.other_chan hj]
    · rw [if_neg he, List.filter_cons_of_neg (by simpa using he)]
      exact ih hn.2 s

theorem dmaService_force (ev : DmaEvent) (s : State) : dmaService Config.default ev s = forceList Config.default (channelsReady s ev) s :=
  serviceList_force (channels_nodup _) s

theorem channelsReady_runnable (s : State) (ev : DmaEvent) : Runnable (channelsReady s ev) s := by
  refine ⟨chanList_nodup.filter _, fun ch hch => ?_⟩
  obtain ⟨h1, h2, -⟩ := eligible_armed (List.mem_filter.mp hch).2
  exact ⟨h1, h2⟩

theorem commitList_nil {c : Config} (l : List Chan) (s : State) : commitList c [] l s = .ok s := by
  induction l with
  | nil => rfl
  | cons k l ih => simpa [commitList] using ih

/-- The register side effects are the commit, then the forced runs of the channels that are ready (40_bus_access.md R152). -/
theorem regCommit_force {touched : List Chan} {s t : State} (h : regCommit Config.default touched s = .ok t) :
    forceList Config.default (if touched = [] then [] else channelsReady (committed touched s) .none) (committed touched s) = .ok t := by
  unfold regCommit at h
  cases touched with
  | nil =>
    have : committed [] s = s := by unfold committed; rw [commitList_nil]
    rw [this]; cases h; rfl
  | cons k l =>
    rw [if_neg (by simp)] at h
    rw [if_neg (by simp)]
    unfold committed
    cases hc : commitList Config.default (k :: l) (channels Config.default) s with
    | error r => rw [hc] at h; cases h
    | ok u => rw [hc] at h; rw [← dmaService_force]; exact h

/-- The state before the runs of a write, and its runs. -/
theorem runs_write {i : Instr} {a : Addr} {bs : List Byte} (h : writeAccess i = some (a, bs)) (s : State) :
    beforeRuns i s = committed (touchedCntH Config.default s.cart.gpioType a bs.length) (stored a bs s.start)
    ∧ runChans i s = (if touchedCntH Config.default s.cart.gpioType a bs.length = [] then [] else channelsReady (beforeRuns i s) .none)
    ∧ ownBytes i = (List.range bs.length).map fun k => a + BitVec.ofNat 32 k := by
  cases i <;> simp only [writeAccess, Option.some.injEq, Prod.mk.injEq, reduceCtorEq] at h <;> obtain ⟨rfl, rfl⟩ := h <;> exact ⟨rfl, rfl, rfl⟩

/-- What an instruction that can start runs answers: the forced runs of its channels from the state its own effect leaves, and
for a plain write the class. -/
theorem exec_runs {i : Instr} {s t : State} (hm : mayRunDma i = true) (h : exec i s = .next t) :
    Runnable (runChans i s) (beforeRuns i s)
    ∧ ∃ v, forceList Config.default (runChans i s) (beforeRuns i s) = .ok v
        ∧ t = { v with tc := t.tc, out := { v.out with cls := t.out.cls } } := by
  have hw : ∀ {a bs}, writeAccess i = some (a, bs) → Runnable (runChans i s) (beforeRuns i s)
      ∧ ∃ v, forceList Config.default (runChans i s) (beforeRuns i s) = .ok v
        ∧ t = { v with tc := t.tc, out := { v.out with cls := t.out.cls } } := by
    intro a bs hwa
    obtain ⟨e1, e2, -⟩ := runs_write hwa s
    have hv : ∃ v, writeTransaction Config.default a bs s.start = .ok v ∧ t = { v with tc := t.tc, out := { v.out with cls := t.out.cls } } := by
      rw [exec_write hwa] at h
      cases hc : classifiedAccess i with
      | none =>
        rw [writeStart_fast hc] at h
        exact ⟨t, toOutcome_next h, rfl⟩
      | some p =>
        obtain ⟨a', n⟩ := p
        rw [writeStart_plain hc, (passive_setCls _).writeTransaction, (passive_setTc _).writeTransaction] at h
        cases hx : writeTransaction Config.default a bs s.start with
        | error r => rw [hx] at h; cases h
        | ok v => rw [hx] at h; cases h; exact ⟨v, rfl, rfl⟩
    obtain ⟨v, hx, ht⟩ := hv
    have hl : forceList Config.default (runChans i s) (beforeRuns i s) = .ok v := by
      unfold writeTransaction at hx
      split at hx
      · cases hx
      · rename_i u hu
        have := regCommit_force hx
        have hs : stored a bs s.start = u := by unfold stored; rw [hu]
        rw [e2, e1, hs]; exact this
    refine ⟨?_, v, hl, ht⟩
    rw [e2]; split
    · exact ⟨List.nodup_nil, by simp⟩
    · exact channelsReady_runnable _ _
  have hr : ∀ {ch w}, regCommit Config.default [ch] (storeReg16 (cntHAddr Config.default ch) w s) = .ok t →
      beforeRuns i s = committed [ch] (storeReg16 (cntHAddr Config.default ch) w s) → runChans i s = channelsReady (beforeRuns i s) .none →
      Runnable (runChans i s) (beforeRuns i s) ∧ ∃ v, forceList Config.default (runChans i s) (beforeRuns i s) = .ok v
        ∧ t = { v with tc := t.tc, out := { v.out with cls := t.out.cls } } := by
    intro ch w h e1 e2
    have := regCommit_force h
    rw [if_neg (by simp)] at this
    rw [e2]
    refine ⟨channelsReady_runnable _ _, t, ?_, rfl⟩
    rw [e1]; exact this
  have hs : ∀ {ev}, dmaService Config.default ev (beforeRuns i s) = .ok t → runChans i s = channelsReady (beforeRuns i s) ev →
      Runnable (runChans i s) (beforeRuns i s) ∧ ∃ v, forceList Config.default (runChans i s) (beforeRuns i s) = .ok v
        ∧ t = { v with tc := t.tc, out := { v.out with cls := t.out.cls } } := by
    intro ev h e
    rw [e]
    exact ⟨channelsReady_runnable _ _, t, by rw [← dmaService_force]; exact h, rfl⟩
  cases i
  case wr8 => exact hw rfl
  case wr16 => exact hw rfl
  case wr32 => exact hw rfl
  case fwr8 => exact hw rfl
  case fwr16 => exact hw rfl
  case fwr32 => exact hw rfl
  case vblank => exact hs (ev := .vblank) (toOutcome_next h) rfl
  case hblank => exact hs (ev := .hblank) (toOutcome_next h) rfl
  case fifoA => exact hs (ev := .fifoA) (toOutcome_next h) rfl
  case fifoB => exact hs (ev := .fifoB) (toOutcome_next h) rfl
  case dmatick => exact hs (ev := .none) (toOutcome_next h) rfl
  case dmaarm ch f => exact hr (toOutcome_next h) rfl rfl
  case dmaoff ch f => exact hr (toOutcome_next h) rfl rfl
  case forcedma ch =>
    have h : forceDma Config.default ch s.start = .ok t := toOutcome_next h
    by_cases he : (s.chan ch).enabled = true ∧ (s.chan ch).running = false
    · have e : runChans (.forcedma ch) s = [ch] := if_pos he
      rw [e]
      refine ⟨⟨by simp, fun k hk => ?_⟩, t, ?_, rfl⟩
      · rw [List.mem_singleton.mp hk]; exact he
      · show (match forceDma Config.default ch s.start with | .error r => _ | .ok t => _) = _
        rw [h]; rfl
    · have e : runChans (.forcedma ch) s = [] := if_neg he
      rw [e]
      refine ⟨⟨List.nodup_nil, by simp⟩, t, ?_, rfl⟩
      have hf : forceDma Config.default ch s.start = .ok s.start := if_neg he
      rw [hf] at h; exact h
  all_goals simp [mayRunDma, writeAccess, passEvent] at hm

/-! ## Forced runs in turn -/

/-- A forced run from a state that differs in its outputs. -/
theorem exec_force {ch : Chan} {s s' t : State} (hs : s'.start = s.start) (h : forceDma Config.default ch s = .ok t) :
    ∃ t', exec (.forcedma ch) s' = .next t' ∧ t'.start = t.start := by
  rw [← over_start s, (passive_over _).forceDma] at h
  cases hx : forceDma Config.default ch s.start with
  | error r => rw [hx] at h; cases h
  | ok v =>
    rw [hx] at h; cases h
    exact ⟨v, by show toOutcome (forceDma _ _ s'.start) = _; rw [hs, hx]; rfl, rfl⟩

theorem forceList_execAll (l : List Chan) : ∀ {s s' t : State}, s'.start = s.start → forceList Config.default l s = .ok t →
    ∃ u, execAll (l.map .forcedma) s' = .next u ∧ u.start = t.start := by
  induction l with
  | nil => intro s s' t hs h; cases h; exact ⟨s', rfl, hs⟩
  | cons ch l ih =>
    intro s s' t hs h
    obtain ⟨u, h1, h2⟩ := forceList_cons h
    obtain ⟨u', g1, g2⟩ := exec_force hs h1
    obtain ⟨v, p1, p2⟩ := ih g2 h2
    exact ⟨v, by simp only [List.map_cons, execAll, g1]; exact p1, p2⟩

/-- The runs of an instruction, forced in turn (R190, R191). -/
theorem exec_runs_forced {i : Instr} {s t : State} (hm : mayRunDma i = true) (h : exec i s = .next t) :
    ∃ u, execAll ((runChans i s).map .forcedma) (beforeRuns i s) = .next u
      ∧ { t with out := .empty } = { u with tc := t.tc, out := .empty } := by
  obtain ⟨-, v, h1, h2⟩ := exec_runs hm h
  obtain ⟨u, g1, g2⟩ := forceList_execAll _ rfl h1
  refine ⟨u, g1, ?_⟩
  have e : ({ u with tc := t.tc, out := .empty } : State) = { u.start with tc := t.tc } := rfl
  rw [e, g2, h2]; rfl

theorem windowUnits_congr {x y : DmaChan} {s t : State} (hc : t.cart = s.cart) (h1 : y.dst = x.dst) (h2 : y.ctrl = x.ctrl) (h3 : y.width = x.width)
    (h4 : y.count = x.count) (h5 : y.cursor = x.cursor) : windowUnits y t = windowUnits x s := by
  unfold windowUnits unitsLeft dstUnit inEepWindow; rw [hc, h1, h2, h3, h4, h5]

/-- The burst of a pass does not depend on what no run reads. -/
theorem passBurst_inert {f : State → State} (hf : Inert f) {x : DmaChan} {s : State} (hs : UnitsSafe x (unitsLeft x)) :
    passBurst x (f s) = passBurst x s := by
  unfold passBurst
  have hw : windowUnits x (f s) = windowUnits x s := windowUnits_congr (hf.cart s) rfl rfl rfl rfl rfl
  rw [hw]
  apply List.map_congr_left
  intro n hn
  have hn : n < unitsLeft x := List.mem_range.mp (List.mem_filter.mp hn).1
  have hsn : UnitsSafe x n := fun k hk => hs k (by omega)
  rw [unitWord_read n hsn, unitWord_read n hsn, unitsByRows_inert hf n hsn, hf.unitRead]

theorem passBurst_chan {x y : DmaChan} (h1 : y.src = x.src) (h2 : y.dst = x.dst) (h3 : y.ctrl = x.ctrl) (h4 : y.width = x.width)
    (h5 : y.count = x.count) (h6 : y.cursor = x.cursor) (s : State) : passBurst y s = passBurst x s := by
  unfold passBurst
  rw [windowUnits_congr (s := s) rfl h2 h3 h4 h5 h6]
  apply List.map_congr_left
  intro n _
  have e : srcUnit y n = srcUnit x n := by unfold srcUnit; rw [h1, h3, h4]
  unfold unitWord
  rw [unitsByRows_chan h1 h2 h3 h4, e, h4]

/-- What a forced run does to the EEPROM's store, size and lock. -/
theorem forceDma_kept {ch : Chan} {s t : State} (h1 : (s.chan ch).enabled = true) (h2 : (s.chan ch).running = false)
    (h : forceDma Config.default ch s = .ok t) (hp : s.ee.phase ≠ .shiftIn) :
    UnitsSafe (s.chan ch) (unitsLeft (s.chan ch)) ∧ t.ee.kept = burstEffect s.ee.kept (passBurst (s.chan ch) s) ∧ t.ee.phase ≠ .shiftIn := by
  rw [forceDma_run h1 h2] at h
  obtain ⟨hs, -, -⟩ := dmaRun_rows h
  obtain ⟨k1, k2⟩ := dmaRun_kept h hp
  rw [State.chan_setChan_same] at hs k1
  have hs : UnitsSafe (s.chan ch) (unitsLeft (s.chan ch)) := hs
  refine ⟨hs, ?_, k2⟩
  rw [k1, passBurst_chan (x := s.chan ch) (y := { s.chan ch with delay := 0 }) rfl rfl rfl rfl rfl rfl]
  exact congrArg _ (passBurst_inert (inert_setDma (s.setChan ch { s.chan ch with delay := 0 }).dma) (s := s) hs)

/-- Forced runs in turn do to the EEPROM's store, size and lock what their bursts do in turn. -/
theorem forceList_kept (l : List Chan) : ∀ {s s' t : State}, s'.start = s.start → Runnable l s → s.ee.phase ≠ .shiftIn →
    forceList Config.default l s = .ok t →
    t.ee.kept = (burstsInTurn l s').foldl burstEffect s.ee.kept := by
  induction l with
  | nil => intro s s' t _ _ _ h; cases h; rfl
  | cons ch l ih =>
    intro s s' t hs hr hp h
    obtain ⟨u, h1, h2⟩ := forceList_cons h
    obtain ⟨r1, r2⟩ := hr.2 ch (List.mem_cons_self ..)
    obtain ⟨k0, k1, k2⟩ := forceDma_kept r1 r2 h1 hp
    obtain ⟨u', g1, g2⟩ := exec_force hs h1
    have ho := (forceDma_other h1).2
    have hch : s'.chan ch = s.chan ch := by have := congrArg (fun x : State => x.chan ch) hs; exact this
    have hb : passBurst (s'.chan ch) s' = passBurst (s.chan ch) s := by
      have e : ∀ o, passBurst (s.chan ch) (s.start.over o) = passBurst (s.chan ch) s.start := fun o => passBurst_inert (passive_over o).toInert k0
      have e1 := e s'.out
      rw [← hs, over_start, hs] at e1
      have e2 := e s.out
      rw [over_start] at e2
      rw [hch, e1, e2]
    have hrow : afterRow (.forcedma ch) s' = u' := by unfold afterRow; rw [g1]
    simp only [burstsInTurn, List.foldl_cons, hb, hrow, ← k1]
    exact ih g2 (hr.tail ho) k2 h2

/-- The bursts of runs in turn are as long as their units into the window are many. -/
theorem burstsInTurn_length (l : List Chan) : ∀ {s s' t : State}, s'.start = s.start → Runnable l s → forceList Config.default l s = .ok t →
    ∀ bits ∈ burstsInTurn l s', ∃ ch ∈ l, bits.length = (windowUnits (s.chan ch) s).length := by
  induction l with
  | nil => intro s s' t _ _ _ bits hb; cases hb
  | cons ch l ih =>
    intro s s' t hs hr h bits hb
    obtain ⟨u, h1, h2⟩ := forceList_cons h
    obtain ⟨u', g1, g2⟩ := exec_force hs h1
    obtain ⟨hc, ho⟩ := forceDma_other h1
    have hch : s'.chan ch = s.chan ch := by have := congrArg (fun x : State => x.chan ch) hs; exact this
    have hcart : s'.cart = s.cart := by have := congrArg State.cart hs; exact this
    have hrow : afterRow (.forcedma ch) s' = u' := by unfold afterRow; rw [g1]
    simp only [burstsInTurn, hrow] at hb
    rcases List.mem_cons.mp hb with rfl | hb
    · refine ⟨ch, List.mem_cons_self .., ?_⟩
      rw [passBurst_length, hch, windowUnits_congr hcart rfl rfl rfl rfl rfl]
    · obtain ⟨k, hk, e⟩ := ih g2 (hr.tail ho) h2 bits hb
      refine ⟨k, List.mem_cons_of_mem _ hk, ?_⟩
      rw [e, ho k fun hh => (List.nodup_cons.mp hr.1).1 (hh ▸ hk), windowUnits_congr hc rfl rfl rfl rfl rfl]

/-- A burst that changes the store is as long as a write request. -/
theorem burstEffect_data {x : Memory × EeSize × Bool} {bits : List Bool} (h : (burstEffect x bits).1 ≠ x.1) : bits.length = 73 ∨ bits.length = 81 := by
  by_contra hl
  have hl := not_or.mp hl
  by_cases h9 : bits.length = 9
  · apply h
    unfold burstEffect decodeBurst
    simp only [h9]
    split <;> simp_all
    all_goals split at * <;> simp_all
  by_cases h17 : bits.length = 17
  · apply h
    unfold burstEffect decodeBurst
    simp only [h17]
    split <;> simp_all
    all_goals split at * <;> simp_all
  exact h (by rw [burstEffect_other x h9 h17 hl.1 hl.2])

/-- Bursts that together change the store have one as long as a write request among them. -/
theorem bursts_data (l : List (List Bool)) : ∀ {x : Memory × EeSize × Bool}, (l.foldl burstEffect x).1 ≠ x.1 →
    ∃ bits ∈ l, bits.length = 73 ∨ bits.length = 81 := by
  induction l with
  | nil => intro x h; exact absurd rfl h
  | cons b l ih =>
    intro x h
    by_cases hb : (burstEffect x b).1 = x.1
    · obtain ⟨bits, h1, h2⟩ := ih (x := burstEffect x b) (by rw [hb]; exact h)
      exact ⟨bits, List.mem_cons_of_mem _ h1, h2⟩
    · exact ⟨b, List.mem_cons_self .., burstEffect_data hb⟩

/-- Empty bursts do nothing. -/
theorem bursts_empty (l : List (List Bool)) (h : ∀ bits ∈ l, bits.length = 0) (x : Memory × EeSize × Bool) : l.foldl burstEffect x = x := by
  induction l generalizing x with
  | nil => rfl
  | cons b l ih =>
    rw [List.foldl_cons, List.eq_nil_of_length_eq_zero (h b (List.mem_cons_self ..)), burstEffect_nil]
    exact ih (fun bits hb => h bits (List.mem_cons_of_mem _ hb)) x

/-! ## What the runs of an instruction leave alone -/

/-- What forced runs in turn leave alone. -/
theorem forceList_frame (l : List Chan) : ∀ {s t : State}, Runnable l s → forceList Config.default l s = .ok t →
    (∀ b : Addr, (∀ ch ∈ l, ¬ passWrites (s.chan ch) b) → (∀ ch, b ≠ cntHAddr Config.default ch + 1) → t.asByte b = s.asByte b)
    ∧ ((∀ b, decodeTag Config.default s.cart.gpioType b = .bkp → ∀ ch ∈ l, ¬ passWrites (s.chan ch) b) → t.fl = s.fl ∧ t.sram = s.sram)
    ∧ ((∀ b, decodeTag Config.default s.cart.gpioType b = .gpio → ∀ ch ∈ l, ¬ passWrites (s.chan ch) b) → t.gpio = s.gpio)
    ∧ ((∀ ch ∈ l, passAvoidsEeprom (s.chan ch) s) → t.ee = s.ee) := by
  induction l with
  | nil => intro s t _ h; cases h; exact ⟨fun _ _ _ => rfl, fun _ => ⟨rfl, rfl⟩, fun _ => rfl, fun _ => rfl⟩
  | cons ch l ih =>
    intro s t hr h
    obtain ⟨u, h1, h2⟩ := forceList_cons h
    obtain ⟨r1, r2⟩ := hr.2 ch (List.mem_cons_self ..)
    obtain ⟨hc, ho⟩ := forceDma_other h1
    rw [forceDma_run r1 r2] at h1
    obtain ⟨f1, f2, f3, f4⟩ := dmaRun_frame h1
    rw [State.chan_setChan_same] at f1 f2 f3 f4
    have hch : ∀ k ∈ l, u.chan k = s.chan k := fun k hk => ho k fun e => (List.nodup_cons.mp hr.1).1 (e ▸ hk)
    obtain ⟨i1, i2, i3, i4⟩ := ih (hr.tail ho) h2
    refine ⟨fun b hb hn => ?_, fun hb => ?_, fun hb => ?_, fun hb => ?_⟩
    · exact (i1 b (fun k hk => by rw [hch k hk]; exact hb k (List.mem_cons_of_mem _ hk)) hn).trans (f1 b (hb ch (List.mem_cons_self ..)) (hn ch))
    · have g1 := i2 fun b ht k hk => by rw [hch k hk]; exact hb b (by rw [← hc]; exact ht) k (List.mem_cons_of_mem _ hk)
      have g2 := f2 fun b ht => hb b ht ch (List.mem_cons_self ..)
      exact ⟨g1.1.trans g2.1, g1.2.trans g2.2⟩
    · exact (i3 fun b ht k hk => by rw [hch k hk]; exact hb b (by rw [← hc]; exact ht) k (List.mem_cons_of_mem _ hk)).trans
        (f3 fun b ht => hb b ht ch (List.mem_cons_self ..))
    · refine (i4 fun k hk n hn => ?_).trans (f4 (hb ch (List.mem_cons_self ..)))
      rw [hch k hk] at hn ⊢
      rw [window_congr hc, window_congr hc]
      exact hb k (List.mem_cons_of_mem _ hk) n hn

theorem committed_frame (touched : List Chan) (s : State) : (committed touched s).mem = s.mem ∧ (committed touched s).cart = s.cart
    ∧ (committed touched s).fl = s.fl ∧ (committed touched s).sram = s.sram ∧ (committed touched s).gpio = s.gpio
    ∧ (committed touched s).ee = s.ee := by
  have key : ∀ (l : List Chan) {s t : State}, commitList Config.default touched l s = .ok t → t.mem = s.mem ∧ t.cart = s.cart ∧ t.fl = s.fl
      ∧ t.sram = s.sram ∧ t.gpio = s.gpio ∧ t.ee = s.ee := by
    intro l
    induction l with
    | nil => intro s t h; cases h; exact ⟨rfl, rfl, rfl, rfl, rfl, rfl⟩
    | cons ch l ih =>
      intro s t h
      simp only [commitList] at h
      split at h
      · split at h
        · cases h
        · rename_i s1 h1
          have h2 := ih h
          unfold commitCntH arm at h1
          split at h1
          · split at h1 <;> cases h1; exact h2
          · cases h1; exact h2
      · exact ih h
  unfold committed
  split
  · rename_i t h; exact key _ h
  · exact ⟨rfl, rfl, rfl, rfl, rfl, rfl⟩

/-- What the own effect of an instruction that can start runs leaves alone. -/
theorem beforeRuns_frame {i : Instr} (hm : mayRunDma i = true) (s : State) :
    (beforeRuns i s).cart = s.cart ∧ (beforeRuns i s).ee = s.ee
    ∧ (∀ b : Addr, b ∉ ownBytes i → (beforeRuns i s).asByte b = s.asByte b)
    ∧ ((∀ b, decodeTag Config.default s.cart.gpioType b = .bkp → b ∉ ownBytes i) → (beforeRuns i s).fl = s.fl ∧ (beforeRuns i s).sram = s.sram)
    ∧ ((∀ b, decodeTag Config.default s.cart.gpioType b = .gpio → b ∉ ownBytes i) → (beforeRuns i s).gpio = s.gpio) := by
  have hw : ∀ {a bs}, writeAccess i = some (a, bs) → (beforeRuns i s).cart = s.cart ∧ (beforeRuns i s).ee = s.ee
      ∧ (∀ b : Addr, b ∉ ownBytes i → (beforeRuns i s).asByte b = s.asByte b)
      ∧ ((∀ b, decodeTag Config.default s.cart.gpioType b = .bkp → b ∉ ownBytes i) → (beforeRuns i s).fl = s.fl ∧ (beforeRuns i s).sram = s.sram)
      ∧ ((∀ b, decodeTag Config.default s.cart.gpioType b = .gpio → b ∉ ownBytes i) → (beforeRuns i s).gpio = s.gpio) := by
    intro a bs hwa
    obtain ⟨e1, -, e3⟩ := runs_write hwa s
    obtain ⟨u, hu⟩ := writeBytes_cpu (c := Config.default) (s := s.start) a bs
    have hst : stored a bs s.start = u := by unfold stored; rw [hu]
    have hf := writeBytes_frame hu
    have hc : u.cart = s.cart := (writeBytes_cart hu : u.cart = s.start.cart)
    rw [e1, e3, hst]
    obtain ⟨c1, c2, c3, c4, c5, c6⟩ := committed_frame (touchedCntH Config.default s.cart.gpioType a bs.length) u
    have own : ∀ k, k < bs.length → a + BitVec.ofNat 32 k ∈ (List.range bs.length).map fun k => a + BitVec.ofNat 32 k :=
      fun k hk => List.mem_map.mpr ⟨k, List.mem_range.mpr hk, rfl⟩
    refine ⟨c2.trans hc, c6.trans hf.ee, fun b hb => ?_, fun hb => ?_, fun hb => ?_⟩
    · exact (asByte_congr c1 b).trans (hf.bytes b fun k hk e => hb (e ▸ own k hk))
    · have := hf.bkp fun k hk ht => hb _ ht (own k hk)
      exact ⟨c3.trans this.1, c4.trans this.2⟩
    · exact c5.trans (hf.gpio fun k hk ht => hb _ ht (own k hk))
  have hr : ∀ ch w, (committed [ch] (storeReg16 (cntHAddr Config.default ch) w s)).cart = s.cart
      ∧ (committed [ch] (storeReg16 (cntHAddr Config.default ch) w s)).ee = s.ee
      ∧ (∀ b : Addr, b ∉ [cntHAddr Config.default ch, cntHAddr Config.default ch + 1] →
          (committed [ch] (storeReg16 (cntHAddr Config.default ch) w s)).asByte b = s.asByte b)
      ∧ ((committed [ch] (storeReg16 (cntHAddr Config.default ch) w s)).fl = s.fl
          ∧ (committed [ch] (storeReg16 (cntHAddr Config.default ch) w s)).sram = s.sram)
      ∧ (committed [ch] (storeReg16 (cntHAddr Config.default ch) w s)).gpio = s.gpio := by
    intro ch w
    obtain ⟨c1, c2, c3, c4, c5, c6⟩ := committed_frame [ch] (storeReg16 (cntHAddr Config.default ch) w s)
    refine ⟨c2, c6, fun b hb => (asByte_congr c1 b).trans (storeReg16_frame _ _ _ _ ?_), ⟨c3, c4⟩, c5⟩
    by_contra hlt
    apply hb
    have hlt : (b - cntHAddr Config.default ch).toNat < 2 := by omega
    have e : b = cntHAddr Config.default ch + BitVec.ofNat 32 (b - cntHAddr Config.default ch).toNat := by
      rw [BitVec.ofNat_toNat, BitVec.setWidth_eq, BitVec.add_comm, BitVec.sub_add_cancel]
    rcases Nat.lt_succ_iff_lt_or_eq.mp hlt with h | h
    · have h : (b - cntHAddr Config.default ch).toNat = 0 := by omega
      rw [h] at e; rw [e]; simp
    · rw [h] at e; rw [e]; simp
  cases i
  case wr8 => exact hw rfl
  case wr16 => exact hw rfl
  case wr32 => exact hw rfl
  case fwr8 => exact hw rfl
  case fwr16 => exact hw rfl
  case fwr32 => exact hw rfl
  case dmaarm ch f => obtain ⟨a, b, c, d, e⟩ := hr ch (f.toHalf true); exact ⟨a, b, c, fun _ => d, fun _ => e⟩
  case dmaoff ch f => obtain ⟨a, b, c, d, e⟩ := hr ch (f.toHalf false); exact ⟨a, b, c, fun _ => d, fun _ => e⟩
  case vblank => exact ⟨rfl, rfl, fun _ _ => rfl, fun _ => ⟨rfl, rfl⟩, fun _ => rfl⟩
  case hblank => exact ⟨rfl, rfl, fun _ _ => rfl, fun _ => ⟨rfl, rfl⟩, fun _ => rfl⟩
  case fifoA => exact ⟨rfl, rfl, fun _ _ => rfl, fun _ => ⟨rfl, rfl⟩, fun _ => rfl⟩
  case fifoB => exact ⟨rfl, rfl, fun _ _ => rfl, fun _ => ⟨rfl, rfl⟩, fun _ => rfl⟩
  case dmatick => exact ⟨rfl, rfl, fun _ _ => rfl, fun _ => ⟨rfl, rfl⟩, fun _ => rfl⟩
  case forcedma => exact ⟨rfl, rfl, fun _ _ => rfl, fun _ => ⟨rfl, rfl⟩, fun _ => rfl⟩
  all_goals simp [mayRunDma, writeAccess, passEvent] at hm

end Sys2Proof.Machine
end

