-- ==== Sys2Proof/Laws/ReplyRun.lean ====
section
/-! SUPPORT. A run out of the EEPROM window into RAM stores the engine's reply, one bit to a unit (41_dma.md R193, 42_eeprom.md R241). -/

namespace Sys2Proof.Machine

/-- The engine after `n` bits shifted out. -/
def shiftOuts (n : Nat) (ee : Eeprom) : Eeprom := (List.range n).foldl (fun e _ => eepromShiftOut Config.default e) ee

theorem shiftOuts_succ (n : Nat) (ee : Eeprom) : shiftOuts (n + 1) ee = eepromShiftOut Config.default (shiftOuts n ee) := by
  unfold shiftOuts; rw [List.range_succ, List.foldl_append]; rfl

theorem shiftOuts_first (n : Nat) (ee : Eeprom) : shiftOuts n (eepromShiftOut Config.default ee) = shiftOuts (n + 1) ee := by
  induction n with
  | zero => rfl
  | succ n ih => rw [shiftOuts_succ, ih, ← shiftOuts_succ]

/-- Bit `k` of a reply is the bit shifted out after `k` others. -/
theorem eepromReply_getD {n k : Nat} (hk : k < n) (ee : Eeprom) :
    (eepromReply Config.default n ee).getD k false = shiftOutBit Config.default (shiftOuts k ee) := by
  induction n generalizing k ee with
  | zero => omega
  | succ n ih =>
    cases k with
    | zero => rfl
    | succ k =>
      rw [eepromReply, List.getD_cons_succ, ih (by omega), shiftOuts_first]

theorem ram_unitSafe {s : State} {a : Addr} {w : UnitWidth}
    (h : ∀ j, j < unitBytes w → isRamTag (decodeTag Config.default s.cart.gpioType (a + BitVec.ofNat 32 j)) = true) : UnitSafe a w := by
  intro j hj
  by_contra hc
  have hc : inDmaBlock Config.default (a + BitVec.ofNat 32 j) = true := by simpa using hc
  have := h j hj
  rw [dmaBlock_io hc] at this; cases this

/-- The bytes of a bit zero-extended to a unit. -/
theorem splitLE_bit (w : UnitWidth) (b : Bool) {j : Nat} (hj : j < unitBytes w) :
    (splitLE (unitBytes w) ((BitVec.ofBool b).setWidth 32)).getD j 0 = if j = 0 ∧ b = true then 1 else 0 := by
  cases w <;> simp only [unitBytes] at hj ⊢ <;> interval_cases j <;> cases b <;> rfl

/-- One unit from the window to RAM (R193, R241). -/
theorem unitByRows_reply {src dst : Addr} {w : UnitWidth} {s : State} (hs : inEepWindow Config.default s src = true)
    (hd : ∀ j, j < unitBytes w → isRamTag (decodeTag Config.default s.cart.gpioType (dst + BitVec.ofNat 32 j)) = true) :
    unitByRows src dst w s = { s with
      mem := storeBytes s.mem dst (splitLE (unitBytes w) ((BitVec.ofBool (shiftOutBit Config.default s.ee)).setWidth 32))
      ee := eepromShiftOut Config.default s.ee } := by
  have hU : 0 < unitBytes w := by cases w <;> decide
  have h := unitByRows_spec 0 (src := src) (s := s) (ram_unitSafe hd)
  have ha : afterUnitRead Config.default s src = s.setEe (eepromShiftOut Config.default s.ee) := if_pos hs
  have hr : unitRead Config.default s src w = (BitVec.ofBool (shiftOutBit Config.default s.ee)).setWidth 32 := if_pos hs
  have hn : inEepWindow Config.default (s.setEe (eepromShiftOut Config.default s.ee)) dst = false := by
    have := hd 0 hU
    simp only [BitVec.add_zero] at this
    exact ram_noEep (s := s) this
  rw [ha, hr] at h
  unfold unitWrite at h
  rw [hn, if_neg (by simp), writeBytes_ram] at h
  · exact (Except.ok.inj h).symm
  · intro k hk; rw [splitLE_length] at hk; exact hd k hk

/-- Units from the window to RAM: unit `k` stores bit `k` of the reply, a later unit on the same bytes wins. -/
theorem unitsByRows_reply {x : DmaChan} {s : State} (n : Nat)
    (hsrc : ∀ k, k < n → inEepWindow Config.default s (srcUnit x k) = true)
    (hdst : ∀ k j, k < n → j < unitBytes x.width → isRamTag (decodeTag Config.default s.cart.gpioType (dstUnit x k + BitVec.ofNat 32 j)) = true) :
    unitsByRows x s n = { s with mem := (unitsByRows x s n).mem, ee := shiftOuts n s.ee }
    ∧ (∀ k, k < n → (∀ k' j j', k < k' → k' < n → j < unitBytes x.width → j' < unitBytes x.width →
          dstUnit x k + BitVec.ofNat 32 j ≠ dstUnit x k' + BitVec.ofNat 32 j') →
        ∀ j, j < unitBytes x.width → (unitsByRows x s n).asByte (dstUnit x k + BitVec.ofNat 32 j)
          = if j = 0 ∧ shiftOutBit Config.default (shiftOuts k s.ee) = true then 1 else 0)
    ∧ ∀ b : Addr, (∀ k j, k < n → j < unitBytes x.width → b ≠ dstUnit x k + BitVec.ofNat 32 j) → (unitsByRows x s n).asByte b = s.asByte b := by
  induction n with
  | zero => exact ⟨rfl, fun k hk => by omega, fun _ _ => rfl⟩
  | succ n ih =>
    obtain ⟨i1, i2, i3⟩ := ih (fun k hk => hsrc k (by omega)) (fun k j hk hj => hdst k j (by omega) hj)
    have hc : (unitsByRows x s n).cart = s.cart := by rw [i1]
    have hee : (unitsByRows x s n).ee = shiftOuts n s.ee := by rw [i1]
    have hU4 := unitBytes_le x.width
    have hu : unitsByRows x s (n + 1) = _ := unitByRows_reply (s := unitsByRows x s n) (src := srcUnit x n) (dst := dstUnit x n) (w := x.width)
      (by rw [window_congr hc]; exact hsrc n (by omega)) (fun j hj => by rw [hc]; exact hdst n j (by omega) hj)
    rw [hee] at hu
    have hby : ∀ b : Addr, (unitsByRows x s (n + 1)).asByte b = if (b - dstUnit x n).toNat < unitBytes x.width
        then (splitLE (unitBytes x.width) ((BitVec.ofBool (shiftOutBit Config.default (shiftOuts n s.ee))).setWidth 32)).getD (b - dstUnit x n).toNat 0
        else (unitsByRows x s n).asByte b := by
      intro b
      rw [hu]
      show (storeBytes _ _ _).read b.toNat = _
      rw [read_storeBytes _ _ _ _ (by rw [splitLE_length]; exact hU4), splitLE_length]; rfl
    have hin : ∀ j, j < unitBytes x.width → (dstUnit x n + BitVec.ofNat 32 j - dstUnit x n).toNat = j := by
      intro j hj
      rw [BitVec.add_comm, BitVec.add_sub_cancel, BitVec.toNat_ofNat, Nat.mod_eq_of_lt (by omega)]
    have hout : ∀ b : Addr, (∀ j, j < unitBytes x.width → b ≠ dstUnit x n + BitVec.ofNat 32 j) → (unitsByRows x s (n + 1)).asByte b = (unitsByRows x s n).asByte b := by
      intro b hb
      rw [hby, if_neg]
      intro hlt
      refine hb _ hlt ?_
      rw [BitVec.ofNat_toNat, BitVec.setWidth_eq, BitVec.add_comm, BitVec.sub_add_cancel]
    refine ⟨?_, fun k hk hlast j hj => ?_, fun b hb => ?_⟩
    · refine hu.trans ?_
      rw [shiftOuts_succ, hu, i1]
    · rcases Nat.lt_succ_iff_lt_or_eq.mp hk with hk | rfl
      · rw [hout _ fun j' hj' => hlast n j j' hk (by omega) hj hj']
        exact i2 k hk (fun k' j j' h1 h2 => hlast k' j j' h1 (by omega)) j hj
      · rw [hby, hin j hj, if_pos hj]
        exact splitLE_bit _ _ hj
    · rw [hout b fun j hj => hb n j (by omega) hj]
      exact i3 b fun k j hk hj => hb k j (by omega) hj

end Sys2Proof.Machine
end

