-- ==== Sys2Proof/Tests/Slice0.lean ====
section
/-! SUPPORT. Tests of the model's author: ill-formed terms refused, words written out from the encodings of 30_encoding.md, one
step on small states with results taken from the rules and worked examples of spec/, and a witness for the hypotheses of
every statement of Certificates/Slice0/Obligations.lean. -/

namespace Sys2Proof.Tests

open Sys2Proof Sys2Proof.Machine

set_option Elab.async false

/-! ## Helpers -/

/-- The decoder's answer, as an option. -/
def dec (x : DecodeCtx) (p : Presented) : Option Instr := (decode Config.default x p).toOption

/-- The bus operations' context: nothing loaded. -/
def bare : DecodeCtx := State.reset.ctx

/-- A Flash128 context. -/
def flx (p : Pending) (armed wsb sb : Bool) : DecodeCtx := ⟨.flash128, .disabled, wsb, sb, armed, p, .small, false⟩

/-- An EEPROM context without a size lock. -/
def eex : DecodeCtx := ⟨.eeprom, .disabled, false, false, false, .none, .small, false⟩

/-- A GPIO context. -/
def gpx : DecodeCtx := ⟨.none, .rumble, false, false, false, .none, .small, false⟩

/-- An event word without operands beside it. -/
def evt (bytes : List Byte) : Option Instr := dec bare (.event bytes .none)

/-- The state after an instruction; the state itself where it has no next state. -/
def after (i : Instr) (s : State) : State :=
  match exec i s with
  | .next t => t
  | .fault _ => s
  | .refused _ => s

/-- Whether an instruction has a next state. -/
def completes (i : Instr) (s : State) : Bool :=
  match exec i s with
  | .next _ => true
  | .fault _ => false
  | .refused _ => false

/-- Why an instruction is refused, if it is. -/
def refusal (i : Instr) (s : State) : Option Refusal :=
  match exec i s with
  | .next _ => none
  | .fault _ => none
  | .refused r => some r

/-- The defaults satisfy the relations among the parameters. -/
theorem test_default_config_is_wf : Config.default.wf = true := by decide

theorem next_of_completes {i : Instr} {s : State} (h : completes i s = true) : ∃ t, exec i s = .next t := by
  unfold completes at h
  cases hx : exec i s with
  | next t => exact ⟨t, rfl⟩
  | fault f => rw [hx] at h; cases h
  | refused r => rw [hx] at h; cases h

theorem refused_of_refusal {i : Instr} {s : State} {r : Refusal} (h : refusal i s = some r) : exec i s = .refused r := by
  unfold refusal at h
  cases hx : exec i s with
  | next t => rw [hx] at h; cases h
  | fault f => rw [hx] at h; cases h
  | refused r' => rw [hx] at h; cases h; rfl

/-- A cartridge of a backup type and a GPIO type in the reset block. -/
def withCart (b : BackupType) (g : GpioType) : State := { State.reset with cart := ⟨b, g, false, true⟩ }

/-- A Flash128 cartridge whose engine is at its command stage, armed or not. -/
def atCommand (armed : Bool) : State :=
  { withCart .flash128 .disabled with fl := { Flash.fresh with pending := .key2, writeArmed := armed } }

/-- A state with bytes in its address space. -/
def withBytes (l : Memory) (s : State) : State := { s with mem := l }

/-- A channel that is Armed with a control half-word. -/
def armed (src dst : Addr) (n : Word) (ctl : Half) : DmaChan where
  enabled := true
  running := false
  srcOrig := src
  src := src
  dst := dst
  cursor := 0
  count := n
  width := ctlWidth ctl
  ctrl := ctl
  delay := 0

/-- The reset block with channel `c` Armed, and four bytes of WRAM. -/
def withChan (c : Chan) (x : DmaChan) : State :=
  withBytes [(0x02000000, 0x11), (0x02000001, 0x22), (0x02000002, 0x33), (0x02000003, 0x44)] (State.reset.setChan c x)

/-! ## WellFormed refuses ill-formed terms -/

theorem test_wf_sensor : (Instr.sensor 2).WellFormed = false := by decide +kernel
theorem test_wf_sectorErase : (Instr.flsectorerase 0x5555).WellFormed = false := by decide +kernel
theorem test_wf_emptyBurst : (Instr.eebad 0 []).WellFormed = false := by decide +kernel
theorem test_wf_replyOutside : (Instr.eerdbit 0x0CFFFFFF .half).WellFormed = false := by decide +kernel
theorem test_wf_accepts :
    (Instr.sensor 1).WellFormed = true ∧ (Instr.flsectorerase 0x5554).WellFormed = true
      ∧ (Instr.eebad 0 [false]).WellFormed = true ∧ (Instr.eerdbit 0x0D000000 .word).WellFormed = true := by decide +kernel

/-! ## Decoding: words written out from R100 to R108 -/

/-- R100: `hdr ++ addr ++ data`, header `0000 fast wr size`. -/
theorem test_decode_bus :
    evt [0x00, 0x02, 0x00, 0x00, 0x10, 0x00, 0x00, 0x00, 0x00] = some (.rd8 0x02000010)
    ∧ evt [0x01, 0x03, 0x00, 0x7F, 0xFE, 0x00, 0x00, 0x00, 0x00] = some (.rd16 0x03007FFE)
    ∧ evt [0x02, 0xFF, 0xFF, 0xFF, 0xFE, 0x12, 0x34, 0x56, 0x78] = some (.rd32 0xFFFFFFFE)
    ∧ evt [0x04, 0x02, 0x00, 0x00, 0x10, 0x11, 0x22, 0x33, 0x5A] = some (.wr8 0x02000010 0x5A)
    ∧ evt [0x05, 0x03, 0x00, 0x7F, 0xFE, 0x11, 0x22, 0xBE, 0xEF] = some (.wr16 0x03007FFE 0xBEEF)
    ∧ evt [0x06, 0x02, 0x03, 0xFF, 0xFE, 0xAA, 0xBB, 0xCC, 0xDD] = some (.wr32 0x0203FFFE 0xAABBCCDD)
    ∧ evt [0x08, 0x03, 0x00, 0x00, 0x00, 0x00, 0x00, 0x00, 0x00] = some (.frd8 0x03000000)
    ∧ evt [0x09, 0x02, 0x00, 0x00, 0x01, 0x00, 0x00, 0x00, 0x00] = some (.frd16 0x02000001)
    ∧ evt [0x0A, 0x10, 0x00, 0x00, 0x00, 0x00, 0x00, 0x00, 0x00] = some (.frd32 0x10000000)
    ∧ evt [0x0C, 0x0E, 0x00, 0x55, 0x55, 0x00, 0x00, 0x00, 0xAA] = some (.fwr8 0x0E005555 0xAA)
    ∧ evt [0x0D, 0x04, 0x00, 0x00, 0xBA, 0x00, 0x00, 0x80, 0x00] = some (.fwr16 0x040000BA 0x8000)
    ∧ evt [0x0E, 0x02, 0x00, 0x00, 0x00, 0x01, 0x02, 0x03, 0x04] = some (.fwr32 0x02000000 0x01020304) := by decide +kernel

/-- R101: headers 0x10 to 0x1B. -/
theorem test_decode_evt :
    evt [0x10, 0, 0, 0, 0, 0, 0, 0, 0] = some .reset
    ∧ evt [0x11, 0, 0, 0, 0, 0, 0, 0, 0] = some .vblank
    ∧ evt [0x12, 0, 0, 0, 0, 0, 0, 0, 0] = some .hblank
    ∧ evt [0x13, 0, 0, 0, 0, 0, 0, 0, 0] = some .fifoA
    ∧ evt [0x14, 0, 0, 0, 0, 0, 0, 0, 0] = some .fifoB
    ∧ evt [0x15, 0, 0, 0, 0, 0, 0, 0, 0] = some .dmatick
    ∧ evt [0x16, 0, 0, 0, 0, 0, 0, 0, 0x03] = some (.sensor 1)
    ∧ evt [0x17, 0x04, 0x00, 0x00, 0x06, 0, 0, 0, 0x9F] = some (.cstore 0x04000006 0x9F)
    ∧ evt [0x18, 0, 0, 0, 0, 0, 0, 0, 0] = some (.forcedma 0)
    ∧ evt [0x1B, 0, 0, 0, 0, 0, 0, 0, 0] = some (.forcedma 3) := by decide +kernel

/-- R102: headers 0x20 to 0x23, operands beside the word. -/
theorem test_decode_host :
    dec bare (.event [0x20, 0, 0, 0, 0, 0, 0, 0, 0] (.image (.bytes [0xE1]))) = some (.loadfw (.bytes [0xE1]))
    ∧ dec bare (.event [0x21, 0, 0, 0, 0, 0, 0, 0, 0] (.cart .unopenable Option.none .rumble))
      = some (.loadcart .unopenable Option.none .rumble)
    ∧ dec bare (.event [0x22, 0, 0, 0, 0, 0, 0, 0, 0] (.file .missing)) = some (.loadbkp .missing)
    ∧ dec bare (.event [0x23, 0, 0, 0, 0, 0, 0, 0, 0] (.sink .unwritable)) = some (.savebkp .unwritable) := by decide +kernel

/-- R111: what is no event. -/
theorem test_decode_reserved :
    evt [0x03, 0, 0, 0, 0, 0, 0, 0, 0] = none ∧ evt [0x0F, 0, 0, 0, 0, 0, 0, 0, 0] = none
    ∧ evt [0x1C, 0, 0, 0, 0, 0, 0, 0, 0] = none ∧ evt [0x24, 0, 0, 0, 0, 0, 0, 0, 0] = none
    ∧ evt [0xFF, 0, 0, 0, 0, 0, 0, 0, 0] = none ∧ evt [0x00, 0, 0, 0, 0] = none := by decide +kernel

/-- R104, R105: `e i tt g w r ss dd 00000`. -/
theorem test_decode_dmareg :
    dec bare (.dmaSad 3 0xFFFFFFFF) = some (.dmasad 3 0xFFFFFFFF)
    ∧ dec bare (.dmaDad 0 0x03000010) = some (.dmadad 0 0x03000010)
    ∧ dec bare (.dmaCnt 1 0x8001) = some (.dmacnt 1 0x8001)
    ∧ dec bare (.dmaCtl 3 0b1100010100000000) = some (.dmaarm 3 ⟨true, .immediate, false, .word, false, .fixed, .inc⟩)
    ∧ dec bare (.dmaCtl 2 0b1011011001000000) = some (.dmaarm 2 ⟨false, .fifo, false, .word, true, .inc, .fixed⟩)
    ∧ dec bare (.dmaCtl 0 0b0010101110100000) = some (.dmaoff 0 ⟨false, .hblank, true, .half, true, .reload, .dec⟩) := by
  decide +kernel

/-- R106: the rows, each in the state that selects it. -/
theorem test_decode_flash :
    dec (flx .none false true false) (.flashWrite 0x12345A) = some (.fldata 0x1234 0x5A)
    ∧ dec (flx .none false false true) (.flashWrite 0x000001) = some (.flbanksel 0x0000 0x01)
    ∧ dec (flx .none false false false) (.flashWrite 0x5555AA) = some .flkey1
    ∧ dec (flx .key1 false false false) (.flashWrite 0x2AAA55) = some .flkey2
    ∧ dec (flx .key2 false false false) (.flashWrite 0x555590) = some .flidenter
    ∧ dec (flx .key2 false false false) (.flashWrite 0x5555F0) = some .flidexit
    ∧ dec (flx .key2 false false false) (.flashWrite 0x555580) = some .flerasesetup
    ∧ dec (flx .key2 true false false) (.flashWrite 0x555510) = some .flchiperase
    ∧ dec (flx .key2 false false false) (.flashWrite 0x555510) = some (.flignored 0x5555 0x10)
    ∧ dec (flx .key2 false false false) (.flashWrite 0x5555A0) = some .flprogram
    ∧ dec (flx .key2 false false false) (.flashWrite 0x5555B0) = some .flbank
    ∧ dec (flx .key2 true false false) (.flashWrite 0x300030) = some (.flsectorerase 0x3000)
    ∧ dec (flx .none false false false) (.flashWrite 0x123455) = some (.flignored 0x1234 0x55)
    ∧ dec (flx .none false false false) (.flashRead 0x0001) = some (.flread 0x0001) := by decide +kernel

/-- R107: 9, 17, 73 and 81 bits, first bit leftmost. -/
theorem test_decode_eeprom :
    dec eex (.eeBurst 0x02000000 (bitsOfNat 9 0b110001011)) = some (.eerdreq6 0x02000000 0b000101 true)
    ∧ dec eex (.eeBurst 0 (bitsOfNat 17 0b11000011111111110)) = some (.eerdreq14 0 0b00001111111111 false)
    ∧ dec eex (.eeBurst 0 (bitsOfNat 73 (0b10000101 * 2 ^ 65 + 0x0123456789ABCDEF * 2)))
      = some (.eewr6 0 0b000101 0x0123456789ABCDEF false)
    ∧ dec eex (.eeBurst 0 (bitsOfNat 81 (0b1010010000000101 * 2 ^ 65 + 0x0123456789ABCDEF * 2 + 1)))
      = some (.eewr14 0 0b10010000000101 0x0123456789ABCDEF true)
    ∧ dec eex (.eeBurst 0 (bitsOfNat 9 0b100001010)) = some (.eebad 0 (bitsOfNat 9 0b100001010))
    ∧ dec eex (.eeBurst 0 [true, true]) = some (.eebad 0 [true, true])
    ∧ dec eex (.eeRead 0x0DFFFFFF .half) = some (.eerdbit 0x0DFFFFFF .half) := by decide +kernel

/-- R108: register and lane of a byte address. -/
theorem test_decode_gpio :
    dec gpx (.gpioWrite 0x080000C4 0x01) = some (.gpwrdata 0 0x01)
    ∧ dec gpx (.gpioWrite 0x080000C7 0xFF) = some (.gpwrdir 1 0xFF)
    ∧ dec gpx (.gpioWrite 0x080000C8 0x01) = some (.gpwrctl 0 0x01)
    ∧ dec gpx (.gpioWrite 0x080000CA 0x01) = some (.gpwrrsv 0 0x01)
    ∧ dec gpx (.gpioRead 0x080000CB) = some (.gprd 3 1)
    ∧ dec gpx (.gpioWrite 0x080000CC 0x01) = none := by decide +kernel

/-! ## One step -/

/-- VB1: little-endian, any alignment (R63, R64, R141, R142). -/
theorem test_rd16_unaligned : (after (.rd16 0x02000001) (withChan 0 .reset)).out.value = some (.half 0x3322) := by decide +kernel
theorem test_rd32_unaligned : (after (.rd32 0x02000001) (withChan 0 .reset)).out.value = some (.word 0x00443322) := by decide +kernel
/-- R153: the first access is non-sequential, the next one at `tc.end` in the same region sequential. -/
theorem test_rd8_class : (after (.rd8 0x02000000) State.reset).out.cls = some .nonseq := by decide +kernel
theorem test_wr8_class :
    (after (.wr8 0x02000001 0x99) (after (.rd8 0x02000000) State.reset)).out.cls = some .seq := by decide +kernel
/-- VB6: forwards of a half-word to the LCD (R151). -/
theorem test_wr16_forward : (after (.wr16 0x04000000 0x1234) State.reset).out.signals
    = [.forward .lcd 0x04000000 0x34, .forward .lcd 0x04000001 0x12] := by decide +kernel
/-- VB2: a word across the end of WRAM keeps only its low half (R69, R151). -/
theorem test_wr32_edge : (after (.wr32 0x0203FFFE 0xAABBCCDD) State.reset).mem = [(0x0203FFFE, 0xDD), (0x0203FFFF, 0xCC)] := by
  decide +kernel
/-- VB3: unmapped reads 0x00; VB4: addresses wrap. -/
theorem test_frd32_unmapped : (after (.frd32 0x10000000) State.reset).out.value = some (.word 0) := by decide +kernel
theorem test_frd16_wraps :
    (after (.frd16 0xFFFFFFFF) (withBytes [(0, 0xE1)] State.reset)).out.value = some (.half 0xE100) := by decide +kernel
theorem test_frd8_noClass : (after (.frd8 0x03000000) State.reset).out.cls = none := by decide +kernel
/-- VB6: one word over two owners (R76). -/
theorem test_fwr32_owners : (after (.fwr32 0x0400005E 0xA1B2C3D4) State.reset).out.signals
    = [.forward .lcd 0x0400005E 0xD4, .forward .lcd 0x0400005F 0xC3, .forward .apu 0x04000060 0xB2, .forward .apu 0x04000061 0xA1] := by
  decide +kernel
/-- The reserved bits of `CNT_H` are stored as 0 (R77). -/
theorem test_fwr16_mask : (after (.fwr16 0x040000BA 0x7FFF) State.reset).mem = [(0x040000BA, 0xE0), (0x040000BB, 0x7F)] := by
  decide +kernel
/-- VB9: SRAM stores in the backup window; the byte after its end is dropped. -/
theorem test_fwr8_sram : (after (.fwr8 0x0E000123 0x77) (withCart .sram .disabled)).sram = [(0x123, 0x77)] := by decide +kernel
/-- VB7 (R159). -/
theorem test_cstore_owned : (after (.cstore 0x04000006 0x9F) State.reset).mem = [(0x04000006, 0x9F)] := by decide +kernel
theorem test_cstore_ignored : (after (.cstore 0x040000BB 0x80) State.reset).mem = [] := by decide +kernel

/-- R400: RAM cleared, loaded firmware kept. -/
theorem test_reset_keepsFirmware :
    (after .reset { State.reset with mem := [(0, 0xE1), (0x02000000, 0x55)], cart := ⟨.none, .disabled, true, false⟩ }).mem
      = [(0, 0xE1)] := by decide +kernel

/-- VD4: an HBLANK channel with repeat moves one unit and is Armed again (R190, R197). -/
theorem test_hblank_repeats :
    ((after .hblank (withChan 0 (armed 0x02000000 0x03000000 1 0xA200))).chan 0).src = 0x02000002
    ∧ ((after .hblank (withChan 0 (armed 0x02000000 0x03000000 1 0xA200))).chan 0).enabled = true := by decide +kernel
/-- R196: without repeat the channel goes Idle. -/
theorem test_vblank_oneShot :
    ((after .vblank (withChan 0 (armed 0x02000000 0x03000000 1 0x9000))).chan 0).enabled = false := by decide +kernel
/-- VD6: FIFO A serves a channel with `DAD = FIFO_A` (R198 to R201). -/
theorem test_fifoA_serves :
    ((after .fifoA (withChan 1 (armed 0x02000000 0x040000A0 1 0xB640))).chan 1).src = 0x02000004 := by decide +kernel
theorem test_fifoB_ignores :
    ((after .fifoB (withChan 1 (armed 0x02000000 0x040000A0 1 0xB640))).chan 1).src = 0x02000000 := by decide +kernel
theorem test_fifoB_serves :
    ((after .fifoB (withChan 2 (armed 0x02000000 0x040000A4 1 0xB640))).chan 2).src = 0x02000004 := by decide +kernel
/-- R202: a tick of an Idle channel's counter does nothing. -/
theorem test_dmatick_idle : (after .dmatick State.reset).dma = State.reset.dma := by decide +kernel
/-- VD7: FORCEDMA runs a channel that waits for FIFO (R203). -/
theorem test_forcedma_runs :
    (after (.forcedma 2) (withChan 2 (armed 0x02000000 0x06000000 1 0x3400))).asByte 0x06000003 = 0x44 := by decide +kernel
/-- U3, R404: a unit into the DMA block is refused. -/
theorem test_forcedma_block :
    refusal (.forcedma 3) (withChan 3 (armed 0x02000000 0x040000B0 1 0x8000)) = some .dmaWritesDmaRegisters := by decide +kernel
/-- VD8, U2: source control 3 is refused. -/
theorem test_dmaarm_sac3 : refusal (.dmaarm 0 ⟨false, .immediate, false, .half, false, .reload, .inc⟩) State.reset = some .sac3 := by
  decide +kernel
/-- VD2: a count of 0 is no unit; the pulse comes all the same (R192, R195). -/
theorem test_dmaarm_zeroCount :
    (after (.dmaarm 1 ⟨true, .immediate, false, .half, false, .inc, .inc⟩) State.reset).out.signals = [.irq 1] := by decide +kernel
theorem test_dmaoff_stored : (after (.dmaoff 1 ⟨true, .vblank, false, .half, false, .inc, .inc⟩) State.reset).mem
    = [(0x040000C7, 0x50)] := by decide +kernel
theorem test_dmasad_stored : (after (.dmasad 1 0x02000010) State.reset).mem = [(0x040000BC, 0x10), (0x040000BF, 0x02)] := by
  decide +kernel
theorem test_dmadad_stored : (after (.dmadad 3 0xFF) State.reset).mem = [(0x040000D8, 0xFF)] := by decide +kernel
theorem test_dmacnt_stored : (after (.dmacnt 0 0x1234) State.reset).mem = [(0x040000B8, 0x34), (0x040000B9, 0x12)] := by
  decide +kernel

/-- R184, R202: with a start delay configured, an immediate channel waits for its ticks; R8: the step takes the configuration. -/
theorem test_startDelay :
    (match execIn { Config.default with dmaStartDelay := 2 } (.dmaarm 1 ⟨true, .immediate, false, .half, false, .inc, .inc⟩) State.reset with
      | .next t => decide ((t.chan 1).delay = 2) && decide ((t.chan 1).enabled = true) && decide (t.out.signals = [])
      | .fault _ => false | .refused _ => false) = true := by decide +kernel
/-- R5: with `N_DMA` 2 there is no third group of registers, so its bytes are plain I/O bytes. -/
theorem test_twoChannels : inDmaBlock { Config.default with nDma := 2 } 0x040000C7 = true
    ∧ inDmaBlock { Config.default with nDma := 2 } 0x040000C8 = false := by decide +kernel
/-- R145, R152: WR32 at `CNT_L` stores both halves and arms once, with the count it brought. -/
theorem test_wr32_cntL : (after (.wr32 0x040000C4 0xB0000007) State.reset).chan 1
    = { armed 0 0 7 0xB000 with width := .half } := by decide +kernel
/-- R184 corner: a byte written to one half of `CNT_H` acts on the merged register. -/
theorem test_wr8_cntH : ((after (.wr8 0x040000BB 0xA0) (withBytes [(0x040000BA, 0x20)] State.reset)).chan 0).ctrl = 0xA020 := by
  decide +kernel

/-- R273: programming can only clear bits. -/
theorem test_fldata_ands :
    (after (.fldata 0x1234 0x0F) { withCart .flash64 .disabled with
      fl := { Flash.fresh with writeSingleByte := true, data0 := [(0x1234, 0x5A)] } }).fl.data0 = [(0x1234, 0x0A)] := by decide +kernel
/-- R274: only offset 0 selects. -/
theorem test_flbanksel :
    (after (.flbanksel 0 0x03) { withCart .flash128 .disabled with fl := { Flash.fresh with switchBank := true } }).fl.bank = .bank1
    ∧ (after (.flbanksel 1 0x01) { withCart .flash128 .disabled with fl := { Flash.fresh with switchBank := true } }).fl.bank
      = .bank0 := by decide +kernel
theorem test_flkey1 : (after .flkey1 (withCart .flash64 .disabled)).fl.pending = .key1 := by decide +kernel
theorem test_flkey2 :
    (after .flkey2 { withCart .flash64 .disabled with fl := { Flash.fresh with pending := .key1 } }).fl.pending = .key2 := by
  decide +kernel
theorem test_flidenter : (after .flidenter (atCommand false)).fl.idMode = true := by decide +kernel
theorem test_flidexit :
    (after .flidexit { atCommand false with fl := { (atCommand false).fl with idMode := true } }).fl.idMode = false := by decide +kernel
theorem test_flerasesetup : (after .flerasesetup (atCommand false)).fl.writeArmed = true := by decide +kernel
theorem test_flprogram : (after .flprogram (atCommand true)).fl.writeArmed = false
    ∧ (after .flprogram (atCommand true)).fl.writeSingleByte = true := by decide +kernel
theorem test_flbank : (after .flbank (atCommand false)).fl.switchBank = true := by decide +kernel
/-- R281: the sector is `offset[15:12]`. -/
theorem test_flsectorerase :
    (after (.flsectorerase 0x3FFF) (atCommand true)).fl.data0.read 0x3000 = 0xFF
    ∧ (after (.flsectorerase 0x3FFF) (atCommand true)).fl.data0.read 0x2FFF = 0x00 := by decide +kernel
theorem test_flignored : (after (.flignored 0 0) (atCommand true)).fl = Flash.fresh := by decide +kernel
/-- R282: the ID pair of Flash128 is 0xC2, 0x09. -/
theorem test_flread_id :
    (after (.flread 1) { withCart .flash128 .disabled with fl := { Flash.fresh with idMode := true } }).out.value
      = some (.byte 0x09) := by decide +kernel

/-- R236: the request starts a reply and locks the size. -/
theorem test_eerdreq6 : (after (.eerdreq6 0x02000000 0b000101 false) (withCart .eeprom .disabled)).ee.phase = .readOut
    ∧ (after (.eerdreq6 0x02000000 0b000101 false) (withCart .eeprom .disabled)).ee.addr = 5 := by decide +kernel
theorem test_eerdreq14 : (after (.eerdreq14 0 0x3FF true) (withCart .eeprom .disabled)).ee.size = .large
    ∧ (after (.eerdreq14 0 0x3FF true) (withCart .eeprom .disabled)).ee.sizeLock = true := by decide +kernel
/-- VE5: page `address mod 1024`, most significant bit first. -/
theorem test_eewr14 :
    (after (.eewr14 0 0x2405 0x0123456789ABCDEF false) (withCart .eeprom .disabled)).ee.data.read 40 = 0x01
    ∧ (after (.eewr14 0 0x2405 0x0123456789ABCDEF false) (withCart .eeprom .disabled)).ee.data.read 47 = 0xEF := by decide +kernel
theorem test_eewr6 : (after (.eewr6 0 1 0xFF00000000000000 false) (withCart .eeprom .disabled)).ee.data = [(8, 0xFF)] := by
  decide +kernel
theorem test_eebad : (after (.eebad 0 [true, true, true]) (withCart .eeprom .disabled)).ee.phase = .idle
    ∧ (after (.eebad 0 [true, true, true]) (withCart .eeprom .disabled)).ee.sizeLock = false := by decide +kernel
/-- R241: 1 outside a reply, 0 in its preamble. -/
theorem test_eerdbit_idle :
    (after (.eerdbit 0x0D000000 .half) (withCart .eeprom .disabled)).out.value = some (.half 1) := by decide +kernel
theorem test_eerdbit_preamble :
    (after (.eerdbit 0x0D000000 .word) (after (.eerdreq6 0 0 false) (withCart .eeprom .disabled))).out.value = some (.word 0) := by
  decide +kernel

/-- R241, R243: four zeros, the bits of the page, most significant first, then 1. -/
theorem test_eepromReply : eepromReply Config.default 14 { Eeprom.fresh with phase := .readOut, addr := 1, data := [(8, 0xC1), (9, 0x80)] }
    = [false, false, false, false, true, true, false, false, false, false, false, true, true, false] := by decide +kernel
/-- R192, R234: a run of 73 half-words whose first and ninth have bit 0 set writes 0x80 into the first byte of page 0. -/
theorem test_run_commitsPage :
    (after (.forcedma 3) (withBytes [(0x02000000, 1), (0x02000010, 1)]
      ((withCart .eeprom .disabled).setChan 3 (armed 0x02000000 0x0D000000 73 0x8040)))).ee.data = [(0, 0x80)] := by decide +kernel

/-- R193, R321: a unit stored in the I/O region is forwarded, as a CPU write of its bytes is. -/
theorem test_run_forwards :
    (after (.forcedma 1) (withChan 1 (armed 0x02000000 0x040000A0 1 0x8440))).out.signals
    = [.forward .apu 0x040000A0 0x11, .forward .apu 0x040000A1 0x22, .forward .apu 0x040000A2 0x33, .forward .apu 0x040000A3 0x44] := by
  decide +kernel
/-- R193, R241: a run out of the window stores the reply, a bit to a unit: four zeros and the first bit of 0x80. -/
theorem test_run_storesReply :
    (after (.forcedma 3) { (withCart .eeprom .disabled).setChan 3 (armed 0x0D000000 0x03000000 5 0x8100) with
      ee := { Eeprom.fresh with phase := .readOut, sizeLock := true, data := [(0, 0x80)] } }).mem = [(0x03000008, 1)] := by decide +kernel

/-- R313, R314: a change is reported with what is driven. -/
theorem test_gpwrdata : (after (.gpwrdata 0 0xFF) { withCart .none .rumble with gpio := ⟨false, 1, 0, 0⟩ }).out.signals
    = [.gpioOut 1] := by decide +kernel
theorem test_gpwrdir : (after (.gpwrdir 0 0x01) (withCart .none .rumble)).gpio.direction = 1 := by decide +kernel
theorem test_gpwrctl : (after (.gpwrctl 0 0x03) (withCart .none .rtc)).gpio.readable = true := by decide +kernel
theorem test_gpwrrsv : (after (.gpwrrsv 0 0xFF) (withCart .none .rtc)).gpio = Gpio.fresh := by decide +kernel
/-- R311: an input pin reads the input latch; not readable reads the ROM byte. -/
theorem test_gprd_pins :
    (after (.gprd 0 0) { withCart .none .rtc with gpio := ⟨true, 0, 1, 0⟩ }).out.value = some (.byte 1) := by decide +kernel
theorem test_gprd_rom :
    (after (.gprd 1 1) (withBytes [(0x080000C7, 0x7E)] (withCart .none .rtc))).out.value = some (.byte 0x7E) := by decide +kernel
/-- R311 at another stride: the last lane of register 1 keeps its own address. -/
theorem test_gprd_lane3 :
    (decode { Config.default with gpioStride := 4 } gpx (.gpioRead 0x080000CB)).toOption = some (.gprd 1 3)
    ∧ (match execIn { Config.default with gpioStride := 4 } (.gprd 1 3) (withBytes [(0x080000CB, 0x7E)] (withCart .none .rtc)) with
      | .next t => decide (t.out.value = some (.byte 0x7E))
      | .fault _ => false | .refused _ => false) = true := by decide +kernel
theorem test_sensor : (after (.sensor 1) (withCart .none .solarSensor)).gpio.inLatch = 1 := by decide +kernel

/-- R342: the firmware region starts with the image. -/
theorem test_loadfw : (after (.loadfw (.bytes [0xE1, 0xE2])) State.reset).asByte 1 = 0xE2
    ∧ (after (.loadfw (.bytes [0xE1, 0xE2])) State.reset).cart.biosLoaded = true := by decide +kernel
/-- R345: `EEPROM_V` in the image. -/
theorem test_loadcart_detect :
    (after (.loadcart (.bytes [0, 0x45, 0x45, 0x50, 0x52, 0x4F, 0x4D, 0x5F, 0x56]) none .disabled) State.reset).cart.backupType
      = .eeprom := by decide +kernel
theorem test_loadbkp_sram : (after (.loadbkp (.bytes [1, 2])) (withCart .sram .disabled)).sram = [(0, 1), (1, 2)] := by
  decide +kernel
theorem test_savebkp_none : (after (.savebkp .writable) State.reset).out.host = some (.saved []) := by decide +kernel

/-- The rows of the table, as the host presents them. -/
theorem test_tableWord :
    decodeTableWord 72 0x060203FFFEAABBCCDD = some (.wr32 0x0203FFFE 0xAABBCCDD)
    ∧ decodeTableWord 24 0x5555AA = some .flkey1
    ∧ decodeTableWord 16 0b1100010100000000 = some (.dmaarm 0 ⟨true, .immediate, false, .word, false, .fixed, .inc⟩)
    ∧ decodeTableWord 32 0x080000C6 = some (.gpwrdir 0 0) := by decide +kernel
/-- `withFetchWord` presents a word to the very next step. -/
theorem test_withFetchWord : (match step (State.reset.withFetchWord 24 0x5555AA) with
    | .next t => decide (t.fl.pending = .key1) | .fault _ => false | .refused _ => false) = true := by decide +kernel

/-! ## Witnesses: states and operands that meet the hypotheses of each statement -/

/-- StepRunsDecodedInstruction: a word that is decoded, one that is not, none. -/
def presents (p : Presented) : State := { State.reset with inputs := [p] }

theorem witness_StepRunsDecodedInstruction :
    (presents (encodeEvent 0x10 0 0)).inputs = encodeEvent 0x10 0 0 :: []
    ∧ decode Config.default (presents (encodeEvent 0x10 0 0)).ctx (encodeEvent 0x10 0 0) = .ok .reset
    ∧ decode Config.default (presents (encodeEvent 0x03 0 0)).ctx (encodeEvent 0x03 0 0) = .error .reservedSize
    ∧ State.reset.inputs = [] := ⟨rfl, rfl, rfl, rfl⟩

theorem witness_DecodeOfEncode :
    (Instr.flsectorerase 0x3000).WellFormed = true
    ∧ (Instr.flsectorerase 0x3000).selectedIn Config.default (flx .key2 true false false) = true
    ∧ (Instr.eewr14 0 0x3FFF (BitVec.allOnes 64) true).WellFormed = true
    ∧ (Instr.eewr14 0 0x3FFF (BitVec.allOnes 64) true).selectedIn Config.default eex = true := by decide +kernel

theorem witness_DecodedIsWellFormedAndSelected :
    decode Config.default eex (.eeBurst 0 [true]) = .ok (.eebad 0 [true]) := rfl

/-- ByteReadByRegion: the first and last addresses of a class, each device of the backup window, unmapped. -/
theorem witness_ByteReadByRegion :
    isStoreTag (decodeTag Config.default .disabled 0x00000000) = true ∧ isStoreTag (decodeTag Config.default .disabled 0x0DFFFFFF) = true
    ∧ decodeTag Config.default .disabled 0x0E00FFFF = .bkp ∧ (withCart .sram .disabled).cart.backupType = .sram
    ∧ (withCart .flash64 .disabled).cart.backupType = .flash64 ∧ State.reset.cart.backupType = .none
    ∧ decodeTag Config.default .disabled 0x0E010000 = .unmapped := by decide +kernel

theorem witness_TimingClassOfEveryAccess :
    (∃ t, exec (.rd16 0x10000000) State.reset = .next t) ∧ classifiedAccess (.rd16 0x10000000) = some (0x10000000, 2)
    ∧ decodeTag Config.default State.reset.cart.gpioType 0x10000000 = .unmapped
    ∧ (∃ t, exec (.wr32 0x0203FFFF 0) State.reset = .next t) ∧ classifiedAccess (.wr32 0x0203FFFF 0) = some (0x0203FFFF, 4)
    ∧ decodeTag Config.default State.reset.cart.gpioType 0x0203FFFF ≠ .unmapped
    ∧ (∃ t, exec (.frd8 0) State.reset = .next t) ∧ classifiedAccess (.frd8 0) = none ∧ Instr.frd8 0 ≠ .reset :=
  ⟨next_of_completes (by decide +kernel), rfl, by decide +kernel, next_of_completes (by decide +kernel), rfl, by decide +kernel,
    next_of_completes (by decide +kernel), rfl, by decide⟩

/-- The bytes next to a `CNT_H` on both sides. -/
theorem witness_WritesCompleteWithFrame :
    writeAccess (.wr16 0x040000B8 0xFFFF) = some (0x040000B8, halfBytes 0xFFFF)
    ∧ (∀ k, k < (halfBytes 0xFFFF).length → isCntHByte Config.default (0x040000B8 + BitVec.ofNat 32 k) = false)
    ∧ writeAccess (.fwr32 0x040000BC 1) = some (0x040000BC, wordBytes 1)
    ∧ (∀ k, k < (wordBytes 1).length → isCntHByte Config.default (0x040000BC + BitVec.ofNat 32 k) = false)
    ∧ classifiedAccess (.fwr32 0x040000BC 1) = none
    ∧ (∀ k, k < (wordBytes 1).length → decodeTag Config.default .rtc (0x040000BC + BitVec.ofNat 32 k) ≠ .bkp)
    ∧ (∀ k, k < (wordBytes 1).length → decodeTag Config.default .rtc (0x040000BC + BitVec.ofNat 32 k) ≠ .gpio) := by decide +kernel

/-- A fast write that ends in the GPIO window, one across the end of the backup window, and one across two owners. -/
theorem witness_WritesCompleteWithFrame_fast :
    let good := fun a : Addr => writeAccess (.fwr32 a 1) = some (a, wordBytes 1) ∧ classifiedAccess (.fwr32 a 1) = none
      ∧ (∀ k, k < (wordBytes 1).length → isCntHByte Config.default (a + BitVec.ofNat 32 k) = false)
    good 0x080000C1 ∧ good 0x0E00FFFE ∧ good 0x0400005E ∧ good 0xFFFFFFFE := by decide +kernel

theorem witness_WriteThenReadRoundTrip :
    roundTripByte Config.default (withCart .sram .disabled) 0x0E00FFFF = true
    ∧ (∀ k, k < 2 → roundTripByte Config.default State.reset (0x03007FFE + BitVec.ofNat 32 k) = true)
    ∧ (∀ k, k < 4 → roundTripByte Config.default State.reset (0x040000B6 + BitVec.ofNat 32 k) = true) := by decide +kernel

theorem witness_IgnoredWritesChangeNothing :
    writeAccess (.wr32 0xFFFFFFFE 1) = some (0xFFFFFFFE, wordBytes 1)
    ∧ (∀ k, k < (wordBytes 1).length → ignoresWrites Config.default State.reset (0xFFFFFFFE + BitVec.ofNat 32 k) = true)
    ∧ ignoresWrites Config.default (withCart .eeprom .disabled) 0x0E00FFFF = true
    ∧ ignoresWrites Config.default State.reset 0x080000C4 = true := by decide +kernel

/-- The addresses where the ranges of the statement meet. -/
theorem witness_IoByteIsStoredAndForwarded :
    ([0x04000000, 0x0400005F, 0x04000060, 0x040000AF, 0x040000B0, 0x040000B9, 0x040000BC, 0x040000FF, 0x04000100, 0x0400010F,
      0x04000110, 0x040003FF] : List Addr).all (fun a => decide (0x04000000 ≤ a) && decide (a ≤ 0x040003FF)
        && !isCntHByte Config.default a) = true := by decide +kernel

/-- Both values of bit 15; a byte of either half of a `CNT_H`, an unaligned word that ends on its low byte or begins on its high
byte, a word at `CNT_L`; a canonical memory and a register without reserved bits. -/
theorem witness_RegisterWritesAreTheirRows :
    (0x8000 : Half).getLsbD 15 = true ∧ (0x7FFF : Half).getLsbD 15 = false
    ∧ (writeAccess (.wr8 0x040000BA 0xFF) = some (0x040000BA, [0xFF]) ∧ 0x040000BA + BitVec.ofNat 32 0 = cntHAddr Config.default 0)
    ∧ (writeAccess (.fwr8 0x040000DF 0x80) = some (0x040000DF, [0x80]) ∧ 0x040000DF + BitVec.ofNat 32 0 = cntHAddr Config.default 3 + 1)
    ∧ (writeAccess (.wr32 0x040000C3 1) = some (0x040000C3, wordBytes 1) ∧ 0x040000C3 + BitVec.ofNat 32 3 = cntHAddr Config.default 1)
    ∧ (writeAccess (.wr32 0x040000DF 1) = some (0x040000DF, wordBytes 1) ∧ 0x040000DF + BitVec.ofNat 32 0 = cntHAddr Config.default 3 + 1)
    ∧ (writeAccess (.wr32 0x040000D0 1) = some (0x040000D0, wordBytes 1) ∧ 0x040000D0 + BitVec.ofNat 32 2 = cntHAddr Config.default 2)
    ∧ State.reset.mem.wf = true ∧ (∀ k, cntHOf Config.default State.reset k &&& 0x1F = 0)
    ∧ (∃ t, exec (.wr32 0x040000D0 0x80000000) State.reset = .next t) :=
  ⟨by decide, by decide, by decide +kernel, by decide +kernel, by decide +kernel, by decide +kernel, by decide +kernel, rfl,
    by decide +kernel, next_of_completes (by decide +kernel)⟩

/-- The other channels wait for a trigger or are Idle; both timings; the refused source control. -/
theorem witness_ArmingCapturesTheRegisters :
    (∀ k : Chan, k ≠ 0 → eligible Config.default k ((withChan 2 (armed 0 0 1 0x9000)).chan k) .none = false)
    ∧ (⟨true, .immediate, false, .word, false, .reload, .inc⟩ : CtlFields).sac = .reload
    ∧ (⟨true, .immediate, false, .word, false, .fixed, .inc⟩ : CtlFields).sac ≠ .reload
    ∧ (⟨true, .immediate, false, .word, false, .fixed, .inc⟩ : CtlFields).timing = .immediate
    ∧ (⟨true, .hblank, false, .word, false, .dec, .inc⟩ : CtlFields).timing ≠ .immediate := by decide +kernel

theorem witness_DisarmingMakesIdle :
    ∀ k : Chan, k ≠ 3 → eligible Config.default k ((withChan 3 (armed 0 0 1 0x8000)).chan k) .none = false := by decide +kernel

theorem witness_EventsWithoutWaitingChannel :
    passEvent .vblank = some .vblank
    ∧ (∀ k, eligible Config.default k ((withChan 0 (armed 0 0 1 0xA000)).chan k) .vblank = false)
    ∧ (∀ k, ((withChan 0 { armed 0 0 1 0x8000 with delay := 2 }).chan k).enabled = false
        ∨ ((withChan 0 { armed 0 0 1 0x8000 with delay := 2 }).chan k).running = true
        ∨ 1 < ((withChan 0 { armed 0 0 1 0x8000 with delay := 2 }).chan k).delay
        ∨ triggerMatches Config.default k ((withChan 0 { armed 0 0 1 0x8000 with delay := 2 }).chan k) .none = false)
    ∧ (State.reset.chan 3).enabled = false := by decide +kernel

/-- A run that stays outside the DMA block, and one that enters it, for a pass, for a tick at the end of its delay, and forced. -/
theorem witness_DmaEventsCompleteUnlessUnsafe :
    passEvent .hblank = some .hblank
    ∧ eligible Config.default 0 ((withChan 0 (armed 0x02000000 0x040000AC 1 0xA400)).chan 0) .hblank = true
    ∧ safeRun Config.default (armed 0x02000000 0x040000AC 1 0xA400)
    ∧ eligible Config.default 0 ((withChan 0 (armed 0x02000000 0x040000DE 1 0xA000)).chan 0) .hblank = true
    ∧ ¬ safeRun Config.default (armed 0x02000000 0x040000DE 1 0xA000)
    ∧ eligible Config.default 0 (tickChan { armed 0x02000000 0x03000000 1 0x8000 with delay := 1 }) .none = true
    ∧ safeRun Config.default { armed 0x02000000 0x03000000 1 0x8000 with delay := 1 }
    ∧ eligible Config.default 0 (tickChan { armed 0x02000000 0x040000DF 1 0x8000 with delay := 1 }) .none = true
    ∧ ¬ safeRun Config.default { armed 0x02000000 0x040000DF 1 0x8000 with delay := 1 }
    ∧ (armed 0x02000000 0x03000000 1 0x8000).enabled = true ∧ (armed 0x02000000 0x03000000 1 0x8000).running = false := by
  refine ⟨rfl, by decide +kernel, ?_, by decide +kernel, ?_, by decide +kernel, ?_, by decide +kernel, ?_, rfl, rfl⟩ <;>
    unfold safeRun <;> decide +kernel

/-- Two channels wait for VBLANK; both complete. -/
def twoWaiting : State :=
  (withChan 0 (armed 0x02000000 0x03000000 1 0xD000)).setChan 3 (armed 0x02000000 0x03000010 1 0xD000)

theorem witness_pass : passEvent .vblank = some .vblank ∧ (∃ t, exec .vblank twoWaiting = .next t)
    ∧ eligible Config.default 0 (twoWaiting.chan 0) .vblank = true ∧ eligible Config.default 3 (twoWaiting.chan 3) .vblank = true
    ∧ eligible Config.default 1 (twoWaiting.chan 1) .vblank = false :=
  ⟨rfl, next_of_completes (by decide +kernel), by decide +kernel, by decide +kernel, by decide +kernel⟩

/-- Instructions that start runs and complete: an event, an arming, a write of a `CNT_H`, a tick, a run forced. -/
theorem witness_PassRunsChannelsInPriorityOrder :
    ∀ p ∈ [(Instr.vblank, ([0, 3] : List Chan)), (.dmaarm 1 ⟨false, .immediate, false, .half, false, .inc, .inc⟩, [1]),
      (.wr32 0x040000D0 0x80000000, [2]), (.dmatick, []), (.forcedma 3, [3])],
      mayRunDma p.1 = true ∧ completes p.1 twoWaiting = true ∧ runChans p.1 twoWaiting = p.2 := by decide +kernel

/-- PassRunsChannelsInPriorityOrder and InterruptsInChannelOrder rest on the same state as the pass's frame. A tick with a channel
that is not ready; an arming beside two waiting channels; a write that covers one `CNT_H` and not the others. -/
theorem witness_DmaEventFrame :
    (∃ t, exec .vblank twoWaiting = .next t)
    ∧ (∃ ev, passEvent .vblank = some ev ∧ ∀ k : Chan, (k = 0 ∨ k = 3) ↔ eligible Config.default k (twoWaiting.chan k) ev = true)
    ∧ (∃ t, exec (.forcedma 3) twoWaiting = .next t)
    ∧ (∃ t, exec .dmatick twoWaiting = .next t) ∧ eligible Config.default 3 (tickChan (twoWaiting.chan 3)) .none = false
    ∧ (∃ t, exec (.dmaarm 1 ⟨false, .hblank, false, .half, false, .inc, .inc⟩) twoWaiting = .next t)
    ∧ (∃ t, exec (.dmaoff 1 ⟨false, .hblank, false, .half, false, .inc, .inc⟩) twoWaiting = .next t)
    ∧ eligible Config.default 3 (twoWaiting.chan 3) .none = false
    ∧ writeAccess (.wr16 0x040000C6 0xA000) = some (0x040000C6, halfBytes 0xA000)
    ∧ (∃ t, exec (.wr16 0x040000C6 0xA000) twoWaiting = .next t)
    ∧ (∀ j, j < 2 → (0x040000C6 + BitVec.ofNat 32 j : Addr) ≠ cntHAddr Config.default 3
        ∧ (0x040000C6 + BitVec.ofNat 32 j : Addr) ≠ cntHAddr Config.default 3 + 1)
    ∧ inDmaBlock Config.default 0x040000B0 = true :=
  ⟨next_of_completes (by decide +kernel), ⟨.vblank, rfl, by decide +kernel⟩, next_of_completes (by decide +kernel),
    next_of_completes (by decide +kernel), by decide +kernel, next_of_completes (by decide +kernel), next_of_completes (by decide +kernel),
    by decide +kernel, rfl, next_of_completes (by decide +kernel), by decide +kernel, by decide +kernel⟩

/-- What a unit of a run writes. -/
def written (x : DmaChan) : List Addr :=
  (List.range (unitsLeft x)).flatMap fun n => (List.range (unitBytes x.width)).map fun j => dstUnit x n + BitVec.ofNat 32 j

theorem mem_written {x : DmaChan} {b : Addr} (h : passWrites x b) : b ∈ written x := by
  obtain ⟨n, j, hn, hj, rfl⟩ := h
  exact List.mem_flatMap.mpr ⟨n, List.mem_range.mpr hn, List.mem_map.mpr ⟨j, List.mem_range.mpr hj, rfl⟩⟩

/-- A byte beside the two runs; no byte of theirs in the backup or a GPIO window, none of their units in the EEPROM window. -/
theorem witness_DmaEventFrame_bytes :
    mayRunDma .vblank = true ∧ (∃ t, exec .vblank twoWaiting = .next t)
    ∧ ((0x03000002 : Addr) ∉ ownBytes .vblank
      ∧ (∀ ch ∈ runChans .vblank twoWaiting, ¬ passWrites ((beforeRuns .vblank twoWaiting).chan ch) 0x03000002)
      ∧ (∀ ch, (0x03000002 : Addr) ≠ cntHAddr Config.default ch + 1))
    ∧ (∀ b : Addr, decodeTag Config.default .rtc b = .bkp ∨ decodeTag Config.default .rtc b = .gpio →
      b ∉ ownBytes .vblank ∧ ∀ ch ∈ runChans .vblank twoWaiting, ¬ passWrites ((beforeRuns .vblank twoWaiting).chan ch) b)
    ∧ (∀ ch ∈ runChans .vblank twoWaiting, passAvoidsEeprom ((beforeRuns .vblank twoWaiting).chan ch) twoWaiting) := by
  have hw : ∀ ch ∈ runChans .vblank twoWaiting, ∀ b ∈ written ((beforeRuns .vblank twoWaiting).chan ch),
      b ≠ 0x03000002 ∧ decodeTag Config.default .rtc b = .iwram := by
    have h : ((runChans .vblank twoWaiting).all fun ch => (written ((beforeRuns .vblank twoWaiting).chan ch)).all fun b =>
        decide (b ≠ 0x03000002 ∧ decodeTag Config.default .rtc b = .iwram)) = true := by decide +kernel
    intro ch hc b hb
    exact of_decide_eq_true (List.all_eq_true.mp (List.all_eq_true.mp h ch hc) b hb)
  refine ⟨rfl, next_of_completes (by decide +kernel),
    ⟨List.not_mem_nil, fun ch hc h => (hw ch hc _ (mem_written h)).1 rfl, by decide +kernel⟩,
    fun b hb => ⟨List.not_mem_nil, fun ch hc h => ?_⟩, by unfold passAvoidsEeprom; decide +kernel⟩
  rw [(hw ch hc _ (mem_written h)).2] at hb
  exact hb.elim nofun nofun

theorem witness_FifoTimingNeverFiresOnChannels0And3 :
    passEvent .fifoA = some .fifoA
    ∧ (∃ t, exec .fifoA (withChan 3 (armed 0x02000000 0x040000A0 1 0xB640)) = .next t)
    ∧ ctlTiming ((withChan 3 (armed 0x02000000 0x040000A0 1 0xB640)).chan 3).ctrl = .fifo :=
  ⟨rfl, next_of_completes (by decide +kernel), by decide +kernel⟩

/-- One channel that recurs, one that does not, both with no unit left. -/
theorem witness_CompletionRearmsOrGoesIdle :
    ((withChan 1 (armed 0 0 0 0xE260)).chan 1).enabled = true ∧ ((withChan 1 (armed 0 0 0 0xE260)).chan 1).running = false
    ∧ ((withChan 1 (armed 0 0 0 0xE260)).chan 1).count.toNat ≤ ((withChan 1 (armed 0 0 0 0xE260)).chan 1).cursor.toNat
    ∧ ctlRepeat ((withChan 1 (armed 0 0 0 0xE260)).chan 1).ctrl = true
    ∧ ctlTiming ((withChan 1 (armed 0 0 0 0xE260)).chan 1).ctrl ≠ .immediate
    ∧ ¬ (ctlRepeat (armed 0 0 0 0x8200).ctrl = true ∧ ctlTiming (armed 0 0 0 0x8200).ctrl ≠ .immediate)
    ∧ (armed 0 0 0 0x8200).count.toNat ≤ (armed 0 0 0 0x8200).cursor.toNat := by decide +kernel

/-- A copy of two half-words to the last bytes of IWRAM. -/
theorem witness_DmaCopiesExactly :
    let s := withChan 3 (armed 0x02000000 0x03007FFC 2 0x8000)
    (s.chan 3).enabled = true ∧ (s.chan 3).running = false ∧ (s.chan 3).cursor = 0
    ∧ ctlSac (s.chan 3).ctrl = .inc ∧ ctlDac (s.chan 3).ctrl = .inc
    ∧ 4 = (s.chan 3).count.toNat * unitBytes (s.chan 3).width
    ∧ (∀ k, k < 4 → isStoreTag (decodeTag Config.default s.cart.gpioType ((s.chan 3).src + BitVec.ofNat 32 k)) = true
      ∧ inEepWindow Config.default s ((s.chan 3).src + BitVec.ofNat 32 k) = false)
    ∧ (∀ k, k < 4 → isRamTag (decodeTag Config.default s.cart.gpioType ((s.chan 3).dst + BitVec.ofNat 32 k)) = true)
    ∧ (∀ j, j < 4 → ∀ k, k < 4 → (s.chan 3).src + BitVec.ofNat 32 j ≠ (s.chan 3).dst + BitVec.ofNat 32 k)
    ∧ ctlRepeat (s.chan 3).ctrl = false := by decide +kernel

/-- Two words copied downwards, neither covering the other; and a recurring run with a reloaded destination. -/
theorem witness_DmaCopiesExactly_stepped :
    let s := withChan 3 (armed 0x02000004 0x03000004 2 0x84A0)
    let r := withChan 1 (armed 0x02000000 0x03000000 1 0x9260)
    ((s.chan 3).enabled = true ∧ (s.chan 3).running = false ∧ (s.chan 3).cursor = 0 ∧ 2 = (s.chan 3).count.toNat
      ∧ 4 = unitBytes (s.chan 3).width ∧ ctlSac (s.chan 3).ctrl = .dec ∧ ctlDac (s.chan 3).ctrl = .dec)
    ∧ (∀ k, k < 2 → ∀ j, j < 4 → isStoreTag (decodeTag Config.default s.cart.gpioType (srcUnit (s.chan 3) k + BitVec.ofNat 32 j)) = true
      ∧ inEepWindow Config.default s (srcUnit (s.chan 3) k + BitVec.ofNat 32 j) = false
      ∧ isRamTag (decodeTag Config.default s.cart.gpioType (dstUnit (s.chan 3) k + BitVec.ofNat 32 j)) = true)
    ∧ (∀ k, k < 2 → ∀ k', k' < 2 → ∀ j, j < 4 → ∀ j', j' < 4 →
      srcUnit (s.chan 3) k + BitVec.ofNat 32 j ≠ dstUnit (s.chan 3) k' + BitVec.ofNat 32 j')
    ∧ (∀ j, j < 4 → ∀ j', j' < 4 → dstUnit (s.chan 3) 0 + BitVec.ofNat 32 j ≠ dstUnit (s.chan 3) 1 + BitVec.ofNat 32 j')
    ∧ ((r.chan 1).enabled = true ∧ (r.chan 1).running = false ∧ (r.chan 1).cursor = 0 ∧ recurs (r.chan 1) = true
      ∧ ctlDac (r.chan 1).ctrl = .reload ∧ completes (.forcedma 1) r = true) := by decide +kernel

/-- Safe runs into the FIFO, the GPIO window, the backup window and the EEPROM window, from unmapped space, the backup window and
the EEPROM window. -/
theorem witness_DmaCopiesExactly_rows :
    let good := fun src dst : Addr => ((withCart .eeprom .rtc).setChan 3 (armed src dst 4 0x8400)).chan 3 = armed src dst 4 0x8400
      ∧ (armed src dst 4 0x8400).enabled = true ∧ (armed src dst 4 0x8400).running = false
      ∧ safeRun Config.default (armed src dst 4 0x8400)
    good 0x10000000 0x040000A0 ∧ good 0x0E000000 0x080000C4 ∧ good 0x0D000000 0x0E00FFFE ∧ good 0x02000000 0x0D000000 := by
  unfold safeRun; decide +kernel

/-- EepromReadRequests, EepromPageWrites: no lock; a lock of each size. -/
theorem witness_eepromSizes :
    (withCart .eeprom .disabled).cart.backupType = .eeprom ∧ (withCart .eeprom .disabled).ee.phase ≠ .shiftIn
    ∧ ((withCart .eeprom .disabled).ee.sizeLock = true → (withCart .eeprom .disabled).ee.size = .large)
    ∧ ({ Eeprom.fresh with sizeLock := true }.sizeLock = true → { Eeprom.fresh with sizeLock := true }.size = .small)
    ∧ ({ Eeprom.fresh with sizeLock := true, size := .large }.sizeLock = true
      → { Eeprom.fresh with sizeLock := true, size := .large }.size = .large) := by decide +kernel

theorem witness_EepromMalformedBurst :
    (withCart .eeprom .disabled).cart.backupType = .eeprom ∧ (withCart .eeprom .disabled).ee.phase ≠ .shiftIn
    ∧ ([false] : List Bool) ≠ [] ∧ burstIsBad (withCart .eeprom .disabled).ctx [false] = true := by decide +kernel

/-- A reply at its first bit, at the last bit of its preamble, at the first and last data bits. -/
theorem witness_EepromReplyBits :
    (0x0D000000 : Addr) ≤ 0x0DFFFFFF
    ∧ ∀ n ∈ [0, 3, 4, 66, 67], ({ Eeprom.fresh with phase := .readOut, cursor := n } : Eeprom).phase = .readOut
      ∧ (n < 4 ∨ 4 ≤ n) ∧ (withCart .eeprom .disabled).ee.phase ≠ .readOut := by decide +kernel

theorem witness_EepromRoundTrip :
    (withCart .eeprom .disabled).cart.backupType = .eeprom ∧ (withCart .eeprom .disabled).ee.phase ≠ .shiftIn
    ∧ ((withCart .eeprom .disabled).ee.sizeLock = true → (withCart .eeprom .disabled).ee.size = .small)
    ∧ (0x0D000000 : Addr) ≤ 0x0DFFFFFF := by decide +kernel

/-- A burst that is an accepted write, an instruction that starts no run, and one whose run ends in a burst. -/
theorem witness_EepromStoreChangesOnlyByAcceptedWrites :
    (withCart .eeprom .disabled).ee.phase ≠ .shiftIn ∧ writeBits (0 : BitVec 6) (BitVec.allOnes 64) true ≠ []
    ∧ (∃ t, exec (.eebad 0 (writeBits (0 : BitVec 6) (BitVec.allOnes 64) true)) (withCart .eeprom .disabled) = .next t)
    ∧ (after (.eebad 0 (writeBits (0 : BitVec 6) (BitVec.allOnes 64) true)) (withCart .eeprom .disabled)).ee.data
      ≠ (withCart .eeprom .disabled).ee.data
    ∧ (∃ t, exec .reset (withCart .eeprom .disabled) = .next t) ∧ mayRunDma .reset = false
    ∧ (∃ t, exec (.forcedma 3) ((withCart .eeprom .disabled).setChan 3 (armed 0x02000000 0x0D000000 9 0x8040)) = .next t)
    ∧ (∀ m b g, Instr.forcedma 3 ≠ .loadcart m b g) ∧ (∀ f, Instr.forcedma 3 ≠ .loadbkp f) :=
  ⟨by decide +kernel, by decide +kernel, next_of_completes (by decide +kernel), by decide +kernel, next_of_completes rfl, by decide,
    next_of_completes (by decide +kernel), fun _ _ _ h => (by cases h), fun _ h => (by cases h)⟩

/-- A run of 73 units into the window that changes the store, runs without a unit in the window, and a cartridge without EEPROM. -/
theorem witness_EepromStoreChangesOnlyByAcceptedWrites_runs :
    let s := withBytes [(0x02000000, 1), (0x02000010, 1)]
      ((withCart .eeprom .disabled).setChan 3 (armed 0x02000000 0x0D000000 73 0x8040))
    s.ee.phase ≠ .shiftIn ∧ completes (.forcedma 3) s = true ∧ burstBits (.forcedma 3) ≠ some [] ∧ mayRunDma (.forcedma 3) = true
    ∧ (after (.forcedma 3) s).ee.data ≠ s.ee.data ∧ runChans (.forcedma 3) s = [3]
    ∧ (windowUnits ((beforeRuns (.forcedma 3) s).chan 3) s).length = 73
    ∧ (∀ ch ∈ runChans .vblank twoWaiting, windowUnits ((beforeRuns .vblank twoWaiting).chan ch) twoWaiting = [])
    ∧ twoWaiting.cart.backupType ≠ .eeprom := by decide +kernel

/-- Nine half-words from WRAM to one address of the EEPROM window; and two words read downwards from ROM below the window, to its
last two words. -/
theorem witness_DmaRunIsOneBurst :
    let good := fun (s : State) (n : Nat) => s.cart.backupType = .eeprom ∧ s.ee.phase ≠ .shiftIn ∧ (s.chan 3).enabled = true
      ∧ (s.chan 3).running = false ∧ (s.chan 3).cursor = 0 ∧ (s.chan 3).count ≠ 0 ∧ (s.chan 3).count.toNat = n
      ∧ (∀ k, k < n → 0x0D000000 ≤ dstUnit (s.chan 3) k ∧ dstUnit (s.chan 3) k ≤ 0x0DFFFFFF
        ∧ isStoreTag (decodeTag Config.default s.cart.gpioType (srcUnit (s.chan 3) k)) = true
        ∧ inEepWindow Config.default s (srcUnit (s.chan 3) k) = false)
    good ((withCart .eeprom .disabled).setChan 3 (armed 0x02000000 0x0D000000 9 0x8040)) 9
    ∧ good ((withCart .eeprom .disabled).setChan 3 (armed 0x0CFFFFFC 0x0DFFFFF8 2 0x8480)) 2 := by decide +kernel

/-- A reply of five bits to IWRAM, half-words from one address of the window. -/
theorem witness_DmaRunIsOneBurst_reply :
    let s := (withCart .eeprom .disabled).setChan 3 (armed 0x0D000000 0x03007FF6 5 0x8100)
    s.cart.backupType = .eeprom ∧ (s.chan 3).enabled = true ∧ (s.chan 3).running = false
    ∧ 5 = unitsLeft (s.chan 3) ∧ 2 = unitBytes (s.chan 3).width
    ∧ (∀ k, k < 5 → 0x0D000000 ≤ srcUnit (s.chan 3) k ∧ srcUnit (s.chan 3) k ≤ 0x0DFFFFFF)
    ∧ (∀ k, k < 5 → ∀ j, j < 2 →
      isRamTag (decodeTag Config.default s.cart.gpioType (dstUnit (s.chan 3) k + BitVec.ofNat 32 j)) = true)
    ∧ (∀ j, j < 2 → ∀ k, k < 5 → 0 < k → ∀ j', j' < 2 → dstUnit (s.chan 3) 0 + BitVec.ofNat 32 j ≠ dstUnit (s.chan 3) k + BitVec.ofNat 32 j')
    ∧ (0x03000000 : Addr) ≠ cntHAddr Config.default 3 + 1 := by decide +kernel

/-- The Flash statements: both parts, the armed engine, the Idle engine, a sector offset other than 0x5555. -/
theorem witness_flash :
    (withCart .flash64 .disabled).cart.backupType.isFlash = true ∧ (withCart .flash128 .disabled).cart.backupType = .flash128
    ∧ (atCommand true).cart.backupType.isFlash = true ∧ (atCommand true).fl.writeArmed = true
    ∧ (withCart .flash64 .disabled).fl.writeSingleByte = false ∧ (withCart .flash64 .disabled).fl.switchBank = false
    ∧ (withCart .flash64 .disabled).fl.pending = .none ∧ (withCart .flash64 .disabled).fl.idMode = false
    ∧ (0x5554 : Half) ≠ 0x5555 := by decide +kernel

/-- The GPIO statements: a device and none, the window's first and last byte, a window that is not readable, a change of the pins. -/
theorem witness_gpio :
    (withCart .none .gyroSensor).cart.gpioType ≠ .disabled ∧ State.reset.cart.gpioType = .disabled
    ∧ (0x080000C4 : Addr) ≤ 0x080000CB ∧ State.reset.gpio.readable = false
    ∧ (∃ t, exec (.fwr8 0x080000C4 1) { withCart .none .rumble with gpio := ⟨false, 1, 0, 0⟩ } = .next t)
    ∧ (after (.fwr8 0x080000C4 1) { withCart .none .rumble with gpio := ⟨false, 1, 0, 0⟩ }).gpio.driven
      ≠ ({ withCart .none .rumble with gpio := ⟨false, 1, 0, 0⟩ } : State).gpio.driven
    ∧ Instr.fwr8 0x080000C4 1 ≠ .reset ∧ (∀ m b g, Instr.fwr8 0x080000C4 1 ≠ .loadcart m b g) :=
  ⟨by decide, rfl, by decide, rfl, next_of_completes (by decide +kernel), by decide +kernel, by decide, fun _ _ _ h => by cases h⟩

/-- GpioLaws: accesses whose bytes fill one half of the window, or its last two bytes. -/
theorem witness_GpioLaws_accesses :
    readAccess (.rd16 0x080000CA) = some (0x080000CA, 2) ∧ (∃ t, exec (.rd16 0x080000CA) (withCart .none .rtc) = .next t)
    ∧ writeAccess (.wr32 0x080000C4 1) = some (0x080000C4, wordBytes 1) ∧ 4 = (wordBytes 1).length
    ∧ (∃ t, exec (.wr32 0x080000C4 1) (withCart .none .rtc) = .next t)
    ∧ (∀ k, k < 2 → 0x080000C4 ≤ (0x080000CA : Addr) + BitVec.ofNat 32 k ∧ (0x080000CA : Addr) + BitVec.ofNat 32 k ≤ 0x080000CB)
    ∧ (∀ k, k < 4 → 0x080000C4 ≤ (0x080000C4 : Addr) + BitVec.ofNat 32 k ∧ (0x080000C4 : Addr) + BitVec.ofNat 32 k ≤ 0x080000CB) :=
  ⟨rfl, next_of_completes (by decide +kernel), rfl, rfl, next_of_completes (by decide +kernel), by decide +kernel, by decide +kernel⟩

/-- LoadFirmware, LoadCartridge: an image within the limit. -/
theorem witness_image : ([0xE1] : List Byte) ≠ [] ∧ ([0xE1] : List Byte).length ≤ 0x02000000 := by decide

/-- An image one byte longer than `ROM_MAX`. -/
theorem witness_imageTooLarge : 0x02000000 < (List.replicate 0x02000001 (0 : Byte)).length := by
  rw [List.length_replicate]; decide

/-- DetectionTakesLowestSignature: an image without a signature, and one with `SRAM_V` at offset 1. -/
theorem witness_detect_none : ∀ p, p < 3 → ¬ ([0x53, 0x52, 0x41, 0x4D, 0x5F, 0x56] : List Byte) <+: ([1, 2] : List Byte).drop p := by
  decide
theorem witness_detect_sram :
    ([0x53, 0x52, 0x41, 0x4D, 0x5F, 0x56] : List Byte) <+: ([0, 0x53, 0x52, 0x41, 0x4D, 0x5F, 0x56] : List Byte).drop 1
    ∧ ¬ ([0x53, 0x52, 0x41, 0x4D, 0x5F, 0x56] : List Byte) <+: ([0, 0x53, 0x52, 0x41, 0x4D, 0x5F, 0x56] : List Byte).drop 0
    ∧ detect Config.default [0, 0x53, 0x52, 0x41, 0x4D, 0x5F, 0x56] = .sram := by decide +kernel

/-- LoadBackupFillsActiveStore, SaveLoadRoundTrip: each backup type. -/
theorem witness_backupTypes :
    ∀ b ∈ [BackupType.none, .eeprom, .flash64, .flash128, .sram], (withCart b .disabled).cart.backupType = b := by decide

/-- InitialStateIsResetOfEmpty: the state after reset itself. -/
theorem witness_InitialStateIsResetOfEmpty :
    State.reset.cart = ⟨.none, .disabled, false, false⟩ ∧ State.reset.ee.data = [] ∧ State.reset.ee.size = .small
    ∧ State.reset.ee.sizeLock = false ∧ State.reset.fl.data0 = [] ∧ State.reset.fl.data1 = [] ∧ State.reset.sram = []
    ∧ State.reset.mem.within (inAddressSpace Config.default) = true ∧ (∃ t, exec .reset State.reset = .next t) :=
  ⟨rfl, rfl, rfl, rfl, rfl, rfl, rfl, rfl, next_of_completes rfl⟩

/-- The three invariants hold of a block with a waiting channel, a Flash128 cartridge and a byte of WRAM, and it steps. -/
def busyBlock : State :=
  { withBytes [(0x02000000, 0x11), (0x040000BB, 0xA0)] ((withCart .flash128 .rtc).setChan 0 (armed 0x02000000 0x03000000 1 0xA000)) with
    inputs := [encodeEvent 0x12 0 0] }

theorem witness_StepKeepsStores : busyBlock.storesOk Config.default = true := by decide +kernel
theorem witness_StepKeepsChannels : busyBlock.dmaOk Config.default := by
  unfold State.dmaOk State.chanOk; decide +kernel
theorem witness_StepKeepsEngines : busyBlock.enginesOk Config.default := by
  unfold State.enginesOk State.inactiveOk Flash.ok Gpio.ok; exact ⟨rfl, by decide +kernel⟩
theorem witness_busyBlock_steps : ∃ t, step busyBlock = .next t := next_of_completes (i := .hblank) (s := busyBlock.setInputs []) (by decide +kernel)

theorem witness_OnlyLoadsChangeCartridgeAndRom :
    (∃ t, exec (.wr8 0x08000000 0xFF) State.reset = .next t) ∧ (∀ m, Instr.wr8 0x08000000 0xFF ≠ .loadfw m)
    ∧ (∀ m b g, Instr.wr8 0x08000000 0xFF ≠ .loadcart m b g) ∧ Instr.wr8 0x08000000 0xFF ≠ .reset
    ∧ regionOf Config.default 0x00003FFF = .bios ∧ regionOf Config.default 0x0DFFFFFF = .rom :=
  ⟨next_of_completes (by decide +kernel), fun _ h => (by cases h), fun _ _ _ h => (by cases h), by decide, by decide +kernel, by decide +kernel⟩

/-- OnlyThreeRefusals: two of the refusals on small states; the third is `witness_imageTooLarge` at LOADCART. -/
theorem witness_OnlyThreeRefusals :
    exec (.wr16 0x040000BA 0x8180) State.reset = .refused .sac3
    ∧ exec (.forcedma 3) (withChan 3 (armed 0x02000000 0x040000B0 1 0x8000)) = .refused .dmaWritesDmaRegisters :=
  ⟨refused_of_refusal (by decide +kernel), refused_of_refusal (by decide +kernel)⟩

end Sys2Proof.Tests
end

section
/-! PROOF. The step model (00_scope.md R8): a step runs the instruction its word decodes to, and no instruction reads the outputs of an earlier step. -/

namespace Sys2Proof.Machine

/-! ## A step by what is presented -/

section
variable {c : Config} {s : State} {p : Presented} {rest : List Presented}

theorem stepIn_of_decode_ok {i : Instr} (hin : s.inputs = p :: rest) (hd : decode c s.ctx p = .ok i) :
    stepIn c s = execIn c i (s.setInputs rest) := by
  simp only [stepIn, hin, hd]

theorem stepIn_of_decode_error {e : DecodeError} (hin : s.inputs = p :: rest) (hd : decode c s.ctx p = .error e) :
    stepIn c s = .refused (.notAnEvent e) := by
  simp only [stepIn, hin, hd]

theorem stepIn_of_inputs_nil (hin : s.inputs = []) : stepIn c s = .next s.start := by
  simp only [stepIn, hin]

end

/-- Settles O1: each clause is the step under a configuration, at the default one where the clause speaks of `step`. -/
theorem stepRunsDecodedInstruction : Obligations.StepRunsDecodedInstruction := by
  unfold Obligations.StepRunsDecodedInstruction
  refine ⟨?decoded, ?noOperation, ?nothingPresented, ?anyConfig, step_eq_stepIn⟩
  case decoded =>
    intro s p rest i hin hd
    rw [step_eq_stepIn, stepIn_of_decode_ok hin hd, exec_eq_execIn]
    rfl
  case noOperation =>
    intro s p rest e hin hd
    rw [step_eq_stepIn, stepIn_of_decode_error hin hd]
  case nothingPresented =>
    intro s hin
    rw [step_eq_stepIn, stepIn_of_inputs_nil hin]
    rfl
  case anyConfig => exact fun c s p rest i hin hd => stepIn_of_decode_ok hin hd

/-! ## Reads and instructions after other outputs

An instruction meets the state before it in two ways: through `State.start`, which drops the outputs, and through a read of the
stores and engines, which stand beside them. -/

@[simp] theorem State.start_setOut (s : State) (o : Outputs) : (s.setOut o).start = s.start := rfl

@[simp] theorem readByte_setOut (c : Config) (s : State) (o : Outputs) (a : Addr) :
    readByte c (s.setOut o) a = readByte c s a :=
  readByte_congr c rfl rfl rfl rfl rfl a

@[simp] theorem memRead_setOut (c : Config) (s : State) (o : Outputs) (a : Addr) (n : Nat) :
    memRead c (s.setOut o) a n = memRead c s a n :=
  memRead_congr c (readByte_setOut c s o) a n

@[simp] theorem unitRead_setOut (c : Config) (s : State) (o : Outputs) (a : Addr) (w : UnitWidth) :
    unitRead c (s.setOut o) a w = unitRead c s a w := by
  unfold unitRead
  rw [memRead_setOut]
  rfl

theorem busRead_setOut (c : Config) (w : AccessWidth) (a : Addr) (s : State) (o : Outputs) :
    busRead c w a (s.setOut o) = busRead c w a s := by
  simp [busRead]

theorem fastRead_setOut (c : Config) (w : AccessWidth) (a : Addr) (s : State) (o : Outputs) :
    fastRead c w a (s.setOut o) = fastRead c w a s := by
  simp [fastRead]

/-- No instruction reads earlier outputs, under any configuration (00_scope.md R8, 10_state.md R20). The instructions not named
take `State.start` and the fields beside `out` only, which `setOut` leaves as they are by definition. -/
theorem execIn_setOut (c : Config) (i : Instr) (s : State) (o : Outputs) :
    execIn c i (s.setOut o) = execIn c i s := by
  cases i with
  | rd8 a | rd16 a | rd32 a => simp only [execIn, rd8In, rd16In, rd32In, busRead_setOut]
  | frd8 a | frd16 a | frd32 a => simp only [execIn, frd8In, frd16In, frd32In, fastRead_setOut]
  | gprd k lane => simp only [execIn, gprdIn, readByte_setOut, State.start_setOut]
  | eerdbit a w => simp only [execIn, eerdbitIn, unitRead_setOut, State.start_setOut]
  | _ => rfl

/-- Settles O60: `exec` is the block under the defaults, and under any configuration earlier outputs have no part in it. -/
theorem outputsAreNotState : Obligations.OutputsAreNotState := by
  unfold Obligations.OutputsAreNotState
  intro i s o
  rw [exec_eq_execIn, exec_eq_execIn]
  exact execIn_setOut Config.default i s o

end Sys2Proof.Machine
end

section
/-! PROOF. The invariants of 10_state.md: every step keeps the stores, the channels and the engines as they must be between steps, and only the loads change the configuration and, RESET apart, a BIOS or ROM byte. -/

namespace Sys2Proof.Machine

/-! ## One induction step for all invariants

A step either clears the outputs only, or takes its word from the input list and runs the decoded instruction, which is selected
in the engine state that the word was read in (30_encoding.md R112). -/

/-- An invariant that does not look at the outputs and the input list, and that every instruction keeps in an engine state that
selects it, is kept by every step. -/
theorem step_keeps {P : State → Prop} (hstart : ∀ {s}, P s → P s.start) (hinputs : ∀ {s} l, P s → P (s.setInputs l))
    (hexec : ∀ {i s t}, exec i s = .next t → i.selectedIn Config.default s.ctx = true → P s → P t)
    {s t : State} (hs : P s) (h : step s = .next t) : P t := by
  rcases step_cases h with ⟨-, rfl⟩ | ⟨p, rest, i, -, hdecode, hrun⟩
  · exact hstart hs
  · obtain ⟨-, hselected⟩ := decode_sel hdecode
    exact hexec hrun hselected (hinputs rest hs)

/-- Settles O54: every instruction keeps each store canonical and within its addresses, in any engine state. -/
theorem stepKeepsStores : Obligations.StepKeepsStores := by
  unfold Obligations.StepKeepsStores
  intro s t hs h
  rw [storesOk_iff] at hs ⊢
  exact step_keeps (P := StoresOk) id (fun _ hs => hs) (fun hrun _ hs => exec_stores hrun hs) hs h

/-- Settles O55: every instruction keeps the channels, in any engine state; a run it starts ends with its channel Idle and bit 15
of `CNT_H` cleared, or Armed at the start of its pass. -/
theorem stepKeepsChannels : Obligations.StepKeepsChannels := by
  unfold Obligations.StepKeepsChannels
  intro s t hs h
  exact step_keeps (P := State.dmaOk Config.default) id (fun _ hs => hs) (fun hrun _ hs => exec_dma hrun hs) hs h

/-- Settles O56: here the decoded row must be selected, for a Flash command run beside a pending flag would leave it pending
beside an unlock prefix or an armed erase. -/
theorem stepKeepsEngines : Obligations.StepKeepsEngines := by
  unfold Obligations.StepKeepsEngines
  intro s t hs h
  exact step_keeps (P := State.enginesOk Config.default) id (fun _ hs => hs) exec_engines hs h

/-! ## The configuration and the read-only regions -/

/-- Settles O58: a written byte or a DMA run reaches `AS` outside BIOS and ROM only, and no change but a load's is to `cart`. -/
theorem onlyLoadsChangeCartridgeAndRom : Obligations.OnlyLoadsChangeCartridgeAndRom := by
  unfold Obligations.OnlyLoadsChangeCartridgeAndRom
  intro i s t hrun hnotLoadfw hnotLoadcart
  exact exec_cartRom hrun hnotLoadfw hnotLoadcart

end Sys2Proof.Machine
end

section
/-! PROOF. Memory (20_memory.md): what an address decodes to, a write read back, ignored writes, bytes of the I/O region. -/

namespace Sys2Proof.Machine

/-! ## Decode -/

/-- A tag, and the offset of an address from the tag's first address. -/
def taggedOffset (a : Addr) (t : Tag) : Tag × Addr := (t, a - tagBase Config.default t)

theorem decodeAddr_eq_taggedOffset (g : GpioType) (a : Addr) :
    decodeAddr Config.default g a = taggedOffset a (decodeTag Config.default g a) := rfl

/-- Settles O6: the offset follows the tag through each range of `decodeTag_default`. -/
theorem decodeMapsAddressToRegion : Obligations.DecodeMapsAddressToRegion := by
  unfold Obligations.DecodeMapsAddressToRegion
  intro g a
  rw [decodeAddr_eq_taggedOffset, decodeTag_default]
  simp only [BitVec.le_def, BitVec.reduceToNat, apply_ite (taggedOffset a)]
  simp only [taggedOffset, tagBase, default_bios, default_wram, default_iwram, default_io, default_pal, default_vram,
    default_oam, default_rom, default_bkp, default_gpioBase, BitVec.ofNat_eq_ofNat, BitVec.sub_zero]

/-! ## Writes outside the control registers -/

section
variable {s : State} {a : Addr} {bs : List Byte} {i j : Instr}

/-- Every byte of a `CNT_H` is a byte of the I/O region, whatever the cartridge. -/
theorem not_cntHByte_of_tag_ne_io {g : GpioType} (h : decodeTag Config.default g a ≠ .io) :
    isCntHByte Config.default a = false :=
  cntH_in_block (by simpa using mt dmaBlock_io h)

theorem not_cntHByte_of_roundTripByte (h : roundTripByte Config.default s a = true) :
    isCntHByte Config.default a = false := by
  by_cases hio : decodeTag Config.default s.cart.gpioType a = .io
  · simpa [roundTripByte, hio] using h
  · exact not_cntHByte_of_tag_ne_io hio

theorem not_cntHByte_of_ignoresWrites (h : ignoresWrites Config.default s a = true) :
    isCntHByte Config.default a = false := by
  refine not_cntHByte_of_tag_ne_io (g := s.cart.gpioType) fun hio => ?_
  simp [ignoresWrites, hio] at h

/-! ## A write read back -/

/-- A write to round-trip addresses completes, and its bytes are what is read from there (20_memory.md R79). -/
theorem exec_write_readBytes (hi : writeAccess i = some (a, bs))
    (hr : ∀ k, k < bs.length → roundTripByte Config.default s (a + BitVec.ofNat 32 k) = true) :
    ∃ t, exec i s = .next t ∧ readBytes Config.default t a bs.length = bs := by
  obtain ⟨t, hexec, hbytes⟩ := exec_write_plain hi s fun k hk => not_cntHByte_of_roundTripByte (hr k hk)
  have hlen : bs.length ≤ 4 := by have := writeAccess_length hi; omega
  have hstart : ∀ k, k < bs.length → roundTripByte Config.default (writeStart i s) (a + BitVec.ofNat 32 k) = true := by
    simpa only [roundTripByte, writeStart_cart] using hr
  have hread := writeBytes_read hlen hstart hbytes
  refine ⟨t, hexec, List.ext_getElem (readBytes_length ..) fun k hk hk' => ?_⟩
  have hget := (readBytes_get Config.default t bs.length a hk').trans (hread k hk')
  rwa [List.getD_eq_getElem _ _ hk, List.getD_eq_getElem _ _ hk'] at hget

/-- The instruction reads `w` bytes from `a` on: it completes, and its value is theirs (40_bus_access.md R140 to R142,
R154 to R156). -/
def Reads (j : Instr) (w : AccessWidth) (a : Addr) : Prop :=
  ∀ t, ∃ u, exec j t = .next u ∧ u.out.value = some (readValue w (memRead Config.default t a w.bytes))

/-- The round trip of a write `i` and a read `j` of its width: the value read is the join of the bytes written. -/
theorem exec_write_read {w : AccessWidth} (hi : writeAccess i = some (a, bs)) (hlen : bs.length = w.bytes) (hj : Reads j w a)
    (hr : ∀ k, k < bs.length → roundTripByte Config.default s (a + BitVec.ofNat 32 k) = true) :
    ∃ t u, exec i s = .next t ∧ exec j t = .next u ∧ u.out.value = some (readValue w (joinLE bs)) := by
  obtain ⟨t, hexec, hbytes⟩ := exec_write_readBytes hi hr
  obtain ⟨u, hread, hvalue⟩ := hj t
  refine ⟨t, u, hexec, hread, ?_⟩
  rw [hvalue, memRead, ← hlen, hbytes]

theorem readValue_byte (v : Byte) : readValue .byte (joinLE [v]) = .byte v := by
  simp only [readValue, joinLE_one]

theorem readValue_halfBytes (v : Half) : readValue .half (joinLE (halfBytes v)) = .half v := by
  simp only [readValue, halfBytes, joinLE_two, halfBytes_join]

theorem readValue_wordBytes (v : Word) : readValue .word (joinLE (wordBytes v)) = .word v := by
  simp only [readValue, wordBytes, joinLE_four, wordBytes_join]

end

/-- Settles O12: `exec_write_read` at the three widths, plain and fast. -/
theorem writeThenReadRoundTrip : Obligations.WriteThenReadRoundTrip := by
  unfold Obligations.WriteThenReadRoundTrip
  refine fun s a => ⟨fun v hr => ?byte, fun v hr => ?half, fun v hr => ?word⟩
  case byte =>
    have hr : ∀ k, k < [v].length → roundTripByte Config.default s (a + BitVec.ofNat 32 k) = true := by simpa using hr
    rw [← readValue_byte v]
    exact ⟨exec_write_read rfl rfl (fun _ => ⟨_, rfl, rfl⟩) hr, exec_write_read rfl rfl (fun _ => ⟨_, rfl, rfl⟩) hr⟩
  case half =>
    rw [← readValue_halfBytes v]
    exact ⟨exec_write_read rfl rfl (fun _ => ⟨_, rfl, rfl⟩) hr, exec_write_read rfl rfl (fun _ => ⟨_, rfl, rfl⟩) hr⟩
  case word =>
    rw [← readValue_wordBytes v]
    exact ⟨exec_write_read rfl rfl (fun _ => ⟨_, rfl, rfl⟩) hr, exec_write_read rfl rfl (fun _ => ⟨_, rfl, rfl⟩) hr⟩

/-! ## Ignored writes -/

section
variable {s : State} {a : Addr} {org : Origin}

/-- Where writes are ignored: the tag says so, or the backup window has no device on the bus (20_memory.md R68). -/
theorem ignoresWrites_cases (h : ignoresWrites Config.default s a = true) :
    (decodeTag Config.default s.cart.gpioType a = .bios ∨ decodeTag Config.default s.cart.gpioType a = .rom
      ∨ decodeTag Config.default s.cart.gpioType a = .unmapped)
    ∨ (decodeTag Config.default s.cart.gpioType a = .bkp
      ∧ (s.cart.backupType = .none ∨ s.cart.backupType = .eeprom)) := by
  unfold ignoresWrites at h
  cases htag : decodeTag Config.default s.cart.gpioType a with
  | bkp => exact .inr ⟨rfl, by simpa [htag] using h⟩
  | bios | rom | unmapped => exact .inl (by decide)
  | _ => simp [htag] at h

/-- A byte written where writes are ignored, by anyone, leaves the state as it is. -/
theorem writeByte_ignored (b : Byte) (h : ignoresWrites Config.default s a = true) :
    writeByte Config.default org a b s = .ok s := by
  unfold writeByte
  rcases ignoresWrites_cases h with (htag | htag | htag) | ⟨htag, hdevice | hdevice⟩
  · simp only [htag]
  · simp only [htag]
  · simp only [htag]
  · simp only [htag, backupWriteByte, hdevice]
  · simp only [htag, backupWriteByte, hdevice]

/-- Bytes all written where writes are ignored. -/
theorem writeBytes_ignored {bs : List Byte}
    (h : ∀ k, k < bs.length → ignoresWrites Config.default s (a + BitVec.ofNat 32 k) = true) :
    writeBytes Config.default org a bs s = .ok s := by
  induction bs generalizing a with
  | nil => rfl
  | cons b bs ih =>
    have hfirst : ignoresWrites Config.default s a = true := by simpa using h 0 (by simp)
    simp only [writeBytes, writeByte_ignored b hfirst]
    exact ih fun k hk => by rw [add_one_ofNat]; exact h (k + 1) (by simpa using hk)

theorem writeStart_eq (i : Instr) (s : State) :
    writeStart i s = { s with tc := (writeStart i s).tc, out := (writeStart i s).out } := by
  unfold writeStart; split <;> rfl

end

/-- Settles O13: the transaction ends in the state in which its bytes are written, the class of a plain write recorded. -/
theorem ignoredWritesChangeNothing : Obligations.IgnoredWritesChangeNothing := by
  unfold Obligations.IgnoredWritesChangeNothing
  intro i a bs s hi hignores
  obtain ⟨t, hexec, hbytes⟩ := exec_write_plain hi s fun k hk => not_cntHByte_of_ignoresWrites (hignores k hk)
  have hstart : ∀ k, k < bs.length → ignoresWrites Config.default (writeStart i s) (a + BitVec.ofNat 32 k) = true := by
    simpa only [ignoresWrites, writeStart_cart] using hignores
  obtain rfl : writeStart i s = t := by simpa only [writeBytes_ignored hstart, Except.ok.injEq] using hbytes
  exact ⟨_, hexec, writeStart_eq i s, writeStart_signals i s, writeStart_value i s, writeStart_host i s⟩

/-! ## Bytes of the I/O region -/

section
variable {a : Addr}

/-- The owner ranges of 20_memory.md R76 inside the I/O region, as bounds. -/
theorem forwards_default (b : Byte) (h : 0x04000000 ≤ a.toNat) : forwards Config.default a b =
    if a.toNat ≤ 0x0400005F then [.forward .lcd a b]
    else if a.toNat ≤ 0x040000AF then [.forward .apu a b]
    else if 0x04000100 ≤ a.toNat ∧ a.toNat ≤ 0x0400010F then [.forward .tmr a b]
    else [] := by
  simp only [forwards, Range.has_iff, default_lcdIo, default_apuIo, default_tmrIo, BitVec.reduceToNat]
  by_cases hlcd : a.toNat ≤ 0x0400005F
  · simp (disch := omega) only [if_pos, if_neg, List.append_nil]
  by_cases hapu : a.toNat ≤ 0x040000AF
  · simp (disch := omega) only [if_pos, if_neg, List.append_nil, List.nil_append]
  by_cases htmr : 0x04000100 ≤ a.toNat ∧ a.toNat ≤ 0x0400010F
  · simp (disch := omega) only [if_pos, if_neg, List.nil_append]
  · simp (disch := omega) only [if_neg, List.nil_append]

/-- Nothing of the DMA block is forwarded. -/
theorem forwards_dmaBlock (b : Byte) (h : inDmaBlock Config.default a = true) : forwards Config.default a b = [] := by
  have hbounds := (inDmaBlock_default a).mp h
  rw [forwards_default b (by omega), if_neg (by omega), if_neg (by omega), if_neg (by omega)]

theorem decodeTag_io (g : GpioType) (h : 0x04000000 ≤ a.toNat ∧ a.toNat ≤ 0x040003FF) :
    decodeTag Config.default g a = .io := by
  rw [decodeTag_default, if_neg (by omega), if_neg (by omega), if_neg (by omega), if_neg (by omega), if_pos h]

@[simp] theorem State.emit_nil (s : State) : s.emit [] = s := by simp [State.emit, State.setOut]

/-- A byte written by the CPU to the I/O region outside `CNT_H` is stored unmasked and forwarded, in the DMA block too, where
the forwards are none (40_bus_access.md R151). -/
theorem writeByte_io {s : State} (b : Byte) (htag : decodeTag Config.default s.cart.gpioType a = .io)
    (hno : isCntHByte Config.default a = false) :
    writeByte Config.default .cpu a b s = .ok ((s.setMem (s.mem.write a.toNat b)).emit (forwards Config.default a b)) := by
  unfold writeByte
  simp only [htag]
  split
  next hblock =>
    have hmask : b &&& ioMask Config.default a = b := by rw [ioMask_full hno]; exact BitVec.and_allOnes
    rw [forwards_dmaBlock b hblock, State.emit_nil, writeDmaRegByte, hmask]
  next => rfl

end

/-- Settles O14: FWR8 is its one byte, written to the I/O region from cleared outputs. -/
theorem ioByteIsStoredAndForwarded : Obligations.IoByteIsStoredAndForwarded := by
  unfold Obligations.IoByteIsStoredAndForwarded
  intro s a b hfirst hlast hno
  obtain ⟨t, hexec, hbytes⟩ := exec_write_plain (i := .fwr8 a b) rfl s (by simpa using hno)
  obtain ⟨u, hbyte, hrest⟩ := writeBytes_cons hbytes
  simp only [BitVec.le_def, BitVec.reduceToNat] at hfirst hlast ⊢
  rw [writeByte_io b (decodeTag_io _ ⟨hfirst, hlast⟩) hno, forwards_default b hfirst] at hbyte
  rw [hexec]
  cases hbyte
  cases hrest
  rfl

end Sys2Proof.Machine
end

section
/-! PROOF. The encodings of 30_encoding.md: a word and its instruction say the same, in the engine states that select the row, and the reserved headers start no event. -/

namespace Sys2Proof.Machine

open Laws

/-! ## Decoding an encoding -/

/-- Every row is read back from its word: by row, the law of that row (spec/opcode_table.json, in its order). -/
theorem decode_encode (i : Instr) : EncodeDecode.Statement i := by
  cases i with
  | rd8 a => exact EncodeDecode.rd8 a
  | rd16 a => exact EncodeDecode.rd16 a
  | rd32 a => exact EncodeDecode.rd32 a
  | wr8 a v => exact EncodeDecode.wr8 a v
  | wr16 a v => exact EncodeDecode.wr16 a v
  | wr32 a v => exact EncodeDecode.wr32 a v
  | frd8 a => exact EncodeDecode.frd8 a
  | frd16 a => exact EncodeDecode.frd16 a
  | frd32 a => exact EncodeDecode.frd32 a
  | fwr8 a v => exact EncodeDecode.fwr8 a v
  | fwr16 a v => exact EncodeDecode.fwr16 a v
  | fwr32 a v => exact EncodeDecode.fwr32 a v
  | reset => exact EncodeDecode.reset
  | vblank => exact EncodeDecode.vblank
  | hblank => exact EncodeDecode.hblank
  | fifoA => exact EncodeDecode.fifoA
  | fifoB => exact EncodeDecode.fifoB
  | dmatick => exact EncodeDecode.dmatick
  | sensor v => exact EncodeDecode.sensor v
  | cstore a b => exact EncodeDecode.cstore a b
  | forcedma ch => exact EncodeDecode.forcedma ch
  | loadfw image => exact EncodeDecode.loadfw image
  | loadcart image backup gpio => exact EncodeDecode.loadcart image backup gpio
  | loadbkp file => exact EncodeDecode.loadbkp file
  | savebkp sink => exact EncodeDecode.savebkp sink
  | dmasad ch a => exact EncodeDecode.dmasad ch a
  | dmadad ch a => exact EncodeDecode.dmadad ch a
  | dmacnt ch n => exact EncodeDecode.dmacnt ch n
  | dmaarm ch f => exact EncodeDecode.dmaarm ch f
  | dmaoff ch f => exact EncodeDecode.dmaoff ch f
  | fldata off v => exact EncodeDecode.fldata off v
  | flbanksel off v => exact EncodeDecode.flbanksel off v
  | flkey1 => exact EncodeDecode.flkey1
  | flkey2 => exact EncodeDecode.flkey2
  | flidenter => exact EncodeDecode.flidenter
  | flidexit => exact EncodeDecode.flidexit
  | flerasesetup => exact EncodeDecode.flerasesetup
  | flchiperase => exact EncodeDecode.flchiperase
  | flprogram => exact EncodeDecode.flprogram
  | flbank => exact EncodeDecode.flbank
  | flsectorerase off => exact EncodeDecode.flsectorerase off
  | flignored off v => exact EncodeDecode.flignored off v
  | flread off => exact EncodeDecode.flread off
  | eerdreq6 src a stop => exact EncodeDecode.eerdreq6 src a stop
  | eerdreq14 src a stop => exact EncodeDecode.eerdreq14 src a stop
  | eewr6 src a d stop => exact EncodeDecode.eewr6 src a d stop
  | eewr14 src a d stop => exact EncodeDecode.eewr14 src a d stop
  | eebad src bits => exact EncodeDecode.eebad src bits
  | eerdbit a w => exact EncodeDecode.eerdbit a w
  | gpwrdata lane b => exact EncodeDecode.gpwrdata lane b
  | gpwrdir lane b => exact EncodeDecode.gpwrdir lane b
  | gpwrctl lane b => exact EncodeDecode.gpwrctl lane b
  | gpwrrsv lane b => exact EncodeDecode.gpwrrsv lane b
  | gprd k lane => exact EncodeDecode.gprd k lane

/-- Settles O3, row by row. -/
theorem decodeOfEncode : Obligations.DecodeOfEncode := by
  unfold Obligations.DecodeOfEncode
  exact decode_encode

/-- Settles O4, port by port: the laws of the header byte, of the Flash rows and of the burst forms stand behind `decode_sel`. -/
theorem decodedIsWellFormedAndSelected : Obligations.DecodedIsWellFormedAndSelected := by
  unfold Obligations.DecodedIsWellFormedAndSelected
  intro x p i hdecode
  exact decode_sel hdecode

/-! ## Reserved headers -/

/-- Operands beside the word that fit its header: those of the HOST event it starts, else none (30_encoding.md R102). -/
def fittingSide (h : Byte) : Side :=
  if h = 0x20 then .image .unopenable
  else if h = 0x21 then .cart .unopenable none .disabled
  else if h = 0x22 then .file .missing
  else if h = 0x23 then .sink .unwritable
  else .none

/-- The reserved headers of 30_encoding.md R111, as numbers. -/
def ReservedHeader (n : Nat) : Prop :=
  n = 0x03 ∨ n = 0x07 ∨ n = 0x0B ∨ n = 0x0F ∨ (0x1C ≤ n ∧ n ≤ 0x1F) ∨ 0x24 ≤ n

theorem reservedHeader_iff (h : Byte) : ReservedHeader h.toNat ↔
    (h = 0x03 ∨ h = 0x07 ∨ h = 0x0B ∨ h = 0x0F ∨ (0x1C ≤ h ∧ h ≤ 0x1F) ∨ 0x24 ≤ h) := by
  simp only [ReservedHeader, ← BitVec.toNat_inj, BitVec.le_def, BitVec.reduceToNat]

section
variable {c : Config} {h : Byte} {addr data : Word}

/-- A reserved header starts no event, whatever stands beside it: each row's header is another, and past the rows are errors. -/
theorem not_reservedHeader_of_decodeHeader {side : Side} {i : Instr} (hd : decodeHeader c h addr data side = .ok i) :
    ¬ ReservedHeader h.toNat := by
  unfold decodeHeader at hd
  unfold ReservedHeader
  split at hd
  case h_29 => split_ifs at hd
  all_goals omega

/-- A header that is not reserved has a row, and is read as it with fitting operands beside the word. -/
theorem decodeHeader_fittingSide (hfree : ¬ ReservedHeader h.toNat) :
    ∃ i, decodeHeader c h addr data (fittingSide h) = .ok i := by
  unfold decodeHeader
  split
  case h_25 hhdr => obtain rfl : h = 0x20 := BitVec.eq_of_toNat_eq hhdr; exact ⟨_, rfl⟩
  case h_26 hhdr => obtain rfl : h = 0x21 := BitVec.eq_of_toNat_eq hhdr; exact ⟨_, rfl⟩
  case h_27 hhdr => obtain rfl : h = 0x22 := BitVec.eq_of_toNat_eq hhdr; exact ⟨_, rfl⟩
  case h_28 hhdr => obtain rfl : h = 0x23 := BitVec.eq_of_toNat_eq hhdr; exact ⟨_, rfl⟩
  case h_29 => grind [ReservedHeader]
  all_goals exact ⟨_, rfl⟩

end

/-- Settles O5: an event word is decoded by its header, and a HOST header has operands that fit it. -/
theorem reservedHeadersAreNoEvents : Obligations.ReservedHeadersAreNoEvents := by
  unfold Obligations.ReservedHeadersAreNoEvents
  intro x h addr data
  simp only [EncodeDecode.decode_event, ← reservedHeader_iff]
  constructor
  · rintro ⟨side, i, hdecode⟩
    exact not_reservedHeader_of_decodeHeader hdecode
  · intro hfree
    exact ⟨fittingSide h, decodeHeader_fittingSide hfree⟩

/-! ## Words written out -/

/-- A word that is an instruction's encoding is read as that instruction. -/
theorem decode_of_eq_encode {x : DecodeCtx} {p : Presented} {i : Instr} (hp : p = encode Config.default i)
    (hwf : i.WellFormed = true) (hsel : i.selectedIn Config.default x = true) : decode Config.default x p = .ok i := by
  rw [hp]
  exact decode_encode i x hwf hsel

/-- Settles O2: each word is the encoding of its instruction, whose row the state selects. -/
theorem specWordsDecode : Obligations.SpecWordsDecode := by
  unfold Obligations.SpecWordsDecode
  refine ⟨?rd16, ?wr32, ?forcedma, ?dmaarm, ?flsectorerase, ?eerdreq6, ?gpwrdir⟩
  all_goals exact decode_of_eq_encode (by decide) (by decide) (by decide)

end Sys2Proof.Machine
end

section
/-! PROOF. Bus accesses (40_bus_access.md): what a byte reads as, the reads, the timing class of every access, writes outside the control registers and through them, the collaborators' stores. -/

namespace Sys2Proof.Machine

/-! ## One byte read -/

section
variable {c : Config} {s : State} {a : Addr}

theorem readByte_of_isStoreTag (h : isStoreTag (decodeTag c s.cart.gpioType a) = true) : readByte c s a = s.asByte a := by
  cases htag : decodeTag c s.cart.gpioType a with
  | bkp | gpio | unmapped => simp [htag, isStoreTag] at h
  | _ => simp only [readByte, htag]

theorem readByte_of_bkp (h : decodeTag c s.cart.gpioType a = .bkp) :
    readByte c s a = backupReadByte c s (bkpOffset c a) := by
  simp only [readByte, h]

theorem readByte_of_unmapped (h : decodeTag c s.cart.gpioType a = .unmapped) : readByte c s a = c.openBusByte := by
  simp only [readByte, h]

end

/-- Settles O7: the byte of a store, of the device in the backup window, or of the open bus. -/
theorem byteReadByRegion : Obligations.ByteReadByRegion := by
  unfold Obligations.ByteReadByRegion
  refine fun s a => ⟨readByte_of_isStoreTag, fun hbkp => ?backup, readByte_of_unmapped⟩
  rw [readByte_of_bkp hbkp]
  refine ⟨fun hsram => ?sram, fun hflash => ?flash, fun hnone => ?none⟩
  case sram => simp only [backupReadByte, hsram, bkpOffset_toNat hbkp]
  case flash => rcases hflash with hflash | hflash <;> simp only [backupReadByte, hflash] <;> rfl
  case none => rcases hnone with hnone | hnone <;> simp only [backupReadByte, hnone] <;> rfl

/-! ## Reads -/

section
variable (c : Config) (s : State) (a : Addr)

/-- The three widths of a read, as the bytes at ascending addresses (20_memory.md R63, R65). -/
theorem readValue_memRead_byte : readValue .byte (memRead c s a 1) = .byte (readByte c s a) := by
  simp only [readValue, memRead, readBytes, joinLE_one]

theorem readValue_memRead_half :
    readValue .half (memRead c s a 2) = .half (readByte c s (a + 1) ++ readByte c s a) := by
  simp only [readValue, memRead, readBytes, joinLE_two]

theorem readValue_memRead_word :
    readValue .word (memRead c s a 4)
      = .word (readByte c s (a + 3) ++ readByte c s (a + 2) ++ readByte c s (a + 1) ++ readByte c s a) := by
  have htwo : a + 1 + 1 = a + 2 := add_one_ofNat a 1
  have hthree : a + 2 + 1 = a + 3 := by rw [← htwo, BitVec.add_assoc, BitVec.add_assoc]; rfl
  simp only [readValue, memRead, readBytes, joinLE_four, htwo, hthree]

/-- A classified read changes `tc` and the outputs only (40_bus_access.md R140 to R142). -/
theorem busRead_eq (w : AccessWidth) : busRead c w a s = { s with
    tc := (classify c s.cart.gpioType s.tc a w.bytes).2
    out := ⟨some (readValue w (memRead c s a w.bytes)), some (classify c s.cart.gpioType s.tc a w.bytes).1, [], none⟩ } :=
  rfl

/-- A fast read answers the value of the classified read and changes the outputs only (R154 to R156). -/
theorem fastRead_eq (w : AccessWidth) :
    fastRead c w a s = { s with out := ⟨(busRead c w a s).out.value, none, [], none⟩ } := rfl

end

/-- Settles O8: each width is `busRead`, its value the join of the bytes. -/
theorem readsReturnBytesLittleEndian : Obligations.ReadsReturnBytesLittleEndian := by
  unfold Obligations.ReadsReturnBytesLittleEndian
  intro s a
  rw [← readValue_memRead_byte, ← readValue_memRead_half, ← readValue_memRead_word]
  exact ⟨congrArg Host.Outcome.next (busRead_eq _ s a .byte), congrArg Host.Outcome.next (busRead_eq _ s a .half),
    congrArg Host.Outcome.next (busRead_eq _ s a .word)⟩

/-- Settles O9: each width is `fastRead`, whose value is `busRead`'s. -/
theorem fastReadsChangeNothing : Obligations.FastReadsChangeNothing := by
  unfold Obligations.FastReadsChangeNothing
  exact fun s a => ⟨⟨_, _, rfl, rfl, congrArg Host.Outcome.next (fastRead_eq _ s a .byte)⟩,
    ⟨_, _, rfl, rfl, congrArg Host.Outcome.next (fastRead_eq _ s a .half)⟩,
    ⟨_, _, rfl, rfl, congrArg Host.Outcome.next (fastRead_eq _ s a .word)⟩⟩

/-! ## The timing class -/

section
variable {c : Config} {g : GpioType} {x : Tc} {a : Addr} {n : Nat}

theorem classify_of_unmapped (h : decodeTag c g a = .unmapped) :
    classify c g x a n = (.nonseq, { x with valid := false }) := by
  simp only [classify, if_pos h]

theorem classify_of_mapped (h : decodeTag c g a ≠ .unmapped) :
    classify c g x a n = (if x.valid = true ∧ x.region = decodeTag c g a ∧ x.endAddr = a then .seq else .nonseq,
      ⟨true, decodeTag c g a, a + BitVec.ofNat 32 n⟩) := by
  simp only [classify, if_neg h]

end

/-- The timing bookkeeping is as it was: the record and the class reported (40_bus_access.md R153). -/
def SameClass (s t : State) : Prop := t.tc = s.tc ∧ t.out.cls = s.out.cls

section
variable {s t : State} {i : Instr} {a : Addr} {n : Nat}

theorem SameClass.refl (s : State) : SameClass s s := ⟨rfl, rfl⟩

/-- No written byte and no DMA run classifies an access. -/
theorem Prims.sameClass {c : Config} {O : Origin → Prop} {A : Chan → Prop} (h : Prims c O A s t) : SameClass s t := by
  obtain ⟨-, htc, -, -, -, hcls, -⟩ := h.frame
  exact ⟨htc, hcls⟩

/-- A classified access is a read, or a write transaction. -/
theorem classifiedAccess_cases (hc : classifiedAccess i = some (a, n)) :
    (∃ w : AccessWidth, w.bytes = n ∧ ∀ s, exec i s = .next (busRead Config.default w a s))
      ∨ ∃ bs, writeAccess i = some (a, bs) := by
  cases i with
  | rd8 _ => cases hc; exact .inl ⟨.byte, rfl, fun _ => rfl⟩
  | rd16 _ => cases hc; exact .inl ⟨.half, rfl, fun _ => rfl⟩
  | rd32 _ => cases hc; exact .inl ⟨.word, rfl, fun _ => rfl⟩
  | wr8 _ _ | wr16 _ _ | wr32 _ _ => cases hc; exact .inr ⟨_, rfl⟩
  | _ => cases hc

/-- A classified access reports and records its class, whatever run it starts. -/
theorem exec_classified (h : exec i s = .next t) (hc : classifiedAccess i = some (a, n)) :
    t.tc = (classify Config.default s.cart.gpioType s.tc a n).2
      ∧ t.out.cls = some (classify Config.default s.cart.gpioType s.tc a n).1 := by
  rcases classifiedAccess_cases hc with ⟨w, rfl, hread⟩ | ⟨bs, hwrite⟩
  · rw [hread] at h
    cases h
    exact ⟨rfl, rfl⟩
  · have hsame := (exec_write_prims hwrite h).sameClass
    rwa [writeStart_plain hc] at hsame

theorem dmaService_sameClass {c : Config} {ev : DmaEvent} (h : dmaService c ev s = .ok t) : SameClass s t :=
  (dmaService_prims (O := fun _ => True) (fun _ => trivial) h).sameClass

theorem writeControl_sameClass {c : Config} {ch : Chan} {w : Half} (h : writeControl c ch w s = .ok t) :
    SameClass s.start t :=
  (regCommit_prims (O := fun _ => True) (fun _ => trivial) h).sameClass

/-- The instructions that can start runs: primitive changes from a state with the class that the access itself records. -/
theorem exec_sameClass_of_mayRunDma (h : exec i s = .next t) (hm : mayRunDma i = true) :
    SameClass (writeStart i s) t := by
  cases i with
  | wr8 _ _ | wr16 _ _ | wr32 _ _ | fwr8 _ _ | fwr16 _ _ | fwr32 _ _ => exact (exec_write_prims rfl h).sameClass
  | vblank | hblank | fifoA | fifoB => exact dmaService_sameClass (toOutcome_next h)
  | dmatick => exact dmaService_sameClass (s := tickAll s.start) (toOutcome_next h)
  | dmaarm _ _ | dmaoff _ _ => exact writeControl_sameClass (toOutcome_next h)
  | forcedma _ =>
    exact (forceDma_prims (O := fun _ => True) (A := fun _ => True) (fun _ => trivial) trivial (toOutcome_next h)).sameClass
  | _ => cases hm

/-! The instructions that start no run: an engine row, a burst, a load or a save leaves the bookkeeping alone. -/

theorem onFlash_sameClass (f : BackupType → Flash → Flash) (s : State) : SameClass s.start (onFlash f s) := by
  unfold onFlash; split <;> exact .refl _

theorem onGpio_sameClass {f : State → State} (hf : ∀ s, SameClass s (f s)) (lane : Nat) (s : State) :
    SameClass s.start (onGpio lane f s) := by
  unfold onGpio
  split
  · exact .refl _
  split
  · exact .refl _
  · exact hf _

theorem burstIntoWindow_sameClass (c : Config) (src : Addr) (bits : List Bool) (s : State) :
    SameClass s.start (burstIntoWindow c src bits s) := by
  unfold burstIntoWindow; split <;> exact .refl _

theorem loadBackup_sameClass (c : Config) (file : List Byte) (s : State) : SameClass s.start (loadBackup c file s) := by
  unfold loadBackup; split <;> exact .refl _

theorem loadfwIn_sameClass {c : Config} {image : ImageArg} (h : loadfwIn c image s = .next t) : SameClass s.start t := by
  unfold loadfwIn at h
  split at h <;> cases h <;> exact .refl _

theorem loadcartIn_sameClass {c : Config} {image : ImageArg} {backup : Option BackupType} {g : GpioType}
    (h : loadcartIn c image backup g s = .next t) : SameClass s.start t := by
  unfold loadcartIn at h
  split at h
  · cases h; exact .refl _
  split at h <;> cases h
  exact .refl _

theorem loadbkpIn_sameClass {c : Config} {file : FileArg} (h : loadbkpIn c file s = .next t) : SameClass s.start t := by
  unfold loadbkpIn at h
  split at h <;> cases h
  · exact .refl _
  · exact .refl _
  · exact loadBackup_sameClass _ _ _

theorem savebkpIn_sameClass {c : Config} {sink : SinkArg} (h : savebkpIn c sink s = .next t) : SameClass s.start t := by
  unfold savebkpIn at h
  split at h <;> cases h <;> exact .refl _

/-- Every instruction but the classified accesses and RESET leaves the bookkeeping alone. -/
theorem exec_unclassified (h : exec i s = .next t) (hc : classifiedAccess i = none) (hreset : i ≠ .reset) :
    SameClass s.start t := by
  by_cases hm : mayRunDma i = true
  · have hsame := exec_sameClass_of_mayRunDma h hm
    rwa [writeStart_fast hc] at hsame
  cases i with
  | rd8 _ | rd16 _ | rd32 _ => cases hc
  | reset => exact absurd rfl hreset
  | wr8 _ _ | wr16 _ _ | wr32 _ _ | fwr8 _ _ | fwr16 _ _ | fwr32 _ _ | vblank | hblank | fifoA | fifoB | dmatick
  | forcedma _ | dmaarm _ _ | dmaoff _ _ => exact absurd rfl hm
  | loadfw _ => exact loadfwIn_sameClass h
  | loadcart _ _ _ => exact loadcartIn_sameClass h
  | loadbkp _ => exact loadbkpIn_sameClass h
  | savebkp _ => exact savebkpIn_sameClass h
  | fldata _ _ | flbanksel _ _ | flkey1 | flkey2 | flidenter | flidexit | flerasesetup | flchiperase | flprogram | flbank
  | flsectorerase _ | flignored _ _ => cases h; exact onFlash_sameClass _ _
  | eerdreq6 _ _ _ | eerdreq14 _ _ _ | eewr6 _ _ _ _ | eewr14 _ _ _ _ | eebad _ _ =>
    cases h; exact burstIntoWindow_sameClass _ _ _ _
  | gpwrdata _ b => cases h; exact onGpio_sameClass (f := gpioWriteData Config.default b) (fun _ => .refl _) _ _
  | gpwrdir _ b => cases h; exact onGpio_sameClass (f := gpioWriteDir Config.default b) (fun _ => .refl _) _ _
  | gpwrctl _ b => cases h; exact onGpio_sameClass (f := gpioWriteCtl b) (fun _ => .refl _) _ _
  | gpwrrsv _ _ => cases h; exact onGpio_sameClass (fun _ => .refl _) _ _
  | sensor _ => cases h; unfold senseInput; split <;> exact .refl _
  | cstore _ _ => cases h; unfold collabStore; split <;> exact .refl _
  | eerdbit _ _ => cases h; unfold afterUnitRead; split <;> exact .refl _
  | frd8 _ | frd16 _ | frd32 _ | dmasad _ _ | dmadad _ _ | dmacnt _ _ | flread _ | gprd _ _ => cases h; exact .refl _

end

/-- Settles O10: an access records `Classify`'s answer, and nothing after that or elsewhere touches the record. -/
theorem timingClassOfEveryAccess : Obligations.TimingClassOfEveryAccess := by
  unfold Obligations.TimingClassOfEveryAccess
  refine fun i s t h => ⟨fun a n hc => ?classified, exec_unclassified h⟩
  obtain ⟨htc, hcls⟩ := exec_classified h hc
  rw [htc, hcls]
  refine ⟨fun hunmapped => ?unmapped, fun hmapped => ?mapped⟩
  case unmapped =>
    rw [classify_of_unmapped hunmapped]
    exact ⟨rfl, rfl⟩
  case mapped =>
    rw [classify_of_mapped hmapped]
    by_cases hseq : s.tc.valid = true ∧ s.tc.region = decodeTag Config.default s.cart.gpioType a ∧ s.tc.endAddr = a
    · simp [hseq]
    · simp [hseq]

/-! ## Writes outside the control registers -/

section
variable {i : Instr} {a : Addr} {bs : List Byte} {s t : State} {n : Nat}

/-- The state in which a write's bytes are written differs from the state before it in `tc` and the outputs only, and a frame
speaks of neither. -/
theorem BytesFrame.of_writeStart (h : BytesFrame (writeStart i s) t a n) : BytesFrame s t a n := by
  rw [writeStart_eq] at h
  exact ⟨h.dma, h.ee, h.bytes, h.bkp, h.sram, h.gpio⟩

/-- A write that covers no byte of a `CNT_H` completes, and leaves alone what its bytes are not addressed to
(40_bus_access.md R150, R151). -/
theorem exec_write_frame (hi : writeAccess i = some (a, bs)) (s : State)
    (hno : ∀ k, k < bs.length → isCntHByte Config.default (a + BitVec.ofNat 32 k) = false) :
    ∃ t, exec i s = .next t ∧ BytesFrame s t a bs.length ∧ t.cart = s.cart ∧ t.inputs = s.inputs ∧ t.free = s.free
      ∧ t.tc = (writeStart i s).tc := by
  obtain ⟨t, hexec, hbytes⟩ := exec_write_plain hi s hno
  obtain ⟨hcart, htc, hinputs, hfree, -⟩ :=
    (writeBytes_prims (O := fun _ => True) (A := fun _ => False) trivial hbytes).frame
  rw [writeStart_cart] at hcart
  rw [writeStart_inputs] at hinputs
  rw [writeStart_free] at hfree
  exact ⟨t, hexec, (writeBytes_frame hbytes).of_writeStart, hcart, hinputs, hfree, htc⟩

end

/-- Settles O11: the frame of the bytes written, `exec_fast_bytes` and `exec_plain_fast`. -/
theorem writesCompleteWithFrame : Obligations.WritesCompleteWithFrame := by
  unfold Obligations.WritesCompleteWithFrame
  refine ⟨fun i a bs s hi hno => ?frame, fun i a bs s hi hfast hno => exec_fast_bytes hi hfast s hno,
    fun s a => ?plain⟩
  case frame =>
    obtain ⟨t, hexec, hframe, hcart, hinputs, hfree, htc⟩ := exec_write_frame hi s hno
    have hfast : classifiedAccess i = none → t.tc = s.tc := fun hc => by rw [htc, writeStart_fast hc, State.start_tc]
    exact ⟨t, hexec, hcart, hframe.dma, hframe.ee, hinputs, hfree, hfast, hframe.bytes, hframe.bkp, hframe.sram,
      hframe.gpio⟩
  case plain =>
    exact ⟨fun v => exec_plain_fast (bs := [v]) rfl rfl rfl rfl s,
      fun v => exec_plain_fast (bs := halfBytes v) rfl rfl rfl rfl s,
      fun v => exec_plain_fast (bs := wordBytes v) rfl rfl rfl rfl s⟩

/-! ## Collaborators' stores -/

section
variable (a : Addr) (b : Byte) (s : State)

theorem collaboratorOwns_default : collaboratorOwns Config.default a = true ↔
    (0x04000000 ≤ a ∧ a ≤ 0x0400005F) ∨ (0x04000060 ≤ a ∧ a ≤ 0x040000AF) ∨ (0x04000100 ≤ a ∧ a ≤ 0x0400010F) := by
  simp only [collaboratorOwns, Range.has, default_lcdIo, default_apuIo, default_tmrIo, Bool.or_eq_true, Bool.and_eq_true,
    decide_eq_true_eq, or_assoc]

/-- What a byte of `AS` is after a collaborator's store (40_bus_access.md R159). -/
theorem collabStore_asByte (c : Config) (a' : Addr) :
    (collabStore c a b s).asByte a' = if a' = a ∧ collaboratorOwns c a = true then b else s.asByte a' := by
  unfold collabStore
  by_cases howns : collaboratorOwns c a = true
  · simp only [howns, if_true, and_true]
    exact asByte_write s a a' b
  · rw [if_neg howns, if_neg fun hstore => howns hstore.2]
    rfl

/-- A collaborator's store changes `AS` only. -/
theorem collabStore_frame (c : Config) :
    collabStore c a b s = { s with mem := (collabStore c a b s).mem, out := .empty } := by
  unfold collabStore; split <;> rfl

end

/-- Settles O15: one byte of `AS`, in the collaborators' ranges. -/
theorem collaboratorStore : Obligations.CollaboratorStore := by
  unfold Obligations.CollaboratorStore
  refine fun s a b => ⟨collabStore Config.default a b s, rfl, collabStore_frame a b s _, fun a' => ?_⟩
  simp only [collabStore_asByte, collaboratorOwns_default]

/-! ## Writes that cover a control register -/

section
variable {i : Instr} {a b : Addr} {bs : List Byte} {s : State} {ch : Chan} {j k n : Nat}

/-- The bytes of an access of `n` bytes at `a` cover one or both bytes of `CNT_H(ch)` (10_state.md R25). -/
def CoversCntH (ch : Chan) (a : Addr) (n : Nat) : Prop :=
  ∃ j, j < n ∧ (a + BitVec.ofNat 32 j = cntHAddr Config.default ch
    ∨ a + BitVec.ofNat 32 j = cntHAddr Config.default ch + 1)

/-- An access of at most four bytes that covers `CNT_H(ch)` reaches no further than three bytes beside it. -/
theorem CoversCntH.near (h : CoversCntH ch a n) (hn : n ≤ 4) (hk : k < n) :
    0x040000B7 + 12 * ch.val ≤ (a + BitVec.ofNat 32 k).toNat
      ∧ (a + BitVec.ofNat 32 k).toNat ≤ 0x040000BE + 12 * ch.val := by
  obtain ⟨j, hj, hcover⟩ := h
  have hbyte : (a + BitVec.ofNat 32 j).toNat = 0x040000BA + 12 * ch.val
      ∨ (a + BitVec.ofNat 32 j).toNat = 0x040000BB + 12 * ch.val :=
    hcover.imp (fun hlow => by rw [hlow, cntHAddr_default]) (fun hhigh => by rw [hhigh, cntHAddr_succ_default])
  have hch := ch.isLt
  simp only [BitVec.toNat_add, BitVec.toNat_ofNat] at hbyte ⊢
  omega

/-- The registers lie twelve bytes apart: such an access covers one of them only. -/
theorem CoversCntH.unique {ch' : Chan} (h : CoversCntH ch a n) (h' : CoversCntH ch' a n) (hn : n ≤ 4) : ch' = ch := by
  obtain ⟨j, hj, hcover⟩ := h'
  have hnear := h.near hn hj
  have hlow := cntHAddr_default ch'
  have hhigh := cntHAddr_succ_default ch'
  apply Fin.ext
  rcases hcover with hcover | hcover <;> rw [hcover] at hnear <;> omega

/-- The write mask of such an access: 0xE0 for the low byte of the register, no other byte is masked (20_memory.md R77). -/
theorem CoversCntH.ioMask (h : CoversCntH ch a n) (hn : n ≤ 4) (hk : k < n) :
    ioMask Config.default (a + BitVec.ofNat 32 k)
      = if a + BitVec.ofNat 32 k = cntHAddr Config.default ch then 0xE0 else 0xFF := by
  by_cases hlow : a + BitVec.ofNat 32 k = cntHAddr Config.default ch
  · rw [if_pos hlow, hlow]
    exact ioMask_low (cntHAddr_default ch)
  rw [if_neg hlow]
  by_cases hany : isCntHByte Config.default (a + BitVec.ofNat 32 k) = true
  · obtain ⟨ch', hlow' | hhigh'⟩ := (isCntHByte_iff _).mp hany
    · have heq : a + BitVec.ofNat 32 k = cntHAddr Config.default ch' := addr_eq_of_toNat (by rw [hlow', cntHAddr_default])
      exact absurd (h.unique ⟨k, hk, .inl heq⟩ hn ▸ heq) hlow
    · exact ioMask_high hhigh'
  · exact ioMask_full (by simpa using hany)

/-- `touchedCntH` of such an access is that channel, however often. -/
theorem CoversCntH.regCommit (h : CoversCntH ch a n) (hn : n ≤ 4) (g : GpioType) (s : State) :
    regCommit Config.default (touchedCntH Config.default g a n) s = Machine.regCommit Config.default [ch] s :=
  regCommit_same (touchedCntH_mem n h) (fun _ hmem => h.unique (mem_touchedCntH n hmem) hn) s

/-- The state in which a write that covers a control register commits it: the memory after its bytes, the record of a plain
write, no outputs (40_bus_access.md R150, R152). -/
def commitState (i : Instr) (m : Memory) (s : State) : State :=
  { s with mem := m, tc := (writeStart i s).tc, out := .empty }

theorem setMem_writeStart (i : Instr) (m : Memory) (s : State) :
    (writeStart i s).setMem m = (commitState i m s).setCls (writeStart i s).out.cls := by
  unfold commitState writeStart; split <;> rfl

/-- The memory after the bytes of a write that covers `CNT_H(ch)`: the register's low byte masked, other addresses as before. -/
structure CntHStored (ch : Chan) (a : Addr) (bs : List Byte) (m m' : Memory) : Prop where
  wf : m.wf = true → m'.wf = true
  written : ∀ k b, bs[k]? = some b → m'.read (a + BitVec.ofNat 32 k).toNat
    = if a + BitVec.ofNat 32 k = cntHAddr Config.default ch then b &&& 0xE0 else b
  other : ∀ b : Addr, (∀ k, k < bs.length → b ≠ a + BitVec.ofNat 32 k) → m'.read b.toNat = m.read b.toNat

/-- Any write that covers a `CNT_H` stores its bytes and then commits that one register; the class has no part in it
(40_bus_access.md R150 to R152). -/
theorem exec_write_cntH (hi : writeAccess i = some (a, bs)) (hcover : CoversCntH ch a bs.length) (s : State) :
    ∃ m, CntHStored ch a bs s.mem m ∧ exec i s = toOutcome
      ((regCommit Config.default [ch] (commitState i m s)).map (State.setCls (writeStart i s).out.cls)) := by
  have hlen : bs.length ≤ 4 := by have := writeAccess_length hi; omega
  obtain ⟨m, hbytes, hwf, hread⟩ := writeBytes_quiet bs a (writeStart i s) hlen fun k hk => by
    have hnear := hcover.near hlen hk
    have hch := ch.isLt
    omega
  rw [writeStart_mem] at hwf
  refine ⟨m, ⟨hwf, fun k b hb => ?written, fun b hb => ?other⟩, ?commit⟩
  case written =>
    have hk : k < bs.length := (List.getElem?_eq_some_iff.mp hb).1
    rw [hread k b hb, hcover.ioMask hlen hk]
    split
    · rfl
    · exact BitVec.and_allOnes
  case other =>
    have hbyte := (writeBytes_frame hbytes).bytes b hb
    rwa [asByte_congr (writeStart_mem i s)] at hbyte
  case commit =>
    rw [exec_write hi]
    simp only [writeTransaction, hbytes]
    rw [hcover.regCommit hlen, setMem_writeStart, regCommit_cls]

/-! The row of a register, run in the state that already holds it. -/

/-- DMAARM or DMAOFF, by bit 15 of its half-word: the half-word without its reserved bits is stored and committed (41_dma.md
R184, R185). -/
theorem exec_decodeCtl (ch : Chan) (w : Half) (s : State) :
    exec (decodeCtl ch w) s = toOutcome (writeControl Config.default ch (w &&& 0xFFE0) s) := by
  rw [← CtlFields.toHalf_ofHalf]
  unfold decodeCtl
  cases hbit : w.getLsbD 15 <;> rfl

/-- A half-word whose reserved bits are 0 is stored as it is. -/
theorem and_ffe0_of_reserved {w : Half} (h : w &&& 0x1F = 0) : w &&& 0xFFE0 = w := by
  have hsplit : (w &&& 0xFFE0) ||| (w &&& 0x1F) = w := by rw [← BitVec.and_or_distrib_left]; exact BitVec.and_allOnes
  rw [h] at hsplit
  exact BitVec.or_zero.symm.trans hsplit

/-- The reserved bits of a `CNT_H` are those of its low byte. -/
theorem cntHOf_reserved :
    cntHOf Config.default s ch &&& 0x1F = 0 ↔ s.asByte (cntHAddr Config.default ch) &&& 0x1F = 0 := by
  have hlow : cntHOf Config.default s ch &&& 0x1F = (s.asByte (cntHAddr Config.default ch) &&& 0x1F).setWidth 16 := by
    apply BitVec.eq_of_getLsbD_eq
    intro j hj
    simp only [cntHOf, State.io16, BitVec.getLsbD_and, BitVec.getLsbD_append, BitVec.getLsbD_setWidth]
    interval_cases j <;> simp
  rw [hlow]
  constructor
  · intro h
    simpa using congrArg (BitVec.setWidth 8) h
  · intro h
    rw [h]; rfl

/-- The row of a stored register, whose reserved bits are 0, is its commit: storing it again changes nothing. -/
theorem exec_decodeCtl_self (hout : s.out = .empty) (hwf : s.mem.wf = true)
    (hreserved : cntHOf Config.default s ch &&& 0x1F = 0) :
    exec (decodeCtl ch (cntHOf Config.default s ch)) s = toOutcome (regCommit Config.default [ch] s) := by
  have hstart : s.start = s := by unfold State.start; rw [← hout]; rfl
  rw [exec_decodeCtl, and_ffe0_of_reserved hreserved, writeControl, cntHOf, storeReg16_self hwf, hstart]

/-- The write leaves the reserved bits 0: the low byte is masked or not written. -/
theorem CntHStored.reserved {m : Memory} (h : CntHStored ch a bs s.mem m) (hs : cntHOf Config.default s ch &&& 0x1F = 0) :
    cntHOf Config.default (commitState i m s) ch &&& 0x1F = 0 := by
  rw [cntHOf_reserved] at hs ⊢
  by_cases hwritten : ∃ k, k < bs.length ∧ cntHAddr Config.default ch = a + BitVec.ofNat 32 k
  · obtain ⟨k, hk, heq⟩ := hwritten
    have hread := h.written k bs[k] (List.getElem?_eq_getElem hk)
    rw [if_pos heq.symm, ← heq] at hread
    rw [State.asByte, commitState, hread, BitVec.and_assoc]
    exact BitVec.and_zero
  · have hread := h.other _ fun k hk heq => hwritten ⟨k, hk, heq⟩
    rwa [State.asByte, commitState, hread]

end

/-- Settles O16: a register outside `CNT_H` is stored as its row stores it; a write through a `CNT_H` is the commit of the
register it leaves, and so is the register's row. -/
theorem registerWritesAreTheirRows : Obligations.RegisterWritesAreTheirRows := by
  unfold Obligations.RegisterWritesAreTheirRows
  refine fun s ch => ⟨fun v => block_word s _ v (sad_block ch), fun v => block_word s _ v (dad_block ch),
    fun v => block_half s _ v (cntL_block ch), fun v hv => ?arm, fun v hv => ?off,
    fun i a bs hi hwf hreserved hcover => ?any⟩
  case arm =>
    rw [exec_cntH, ← exec_decodeCtl, decodeCtl, if_pos hv]
  case off =>
    rw [exec_cntH, ← exec_decodeCtl, decodeCtl, if_neg (Bool.eq_false_iff.mp hv)]
  case any =>
    obtain ⟨m, hstored, hexec⟩ := exec_write_cntH hi hcover s
    have hrow := exec_decodeCtl_self (s := commitState i m s) rfl (hstored.wf hwf) (hstored.reserved hreserved)
    refine ⟨commitState i m s, decodeCtl ch (cntHOf Config.default (commitState i m s) ch), (writeStart i s).out.cls,
      rfl, hstored.written, hstored.other, fun hfast => ?fast, fun n hplain => ?plain, rfl, fun t hnext => ?next,
      fun r hrefused => ?refused⟩
    case fast =>
      rw [commitState, writeStart_fast hfast]
      exact ⟨rfl, rfl⟩
    case plain =>
      rw [commitState, writeStart_plain hplain]
      exact ⟨rfl, rfl⟩
    case next =>
      rw [hexec, toOutcome_next (hrow.symm.trans hnext)]
      rfl
    case refused =>
      rw [hexec, toOutcome_refused (hrow.symm.trans hrefused)]
      rfl

end Sys2Proof.Machine
end

section
/-! PROOF. The DMA engine (41_dma.md): the register rows, the events and their passes, arming and disarming, completion, the units of a run, its bursts, and what runs leave alone. -/

namespace Sys2Proof.Machine

/-! ## Register rows -/

/-- Settles O17: the store of a register, read back and framed. -/
theorem registerRowsStoreOnly : Obligations.RegisterRowsStoreOnly := by
  unfold Obligations.RegisterRowsStoreOnly
  refine fun s ch => ⟨fun v => ⟨storeReg32 (sadAddr Config.default ch) v s, rfl, rfl, ?sad⟩,
    fun v => ⟨storeReg32 (dadAddr Config.default ch) v s, rfl, rfl, ?dad⟩,
    fun n => ⟨storeReg16 (cntLAddr Config.default ch) n s, rfl, rfl, ?cntL⟩⟩
  case sad => exact ⟨storeReg_join32 .., fun b => storeReg32_frame s _ b v⟩
  case dad => exact ⟨storeReg_join32 .., fun b => storeReg32_frame s _ b v⟩
  case cntL => exact ⟨storeReg_join16 .., fun b => storeReg16_frame s _ b n⟩

/-! ## Passes -/

/-- Settles O22: a pass, and the runs of any instruction, are `forceList`, which `execAll` follows step by step. -/
theorem passRunsChannelsInPriorityOrder : Obligations.PassRunsChannelsInPriorityOrder := by
  unfold Obligations.PassRunsChannelsInPriorityOrder
  refine ⟨fun i ev s t hi h => ?pass, fun i s t => exec_runs_forced⟩
  case pass =>
    rw [exec_pass hi, dmaService_force] at h
    obtain ⟨u, hrun, hstart⟩ := forceList_execAll _ (s := s.start) (s' := s) rfl (toOutcome_next h)
    exact ⟨u, hrun, hstart.symm⟩

/-- Settles O23: the pulses of the channels serviced, in a step that begins with none. -/
theorem interruptsInChannelOrder : Obligations.InterruptsInChannelOrder := by
  unfold Obligations.InterruptsInChannelOrder
  intro i ev s t hi h
  rw [exec_pass hi] at h
  exact serviceList_irqs chanList_nodup (toOutcome_next h)

/-- Settles O25: on channels 0 and 3 FIFO timing matches no event, and a pass leaves alone what is not eligible. -/
theorem fifoTimingNeverFiresOnChannels0And3 : Obligations.FifoTimingNeverFiresOnChannels0And3 := by
  unfold Obligations.FifoTimingNeverFiresOnChannels0And3
  intro i ev s t ch hi h hch hfifo
  rw [exec_pass hi] at h
  refine (dmaService_prims (O := fun _ => True) (fun _ => trivial) (toOutcome_next h)).other_chan ?_
  rcases hch with rfl | rfl <;> simp [eligible, triggerMatches, hfifo]

/-! ## Events without a run, and refused runs -/

section
variable {c : Config} {ch : Chan} {x : DmaChan} {ev : DmaEvent} {s : State}

theorem not_eligible_of_disabled (h : x.enabled = false) : eligible c ch x ev = false := by
  simp [eligible, h]

theorem tickChan_eq (x : DmaChan) :
    tickChan x = { x with delay := if x.enabled = true then x.delay - 1 else x.delay } := by
  unfold tickChan
  by_cases henabled : x.enabled = true
  · rcases Nat.eq_zero_or_pos x.delay with hzero | hpos
    · have hsame : x.delay - 1 = x.delay := by omega
      rw [if_neg (by omega), if_pos henabled, hsame]
    · rw [if_pos ⟨henabled, hpos⟩, if_pos henabled]
  · rw [if_neg fun h => henabled h.1, if_neg henabled]

/-- A tick readies only a channel that is enabled, not running, at the end of its delay and of matching timing
(41_dma.md R202). -/
theorem not_eligible_tickChan
    (h : x.enabled = false ∨ x.running = true ∨ 1 < x.delay ∨ triggerMatches c ch x .none = false) :
    eligible c ch (tickChan x) .none = false := by
  have htrigger : triggerMatches c ch (tickChan x) .none = triggerMatches c ch x .none := by rw [tickChan_eq]; rfl
  simp only [eligible, htrigger]
  rw [tickChan_eq]
  rcases h with hdisabled | hrunning | hdelay | hnoMatch
  · simp [hdisabled]
  · simp [hrunning]
  · by_cases henabled : x.enabled = true
    · simp [henabled, show ¬ x.delay - 1 = 0 by omega]
    · simp [henabled]
  · simp [hnoMatch]

theorem forceDma_disabled (h : (s.chan ch).enabled = false) : forceDma c ch s = .ok s :=
  if_neg (by simp [h])

theorem forceDma_of_not_safeRun (henabled : (s.chan ch).enabled = true) (hrunning : (s.chan ch).running = false)
    (hnot : ¬ safeRun Config.default (s.chan ch)) :
    forceDma Config.default ch s = .error .dmaWritesDmaRegisters := by
  rw [forceDma_run henabled hrunning, dmaRun_unsafe]
  rw [State.chan_setChan_same]
  exact mt (safeRun_congr (x := s.chan ch) (y := { s.chan ch with delay := 0 }) rfl rfl rfl rfl rfl).mp hnot

theorem toOutcome_dmaService_of_safeRun
    (h : ∀ k, eligible Config.default k (s.chan k) ev = true → safeRun Config.default (s.chan k)) :
    ∃ t, toOutcome (dmaService Config.default ev s) = .next t :=
  (dmaService_safe h).imp fun _ => congrArg toOutcome

theorem toOutcome_dmaService_of_not_safeRun
    (h : ∃ k, eligible Config.default k (s.chan k) ev = true ∧ ¬ safeRun Config.default (s.chan k)) :
    toOutcome (dmaService Config.default ev s) = .refused .dmaWritesDmaRegisters :=
  congrArg toOutcome (dmaService_unsafe h)

end

/-- Settles O20: a pass that finds no eligible channel, also after the count of a tick, and a forced run that does not start. -/
theorem eventsWithoutWaitingChannel : Obligations.EventsWithoutWaitingChannel := by
  unfold Obligations.EventsWithoutWaitingChannel
  refine ⟨fun i ev s hi hidle => ?pass, fun s hwait => ⟨tickAll s.start, ?tick, rfl, fun k => ?counted⟩,
    fun ch s hdisabled => ?force⟩
  case pass =>
    rw [exec_pass hi, dmaService_idle (s := s.start) hidle]
    rfl
  case tick =>
    refine congrArg toOutcome (dmaService_idle fun k => ?_)
    rw [tickAll_chan]
    exact not_eligible_tickChan (hwait k)
  case counted =>
    rw [tickAll_chan, tickChan_eq]
    rfl
  case force =>
    exact congrArg toOutcome (forceDma_disabled (s := s.start) hdisabled)

/-- Settles O21: a pass, a tick's pass and a forced run, each by the safety of the runs it starts. -/
theorem dmaEventsCompleteUnlessUnsafe : Obligations.DmaEventsCompleteUnlessUnsafe := by
  unfold Obligations.DmaEventsCompleteUnlessUnsafe
  refine ⟨fun i ev s hi => ?pass, fun s => ?tick, fun ch s henabled hrunning =>
    ⟨fun hsafe => ?forced, fun hnot => ?refused⟩⟩
  case pass =>
    rw [exec_pass hi]
    exact ⟨toOutcome_dmaService_of_safeRun (s := s.start), toOutcome_dmaService_of_not_safeRun (s := s.start)⟩
  case tick =>
    have hcompletes := toOutcome_dmaService_of_safeRun (ev := .none) (s := tickAll s.start)
    have hrefused := toOutcome_dmaService_of_not_safeRun (ev := .none) (s := tickAll s.start)
    simp only [tickAll_chan, State.start_chan, safeRun_tick] at hcompletes hrefused
    exact ⟨hcompletes, hrefused⟩
  case forced =>
    exact (forceDma_safe (s := s.start) henabled hrunning hsafe).imp fun _ => congrArg toOutcome
  case refused =>
    exact congrArg toOutcome (forceDma_of_not_safeRun (s := s.start) henabled hrunning hnot)

/-! ## Control registers -/

section
variable {c : Config} {ch : Chan} {f : CtlFields} {s t : State}

/-- Without an event only immediate timing matches (41_dma.md R187). -/
theorem triggerMatches_none (c : Config) (ch : Chan) (x : DmaChan) :
    triggerMatches c ch x .none = decide (ctlTiming x.ctrl = .immediate) := by
  unfold triggerMatches
  cases ctlTiming x.ctrl <;> simp

/-- One channel has changed, and neither it nor another is ready: the pass finds nothing. -/
theorem dmaService_idle_except {ev : DmaEvent} (hch : eligible c ch (t.chan ch) ev = false)
    (hother : ∀ k, k ≠ ch → t.chan k = s.chan k) (h : ∀ k, k ≠ ch → eligible c k (s.chan k) ev = false) :
    dmaService c ev t = .ok t := by
  refine dmaService_idle fun k => ?_
  by_cases hk : k = ch
  · rw [hk, hch]
  · rw [hother k hk, h k hk]

/-- The register side effects of one control register: its commit, then a pass (40_bus_access.md R152). -/
theorem regCommit_singleton (hc : channels c = [0, 1, 2, 3]) (h : commitCntH c ch s = .ok t) :
    regCommit c [ch] s = dmaService c .none t := by
  simp only [regCommit, List.isEmpty_cons, Bool.false_eq_true, if_false, hc, commitList_one, h]

theorem commitCntH_arm (henable : ctlEnable (cntHOf c s ch) = true) (hsac : ctlSac (cntHOf c s ch) ≠ .reload) :
    commitCntH c ch s = .ok (s.setChan ch (armedChan c s ch)) := by
  rw [commitCntH, if_pos henable, arm, if_neg hsac]

theorem commitCntH_sac3 (henable : ctlEnable (cntHOf c s ch) = true) (hsac : ctlSac (cntHOf c s ch) = .reload) :
    commitCntH c ch s = .error .sac3 := by
  rw [commitCntH, if_pos henable, arm, if_pos hsac]

theorem commitCntH_off (henable : ctlEnable (cntHOf c s ch) = false) : commitCntH c ch s = .ok (disarm ch s) := by
  rw [commitCntH, if_neg (by simp [henable])]

/-- The state with a control register stored, before its commit. -/
def withCntH (ch : Chan) (w : Half) (s : State) : State := storeReg16 (cntHAddr Config.default ch) w s

theorem cntHOf_withCntH (w : Half) : cntHOf Config.default (withCntH ch w s) ch = w := cntHOf_store ch w s

theorem withCntH_asByte (w : Half) (b : Addr) (h : 2 ≤ (b - cntHAddr Config.default ch).toNat) :
    (withCntH ch w s).asByte b = s.asByte b := storeReg16_frame s _ b w h

/-- The working copies DMAARM captures (41_dma.md R184). -/
theorem armedChan_withCntH (ch : Chan) (f : CtlFields) (s : State) :
    armedChan Config.default (withCntH ch (f.toHalf true) s) ch
      = { enabled := true, running := false, srcOrig := sadOf Config.default s ch, src := sadOf Config.default s ch
          dst := dadOf Config.default s ch, cursor := 0, count := (cntLOf Config.default s ch).setWidth 32
          width := f.width, ctrl := f.toHalf true, delay := 0 } := by
  obtain ⟨-, -, -, hwidth, -⟩ := ctl_toHalf true f
  simp only [armedChan, withCntH, sadOf_store, dadOf_store, cntLOf_store, cntHOf_store, hwidth, default_dmaStartDelay]

theorem exec_dmaarm (hsac : f.sac ≠ .reload) (s : State) :
    exec (.dmaarm ch f) s = toOutcome (dmaService Config.default .none
      ((withCntH ch (f.toHalf true) s).setChan ch (armedChan Config.default (withCntH ch (f.toHalf true) s) ch))) := by
  obtain ⟨henable, hsacHalf, -⟩ := ctl_toHalf true f
  refine congrArg toOutcome (regCommit_singleton default_channels (commitCntH_arm ?_ ?_))
  · rw [cntHOf_store, henable]
  · rwa [cntHOf_store, hsacHalf]

theorem exec_dmaarm_sac3 (hsac : f.sac = .reload) (s : State) : exec (.dmaarm ch f) s = .refused .sac3 := by
  obtain ⟨henable, hsacHalf, -⟩ := ctl_toHalf true f
  have hcommit : commitCntH Config.default ch (storeReg16 (cntHAddr Config.default ch) (f.toHalf true) s) = .error .sac3 := by
    apply commitCntH_sac3
    · rw [cntHOf_store, henable]
    · rw [cntHOf_store, hsacHalf, hsac]
  have hrun : writeControl Config.default ch (f.toHalf true) s = .error .sac3 := by rw [writeControl, regCommit_one, hcommit]
  exact congrArg toOutcome hrun

theorem exec_dmaoff (ch : Chan) (f : CtlFields) (s : State) :
    exec (.dmaoff ch f) s
      = toOutcome (dmaService Config.default .none (disarm ch (withCntH ch (f.toHalf false) s))) := by
  obtain ⟨henable, -⟩ := ctl_toHalf false f
  refine congrArg toOutcome (regCommit_singleton default_channels (commitCntH_off ?_))
  rw [cntHOf_store, henable]

/-- The defaults but for a start delay (00_scope.md R5 `DMA_START_DELAY`). -/
def withStartDelay (d : Nat) : Config := { Config.default with dmaStartDelay := d }

/-- DMAARM under a start delay: the registers lie where they do at the defaults, and the counter is loaded. -/
theorem execIn_dmaarm_withStartDelay (hsac : f.sac ≠ .reload) (d : Nat) (s : State) :
    execIn (withStartDelay d) (.dmaarm ch f) s
      = toOutcome (dmaService (withStartDelay d) .none ((withCntH ch (f.toHalf true) s).setChan ch
          { armedChan Config.default (withCntH ch (f.toHalf true) s) ch with delay := d })) := by
  obtain ⟨henable, hsacHalf, -⟩ := ctl_toHalf true f
  have hcntH : cntHOf (withStartDelay d) (withCntH ch (f.toHalf true) s) ch = f.toHalf true := cntHOf_store ch (f.toHalf true) s
  refine congrArg toOutcome (regCommit_singleton rfl (commitCntH_arm ?_ ?_))
  · exact (congrArg ctlEnable hcntH).trans henable
  · exact ne_of_eq_of_ne ((congrArg ctlSac hcntH).trans hsacHalf) hsac

end

/-- Settles O19: the register stored and the channel disarmed, after which the pass finds nothing. -/
theorem disarmingMakesIdle : Obligations.DisarmingMakesIdle := by
  unfold Obligations.DisarmingMakesIdle
  intro s ch f hothers
  have hchan : (disarm ch (withCntH ch (f.toHalf false) s)).chan ch
      = { s.chan ch with enabled := false, running := false, delay := 0 } := State.chan_setChan_same ..
  have hother : ∀ k, k ≠ ch → (disarm ch (withCntH ch (f.toHalf false) s)).chan k = s.chan k :=
    fun k hk => State.chan_setChan_other _ _ hk
  refine ⟨disarm ch (withCntH ch (f.toHalf false) s), ?_, rfl, hchan, hother, cntHOf_withCntH _, fun b => withCntH_asByte _ b⟩
  have hidle : eligible Config.default ch ((disarm ch (withCntH ch (f.toHalf false) s)).chan ch) .none = false := by
    rw [hchan]
    exact not_eligible_of_disabled rfl
  rw [exec_dmaoff, dmaService_idle_except hidle hother hothers, toOutcome_ok]

/-- Settles O18: the register stored and the channel armed; the pass then finds at most that channel, and not even that one
under a start delay. -/
theorem armingCapturesTheRegisters : Obligations.ArmingCapturesTheRegisters := by
  unfold Obligations.ArmingCapturesTheRegisters
  intro s ch f hothers
  refine ⟨fun hsac => exec_dmaarm_sac3 hsac s, fun hsac => ?_⟩
  obtain ⟨-, -, -, -, htiming, -⟩ := ctl_toHalf true f
  obtain ⟨u, hu⟩ : ∃ u, u = (withCntH ch (f.toHalf true) s).setChan ch
      (armedChan Config.default (withCntH ch (f.toHalf true) s) ch) := ⟨_, rfl⟩
  have hchan : u.chan ch = armedChan Config.default (withCntH ch (f.toHalf true) s) ch := by rw [hu, State.chan_setChan_same]
  have harmed := armedChan_withCntH ch f s
  have hother : ∀ k, k ≠ ch → u.chan k = s.chan k := fun k hk => by rw [hu, State.chan_setChan_other _ _ hk]; rfl
  refine ⟨u, by rw [hu]; rfl, hchan.trans harmed, hother, by rw [hu]; exact cntHOf_withCntH _,
    fun b hb => by rw [hu]; exact withCntH_asByte _ b hb, fun hwait => ?waits, fun himmediate => ?runs, fun d hd => ?delayed⟩
  case waits =>
    have hidle : eligible Config.default ch (u.chan ch) .none = false := by
      simp [eligible, triggerMatches_none, hchan, harmed, htiming, hwait]
    rw [exec_dmaarm hsac, ← hu, dmaService_idle_except hidle hother hothers, toOutcome_ok]
  case runs =>
    have hready : eligible Config.default ch (u.chan ch) .none = true := by
      simp [eligible, triggerMatches_none, hchan, harmed, htiming, himmediate]
    obtain ⟨henabled, hrunning, hdelay⟩ := eligible_armed hready
    have hforce : exec (.forcedma ch) u = toOutcome (forceDma Config.default ch u) := by
      have hstart : u.start = u := by rw [hu]; rfl
      exact congrArg (fun v => toOutcome (forceDma Config.default ch v)) hstart
    rw [exec_dmaarm hsac, ← hu, dmaService_only ch fun k hk => by rw [hother k hk]; exact hothers k hk, serviceChan,
      if_pos hready, hforce, forceDma_armed henabled hrunning hdelay]
  case delayed =>
    obtain ⟨v, hv⟩ : ∃ v, v = (withCntH ch (f.toHalf true) s).setChan ch { u.chan ch with delay := d } := ⟨_, rfl⟩
    have hidle : eligible (withStartDelay d) ch (v.chan ch) .none = false := by
      simp [eligible, hv, show d ≠ 0 by omega]
    have hotherDelayed : ∀ k, k ≠ ch → v.chan k = s.chan k := fun k hk => by rw [hv, State.chan_setChan_other _ _ hk]; rfl
    have hexec : execIn (withStartDelay d) (.dmaarm ch f) s = .next v := by
      rw [execIn_dmaarm_withStartDelay hsac, ← hchan, ← hv, dmaService_idle_except hidle hotherDelayed hothers, toOutcome_ok]
    refine hexec.trans ?_
    rw [hv, hu]
    exact congrArg Host.Outcome.next (State.setChan_setChan ..).symm

/-! ## Forced runs -/

section
variable {ch k : Chan} {s t u : State} {e : Bool}

/-- Where the units of a forced run begin: outputs and start delay cleared, the channel running (41_dma.md R192, R203). -/
def runStart (ch : Chan) (s : State) : State := s.start.setChan ch { s.chan ch with running := true, delay := 0 }

theorem runStart_chan (ch : Chan) (s : State) : (runStart ch s).chan ch = { s.chan ch with running := true, delay := 0 } :=
  State.chan_setChan_same ..

theorem runStart_other (hk : k ≠ ch) (s : State) : (runStart ch s).chan k = s.chan k :=
  State.chan_setChan_other _ _ hk

theorem srcUnit_runStart (ch : Chan) (s : State) (n : Nat) : srcUnit ((runStart ch s).chan ch) n = srcUnit (s.chan ch) n := by
  rw [runStart_chan]; rfl

theorem dstUnit_runStart (ch : Chan) (s : State) (n : Nat) : dstUnit ((runStart ch s).chan ch) n = dstUnit (s.chan ch) n := by
  rw [runStart_chan]; rfl

theorem unitsLeft_of_cursor_zero {x : DmaChan} (h : x.cursor = 0) : unitsLeft x = x.count.toNat := by
  simp [unitsLeft, h]

/-- A forced run that completes is its units, then its end. -/
theorem exec_forcedma_next (henabled : (s.chan ch).enabled = true) (hrunning : (s.chan ch).running = false)
    (h : exec (.forcedma ch) s = .next t) :
    ∃ u e, dmaUnits Config.default ch (unitsLeft (s.chan ch)) false (runStart ch s) = .ok (u, e)
      ∧ t = endRun Config.default ch e u := by
  cases hunits : dmaUnits Config.default ch (unitsLeft (s.chan ch)) false (runStart ch s) with
  | ok r =>
    rw [exec_forcedma_units henabled hrunning hunits] at h
    cases h
    exact ⟨r.1, r.2, rfl, rfl⟩
  | error r =>
    have hunits : dmaUnits Config.default ch (unitsLeft { s.chan ch with delay := 0 }) false
        (s.start.setChan ch { s.chan ch with running := true, delay := 0 }) = .error r := hunits
    rw [exec_forcedma henabled hrunning, dmaRun, State.chan_setChan_same, State.setChan_setChan] at h
    simp only [hunits] at h
    cases h

/-- The end of a run without a burst, whose units changed `AS` and channels only. -/
theorem endRun_store (hu : u = { runStart ch s with mem := u.mem, dma := u.dma }) :
    endRun Config.default ch false u = { s with
      mem := (endRun Config.default ch false u).mem
      dma := (endRun Config.default ch false u).dma
      out := (endRun Config.default ch false u).out } := by
  have hfields : ∀ m d o, ({ u with mem := m, dma := d, out := o } : State) = { s with mem := m, dma := d, out := o } := by
    intro m d o
    rw [hu]; rfl
  exact (endRun_frame ch u).trans (hfields _ _ _)

theorem endRun_other_runStart (hother : ∀ k, k ≠ ch → u.chan k = (runStart ch s).chan k) (hk : k ≠ ch) :
    (endRun Config.default ch e u).chan k = s.chan k := by
  rw [endRun_other hk, hother k hk, runStart_other hk]

/-- A channel armed again: its registers are read anew, and no byte changes (41_dma.md R197). -/
theorem endRun_chan_of_recurs (h : recurs (u.chan ch) = true) :
    (endRun Config.default ch e u).chan ch = { u.chan ch with
      running := false
      cursor := 0
      count := (cntLOf Config.default u ch).setWidth 32
      dst := if ctlDac (u.chan ch).ctrl = .reload then dadOf Config.default u ch else (u.chan ch).dst
      delay := 0 } := by
  obtain ⟨d, hchan⟩ := endRun_rearmed ch e u h
  obtain ⟨-, hdst⟩ := endRun_pointers ch e u
  simp only [hchan, h, true_and] at hdst
  rw [hchan, hdst]

theorem endRun_mem_of_recurs (h : recurs (u.chan ch) = true) : (endRun Config.default ch e u).mem = u.mem := by
  have hcomplete : ∀ v : State, recurs (v.chan ch) = true → (complete Config.default ch v).mem = v.mem := fun v hv => by
    simp only [complete, hv, if_true]
    split <;> rfl
  cases e <;> exact hcomplete _ ((congrArg recurs (State.chan_setChan_same ..)).trans h)

/-- A channel that does not recur ends Idle (41_dma.md R196). -/
theorem endRun_chan_of_not_recurs (h : recurs (u.chan ch) = false) :
    (endRun Config.default ch e u).chan ch = { u.chan ch with enabled := false, running := false } := by
  obtain ⟨-, hidle, -⟩ := endRun_chan ch e u
  exact (hidle h).1

theorem recurs_iff {x : DmaChan} : recurs x = true ↔ ctlRepeat x.ctrl = true ∧ ctlTiming x.ctrl ≠ .immediate := by
  simp [recurs]

/-- A byte of a RAM region is no byte of a control register. -/
theorem ne_cntHAddr_succ_of_ram {g : GpioType} {b : Addr} (h : isRamTag (decodeTag Config.default g b) = true) :
    b ≠ cntHAddr Config.default ch + 1 := by
  rintro rfl
  rw [dmaBlock_io (cntH_block ch).2] at h
  cases h

end

/-- Settles O26: the end of a run of no units, of a channel that recurs and of one that does not. -/
theorem completionRearmsOrGoesIdle : Obligations.CompletionRearmsOrGoesIdle := by
  unfold Obligations.CompletionRearmsOrGoesIdle
  intro s ch henabled hrunning hleft
  have hunits : dmaUnits Config.default ch (unitsLeft (s.chan ch)) false (runStart ch s) = .ok (runStart ch s, false) := by
    rw [show unitsLeft (s.chan ch) = 0 by unfold unitsLeft; omega]; rfl
  have hrecurs : recurs ((runStart ch s).chan ch) = recurs (s.chan ch) := by rw [runStart_chan]; rfl
  have hout : (endRun Config.default ch false (runStart ch s)).out
      = ⟨none, none, if ctlIrq (s.chan ch).ctrl = true then [.irq ch] else [], none⟩ := by
    refine (congrArg State.out (endRun_fields ch false (runStart ch s)).1).trans ?_
    rw [runStart_chan]; rfl
  refine ⟨_, exec_forcedma_units henabled hrunning hunits, endRun_store rfl, hout,
    fun k => endRun_other_runStart fun _ _ => rfl, fun h => ?recurs, fun h => ?idle⟩
  case recurs =>
    rw [← recurs_iff, ← hrecurs] at h
    refine ⟨endRun_mem_of_recurs h, ?_⟩
    simp only [endRun_chan_of_recurs h, runStart_chan, hrunning]
    rfl
  case idle =>
    rw [← recurs_iff, ← hrecurs, Bool.not_eq_true] at h
    refine ⟨?_, ?_, fun b => endRun_bytes ch false (runStart ch s) b⟩
    · simp only [endRun_chan_of_not_recurs h, runStart_chan, hrunning]
    · rw [endRun_cntH, h]; rfl

/-- Settles O27: the units of runs between stores, the pointers after the units of any run, and any units by rows; each time
with what the end of a run adds. -/
theorem dmaCopiesExactly : Obligations.DmaCopiesExactly := by
  unfold Obligations.DmaCopiesExactly
  refine ⟨fun s ch henabled hrunning hcursor hsac hdac len hlen hsrc hdst hdisjoint => ?copy,
    fun s ch henabled hrunning hcursor n w hn hw hsrc hdst hdisjoint => ?move,
    fun s t ch henabled hrunning hcursor h => ?pointers, fun s ch henabled hrunning hsafe => ?rows⟩
  case copy =>
    have hsmall : len < 2 ^ 32 := range_small fun k hk => (hsrc k hk).1
    subst hlen
    obtain ⟨u, hunits, hu, hchan, hother, hcopied, hframe⟩ := dmaUnits_copy (ch := ch) (s.chan ch).count.toNat (e := false)
      (s := runStart ch s) (by rw [runStart_chan]; exact hsac) (by rw [runStart_chan]; exact hdac)
      (by rw [runStart_chan]; exact hsmall) (by rw [runStart_chan]; exact hsrc) (by rw [runStart_chan]; exact hdst)
      (by rw [runStart_chan]; exact hdisjoint)
    rw [← unitsLeft_of_cursor_zero hcursor] at hunits
    rw [runStart_chan] at hchan hcopied hframe
    obtain ⟨hendSrc, hidle, hendDst⟩ := endRun_chan ch false u
    refine ⟨_, exec_forcedma_units henabled hrunning hunits, endRun_store hu, fun k hk => ?_, fun b hb hbit => ?_, ?_, ?_,
      fun k => endRun_other_runStart hother, fun hrepeat => ?_⟩
    · exact (endRun_bytes ch false u _ (ne_cntHAddr_succ_of_ram (hdst k hk))).trans (hcopied k hk)
    · exact (endRun_bytes ch false u b hbit).trans (hframe b hb)
    · rw [hendSrc, hchan]
    · rw [hendDst (by simp [hchan, hdac]), hchan]
    · obtain ⟨hchanIdle, hbit⟩ := hidle (by simp [hchan, recurs, hrepeat])
      exact ⟨by rw [hchanIdle]; rfl, hbit⟩
  case move =>
    obtain ⟨u, hunits, hu, hother, hmoved, hframe⟩ := dmaUnits_move (ch := ch) (w := w) n (e := false) (s := runStart ch s)
      (by rw [runStart_chan]; exact hw) (by simp only [srcUnit_runStart]; exact hsrc)
      (by simp only [dstUnit_runStart]; exact hdst) (by simp only [srcUnit_runStart, dstUnit_runStart]; exact hdisjoint)
    simp only [srcUnit_runStart, dstUnit_runStart] at hmoved hframe
    rw [hn, ← unitsLeft_of_cursor_zero hcursor] at hunits
    refine ⟨_, exec_forcedma_units henabled hrunning hunits, endRun_store hu, fun k hk hlast j hj => ?_, fun b hb hbit => ?_,
      fun k => endRun_other_runStart hother⟩
    · exact (endRun_bytes ch false u _ (ne_cntHAddr_succ_of_ram (hdst k j hk hj))).trans (hmoved k hk hlast j hj)
    · exact (endRun_bytes ch false u b hbit).trans (hframe b hb)
  case pointers =>
    obtain ⟨u, e, hunits, rfl⟩ := exec_forcedma_next henabled hrunning h
    have hchan := dmaUnits_pointers _ hunits
    rw [unitsLeft_of_cursor_zero hcursor, runStart_chan] at hchan
    obtain ⟨-, hdad, -⟩ :=
      (dmaUnits_prims (O := fun o => o ≠ .cpu) (A := fun k => k = ch) (by simp) rfl hunits).registers (fun _ ho => ho) ch
    obtain ⟨hsrc, hdst⟩ := endRun_pointers ch e u
    rw [hsrc, hdst, hdad, hchan]
    exact ⟨rfl, rfl⟩
  case rows =>
    obtain ⟨t, ht⟩ := forceDma_safe (s := s.start) henabled hrunning hsafe
    obtain ⟨-, hrows⟩ := forceDma_rows (s := s.start) henabled hrunning ht
    exact ⟨t, congrArg toOutcome ht, hrows⟩

/-- A run into RAM has no unit in the EEPROM window. -/
theorem windowUnits_of_ram {x : DmaChan} {s : State} (h : ∀ k j, k < unitsLeft x → j < unitBytes x.width →
    isRamTag (decodeTag Config.default s.cart.gpioType (dstUnit x k + BitVec.ofNat 32 j)) = true) : windowUnits x s = [] := by
  refine List.filter_eq_nil_iff.mpr fun k hk => ?_
  have hram := h k 0 (List.mem_range.mp hk) (by cases x.width <;> decide)
  rw [BitVec.add_zero] at hram
  simp [ram_noEep hram]

/-- Settles O34: the units into the window are one burst, dispatched at the end of the run; the units out of it store the
reply's bits. -/
theorem dmaRunIsOneBurst : Obligations.DmaRunIsOneBurst := by
  unfold Obligations.DmaRunIsOneBurst
  refine ⟨fun s ch hcart _ henabled hrunning hcursor hcount hdst hsrc => ?burst,
    fun s ch hcart henabled hrunning n w hn hw hsrc hdst => ?reply⟩
  case burst =>
    obtain ⟨u, hunits, hee⟩ := dmaUnits_shift (ch := ch) (s.chan ch).count.toNat (e := false) (s := runStart ch s) hcart
      (by simp only [dstUnit_runStart]; exact hdst) (by simp only [srcUnit_runStart]; exact hsrc)
    have hpos : 0 < (s.chan ch).count.toNat := Nat.pos_of_ne_zero fun hzero => hcount (BitVec.eq_of_toNat_eq hzero)
    rw [decide_eq_true hpos, Bool.or_true, ← unitsLeft_of_cursor_zero hcursor] at hunits
    refine ⟨_, exec_forcedma_units henabled hrunning hunits, ?_⟩
    have hend : (endRun Config.default ch true u).ee = eepromBurstEnd Config.default u.ee :=
      congrArg State.ee (endRun_fields ch true u).1
    rw [hend, hee, runStart_chan]
    rfl
  case reply =>
    subst hn hw
    have hsafe : safeRun Config.default (s.chan ch) :=
      safeRun_units.mpr fun k hk => ram_unitSafe fun j hj => hdst k j hk hj
    obtain ⟨t, ht⟩ := forceDma_safe (s := s.start) henabled hrunning hsafe
    obtain ⟨-, hrows⟩ := forceDma_rows (s := s.start) henabled hrunning ht
    obtain ⟨hunits, hreply, hframe⟩ := unitsByRows_reply (x := s.chan ch) (s := s.start) _
      (fun k hk => eep_window hcart (hsrc k hk).1 (hsrc k hk).2) hdst
    obtain ⟨u, hu⟩ : ∃ u, u = unitsByRows (s.chan ch) s.start (unitsLeft (s.chan ch)) := ⟨_, rfl⟩
    obtain ⟨hfields, hbytes⟩ := hrows u hu
    rw [← hu] at hunits hreply hframe
    have hother : ∀ b : Addr, b ≠ cntHAddr Config.default ch + 1 → t.asByte b = u.asByte b :=
      fun b hb => (hbytes b).trans (if_neg fun h => hb h.1)
    have hee : t.ee = u.ee := (congrArg State.ee hfields).trans (if_pos (windowUnits_of_ram (s := s) hdst))
    refine ⟨t, congrArg toOutcome ht, ?_, hee.trans (congrArg State.ee hunits), fun k hk hlast j hj => ?_,
      fun b hb hbit => (hother b hbit).trans (hframe b hb)⟩
    · have hsame : ∀ m d x o, ({ u with mem := m, dma := d, ee := x, out := o } : State)
          = { s with mem := m, dma := d, ee := x, out := o } := by
        intro m d x o
        rw [hunits]; rfl
      rw [hfields]
      exact hsame ..
    · rw [hother _ (ne_cntHAddr_succ_of_ram (hdst k j hk hj)), hreply k hk hlast j hj, eepromReply_getD hk]
      rfl

/-! ## What runs leave alone -/

section
variable {i : Instr} {ch k : Chan} {s t : State} {b : Addr}

/-- What DMA runs of the channels of `A` leave alone, whatever their units write: all but those channels, bit 15 of their
`CNT_H`, and what the bus can write outside BIOS, ROM and the register block (41_dma.md R193 to R197, 20_memory.md R68). -/
structure RunsFrame (A : Chan → Prop) (s t : State) : Prop where
  cart : t.cart = s.cart
  tc : t.tc = s.tc
  inputs : t.inputs = s.inputs
  free : t.free = s.free
  other : ∀ k, ¬ A k → t.chan k = s.chan k ∧ cntHOf Config.default t k = cntHOf Config.default s k
  registers : ∀ k, sadOf Config.default t k = sadOf Config.default s k ∧ dadOf Config.default t k = dadOf Config.default s k
    ∧ cntLOf Config.default t k = cntLOf Config.default s k
    ∧ cntHOf Config.default t k &&& 0x7FFF = cntHOf Config.default s k &&& 0x7FFF
  block : ∀ b : Addr, inDmaBlock Config.default b = true →
    t.asByte b = s.asByte b ∨ ∃ k, b = cntHAddr Config.default k + 1 ∧ t.asByte b = s.asByte b &&& 0x7F
  rom : ∀ b : Addr, regionOf Config.default b = .bios ∨ regionOf Config.default b = .rom → t.asByte b = s.asByte b

/-- Only channels write during a run (40_bus_access.md R151). -/
def notCpu (org : Origin) : Prop := org ≠ .cpu

theorem notCpu_dma (k : Chan) : notCpu (.dma k) := by simp [notCpu]

/-- Runs are primitive changes by channels, and those have the frame. -/
theorem Prims.runsFrame {A : Chan → Prop} (h : Prims Config.default notCpu A s t) : RunsFrame A s t := by
  obtain ⟨hcart, htc, hinputs, hfree, -⟩ := h.frame
  refine ⟨hcart, htc, hinputs, hfree, fun k hk => ⟨h.other_chan hk, ?_⟩, fun k => ?_, fun b hb => ?_, fun b => h.romBytes⟩
  · obtain ⟨-, -, -, -, hcntH⟩ := h.registers (fun _ ho => ho) k
    exact hcntH hk
  · obtain ⟨hsad, hdad, hcntL, hcntH, -⟩ := h.registers (fun _ ho => ho) k
    exact ⟨hsad, hdad, hcntL, hcntH⟩
  · exact (h.block (fun _ ho => ho) hb).imp_right fun ⟨k, _, haddr, hbyte⟩ => ⟨k, haddr, hbyte⟩

theorem exec_pass_runsFrame {ev : DmaEvent} (hi : passEvent i = some ev) (h : exec i s = .next t) :
    RunsFrame (fun k => eligible Config.default k (s.chan k) ev = true) s.start t := by
  rw [exec_pass hi] at h
  exact (dmaService_prims notCpu_dma (toOutcome_next h)).runsFrame

theorem exec_forcedma_runsFrame (h : exec (.forcedma ch) s = .next t) : RunsFrame (fun k => k = ch) s.start t :=
  (forceDma_prims (A := fun k => k = ch) notCpu_dma rfl (toOutcome_next h)).runsFrame

theorem exec_dmatick_runsFrame (h : exec .dmatick s = .next t) :
    RunsFrame (fun k => eligible Config.default k (tickChan (s.chan k)) .none = true) (tickAll s.start) t := by
  have hprims := dmaService_prims (s := tickAll s.start) notCpu_dma (toOutcome_next h)
  simp only [tickAll_chan, State.start_chan] at hprims
  exact hprims.runsFrame

/-- A control register row: its own channel and those ready of themselves, from the state that holds the register. -/
theorem exec_control_runsFrame {f : CtlFields} (hi : i = .dmaarm ch f ∨ i = .dmaoff ch f) (h : exec i s = .next t) :
    ∃ e, RunsFrame (fun k => k ∈ [ch] ∨ eligible Config.default k (s.chan k) .none = true)
      (withCntH ch (f.toHalf e) s) t := by
  rcases hi with rfl | rfl
  · exact ⟨true, (regCommit_prims notCpu_dma (toOutcome_next h)).runsFrame⟩
  · exact ⟨false, (regCommit_prims notCpu_dma (toOutcome_next h)).runsFrame⟩

/-- A write: its bytes, then the runs of the channels it touches and of those ready of themselves (40_bus_access.md R150). -/
theorem exec_write_runsFrame {a : Addr} {bs : List Byte} (hi : writeAccess i = some (a, bs)) (h : exec i s = .next t) :
    ∃ u, writeBytes Config.default .cpu a bs (writeStart i s) = .ok u ∧
      RunsFrame (fun k => k ∈ touchedCntH Config.default s.cart.gpioType a bs.length
        ∨ eligible Config.default k (s.chan k) .none = true) u t := by
  rw [exec_write hi] at h
  have h := toOutcome_next h
  obtain ⟨u, hu⟩ := writeBytes_cpu (c := Config.default) (s := writeStart i s) a bs
  simp only [writeTransaction, hu] at h
  have hprims := regCommit_prims notCpu_dma h
  have hchan : ∀ k, u.chan k = s.chan k := fun k => congrArg (Channels.get · k) (writeBytes_frame hu).of_writeStart.dma
  simp only [hchan, writeStart_cart] at hprims
  exact ⟨u, hu, hprims.runsFrame⟩

/-! The store of a control register row beside its own register. -/

theorem cntHOf_withCntH_other (hk : k ≠ ch) (w : Half) :
    cntHOf Config.default (withCntH ch w s) k = cntHOf Config.default s k := by
  have hval : k.val ≠ ch.val := fun h => hk (Fin.ext h)
  have hkLt := k.isLt
  have hchLt := ch.isLt
  refine io16_congr fun j hj => withCntH_asByte _ _ ?_
  have haddr := toNat_add_small (k := j) (cntHAddr_default k) (by omega)
  exact far_of_toNat haddr (cntHAddr_default ch) (by omega) (by omega) (by omega)

theorem regionOf_dmaBlock (h : inDmaBlock Config.default b = true) : regionOf Config.default b = .io := by
  simpa [decodeTag, inGpioWindow] using dmaBlock_io (g := .disabled) h

theorem withCntH_asByte_rom (w : Half) (hb : regionOf Config.default b = .bios ∨ regionOf Config.default b = .rom) :
    (withCntH ch w s).asByte b = s.asByte b := by
  have hchLt := ch.isLt
  refine withCntH_asByte _ _ (far_of_toNat rfl (cntHAddr_default ch) ?_ (by omega) (by omega))
  by_contra hnear
  have hio : regionOf Config.default b = .io := regionOf_dmaBlock ((inDmaBlock_default b).mpr (by omega))
  simp [hio] at hb

/-- But for bit 15 the half-words of DMAARM and DMAOFF are the same (30_encoding.md R105). -/
theorem toHalf_and_7fff (e e' : Bool) (f : CtlFields) : f.toHalf e &&& 0x7FFF = f.toHalf e' &&& 0x7FFF := by
  apply BitVec.eq_of_getLsbD_eq
  intro j hj
  simp only [BitVec.getLsbD_and, CtlFields.toHalf_bit _ _ _ hj]
  interval_cases j <;> simp

end

/-- Settles O24: `RunsFrame` of the trigger events, of DMATICK, of the control register rows and of the writes; and the frames of
the own effect and of the forced runs of any instruction. -/
theorem dmaEventFrame : Obligations.DmaEventFrame := by
  unfold Obligations.DmaEventFrame
  refine ⟨fun i s t h ran hran => ?event, fun s t h => ?tick, fun i ch f s t hi h => ?control,
    fun i a bs s t hi h => ?write, fun i s t hm h => ?addresses⟩
  case event =>
    have hframe : RunsFrame ran s.start t := by
      rcases hran with ⟨ev, hi, hran⟩ | ⟨ch, rfl, hran⟩
      · rw [funext fun k => propext (hran k)]
        exact exec_pass_runsFrame hi h
      · rw [funext fun k => propext (hran k)]
        exact exec_forcedma_runsFrame h
    exact ⟨hframe.cart, hframe.tc, hframe.inputs, hframe.free, hframe.other, hframe.registers, hframe.rom⟩
  case tick =>
    have hframe := exec_dmatick_runsFrame h
    refine ⟨hframe.cart, hframe.tc, hframe.inputs, hframe.free, fun k hk => ?_, hframe.registers, hframe.rom⟩
    obtain ⟨hchan, hcntH⟩ := hframe.other k (by simp [hk])
    exact ⟨hchan.trans (tickAll_chan s.start k), hcntH⟩
  case control =>
    obtain ⟨e, hframe⟩ := exec_control_runsFrame hi h
    refine ⟨hframe.cart, hframe.tc, hframe.inputs, hframe.free, fun k hk hidle => ?_, fun k => ?_,
      fun b hb => (hframe.rom b hb).trans (withCntH_asByte_rom _ hb)⟩
    · obtain ⟨hchan, hcntH⟩ := hframe.other k (by simp [hk, hidle])
      exact ⟨hchan, hcntH.trans (cntHOf_withCntH_other hk _)⟩
    · obtain ⟨hsad, hdad, hcntL, hcntH⟩ := hframe.registers k
      refine ⟨hsad.trans (sadOf_store ..), hdad.trans (dadOf_store ..), hcntL.trans (cntLOf_store ..), hcntH.trans ?_⟩
      by_cases hk : k = ch
      · rw [if_pos hk, hk, cntHOf_withCntH, toHalf_and_7fff e true]
      · rw [if_neg hk, cntHOf_withCntH_other hk]
  case write =>
    obtain ⟨u, hu, hframe⟩ := exec_write_runsFrame hi h
    have hprims := writeBytes_prims (O := fun _ => True) (A := fun _ => False) trivial hu
    obtain ⟨hcart, htc, hinputs, hfree, -⟩ := hprims.frame
    have hbytes := (writeBytes_frame hu).of_writeStart
    refine ⟨hframe.cart.trans (hcart.trans (writeStart_cart ..)), hframe.inputs.trans (hinputs.trans (writeStart_inputs ..)),
      hframe.free.trans (hfree.trans (writeStart_free ..)), fun hfast => ?_, fun k huncovered hidle => ?_,
      fun b hb hunwritten => ?_, fun b hb => ?_⟩
    · rw [hframe.tc, htc, writeStart_fast hfast, State.start_tc]
    · have huntouched : k ∉ touchedCntH Config.default s.cart.gpioType a bs.length := fun hmem => by
        obtain ⟨j, hj, hcover⟩ := mem_touchedCntH _ hmem
        exact hcover.elim (huncovered j hj).1 (huncovered j hj).2
      obtain ⟨hchan, hcntH⟩ := hframe.other k (by simp [huntouched, hidle])
      refine ⟨hchan.trans (congrArg (Channels.get · k) hbytes.dma), hcntH.trans ?_⟩
      rw [cntHOf, cntHOf, State.io16, State.io16, hbytes.bytes _ fun j hj heq => (huncovered j hj).1 heq.symm,
        hbytes.bytes _ fun j hj heq => (huncovered j hj).2 heq.symm]
    · rw [← hbytes.bytes b hunwritten]
      exact hframe.block b hb
    · exact (hframe.rom b hb).trans ((hprims.romBytes hb).trans (asByte_congr (writeStart_mem i s) b))
  case addresses =>
    obtain ⟨hrunnable, v, hruns, ht⟩ := exec_runs hm h
    obtain ⟨hrunBytes, hrunBkp, hrunGpio, hrunEe⟩ := forceList_frame _ hrunnable hruns
    obtain ⟨hownCart, hownEe, hownBytes, hownBkp, hownGpio⟩ := beforeRuns_frame hm s
    rw [hownCart] at hrunBkp hrunGpio
    rw [ht]
    refine ⟨fun b hown hpass hbit => (hrunBytes b hpass hbit).trans (hownBytes b hown), fun havoid => ?_, fun havoid => ?_,
      fun havoid => ?_⟩
    · obtain ⟨hrunFl, hrunSram⟩ := hrunBkp fun b hb => (havoid b hb).2
      obtain ⟨hownFl, hownSram⟩ := hownBkp fun b hb => (havoid b hb).1
      exact ⟨hrunFl.trans hownFl, hrunSram.trans hownSram⟩
    · exact (hrunGpio fun b hb => (havoid b hb).2).trans (hownGpio fun b hb => (havoid b hb).1)
    · refine (hrunEe fun ch hch n hn => ?_).trans hownEe
      rw [window_congr hownCart, window_congr hownCart]
      exact havoid ch hch n hn

end Sys2Proof.Machine
end

section
/-! PROOF. The EEPROM (42_eeprom.md): requests, page writes and malformed bursts, the bits of a reply, the round trip, and that the store changes by accepted writes and the loads only. -/

namespace Sys2Proof.Machine

/-! ## Requests, page writes, malformed bursts -/

section
variable {s : State} {n : Nat} {sz : EeSize}

/-- The address widths of the two size classes (R234). -/
def AddrWidth (n : Nat) (sz : EeSize) : Prop := (n = 6 ∧ sz = .small) ∨ (n = 14 ∧ sz = .large)

theorem addrWidth_small : AddrWidth 6 .small := .inl ⟨rfl, rfl⟩

theorem addrWidth_large : AddrWidth 14 .large := .inr ⟨rfl, rfl⟩

/-- The engine after an accepted read request, the buffered bits apart (R236, R237). -/
def Eeprom.requested (ee : Eeprom) (sz : EeSize) (src : Addr) (a : BitVec 14) (buf : BitVec 81) : Eeprom :=
  { ee with phase := .readOut, cursor := 0, addr := a, size := sz, sizeLock := true, dmaPtr := src, buf := buf }

/-- The engine after an accepted write, the buffered bits and the store apart (R238, R239). -/
def Eeprom.written (ee : Eeprom) (sz : EeSize) (src : Addr) (a : BitVec 14) (buf : BitVec 81) (data : Memory) : Eeprom :=
  { ee with phase := .idle, cursor := 0, addr := a, size := sz, sizeLock := true, dmaPtr := src, buf := buf, data := data }

theorem burstIntoWindow_read (hsz : AddrWidth n sz) (hb : s.cart.backupType = .eeprom) (hp : s.ee.phase ≠ .shiftIn)
    (hlock : s.ee.sizeLock = true → s.ee.size = sz) (src : Addr) (a : BitVec n) (stop : Bool) :
    ∃ t, burstIntoWindow Config.default src (readRequestBits a stop) s = t
      ∧ t = { s with ee := s.ee.requested sz src (a.setWidth 14) t.ee.buf, out := .empty } := by
  obtain ⟨buf, hburst⟩ := burst_read hsz src a stop hp hlock
  refine ⟨_, rfl, ?_⟩
  rw [exec_burst hb, hburst]
  rfl

/-- An accepted write: the engine, the eight bytes of the page, the other bytes. -/
theorem burstIntoWindow_write (hsz : AddrWidth n sz) (hb : s.cart.backupType = .eeprom) (hp : s.ee.phase ≠ .shiftIn)
    (hlock : s.ee.sizeLock = true → s.ee.size = sz) (src : Addr) (a : BitVec n) (d : BitVec 64) (stop : Bool) {page : Nat}
    (hpage : eePageOf Config.default (a.setWidth 14) sz = page) :
    ∃ t, burstIntoWindow Config.default src (writeBits a d stop) s = t
      ∧ t = { s with ee := s.ee.written sz src (a.setWidth 14) t.ee.buf t.ee.data, out := .empty }
      ∧ (∀ j, j < 8 → t.ee.data.read (8 * page + j) = d.extractLsb' (8 * (7 - j)) 8)
      ∧ (∀ o, (o < 8 * page ∨ 8 * page + 8 ≤ o) → t.ee.data.read o = s.ee.data.read o) := by
  obtain ⟨buf, data, hburst, hread⟩ := burst_write hsz src a d stop hp hlock
  rw [hpage] at hread
  refine ⟨_, rfl, ?_⟩
  rw [exec_burst hb, hburst]
  refine ⟨rfl, fun j hj => ?_, fun o ho => ?_⟩
  · refine (hread _).trans ?_
    rw [if_pos (by omega), Nat.add_sub_cancel_left]
  · exact (hread o).trans (if_neg (by omega))

/-- The page of a six-bit address under the small size: the upper address bits are 0. -/
theorem eePageOf_setWidth_small (a : BitVec 6) : eePageOf Config.default (a.setWidth 14) .small = a.toNat % 64 := by
  rw [page_small, BitVec.toNat_setWidth_of_le (by omega)]

end

/-- Settles O28: the burst of an accepted read request, at the two sizes. -/
theorem eepromReadRequests : Obligations.EepromReadRequests := by
  unfold Obligations.EepromReadRequests
  intro s src stop hb hp
  refine ⟨fun a hlock => ?small, fun a hlock => ?large⟩
  case small =>
    obtain ⟨t, ht, heq⟩ := burstIntoWindow_read addrWidth_small hb hp hlock src a stop
    exact ⟨t, congrArg _ ht, heq⟩
  case large =>
    obtain ⟨t, ht, heq⟩ := burstIntoWindow_read addrWidth_large hb hp hlock src a stop
    rw [BitVec.setWidth_eq] at heq
    exact ⟨t, congrArg _ ht, heq⟩

/-- Settles O29: the burst of an accepted write, at the two sizes. -/
theorem eepromPageWrites : Obligations.EepromPageWrites := by
  unfold Obligations.EepromPageWrites
  intro s src d stop hb hp
  refine ⟨fun a hlock => ?small, fun a hlock => ?large⟩
  case small =>
    obtain ⟨t, ht, heq, hpage⟩ :=
      burstIntoWindow_write addrWidth_small hb hp hlock src a d stop (eePageOf_setWidth_small a)
    exact ⟨t, congrArg _ ht, heq, hpage⟩
  case large =>
    obtain ⟨t, ht, heq, hpage⟩ :=
      burstIntoWindow_write addrWidth_large hb hp hlock src a d stop (page_large (a.setWidth 14))
    rw [BitVec.setWidth_eq] at heq hpage
    exact ⟨t, congrArg _ ht, heq, hpage⟩

/-- Settles O30: the end of a burst that fails a test touches the phase and the cursor only. -/
theorem eepromMalformedBurst : Obligations.EepromMalformedBurst := by
  unfold Obligations.EepromMalformedBurst
  intro s src bits hb hp hne hbad
  obtain ⟨buf, hburst⟩ := burst_bad hne src hp hbad
  refine ⟨_, congrArg Host.Outcome.next (exec_burst hb src bits), ?_⟩
  rw [hburst]
  rfl

/-! ## Replies -/

section
variable {ee : Eeprom}

theorem shiftOutBit_outside (hp : ee.phase ≠ .readOut) : shiftOutBit Config.default ee = true := if_neg hp

theorem shiftOutBit_preamble (hp : ee.phase = .readOut) (hc : ee.cursor < 4) : shiftOutBit Config.default ee = false := by
  rw [shiftOutBit, if_pos hp, default_eeDummy, if_pos hc]

theorem shiftOutBit_data (hp : ee.phase = .readOut) (hc : 4 ≤ ee.cursor) : shiftOutBit Config.default ee
    = (ee.data.read (8 * eePageOf Config.default ee.addr ee.size + (ee.cursor - 4) / 8)).getLsbD (7 - (ee.cursor - 4) % 8) := by
  rw [shiftOutBit, if_pos hp, default_eeDummy, if_neg (by omega), default_eePage, pageBit]

theorem eepromShiftOut_outside (hp : ee.phase ≠ .readOut) : eepromShiftOut Config.default ee = ee := if_neg hp

theorem eepromShiftOut_last (hp : ee.phase = .readOut) (hc : ee.cursor = 67) :
    eepromShiftOut Config.default ee = { ee with phase := .idle, cursor := 0 } := by
  rw [eepromShiftOut, if_pos hp, default_eeDummy, if_pos hc]

theorem eepromShiftOut_next (hp : ee.phase = .readOut) (hc : ee.cursor ≠ 67) :
    eepromShiftOut Config.default ee = { ee with cursor := ee.cursor + 1 } := by
  rw [eepromShiftOut, if_pos hp, default_eeDummy, if_neg hc]

end

/-- Settles O31: EERDBIT answers the bit and leaves the engine that one shift out gives, told apart by phase and cursor. -/
theorem eepromReplyBits : Obligations.EepromReplyBits := by
  unfold Obligations.EepromReplyBits
  intro s a w hb hfirst hlast
  refine ⟨_, shiftOutBit Config.default s.ee, exec_eerdbit hb hfirst hlast w, ?value, rfl,
    fun hp => ⟨shiftOutBit_outside hp, eepromShiftOut_outside hp⟩, shiftOutBit_preamble, fun hp hc => ?data,
    eepromShiftOut_last, eepromShiftOut_next⟩
  case value => exact congrArg (fun v => (⟨some v, none, [], none⟩ : Outputs)) (unitValue_bit w _)
  case data =>
    rw [shiftOutBit_data hp hc]
    cases s.ee.size with
    | small => rw [page_small]
    | large => rw [page_large]

/-! ## The round trip -/

/-- An instruction completes as a burst of the bits, in every state. -/
def IsBurst (i : Instr) (src : Addr) (bits : List Bool) : Prop :=
  ∀ s, exec i s = .next (burstIntoWindow Config.default src bits s)

/-- Two bursts in turn under an EEPROM cartridge. -/
theorem execAll_bursts {i j : Instr} {src src' : Addr} {bits bits' : List Bool} {s : State} (hi : IsBurst i src bits)
    (hj : IsBurst j src' bits') (hb : s.cart.backupType = .eeprom) :
    ∃ r, execAll [i, j] s = .next r
      ∧ r.ee = eepromBurst Config.default src' bits' (eepromBurst Config.default src bits s.ee) := by
  refine ⟨burstIntoWindow Config.default src' bits' (burstIntoWindow Config.default src bits s), ?_, ?_⟩
  · simp only [execAll, hi s, hj (burstIntoWindow Config.default src bits s)]
  · rw [exec_burst hb, exec_burst (s := s.start.setEe _) hb]
    rfl

/-- The round trip at one size class. -/
theorem write_then_read {n : Nat} {sz : EeSize} {s : State} {i j : Instr} {src src' a' : Addr} {a : BitVec n} {d : BitVec 64}
    {stop stop' : Bool} (hsz : AddrWidth n sz) (hb : s.cart.backupType = .eeprom) (hp : s.ee.phase ≠ .shiftIn)
    (hlock : s.ee.sizeLock = true → s.ee.size = sz) (hfirst : 0x0D000000 ≤ a') (hlast : a' ≤ 0x0DFFFFFF) (w : UnitWidth)
    (hi : IsBurst i src (writeBits a d stop)) (hj : IsBurst j src' (readRequestBits a stop')) {k : Nat} (hk : k < 68) :
    ∃ t, execAll ([i, j] ++ List.replicate (k + 1) (.eerdbit a' w)) s = .next t
      ∧ t.out.value = some (unitValue w (if k < 4 then 0 else (BitVec.ofBool (d.getLsbD (63 - (k - 4)))).setWidth 32))
      ∧ ∃ r, execAll [i, j] s = .next r
        ∧ eepromReply Config.default 68 r.ee = [false, false, false, false] ++ bitsOfVec d := by
  obtain ⟨t, ht, hvalue⟩ := roundtrip_gen hsz hb hp hlock src src' a' hfirst hlast w a d stop stop' i j hi hj k hk
  obtain ⟨r, hr, hee⟩ := execAll_bursts hi hj hb
  refine ⟨t, ht, hvalue, r, hr, ?_⟩
  rw [hee]
  exact roundtrip_reply hsz hp hlock src src' a d stop stop'

/-- Settles O32: `write_then_read` at the two sizes. -/
theorem eepromRoundTrip : Obligations.EepromRoundTrip := by
  unfold Obligations.EepromRoundTrip
  rintro s src src' a' w d stop stop' i j hb hp hfirst hlast (⟨a, hlock, rfl, rfl⟩ | ⟨a, hlock, rfl, rfl⟩) k hk
  · exact write_then_read addrWidth_small hb hp hlock hfirst hlast w (fun _ => rfl) (fun _ => rfl) hk
  · exact write_then_read addrWidth_large hb hp hlock hfirst hlast w (fun _ => rfl) (fun _ => rfl) hk

/-! ## No corruption -/

section
variable {i : Instr} {s t : State}

/-- An instruction that can start runs is no burst. -/
theorem burstBits_of_mayRunDma (hm : mayRunDma i = true) : burstBits i = none := by
  cases i with
  | eerdreq6 _ _ _ | eerdreq14 _ _ _ | eewr6 _ _ _ _ | eewr14 _ _ _ _ | eebad _ _ => cases hm
  | _ => rfl

/-- An instruction that can start no run runs no channel. -/
theorem runChans_of_not_mayRunDma (hm : mayRunDma i = false) (s : State) : runChans i s = [] := by
  cases i with
  | wr8 _ _ | wr16 _ _ | wr32 _ _ | fwr8 _ _ | fwr16 _ _ | fwr32 _ _ | vblank | hblank | fifoA | fifoB | dmatick
  | dmaarm _ _ | dmaoff _ _ | forcedma _ => cases hm
  | _ => rfl

/-- The state that an instruction with runs ends in has the engine its forced runs leave. -/
theorem exec_runs_ee (hm : mayRunDma i = true) (h : exec i s = .next t) : Runnable (runChans i s) (beforeRuns i s)
    ∧ ∃ v, forceList Config.default (runChans i s) (beforeRuns i s) = .ok v ∧ t.ee = v.ee := by
  obtain ⟨hrunnable, v, hruns, ht⟩ := exec_runs hm h
  exact ⟨hrunnable, v, hruns, by rw [ht]⟩

/-- Runs do to the store, the size and the lock what their bursts do in turn (41_dma.md R192, R193, 42_eeprom.md R244). -/
theorem exec_runs_kept (hm : mayRunDma i = true) (h : exec i s = .next t) (hp : s.ee.phase ≠ .shiftIn) :
    t.ee.kept = (burstsInTurn (runChans i s) (beforeRuns i s)).foldl burstEffect s.ee.kept := by
  obtain ⟨hrunnable, v, hruns, ht⟩ := exec_runs_ee hm h
  obtain ⟨-, hee, -⟩ := beforeRuns_frame hm s
  rw [ht, ← hee]
  exact forceList_kept _ rfl hrunnable (by rwa [hee]) hruns

/-- Each burst of the runs is as long as some run has units into the window. -/
theorem exec_runs_burst_length (hm : mayRunDma i = true) (h : exec i s = .next t) :
    ∀ bits ∈ burstsInTurn (runChans i s) (beforeRuns i s),
      ∃ ch ∈ runChans i s, bits.length = (windowUnits ((beforeRuns i s).chan ch) s).length := by
  intro bits hbits
  obtain ⟨hrunnable, v, hruns, -⟩ := exec_runs_ee hm h
  obtain ⟨hcart, -⟩ := beforeRuns_frame hm s
  obtain ⟨ch, hch, hlen⟩ := burstsInTurn_length _ rfl hrunnable hruns bits hbits
  exact ⟨ch, hch, hlen.trans (congrArg List.length (windowUnits_congr hcart.symm rfl rfl rfl rfl rfl)).symm⟩

/-- Without an EEPROM cartridge no pass has a unit at the window (42_eeprom.md R231). -/
theorem passAvoidsEeprom_of_backup_ne (hb : s.cart.backupType ≠ .eeprom) (x : DmaChan) : passAvoidsEeprom x s :=
  fun _ _ => by simp [inEepWindow, hb]

/-- Without an EEPROM cartridge runs leave the engine alone. -/
theorem exec_runs_ee_of_backup_ne (hm : mayRunDma i = true) (h : exec i s = .next t) (hb : s.cart.backupType ≠ .eeprom) :
    t.ee = s.ee := by
  obtain ⟨hrunnable, v, hruns, ht⟩ := exec_runs_ee hm h
  obtain ⟨hcart, hee, -⟩ := beforeRuns_frame hm s
  obtain ⟨-, -, -, hframe⟩ := forceList_frame _ hrunnable hruns
  rw [ht, ← hee]
  exact hframe fun _ _ => passAvoidsEeprom_of_backup_ne (by rwa [hcart]) _

/-- Without an EEPROM cartridge the row of a burst leaves the engine alone (R231). -/
theorem exec_burst_ee_of_backup_ne {bits : List Bool} (hbits : burstBits i = some bits) (h : exec i s = .next t)
    (hb : s.cart.backupType ≠ .eeprom) : t.ee = s.ee := by
  obtain ⟨src, hx⟩ := exec_burstBits hbits s
  rw [hx, burstIntoWindow, if_neg hb] at h
  cases h
  rfl

/-- Any instruction but the loads does to the store, the size and the lock what its bursts do in turn: those of its runs, the one
it is, or none (R244). -/
theorem exec_kept_bursts (h : exec i s = .next t) (hp : s.ee.phase ≠ .shiftIn) (hcart : ∀ m b g, i ≠ .loadcart m b g)
    (hbkp : ∀ f, i ≠ .loadbkp f) (hne : burstBits i ≠ some []) : t.ee.kept = (burstsOf i s).foldl burstEffect s.ee.kept := by
  unfold burstsOf
  by_cases hm : mayRunDma i = true
  · rw [burstBits_of_mayRunDma hm]
    exact exec_runs_kept hm h hp
  rw [Bool.not_eq_true] at hm
  cases hbits : burstBits i with
  | none =>
    rw [runChans_of_not_mayRunDma hm]
    exact exec_kept h hm hbits hcart hbkp
  | some bits =>
    by_cases hb : s.cart.backupType = .eeprom
    · obtain ⟨src, hx⟩ := exec_burstBits hbits s
      rw [hx, exec_burst hb] at h
      cases h
      simp only [if_pos hb, List.foldl_cons, List.foldl_nil]
      exact burst_kept (fun hnil => hne (hnil ▸ hbits)) src hp
    · simp only [if_neg hb, List.foldl_nil]
      rw [exec_burst_ee_of_backup_ne hbits h hb]

/-- Without an EEPROM cartridge only the loads change what the engine keeps. -/
theorem exec_kept_of_backup_ne (h : exec i s = .next t) (hcart : ∀ m b g, i ≠ .loadcart m b g) (hbkp : ∀ f, i ≠ .loadbkp f)
    (hb : s.cart.backupType ≠ .eeprom) : t.ee.kept = s.ee.kept := by
  by_cases hm : mayRunDma i = true
  · rw [exec_runs_ee_of_backup_ne hm h hb]
  rw [Bool.not_eq_true] at hm
  cases hbits : burstBits i with
  | none => exact exec_kept h hm hbits hcart hbkp
  | some bits => rw [exec_burst_ee_of_backup_ne hbits h hb]

/-- The row of a burst changes the store only as an accepted write, and then one page of it (R234, R244). -/
theorem exec_eebad_data {src : Addr} {bits : List Bool} (h : exec (.eebad src bits) s = .next t) (hp : s.ee.phase ≠ .shiftIn)
    (hne : bits ≠ []) (hchanged : t.ee.data ≠ s.ee.data) :
    (bits.length = 73 ∨ bits.length = 81) ∧ bits.getD 0 false = true ∧ bits.getD 1 true = false
      ∧ (s.ee.sizeLock = true → (s.ee.size = .small ↔ bits.length = 73))
      ∧ ∀ o, o / 8 ≠ eePageOf Config.default t.ee.addr t.ee.size → t.ee.data.read o = s.ee.data.read o := by
  by_cases hb : s.cart.backupType = .eeprom
  · have ht : s.start.setEe (eepromBurst Config.default src bits s.ee) = t := by
      rw [← exec_burst hb]
      exact Host.Outcome.next.inj h
    subst ht
    exact (burst_data hne src hp).resolve_left hchanged
  · exact absurd (congrArg Eeprom.data (exec_burst_ee_of_backup_ne (bits := bits) rfl h hb)) hchanged

end

/-- Settles O33: a burst alone, an instruction without runs, the bursts of any instruction in turn, and the runs of one by the
lengths of their bursts; without an EEPROM cartridge no run has a unit at the window. -/
theorem eepromStoreChangesOnlyByAcceptedWrites : Obligations.EepromStoreChangesOnlyByAcceptedWrites := by
  unfold Obligations.EepromStoreChangesOnlyByAcceptedWrites
  refine ⟨fun s t src bits hp hne h hchanged => exec_eebad_data h hp hne hchanged,
    fun _ _ _ => exec_ee_data,
    fun i s t hp h hcart hbkp hne => exec_kept_bursts h hp hcart hbkp hne,
    fun i s t hp h hm => ⟨fun hnone => ?unchanged, fun hchanged => ?changed⟩,
    fun i s t h hcart hbkp hb => congrArg Prod.fst (exec_kept_of_backup_ne h hcart hbkp hb)⟩
  case unchanged =>
    have hkept := exec_runs_kept hm h hp
    rw [bursts_empty _ fun bits hbits => by
      obtain ⟨ch, hch, hlen⟩ := exec_runs_burst_length hm h bits hbits
      rw [hlen, hnone ch hch, List.length_nil]] at hkept
    simpa only [Eeprom.kept, Prod.mk.injEq] using hkept
  case changed =>
    have hdata := congrArg Prod.fst (exec_runs_kept hm h hp)
    obtain ⟨bits, hbits, hlen⟩ := bursts_data _ fun hsame => hchanged (hdata.trans hsame)
    obtain ⟨ch, hch, hunits⟩ := exec_runs_burst_length hm h bits hbits
    exact ⟨ch, hch, by rwa [← hunits]⟩

end Sys2Proof.Machine
end

section
/-! PROOF. The Flash (43_flash.md): one byte access is one row, the effect of each row on the engine, and the program and erase sequences by bus writes. -/

namespace Sys2Proof.Machine

/-! ## The active bank -/

section
variable (fl : Flash) (m : Memory)

@[simp] theorem Flash.active_setActive : (fl.setActive m).active = m := by
  cases hb : fl.bank <;> simp [Flash.setActive, Flash.active, hb]

/-- Writing the active bank leaves the other bank alone (R286). -/
theorem Flash.setActive_read (o : Nat) :
    (fl.setActive m).data0.read o = (if fl.bank = .bank0 then m.read o else fl.data0.read o)
    ∧ (fl.setActive m).data1.read o = (if fl.bank = .bank1 then m.read o else fl.data1.read o) := by
  cases hb : fl.bank <;> simp [Flash.setActive, hb]

/-- A programmed byte in the active bank (R273). -/
theorem program_active_read (off : Half) (b : Byte) (o : Nat) : (fl.program off b).active.read o
    = if o = off.toNat then fl.active.read off.toNat &&& b else fl.active.read o := by
  have hactive : (fl.program off b).active = fl.active.write off.toNat (fl.active.read off.toNat &&& b) :=
    fl.active_setActive _
  rw [hactive, Memory.read_write]

end

/-! ## Erasing -/

section
variable {fl : Flash}

theorem sectorOf_eq_div (off : Half) : sectorOf off = off.toNat / 0x1000 := by
  have hlt := off.isLt
  rw [sectorOf, BitVec.extractLsb'_toNat, Nat.shiftRight_eq_div_pow]
  omega

/-- An armed sector erase fills the sector in the active bank (R281). -/
theorem sectorErase_armed (off : Half) (ha : fl.writeArmed = true) : fl.sectorErase Config.default off
    = fl.common.setActive (fl.active.fill (sectorOf off * 0x1000) 0x1000 (List.replicate 0x1000 0xFF)) :=
  if_pos ha

/-- An armed chip erase (R278). -/
theorem chipErase_armed (bt : BackupType) (ha : fl.writeArmed = true) :
    fl.chipErase Config.default bt = fl.common.eraseAll Config.default bt :=
  if_pos ha

theorem sectorErase_read (off : Half) (ha : fl.writeArmed = true) (o : Nat) :
    (fl.sectorErase Config.default off).data0.read o
      = (if fl.bank = .bank0 ∧ o / 0x1000 = off.toNat / 0x1000 then 0xFF else fl.data0.read o)
    ∧ (fl.sectorErase Config.default off).data1.read o
      = (if fl.bank = .bank1 ∧ o / 0x1000 = off.toNat / 0x1000 then 0xFF else fl.data1.read o) := by
  obtain ⟨h0, h1⟩ :=
    fl.common.setActive_read (fl.active.fill (sectorOf off * 0x1000) 0x1000 (List.replicate 0x1000 0xFF)) o
  rw [sectorErase_armed off ha, h0, h1, sector_read]
  cases hb : fl.bank <;> simp [Flash.common, Flash.active, hb]

/-- The sector reads 0xFF in the active bank. -/
theorem sectorErase_active_read (off : Half) (ha : fl.writeArmed = true) {o : Nat} (ho : o / 0x1000 = off.toNat / 0x1000) :
    (fl.sectorErase Config.default off).active.read o = 0xFF := by
  rw [sectorErase_armed off ha, Flash.active_setActive, sector_read, if_pos ho]

end

/-! ## The rows -/

section
variable {s : State}

/-- A row that acts on the engine, under a cartridge with Flash. -/
theorem exec_onFlash (h : s.cart.backupType.isFlash = true) {i : Instr} (f : BackupType → Flash → Flash)
    (hi : exec i s = .next (onFlash f s)) : exec i s = .next (s.start.setFl (f s.cart.backupType s.fl)) := by
  rw [hi, on_flash h]

/-- Outside ID mode a byte read is the active bank's (R282). -/
theorem exec_frd8_data (h : s.cart.backupType.isFlash = true) (hid : s.fl.idMode = false) (off : Half) :
    exec (.frd8 (bkpAddr Config.default off)) s
      = .next (s.start.answer (some (.byte (s.fl.active.read off.toNat))) none) := by
  rw [exec_frd8_flash h, flashRead_default]
  simp [hid]

end

/-- Settles O35: a byte written and its row run the same dispatch, and a byte read and FLREAD the same `flashRead`. -/
theorem flashBytesAreTheirRows : Obligations.FlashBytesAreTheirRows := by
  unfold Obligations.FlashBytesAreTheirRows
  intro s off h
  refine ⟨fun b => ?write, ?read, ?value⟩
  case write => rw [exec_fwr8_flash h, flashWrite_row h]
  case read => rw [exec_frd8_flash h, exec_flread_flash h]
  case value =>
    rw [exec_flread_flash h, flashRead_default, Flash.active]
    cases s.fl.bank <;> rfl

/-- Settles O36: each row is its function of the engine (R272 to R285). -/
theorem flashCommandRows : Obligations.FlashCommandRows := by
  unfold Obligations.FlashCommandRows
  intro s h
  refine ⟨exec_onFlash h (fun _ fl => fl.key1) rfl, exec_onFlash h (fun _ fl => fl.key2) rfl,
    exec_onFlash h (fun _ fl => fl.idEnter) rfl, exec_onFlash h (fun _ fl => fl.idExit) rfl,
    exec_onFlash h (fun _ fl => fl.eraseSetup) rfl, exec_onFlash h (fun _ fl => fl.armProgram) rfl,
    fun h128 => ?bank, fun off v => ?ignored⟩
  case bank =>
    rw [exec_onFlash (i := .flbank) h (fun bt fl => fl.armBank bt) rfl, Flash.armBank, if_pos h128]
    rfl
  case ignored => exact exec_onFlash h (fun _ fl => fl.ignored) rfl

/-- Settles O37: FLDATA by what programming leaves, FLBANKSEL by its own function of the engine. -/
theorem flashDataRows : Obligations.FlashDataRows := by
  unfold Obligations.FlashDataRows
  intro s off b h
  refine ⟨?data, ?bankSelect⟩
  case data =>
    obtain ⟨hdata0, hdata1, hrest⟩ := program_read off b s.fl
    exact ⟨_, exec_onFlash h (fun _ fl => fl.program off b) rfl, congrArg s.start.setFl hrest, hdata0, hdata1⟩
  case bankSelect =>
    rw [exec_onFlash (i := .flbanksel off b) h (fun _ fl => fl.selectBank off b) rfl, Flash.selectBank]
    simp only [ne_eq, ite_not]
    rfl

/-- Settles O38: the chip erase by the banks of the part, the sector erase by its bytes in each bank. -/
theorem flashEraseRows : Obligations.FlashEraseRows := by
  unfold Obligations.FlashEraseRows
  intro s h harmed
  refine ⟨?chip, fun off => ?sector⟩
  case chip =>
    refine ⟨_, exec_onFlash h (fun bt fl => fl.chipErase Config.default bt) rfl, ?_⟩
    simp only [chipErase_armed _ harmed]
    refine ⟨rfl, fun o => erased_read s.fl.data0 o, fun h128 o ho => ?_, fun h64 => ?_⟩
    · exact (congrArg (Memory.read · o) (if_pos h128)).trans (erased_read s.fl.data1 o ho)
    · exact if_neg (by simp [h64])
  case sector =>
    exact ⟨_, exec_onFlash h (fun _ fl => fl.sectorErase Config.default off) rfl,
      congrArg s.start.setFl (sectorErase_frame off harmed), fun o => (sectorErase_read off harmed o).1,
      fun o => (sectorErase_read off harmed o).2⟩

/-! ## Sequences of bus writes -/

section
variable {s : State}

/-- The engine before the programmed byte: armed to take it (R279). -/
def Flash.programming (fl : Flash) : Flash := { fl with pending := .none, writeArmed := false, writeSingleByte := true }

/-- What a programmed byte leaves of the engine that was Idle before the sequence. -/
theorem programming_program_frame {fl : Flash} (hw : fl.writeSingleByte = false) (hp : fl.pending = .none) (off : Half)
    (b : Byte) : fl.programming.program off b
    = { fl with
        writeArmed := false
        data0 := (fl.programming.program off b).data0
        data1 := (fl.programming.program off b).data1 } := by
  obtain ⟨-, -, hrest⟩ := program_read off b fl.programming
  refine hrest.trans ?_
  rw [hw, hp]
  rfl

/-- The engine before the erase command: armed, the prefix given a second time (R277, R284). -/
def Flash.erasing (fl : Flash) : Flash := { fl with pending := .key2, writeArmed := true }

variable (h : s.cart.backupType.isFlash = true) (hw : s.fl.writeSingleByte = false) (hs : s.fl.switchBank = false)
  (hp : s.fl.pending = .none)
include h hw hs hp

theorem execAll_program (off : Half) (b : Byte) :
    execAll [.fwr8 0x0E005555 0xAA, .fwr8 0x0E002AAA 0x55, .fwr8 0x0E005555 0xA0, .fwr8 (bkpAddr Config.default off) b] s
      = .next (s.start.setFl (s.fl.programming.program off b)) := by
  rw [addr1, addr2]
  refine (execAll_flash _ h [(0x5555, 0xAA), (0x2AAA, 0x55), (0x5555, 0xA0), (off, b)] rfl (by simp)).trans ?_
  rw [flash_programSeq _ hw hs hp]
  rfl

theorem execAll_sectorErase {off : Half} (hoff : off ≠ 0x5555) :
    execAll [.fwr8 0x0E005555 0xAA, .fwr8 0x0E002AAA 0x55, .fwr8 0x0E005555 0x80,
        .fwr8 0x0E005555 0xAA, .fwr8 0x0E002AAA 0x55, .fwr8 (bkpAddr Config.default off) 0x30] s
      = .next (s.start.setFl (s.fl.erasing.sectorErase Config.default off)) := by
  rw [addr1, addr2]
  refine (execAll_flash _ h [(0x5555, 0xAA), (0x2AAA, 0x55), (0x5555, 0x80), (0x5555, 0xAA), (0x2AAA, 0x55), (off, 0x30)]
    rfl (by simp)).trans ?_
  rw [flash_eraseSeq _ hw hs hp off hoff]
  rfl

end

/-- Settles O39: the four writes program the byte, and every read before and after is of the active bank. -/
theorem flashProgramSequence : Obligations.FlashProgramSequence := by
  unfold Obligations.FlashProgramSequence
  intro s off b h hw hs hp hid
  have hframe := programming_program_frame hw hp off b
  have hidAfter : (s.fl.programming.program off b).idMode = false := (congrArg Flash.idMode hframe).trans hid
  have hactive : s.fl.programming.active = s.fl.active := rfl
  have hbefore := exec_frd8_data h hid
  have hafter := exec_frd8_data (s := s.start.setFl (s.fl.programming.program off b)) h hidAfter
  refine ⟨_, _, _, hbefore off, execAll_program h hw hs hp off b, congrArg s.start.setFl hframe, hafter off,
    ⟨_, rfl, ?programmed⟩, ?other⟩
  case programmed =>
    rw [State.answer_out, State.setFl_fl, program_active_read, if_pos rfl, hactive]
  case other =>
    intro off' hne v v' x y hx hv hy hv'
    rw [hbefore off'] at hx
    rw [hafter off'] at hy
    cases hx
    cases hy
    cases hv
    cases hv'
    rw [State.setFl_fl, program_active_read, if_neg (mt BitVec.eq_of_toNat_eq hne), hactive]

/-- Settles O40: the six writes erase the sector, and outside ID mode every read of it is 0xFF. -/
theorem flashEraseSequence : Obligations.FlashEraseSequence := by
  unfold Obligations.FlashEraseSequence
  intro s off h hoff hw hs hp hid
  refine ⟨_, execAll_sectorErase h hw hs hp hoff, fun o ho => ?_⟩
  have hidAfter : (s.fl.erasing.sectorErase Config.default off).idMode = false :=
    (congrArg Flash.idMode (sectorErase_frame (fl := s.fl.erasing) off rfl)).trans hid
  have hsector : o.toNat / 0x1000 = off.toNat / 0x1000 := by
    rw [← sectorOf_eq_div, ← sectorOf_eq_div, sectorOf, sectorOf, ho]
  exact ⟨_, exec_frd8_data (s := s.start.setFl _) h hidAfter o,
    congrArg (fun v => some (ReadValue.byte v)) (sectorErase_active_read (fl := s.fl.erasing) off rfl hsector)⟩

end Sys2Proof.Machine
end

section
/-! PROOF. The GPIO controller (44_gpio.md): its register writes, a byte of the window as a row, what the window reads, SENSOR, and the laws of R322. -/

namespace Sys2Proof.Machine

/-! ## Register writes and SENSOR -/

section
variable {s : State}

/-- Lane 0 of a register, under a cartridge with the device. -/
theorem onGpio_lane_zero (h : s.cart.gpioType ≠ .disabled) (f : State → State) : onGpio 0 f s = f s.start := by
  rw [onGpio_active h, if_neg (by decide)]

/-- Upper lanes have no implemented bit (R312). -/
theorem onGpio_upper_lane (h : s.cart.gpioType ≠ .disabled) {lane : Nat} (hlane : lane ≠ 0) (f : State → State) :
    onGpio lane f s = s.start := by
  rw [onGpio_active h, if_pos hlane]

theorem senseInput_active (c : Config) (v : Byte) (h : s.cart.gpioType ≠ .disabled) :
    senseInput c v s = s.start.setGpio { s.gpio with inLatch := v &&& c.gpioMask } := if_neg h

theorem senseInput_disabled (c : Config) (v : Byte) (h : s.cart.gpioType = .disabled) : senseInput c v s = s.start := if_pos h

end

/-- Settles O41: in lane 0 each row is its register's function, in any other lane nothing. -/
theorem gpioRegisterWrites : Obligations.GpioRegisterWrites := by
  unfold Obligations.GpioRegisterWrites
  intro s b h
  have low (f : State → State) := congrArg (Host.Outcome.next (φ := Fault) (ρ := Refusal)) (onGpio_lane_zero h f)
  have upper {lane : Nat} (hlane : lane ≠ 0) (f : State → State) :=
    congrArg (Host.Outcome.next (φ := Fault) (ρ := Refusal)) (onGpio_upper_lane h hlane f)
  exact ⟨low (gpioWriteData Config.default b), low (gpioWriteDir Config.default b), low (gpioWriteCtl b), low gpioWriteRsv,
    fun lane hlane => ⟨upper hlane _, upper hlane _, upper hlane _, upper hlane _⟩⟩

/-- Settles O44: `senseInput` with a device and without one. -/
theorem sensorSetsInputLatch : Obligations.SensorSetsInputLatch := by
  unfold Obligations.SensorSetsInputLatch
  exact fun s v => ⟨fun h => congrArg Host.Outcome.next (senseInput_active Config.default v h),
    fun h => congrArg Host.Outcome.next (senseInput_disabled Config.default v h)⟩

/-! ## Bytes read in the window -/

section
variable {s : State} {a : Addr}

/-- A byte of the window goes to the controller, under a cartridge with the device (40_bus_access.md R147). -/
theorem readByte_window (h : s.cart.gpioType ≠ .disabled) (h1 : 0x080000C4 ≤ a) (h2 : a ≤ 0x080000CB) :
    readByte Config.default s a = gpioReadByte Config.default s.gpio (gpioOffset Config.default a) (s.asByte a) := by
  unfold readByte
  rw [window_tag h h1 h2]

/-- Without the device the window is ROM (R310). -/
theorem readByte_window_disabled (h : s.cart.gpioType = .disabled) (h1 : 0x080000C4 ≤ a) (h2 : a ≤ 0x080000CB) :
    readByte Config.default s a = s.asByte a :=
  readByte_of_isStoreTag (by rw [h, gpio_window_rom h1 h2]; rfl)

theorem gpioReadByte_notReadable (c : Config) {g : Gpio} (hr : g.readable = false) (off : Nat) (beneath : Byte) :
    gpioReadByte c g off beneath = beneath := if_pos hr

theorem gpioReadByte_upper_lane {g : Gpio} (hr : ¬ g.readable = false) {off : Nat} (hlane : off % 2 ≠ 0) (beneath : Byte) :
    gpioReadByte Config.default g off beneath = 0 := (if_neg hr).trans (if_pos hlane)

/-- Lane 0 of the four registers, while readable (R311, R317). -/
theorem gpioReadByte_registers {g : Gpio} (hr : ¬ g.readable = false) (beneath : Byte) :
    gpioReadByte Config.default g 0 beneath = g.pins Config.default ∧ gpioReadByte Config.default g 2 beneath = g.direction
    ∧ gpioReadByte Config.default g 4 beneath = 1 ∧ gpioReadByte Config.default g 6 beneath = 0 :=
  ⟨if_neg hr, if_neg hr, if_neg hr, if_neg hr⟩

/-- While not readable, the window reads as ROM whatever the cartridge has (R311). -/
theorem readByte_window_notReadable (hr : s.gpio.readable = false) (h1 : 0x080000C4 ≤ a) (h2 : a ≤ 0x080000CB) :
    readByte Config.default s a = s.asByte a := by
  by_cases h : s.cart.gpioType = .disabled
  · exact readByte_window_disabled h h1 h2
  · rw [readByte_window h h1 h2, gpioReadByte_notReadable Config.default hr]

theorem exec_frd8_readByte (s : State) (a : Addr) :
    exec (.frd8 a) s = .next (s.start.answer (some (.byte (readByte Config.default s a))) none) := by
  rw [← readValue_memRead_byte]
  rfl

/-- GPRD is the controller's answer at the register's offset, the byte of `AS` at the register's address beneath it. -/
theorem exec_gprd (h : s.cart.gpioType ≠ .disabled) (k : Fin 4) {lane : Nat} (hlane : lane < 2) :
    exec (.gprd k lane) s = .next (s.start.answer (some (.byte (gpioReadByte Config.default s.gpio (2 * k.val + lane)
      (s.asByte (0x080000C4 + BitVec.ofNat 32 (2 * k.val + lane)))))) none) := by
  obtain ⟨h1, h2⟩ := gpioAddr_bounds k hlane
  have hread := readByte_window h h1 h2
  rw [gpioAddr_offset k hlane] at hread
  have haddr : gpioAddr Config.default k.val lane = 0x080000C4 + BitVec.ofNat 32 (2 * k.val + lane) := by
    rw [gpioAddr, default_gpioBase, default_gpioStride, Nat.mul_comm]
  rw [← haddr, ← hread]
  rfl

end

/-- Settles O43: the controller's answer by the readable flag, then the lane, then the register. -/
theorem gpioReads : Obligations.GpioReads := by
  unfold Obligations.GpioReads
  intro s k lane h hlane
  rw [exec_gprd h k hlane]
  refine congrArg (fun v => Host.Outcome.next (s.start.answer (some (.byte v)) none)) ?_
  split_ifs with hr hupper
  · exact gpioReadByte_notReadable Config.default hr ..
  · exact gpioReadByte_upper_lane hr (by omega) _
  · obtain rfl : lane = 0 := not_not.mp hupper
    obtain ⟨hdata, hdirection, hcontrol, hreserved⟩ :=
      gpioReadByte_registers hr (s.asByte (0x080000C4 + BitVec.ofNat 32 (2 * k.val)))
    match k with
    | 0 => exact hdata
    | 1 => exact hdirection
    | 2 => exact hcontrol
    | 3 => exact hreserved

/-! ## A byte of the window as a row -/

section
variable {s : State} {a : Addr}

/-- The row of a byte written in the window does what the controller's dispatch does with the byte (R312, 30_encoding.md R108). -/
theorem exec_gpioWrite_row (h : s.cart.gpioType ≠ .disabled) (h1 : 0x080000C4 ≤ a) (h2 : a ≤ 0x080000CB) (b : Byte) :
    ∃ i, decode Config.default s.ctx (.gpioWrite a b) = .ok i
      ∧ exec i s = .next (gpioWriteByte Config.default (gpioOffset Config.default a) b s.start) := by
  have hdecode : decode Config.default s.ctx (.gpioWrite a b) = decodeGpioWrite Config.default a b := if_neg h
  have hwindow : (a - Config.default.gpioBase).toNat < Config.default.gpioNregs * Config.default.gpioStride :=
    (window_offset h1 h2).1
  have hregister : (a - Config.default.gpioBase).toNat / Config.default.gpioStride = 0
      ∨ (a - Config.default.gpioBase).toNat / Config.default.gpioStride = 1
      ∨ (a - Config.default.gpioBase).toNat / Config.default.gpioStride = 2
      ∨ (a - Config.default.gpioBase).toNat / Config.default.gpioStride = 3 := by
    rw [default_gpioNregs, default_gpioStride] at hwindow
    rw [default_gpioStride]
    omega
  rcases hregister with hk | hk | hk | hk <;>
    simp only [hdecode, decodeGpioWrite, if_pos hwindow, gpioWriteByte, gpioOffset, hk]
  · exact ⟨_, rfl, congrArg Host.Outcome.next (onGpio_active h _ (gpioWriteData Config.default b))⟩
  · exact ⟨_, rfl, congrArg Host.Outcome.next (onGpio_active h _ (gpioWriteDir Config.default b))⟩
  · exact ⟨_, rfl, congrArg Host.Outcome.next (onGpio_active h _ (gpioWriteCtl b))⟩
  · exact ⟨_, rfl, congrArg Host.Outcome.next (onGpio_active h _ gpioWriteRsv)⟩

/-- The row of a byte read in the window answers the byte (R311, 30_encoding.md R108). -/
theorem exec_gpioRead_row (h : s.cart.gpioType ≠ .disabled) (h1 : 0x080000C4 ≤ a) (h2 : a ≤ 0x080000CB) :
    ∃ i, decode Config.default s.ctx (.gpioRead a) = .ok i
      ∧ exec i s = .next (s.start.answer (some (.byte (readByte Config.default s a))) none) := by
  obtain ⟨hoff, -⟩ := window_offset h1 h2
  have hdecode : decode Config.default s.ctx (.gpioRead a) = decodeGpioRead Config.default a := if_neg h
  have hregister : (Fin.ofNat 4 (gpioOffset Config.default a / 2)).val = gpioOffset Config.default a / 2 :=
    Nat.mod_eq_of_lt (by omega)
  have haddr := window_addr h1 h2 _ (by omega) rfl
  rw [← hregister] at haddr
  refine ⟨.gprd (Fin.ofNat 4 (gpioOffset Config.default a / 2)) (gpioOffset Config.default a % 2),
    hdecode.trans (if_pos hoff), ?_⟩
  conv_rhs => rw [← haddr]
  rfl

end

/-- Settles O42: FWR8 and FRD8 in the window are the controller's dispatch, and so are the rows. -/
theorem gpioBytesAreTheirRows : Obligations.GpioBytesAreTheirRows := by
  unfold Obligations.GpioBytesAreTheirRows
  intro s a b h h1 h2
  obtain ⟨iw, hdw, hw⟩ := exec_gpioWrite_row h h1 h2 b
  obtain ⟨ir, hdr, hr⟩ := exec_gpioRead_row h h1 h2
  exact ⟨iw, ir, hdw, (exec_fwr8_window h h1 h2 b).trans hw.symm, hdr, (exec_frd8_readByte s a).trans hr.symm⟩

/-! ## The laws -/

section
variable {i : Instr} {s t : State} {a : Addr}

/-- A read transaction changes no byte of `AS` (40_bus_access.md R140 to R142, R154 to R156). -/
theorem exec_read_mem {n : Nat} (hi : readAccess i = some (a, n)) (h : exec i s = .next t) : t.mem = s.mem := by
  cases i with
  | rd8 | rd16 | rd32 | frd8 | frd16 | frd32 => cases h; rfl
  | _ => simp [readAccess] at hi

/-- A write transaction in the window is its bytes, none of them a byte of `AS` (R322 (b)). -/
theorem exec_window_write_mem {bs : List Byte} (hi : writeAccess i = some (a, bs))
    (hin : ∀ k, k < bs.length → 0x080000C4 ≤ a + BitVec.ofNat 32 k ∧ a + BitVec.ofNat 32 k ≤ 0x080000CB)
    (h : exec i s = .next t) : t.mem = s.mem := by
  obtain ⟨t', hexec, hbytes⟩ := exec_write_plain hi s fun k hk => window_noCntH (hin k hk).1
  obtain rfl : t' = t := by simpa [hexec] using h
  rw [writeBytes_window_mem bs hin hbytes, writeStart_mem]

end

/-- Settles O45: without the flag the window reads as ROM, no access to it reaches `AS`, and every instruction but the two
reports a change (`exec_reports`). -/
theorem gpioLaws : Obligations.GpioLaws := by
  unfold Obligations.GpioLaws
  refine ⟨fun s a hr h1 h2 => ?unreadable, fun i s t a n hi hin h => ?memory, fun i s t h hreset hcart hne => ?reported⟩
  case unreadable => rw [readByte_window_notReadable hr h1 h2, readByte_window_disabled rfl h1 h2]; rfl
  case memory =>
    obtain hread | ⟨bs, hwrite, rfl⟩ := hi
    · exact exec_read_mem hread h
    · exact exec_window_write_mem hwrite hin h
  case reported =>
    obtain ⟨-, hsame | hreport⟩ := exec_reports h hreset hcart
    · exact absurd hsame hne
    · exact hreport

end Sys2Proof.Machine
end

section
/-! PROOF. Host operations (45_host_ops.md): the images loaded, detection, save files, and the round trip of R346. -/

namespace Sys2Proof.Machine

/-! ## Images -/

/-- What a byte of `AS` is after a range of addresses is filled with an image. -/
theorem Memory.read_fill_range (m : Memory) {r : Range} (hr : r.first ≤ r.last) (image : List Byte) (a : Addr) :
    Memory.read (m.fill r.first.toNat r.size image) a.toNat
      = if r.first ≤ a ∧ a ≤ r.last then image.getD (a - r.first).toNat 0 else m.read a.toNat := by
  have hbounds : (r.first.toNat ≤ a.toNat ∧ a.toNat < r.first.toNat + r.size) ↔ (r.first ≤ a ∧ a ≤ r.last) := by
    simp only [BitVec.le_def, Range.size] at hr ⊢
    omega
  simp only [Memory.read_fill, hbounds]
  split_ifs with ha
  · rw [BitVec.toNat_sub_of_le ha.1]
  · rfl

section
variable {image : List Byte}

theorem exec_loadfw (h : image ≠ []) (s : State) :
    exec (.loadfw (.bytes image)) s = .next (loadFirmware Config.default image s) := by
  simp only [exec, execLoadfw, loadfwIn, usable h]

theorem exec_loadcart_tooLarge (h : image ≠ []) (hl : 0x02000000 < image.length) (backup : Option BackupType) (g : GpioType)
    (s : State) : exec (.loadcart (.bytes image) backup g) s = .refused .imageTooLarge := by
  simp only [exec, execLoadcart, loadcartIn, usable h, default_romMax, gt_iff_lt, if_pos hl]

theorem loadFirmware_asByte (s : State) (a : Addr) : (loadFirmware Config.default image s).asByte a
    = if a ≤ 0x00003FFF then image.getD a.toNat 0 else s.asByte a := by
  refine (Memory.read_fill_range s.mem (r := Config.default.bios) (by decide) image a).trans ?_
  simp [State.asByte, BitVec.le_def]

theorem loadCartridge_asByte (backup : Option BackupType) (g : GpioType) (s : State) (a : Addr) :
    (loadCartridge Config.default image backup g s).asByte a
      = if 0x08000000 ≤ a ∧ a ≤ 0x0DFFFFFF then image.getD (a - 0x08000000).toNat 0 else s.asByte a :=
  Memory.read_fill_range s.mem (r := Config.default.rom) (by decide) image a

end

/-- Settles O46: the effect of LOADFW and the bytes of the firmware region. -/
theorem HostOps.loadFirmware : Obligations.LoadFirmware := by
  unfold Obligations.LoadFirmware
  intro s image h
  exact ⟨_, exec_loadfw h s, rfl, loadFirmware_asByte s⟩

/-- Settles O47: the effect of LOADCART and the bytes of the ROM region, or the refusal of a longer image. -/
theorem HostOps.loadCartridge : Obligations.LoadCartridge := by
  unfold Obligations.LoadCartridge
  intro s image backup g h
  refine ⟨fun hl => ⟨_, exec_loadcart h hl backup g s, ?_, loadCartridge_asByte backup g s⟩,
    fun hl => exec_loadcart_tooLarge h hl backup g s⟩
  cases backup <;> rfl

/-! ## Detection -/

section
variable {image : List Byte}

theorem detect_cons (c : Config) (b : Byte) (bs : List Byte) :
    detect c (b :: bs) = (signatureAt c (b :: bs)).getD (detect c bs) := by
  rw [detect]
  cases signatureAt c (b :: bs) <;> rfl

theorem ne_nil_of_mem_sigTable : ∀ q ∈ sigTable, q.1 ≠ [] := by decide

/-- No signature at any offset: the default of R345. -/
theorem detect_noSignature (h : ∀ p, ∀ q ∈ sigTable, ¬ q.1 <+: image.drop p) : detect Config.default image = .sram := by
  induction image with
  | nil => rfl
  | cons b bs ih =>
    rw [detect_cons, sig_none (bytes := b :: bs) (h 0)]
    exact ih fun p => h (p + 1)

/-- The signature at the lowest offset decides, whatever stands behind it. -/
theorem detect_lowestSignature {p : Nat} {q : List Byte × BackupType} (hq : q ∈ sigTable) (hat : q.1 <+: image.drop p)
    (hlow : ∀ p', p' < p → ∀ q' ∈ sigTable, ¬ q'.1 <+: image.drop p') : detect Config.default image = q.2 := by
  induction image generalizing p with
  | nil =>
    rw [List.drop_nil] at hat
    exact absurd (List.prefix_nil.mp hat) (ne_nil_of_mem_sigTable q hq)
  | cons b bs ih =>
    cases p with
    | zero => rw [detect_cons, sig_some (bytes := b :: bs) hq hat, Option.getD_some]
    | succ p =>
      rw [detect_cons, sig_none (bytes := b :: bs) (hlow 0 p.succ_pos)]
      exact ih hat fun p' hp' => hlow (p' + 1) (Nat.succ_lt_succ hp')

end

/-- Settles O49: by induction on the image, whose tails are searched in turn. -/
theorem detectionTakesLowestSignature : Obligations.DetectionTakesLowestSignature := by
  unfold Obligations.DetectionTakesLowestSignature
  intro image sigs hsigs
  obtain rfl : sigs = sigTable := hsigs
  exact ⟨detect_noSignature, fun p q hq hat hlow => detect_lowestSignature hq hat hlow⟩

/-! ## Save files -/

section
variable {c : Config} {s : State} (file : List Byte)

theorem loadBackup_none (h : s.cart.backupType = .none) : loadBackup c file s = s.start.hostResult .ok := by
  simp only [loadBackup, h]

theorem loadBackup_eeprom (h : s.cart.backupType = .eeprom) : loadBackup c file s =
    (s.start.setEe { s.ee with
      size := fileEeSize c file.length
      sizeLock := true
      data := s.ee.data.fill 0 (eeBytes c (fileEeSize c file.length)) file }).hostResult .ok := by
  simp only [loadBackup, h]

theorem loadBackup_flash64 (h : s.cart.backupType = .flash64) : loadBackup c file s =
    (s.start.setFl { s.fl with data0 := s.fl.data0.fill 0 c.flBankSize file }).hostResult .ok := by
  simp only [loadBackup, h]

theorem loadBackup_flash128 (h : s.cart.backupType = .flash128) : loadBackup c file s =
    (s.start.setFl { s.fl with
      data0 := s.fl.data0.fill 0 c.flBankSize file
      data1 := s.fl.data1.fill 0 c.flBankSize (file.drop c.flBankSize) }).hostResult .ok := by
  simp only [loadBackup, h]

theorem loadBackup_sram (h : s.cart.backupType = .sram) : loadBackup c file s =
    (s.start.setSram (s.sram.fill 0 c.sramSize file)).hostResult .ok := by
  simp only [loadBackup, h]

/-- A file put into a store from its first byte on. -/
theorem Memory.read_fill_zero (m : Memory) (n o : Nat) :
    Memory.read (m.fill 0 n file) o = if o < n then file.getD o 0 else m.read o := by
  simp [Memory.read_fill]

theorem fileEeSize_default (n : Nat) : fileEeSize Config.default n = if 8192 ≤ n then .large else .small := by
  rw [fileEeSize, default_eeLarge]

theorem eeBytes_fileEeSize (n : Nat) :
    eeBytes Config.default (fileEeSize Config.default n) = if 8192 ≤ n then 8192 else 512 := by
  rw [fileEeSize_default]
  split_ifs
  · exact default_eeLarge
  · exact default_eeSmall

end

/-- Settles O50: LOADBKP by backup type, each store as it reads after the fill. -/
theorem loadBackupFillsActiveStore : Obligations.LoadBackupFillsActiveStore := by
  unfold Obligations.LoadBackupFillsActiveStore
  intro s file
  refine ⟨loadBackup Config.default file s, rfl, ?none, ?eeprom, ?flash64, ?flash128, ?sram⟩
  case none => exact loadBackup_none file
  case eeprom =>
    intro h
    rw [loadBackup_eeprom file h, ← fileEeSize_default, ← eeBytes_fileEeSize]
    exact ⟨rfl, Memory.read_fill_zero file s.ee.data _⟩
  case flash64 =>
    intro h
    rw [loadBackup_flash64 file h]
    exact ⟨rfl, fun o ho => (Memory.read_fill_zero file s.fl.data0 _ o).trans (if_pos ho)⟩
  case flash128 =>
    intro h
    rw [loadBackup_flash128 file h]
    refine ⟨rfl, fun o ho => ⟨(Memory.read_fill_zero file s.fl.data0 _ o).trans (if_pos ho), ?_⟩⟩
    rw [← getD_drop]
    exact (Memory.read_fill_zero (file.drop 0x10000) s.fl.data1 _ o).trans (if_pos ho)
  case sram =>
    intro h
    rw [loadBackup_sram file h]
    exact ⟨rfl, Memory.read_fill_zero file s.sram _⟩

/-! ## The round trip -/

section
variable {s : State} {o : Nat}

theorem savedBytes_eeprom (h : s.cart.backupType = .eeprom) (ho : o < eeBytes Config.default s.ee.size) :
    (savedBytes Config.default s).getD o 0 = s.ee.data.read o := by
  simp only [savedBytes, h]
  exact getD_dump_lt s.ee.data _ o ho

theorem savedBytes_flash64 (h : s.cart.backupType = .flash64) (ho : o < 0x10000) :
    (savedBytes Config.default s).getD o 0 = s.fl.data0.read o := by
  simp only [savedBytes, h]
  exact getD_dump_lt s.fl.data0 _ o ho

theorem savedBytes_flash128_bank0 (h : s.cart.backupType = .flash128) (ho : o < 0x10000) :
    (savedBytes Config.default s).getD o 0 = s.fl.data0.read o := by
  simp only [savedBytes, h, default_flBankSize]
  rw [List.getD_append _ _ _ _ (by rwa [Memory.dump_length])]
  exact getD_dump_lt s.fl.data0 _ o ho

theorem savedBytes_flash128_bank1 (h : s.cart.backupType = .flash128) (ho : o < 0x10000) :
    (savedBytes Config.default s).getD (0x10000 + o) 0 = s.fl.data1.read o := by
  simp only [savedBytes, h, default_flBankSize]
  rw [List.getD_append_right _ _ _ _ (by rw [Memory.dump_length]; omega), Memory.dump_length, Nat.add_sub_cancel_left]
  exact getD_dump_lt s.fl.data1 _ o ho

theorem savedBytes_sram (h : s.cart.backupType = .sram) (ho : o < 0x8000) :
    (savedBytes Config.default s).getD o 0 = s.sram.read o := by
  simp only [savedBytes, h]
  exact getD_dump_lt s.sram _ o ho

/-- The length of the saved file selects the EEPROM size it was saved from (R346). -/
theorem fileEeSize_savedBytes (h : s.cart.backupType = .eeprom) :
    fileEeSize Config.default (savedBytes Config.default s).length = s.ee.size := by
  simp only [savedBytes, h, Memory.dump_length, fileEeSize_default]
  cases s.ee.size <;> rfl

theorem execAll_pair {i j : Instr} {t u : State} (hi : exec i s = .next t) (hj : exec j t = .next u) :
    execAll [i, j] s = .next u := by
  simp only [execAll, hi, hj]

end

/-- Settles O51: what LOADBKP leaves in the store (O50) at the bytes of the saved file. -/
theorem saveLoadRoundTrip : Obligations.SaveLoadRoundTrip := by
  unfold Obligations.SaveLoadRoundTrip
  intro s
  refine ⟨savedBytes Config.default s, rfl, savedBytes_length s, fun s' image g himage hlen => ?_⟩
  obtain ⟨t, hload, -, heeprom, hflash64, hflash128, hsram⟩ := loadBackupFillsActiveStore
    (loadCartridge Config.default image (some s.cart.backupType) g s') (savedBytes Config.default s)
  refine ⟨t, execAll_pair (exec_loadcart himage hlen _ g s') hload, ?eeprom, ?flash64, ?flash128, ?sram⟩
  case eeprom =>
    intro h
    obtain ⟨hframe, hread⟩ := heeprom h
    rw [← fileEeSize_default, fileEeSize_savedBytes h] at hframe
    refine ⟨congrArg (·.ee.size) hframe, fun o ho => ?_⟩
    have hrange : o < eeBytes Config.default s.ee.size := ho
    rw [hread, ← eeBytes_fileEeSize, fileEeSize_savedBytes h, if_pos hrange, savedBytes_eeprom h hrange]
  case flash64 =>
    intro h o ho
    rw [(hflash64 h).2 o ho, savedBytes_flash64 h ho]
  case flash128 =>
    intro h o ho
    obtain ⟨-, hread⟩ := hflash128 h
    obtain ⟨hbank0, hbank1⟩ := hread o ho
    exact ⟨hbank0.trans (savedBytes_flash128_bank0 h ho), hbank1.trans (savedBytes_flash128_bank1 h ho)⟩
  case sram =>
    intro h o ho
    rw [(hsram h).2 o, if_pos ho, savedBytes_sram h ho]

end Sys2Proof.Machine
end

section
/-! PROOF. The ends of an operation that are no normal completion (60_exceptions.md): the three refusals and who can meet each, and the two host errors. -/

namespace Sys2Proof.Machine

/-! ## Refusals -/

section
variable {i : Instr} {s : State} {r : Refusal}

/-- Whoever can arm a channel can start its run: the pass follows the commit (40_bus_access.md R152). -/
theorem mayRunDma_of_mayArm (h : mayArm i = true) : mayRunDma i = true := by
  cases i with
  | wr8 _ _ | wr16 _ _ | wr32 _ _ | fwr8 _ _ | fwr16 _ _ | fwr32 _ _ | dmaarm _ _ => rfl
  | _ => cases h

theorem exec_refused_of_mayArm (h : exec i s = .refused r) (ha : mayArm i = true) :
    r = .sac3 ∨ r = .dmaWritesDmaRegisters := by
  cases i with
  | wr8 _ _ | wr16 _ _ | wr32 _ _ | fwr8 _ _ | fwr16 _ _ | fwr32 _ _ =>
    rw [exec_write rfl] at h
    exact writeTransaction_refused (toOutcome_refused h)
  | dmaarm _ _ => exact regCommit_refused (toOutcome_refused h)
  | _ => cases ha

/-- Runs that follow no arming: only a unit into the register block is refused (93_implementation_defined.md U3). -/
theorem exec_refused_of_not_mayArm (h : exec i s = .refused r) (hm : mayRunDma i = true) (ha : mayArm i = false) :
    r = .dmaWritesDmaRegisters := by
  cases i with
  | vblank | hblank | fifoA | fifoB | dmatick => exact dmaService_refused (toOutcome_refused h)
  | forcedma _ => exact forceDma_refused (toOutcome_refused h)
  | dmaoff ch f =>
    rw [exec_dmaoff] at h
    exact dmaService_refused (toOutcome_refused h)
  | wr8 _ _ | wr16 _ _ | wr32 _ _ | fwr8 _ _ | fwr16 _ _ | fwr32 _ _ | dmaarm _ _ => cases ha
  | _ => cases hm

theorem usableImage_eq_some {image : ImageArg} {bytes : List Byte} (h : usableImage image = some bytes) :
    image = .bytes bytes := by
  unfold usableImage at h
  split at h <;> cases h
  rfl

theorem loadcartIn_refused {c : Config} {image : ImageArg} {backup : Option BackupType} {g : GpioType}
    (h : loadcartIn c image backup g s = .refused r) :
    r = .imageTooLarge ∧ ∃ bytes, image = .bytes bytes ∧ c.romMax < bytes.length := by
  unfold loadcartIn at h
  split at h
  · cases h
  · next bytes husable =>
    split at h <;> cases h
    exact ⟨rfl, bytes, usableImage_eq_some husable, ‹_›⟩

/-- What starts no run and loads no cartridge is never refused. -/
theorem exec_completes_of_not_mayRunDma (hm : mayRunDma i = false) (hcart : ∀ m b g, i ≠ .loadcart m b g) (s : State) :
    ∃ t, exec i s = .next t := by
  cases i with
  | loadcart m b g => exact absurd rfl (hcart m b g)
  | loadfw image =>
    simp only [exec, execLoadfw, loadfwIn]
    split <;> exact ⟨_, rfl⟩
  | loadbkp file => cases file <;> exact ⟨_, rfl⟩
  | savebkp sink => cases sink <;> exact ⟨_, rfl⟩
  | wr8 _ _ | wr16 _ _ | wr32 _ _ | fwr8 _ _ | fwr16 _ _ | fwr32 _ _ | vblank | hblank | fifoA | fifoB | dmatick
  | forcedma _ | dmaarm _ _ | dmaoff _ _ => cases hm
  | _ => exact ⟨_, rfl⟩

end

/-- Settles O59: by whether the instruction can arm a channel, can only start a run, or loads a cartridge; no other is refused. -/
theorem onlyThreeRefusals : Obligations.OnlyThreeRefusals := by
  unfold Obligations.OnlyThreeRefusals
  intro i s r h
  by_cases ha : mayArm i = true
  · exact (exec_refused_of_mayArm h ha).imp (⟨·, ha⟩) fun hr => .inl ⟨hr, mayRunDma_of_mayArm ha⟩
  by_cases hm : mayRunDma i = true
  · exact .inr (.inl ⟨exec_refused_of_not_mayArm h hm (by simpa using ha), hm⟩)
  by_cases hcart : ∃ m b g, i = .loadcart m b g
  · obtain ⟨m, b, g, rfl⟩ := hcart
    obtain ⟨hr, bytes, rfl, hlen⟩ := loadcartIn_refused (c := Config.default) h
    rw [default_romMax] at hlen
    exact .inr (.inr ⟨hr, bytes, b, g, rfl, hlen⟩)
  · obtain ⟨t, ht⟩ := exec_completes_of_not_mayRunDma (by simpa using hm) (fun m b g hi => hcart ⟨m, b, g, hi⟩) s
    cases ht.symm.trans h

/-! ## Host errors -/

section
variable {image : ImageArg}

theorem exec_loadfw_unusable (h : usableImage image = none) (s : State) :
    exec (.loadfw image) s = .next (raiseHostError .loadError s) := by
  simp only [exec, execLoadfw, loadfwIn, h]

theorem exec_loadcart_unusable (h : usableImage image = none) (backup : Option BackupType) (g : GpioType) (s : State) :
    exec (.loadcart image backup g) s = .next (raiseHostError .loadError s) := by
  simp only [exec, execLoadcart, loadcartIn, h]

theorem exec_loadbkp_unreadable (s : State) :
    exec (.loadbkp .unreadable) s = .next (raiseHostError .persistenceError s) := rfl

theorem exec_savebkp_unwritable (s : State) :
    exec (.savebkp .unwritable) s = .next (raiseHostError .persistenceError s) := rfl

theorem exec_loadbkp_missing (s : State) : exec (.loadbkp .missing) s = .next (s.start.hostResult .ok) := rfl

end

/-- Settles O48: an image that is not usable raises LoadError, a file or sink that fails PersistenceError, and raising changes
the outputs only. -/
theorem hostErrorsChangeNothing : Obligations.HostErrorsChangeNothing := by
  unfold Obligations.HostErrorsChangeNothing
  exact fun s backup g => ⟨exec_loadfw_unusable rfl s, exec_loadfw_unusable rfl s, exec_loadcart_unusable rfl backup g s,
    exec_loadcart_unusable rfl backup g s, exec_loadbkp_unreadable s, exec_savebkp_unwritable s, exec_loadbkp_missing s⟩

end Sys2Proof.Machine
end

section
/-! PROOF. RESET and the initial state (70_reset_and_hazards.md R400, R401): what RESET clears and keeps, that RESET of the empty configuration is the initial state, and that this state meets the invariants of 10_state.md. -/

namespace Sys2Proof.Machine

@[simp] theorem Channels.get_reset (ch : Chan) : Channels.reset.get ch = .reset := by
  match ch with
  | 0 | 1 | 2 | 3 => rfl

/-! ## What RESET clears -/

section
variable {s : State} {a : Addr}

/-- The bytes of BIOS are the ones a loaded firmware keeps. -/
theorem resetBlock_asByte_bios (h : a ≤ 0x00003FFF) :
    (resetBlock Config.default s).asByte a = if s.cart.biosLoaded = true then s.asByte a else 0 := by
  refine (resetMem_read s.cart.biosLoaded s.mem a).trans ?_
  rw [(region_bios a).mpr h]
  cases s.cart.biosLoaded <;> rfl

theorem resetBlock_asByte_of_not_bios (hstore : isStoreTag (regionOf Config.default a) = true) (h : ¬ a ≤ 0x00003FFF) :
    (resetBlock Config.default s).asByte a = 0 :=
  (resetMem_read s.cart.biosLoaded s.mem a).trans <|
    if_pos ⟨hstore, fun ⟨_, hbios⟩ => h ((region_bios a).mp hbios)⟩

end

/-- Settles O52: the engines, the channels and `tc.valid` as RESET writes them, and the bytes of `AS` by whether they are BIOS. -/
theorem resetClearsTheBlock : Obligations.ResetClearsTheBlock := by
  unfold Obligations.ResetClearsTheBlock
  exact fun s => ⟨resetBlock Config.default s, rfl, rfl, rfl, Channels.get_reset,
    fun _ => resetBlock_asByte_bios, fun _ => resetBlock_asByte_of_not_bios⟩

/-! ## The initial state -/

/-- With no firmware loaded RESET drops every byte of `AS`. -/
theorem resetMem_of_within {c : Config} {m : Memory} (h : m.within (inAddressSpace c) = true) : resetMem c false m = [] := by
  refine List.filter_eq_nil_iff.mpr fun e he => ?_
  have hin : inAddressSpace c e.1 = true := List.all_eq_true.mp h e he
  simp [resetZeroes, hin]

theorem Eeprom.reset_eq_fresh {ee : Eeprom} (hdata : ee.data = []) (hsize : ee.size = .small) (hlock : ee.sizeLock = false) :
    ee.reset = .fresh := by
  simp only [Eeprom.reset, Eeprom.fresh, hdata, hsize, hlock]

theorem Flash.reset_eq_fresh {fl : Flash} (hdata0 : fl.data0 = []) (hdata1 : fl.data1 = []) : fl.reset = .fresh := by
  simp only [Flash.reset, Flash.fresh, hdata0, hdata1]

/-- Settles O53: each component of the state RESET leaves is the initial one: `AS` and the protocol state because RESET clears
them, the stores and the configuration because they were empty. -/
theorem initialStateIsResetOfEmpty : Obligations.InitialStateIsResetOfEmpty := by
  unfold Obligations.InitialStateIsResetOfEmpty
  intro s t hcart hdata hsize hlock hdata0 hdata1 hsram hmem h
  obtain rfl : resetBlock Config.default s = t := Host.Outcome.next.inj h
  have hee : s.ee.reset = .fresh := Eeprom.reset_eq_fresh hdata hsize hlock
  have hfl : s.fl.reset = .fresh := Flash.reset_eq_fresh hdata0 hdata1
  simp only [resetBlock, State.start, State.setOut, hcart, resetMem_of_within hmem, hee, hfl, hsram]
  rfl

/-! ## The invariants of the initial state -/

theorem reset_storesOk : State.reset.storesOk Config.default = true :=
  (storesOk_iff _).mpr ⟨Memory.okIn_nil _, Memory.okIn_nil _, Memory.okIn_nil _, Memory.okIn_nil _, Memory.okIn_nil _⟩

/-- A channel as RESET leaves it fits a `CNT_H` that reads 0. -/
theorem chanOk_of_reset {s : State} {ch : Chan} (hchan : s.chan ch = .reset) (hcntH : cntHOf Config.default s ch = 0) :
    s.chanOk Config.default ch := by
  unfold State.chanOk
  rw [hchan, hcntH]
  decide

theorem cntHOf_reset (ch : Chan) : cntHOf Config.default State.reset ch = 0 := by
  show (0 : Byte) ++ (0 : Byte) = (0 : Half)
  decide

theorem reset_dmaOk : State.reset.dmaOk Config.default := fun ch => chanOk_of_reset (Channels.get_reset ch) (cntHOf_reset ch)

theorem reset_enginesOk : State.reset.enginesOk Config.default :=
  ⟨rfl, Flash.ok_fresh _, gpio_fresh_ok, fun _ => rfl, fun _ => rfl, fun _ => rfl, fun _ => rfl⟩

/-- Settles O57: empty stores, Idle channels over a zero `CNT_H`, and fresh engines. -/
theorem resetStateMeetsInvariants : Obligations.ResetStateMeetsInvariants := by
  unfold Obligations.ResetStateMeetsInvariants
  exact ⟨reset_storesOk, reset_dmaOk, reset_enginesOk⟩

end Sys2Proof.Machine
end
